-- ==== Sys2Proof/Word.lean ====
section
/-! DEFINITION. The part's words, bytes and gallery times (00_scope.md 3.1 and 3.2). -/

namespace Sys2Proof

/-- A word is 16 bits (00_scope.md 3.1). -/
abbrev Word := BitVec 16

/-- An 8-bit field or character. -/
abbrev Byte := BitVec 8

/-- A gallery time in milliseconds, modulo 2^32 (00_scope.md 3.2). -/
abbrev Time := BitVec 32

/-- A 32-bit word pair's value. -/
abbrev Long := BitVec 32

end Sys2Proof
end

