-- ==== Sys2Proof/Syntax.lean ====
section
/-! DEFINITION. The commands the part takes: one constructor for each row of spec/opcode_table.json.
The table gives the rows no bits; an operand is what the row's own words need to name (a register's written word, an address,
a line, a channel, an input). Rows for orders carry none: they act on the order that TAKE has read from its slot (R153). -/

namespace Sys2Proof

/-- The inputs a motion channel watches (4.1). -/
inductive ChannelPin where
  | home
  | limitLo
  | limitHi
  | flt
  deriving DecidableEq, Repr

/-- The commands (the rows of spec/opcode_table.json, in its order). -/
inductive Instr where
  | powerReset
  | pinReset
  | resetHoldEnd
  | clearingDone
  /-- A ZCTL write of `v` with RUN set (R178, R185). -/
  | setRun (v : Word)
  /-- A ZCTL write of `v` with RUN clear (R178, R185). -/
  | clearRun (v : Word)
  /-- A ZCTL write of `v` with SOFT_RESET written 1 (R183, R185). -/
  | softReset (v : Word)
  /-- A ZCTL write of `v`, seen for the four enables it replaces (R185, R186). -/
  | setAttentionEnables (v : Word)
  /-- A ZCTL write of `v`, seen for the CAPTURE_LAST it replaces (R185, R190). -/
  | setCaptureLast (v : Word)
  /-- A ZATN write of `v` (R186). -/
  | clearAttentionCause (v : Word)
  /-- A ZECNT write of `v` (R190). -/
  | clearErrorCounts (v : Word)
  /-- A ZEINJ write of `v` with ARM set (R193). -/
  | armInjection (v : Word)
  /-- A ZEINJ write of `v` with ARM clear (R193). -/
  | disarmInjection (v : Word)
  /-- A host write of `v` at a byte address outside exhibit memory whose write is discarded (R175). -/
  | discardedRegisterWrite (addr : Word) (v : Word)
  /-- A host read at a byte address of the window (R175). -/
  | hostRead (addr : Word)
  /-- A host write at a byte address of the window (R175). -/
  | hostWrite (addr : Word) (v : Word)
  /-- A host write of POSTED, with `high` in the high byte, to w0 of a slot (R150). -/
  | slotPostedWrite (slot : BitVec 6) (high : Byte)
  /-- A host write of FREE, with `high` in the high byte, to w0 of a slot (R150). -/
  | slotFreeWrite (slot : BitVec 6) (high : Byte)
  /-- A host write of `v` to J_EMPTY (R169). -/
  | jEmptyWrite (v : Word)
  /-- A host write of `v` to HEARTBEAT (R146). -/
  | heartbeatWrite (v : Word)
  | checkingComplete
  | stoppingEnd
  | take
  | move
  | home
  | park
  | stopControlled
  | stopCut
  | release
  | applyInputs
  | applyGuards
  | applyBindings
  | applyChannel
  | setMode
  | ack
  | orderAlert
  | lamp
  | lineTest
  /-- The STOP CONTROLLED of a slot, waiting in the hand table, ends (R158). -/
  | stopWaitEnd (slot : BitVec 6)
  | lineTestBegin (line : Fin 4)
  | lineTestEnd (line : Fin 4)
  | replyWindowOpen (line : Fin 4)
  /-- A character has been received through its stop bit: its data, whether its stop bit was low, its mark bit (R4). -/
  | characterReceived (line : Fin 4) (data : Byte) (framing : Bool) (mark : Bool)
  | replyClose (line : Fin 4)
  | replyMiss (line : Fin 4)
  | cycleWaitExpiry (line : Fin 4)
  | lampExpiry (input : Byte)
  | holdTimerExpiry (input : Byte)
  | repeatTimerExpiry (input : Byte)
  | stuckTimerExpiry (input : Byte)
  | suspensionExpiry (input : Byte)
  | lockoutExpiry (entry : Byte)
  | motionTick
  /-- HOME becomes active `us` microseconds into the present tick (R68, R85). -/
  | homeActive (channel : Fin 8) (us : Nat)
  | homeSearchExhausted (channel : Fin 8)
  /-- LIMIT_HI (`high`) or LIMIT_LO becomes active `us` microseconds into the present tick (R76, R85). -/
  | limitActive (channel : Fin 8) (high : Bool) (us : Nat)
  /-- FLT becomes active `us` microseconds into the present tick (R75, R85). -/
  | fltActive (channel : Fin 8) (us : Nat)
  /-- A channel input's new level has held for 50 µs and counts (R59). -/
  | channelInputChange (channel : Fin 8) (pin : ChannelPin) (level : Bool)
  | statusRefresh (channel : Fin 8)
  /-- A guard pin reaches a level (R105). -/
  | guardPinChange (guard : Fin 8) (level : Bool)
  | guardFilterExpiry (guard : Fin 8)
  | clearTimerExpiry (guard : Fin 8)
  | escalation (index : Fin 32)
  | modeRequest
  | restTimerExpiry
  | hostWatchExpiry
  | staleTimerExpiry
  | scrub
  | startBitDetected (line : Fin 4)
  deriving DecidableEq, Repr

end Sys2Proof
end

