-- ==== Sys2Proof/Config.lean ====
section
/-! DEFINITION. What the part fixes: sizes, addresses and intervals that the rules give as numbers.
The spec calls no result undefined and leaves no value to the implementation that the model needs, so there is no free
value here; what the model presumes or chooses stands in notes/assumptions. -/

namespace Sys2Proof.Config

/-- Words of exhibit memory (R175). -/
def memWords : Nat := 24576

/-- First unused byte address (R175). -/
def memBytes : Nat := 0xC000

/-- pq in one step (5.1). -/
def step : Int := 16777216

/-- Half a step in pq (R85). -/
def halfStep : Int := 8388608

/-- Entries of a line's receive FIFO (R4). -/
def fifoDepth : Nat := 16

/-- Entries of a channel's pending queue (R63). -/
def queueDepth : Nat := 4

/-- Spacing of polling cycles in REST and CLOSED, in ms (R14). -/
def cycleSpacing : Nat := 100

/-- Longest time without a status write in motion, in ms (R80). -/
def statusRefresh : Nat := 50

/-- Life of a fallback lamp, in ms (R15). -/
def fallbackMs : Nat := 5000

/-- Entries that may take a turn in one event (R46). -/
def maxTurns : Nat := 4

/-- Signature of a layout block (R177). -/
def signature : Word := 0x5A4C

/-- What ZID reads (R184). -/
def zid : Word := 0x2406

/-- Corrected count at which MEMORY_WEAR is raised (R191). -/
def wearCount : Byte := 16

end Sys2Proof.Config
end

