-- ==== Sys2Proof/Machine/State.lean ====
section
/-! DEFINITION. The part's state: plain data, one home for every piece of state the spec gives the part, and its reset value.
`Part` is the device; `State` is the device and the queue of commands that wait. -/

namespace Sys2Proof.Machine

/-! ### Names and codes -/

/-- Run states (11.4). -/
inductive RunState where
  | clearing | halted | checking | running | stopping | faulted
  deriving DecidableEq, Repr

/-- Kinds of reset (R183). -/
inductive ResetCause where
  | power | pin | soft
  deriving DecidableEq, Repr

/-- Fault codes of ZSTAT, none included (R184). -/
inductive FaultCode where
  | none | signature | version | range | overlap | count | marks | memory | config
  deriving DecidableEq, Repr

/-- Gallery modes (Chapter 8): OPEN is `opened`. -/
inductive Mode where
  | opened | rest | closed | service
  deriving DecidableEq, Repr

/-- Gestures (Chapter 2). -/
inductive Gesture where
  | press | release | hold | repeat
  deriving DecidableEq, Repr

/-- Lamp patterns (1.2). -/
inductive Lamp where
  | off | on | slow | fast
  deriving DecidableEq, Repr

/-- A zone operand or field: one of four, or ALL. -/
inductive Zone where
  | one (z : Fin 4)
  | all
  deriving DecidableEq, Repr

/-- Alert severities (7.1). -/
inductive Severity where
  | info | attend | urgent
  deriving DecidableEq, Repr

/-- Alert codes (7.2). -/
inductive AlertCode where
  | guardTrip | driverFault | limitHit | homeFail | stationLost | lineFail | lineTestFail | keyStuck
  | pressStorm | call | hostSilent | memoryUncorrected | memoryWear | journalGap | orderAlert
  deriving DecidableEq, Repr

/-- Where an alert comes from: a source kind with its number (7.2, 13.9). -/
inductive Source where
  | none
  | guard (g : Fin 8)
  | channel (c : Fin 8)
  | station (l : Fin 4) (a : Nat)
  | line (l : Fin 4)
  | input (i : Nat)
  | region (n : Nat)
  | host (code : Byte)
  deriving DecidableEq, Repr

/-- States of a board entry in use (7.1): OPEN is `opened`. -/
inductive EntryState where
  | opened | lapsed | held
  deriving DecidableEq, Repr

/-- Why an ALERT record is written (R133). -/
inductive AlertCause where
  | raised | merged | reopened | lapsed | acked | removed | evicted | escalated | notBoarded
  deriving DecidableEq, Repr

/-- Agents that read exhibit memory (R189). -/
inductive Agent where
  | host | order | config | layout | scrub
  deriving DecidableEq, Repr

/-- Termination codes (R157). -/
inductive Termination where
  | complete | clamped | limited | stopped | guarded | superseded | faulted | cut | failed | reset
  deriving DecidableEq, Repr

/-- Refusal codes of an order (R156). -/
inductive RefusalCode where
  | badKind | badOperand | notHomed | wrongMode | wrongState | queueFull | channelBusy | badConfig
  | memory | noAlert | lineBusy
  deriving DecidableEq, Repr

/-- Kinds of journal record (R165). -/
inductive RecordKind where
  | pad | press | coalesced | slot | channel | guard | alert | station | mode | memory | gap
  deriving DecidableEq, Repr

/-! ### Exhibit memory -/

/-- How a stored word differs from the data and check bits of the write that made it (R194). -/
inductive Upset where
  | none
  | one (bit : Fin 22)
  | two (bit : Fin 22)
  | address
  deriving DecidableEq, Repr

/-- A stored word: the data of the write that made it, and what an injection altered (R187, R194). -/
structure Cell where
  written : Word
  upset : Upset
  deriving DecidableEq, Repr

/-- What the clearing leaves in every word (R183): data 0x0000 with valid check bits. -/
def Cell.clear : Cell := { written := 0, upset := .none }

/-- Exhibit memory: (word offset, stored word), offsets rising, no entry equal to `Cell.clear`. -/
abbrev Memory := List (Nat × Cell)

/-- ZEINJ's MODE (R193). -/
inductive InjectMode where
  | oneBit | twoBit | address
  deriving DecidableEq, Repr

/-- ZEINJ (R193): `partTarget` is TARGET PART_WRITE. -/
structure Injection where
  armed : Bool
  mode : InjectMode
  bit : Fin 22
  partTarget : Bool
  deriving DecidableEq, Repr

/-- Error capture, counts, injection and the scrubber's position (Chapter 12). -/
structure Protection where
  zeca : BitVec 15
  zeua : BitVec 15
  cv : Bool
  uv : Bool
  corrected : Byte
  uncorrected : BitVec 4
  injection : Injection
  scrubPos : Fin 24576
  deriving DecidableEq, Repr

/-! ### Run control -/

/-- The four attention causes, and the four enables (R185, R186). -/
structure Causes where
  journal : Bool
  alert : Bool
  memerr : Bool
  runstate : Bool
  deriving DecidableEq, Repr

/-- The layout snapshot (R177): bases are word offsets. -/
structure Layout where
  pointers : Nat
  orders : Nat
  slotCount : Nat
  bindings : Nat
  entryCount : Nat
  inputs : Nat
  inputCount : Nat
  guards : Nat
  params : Nat
  status : Nat
  stateMap : Nat
  board : Nat
  journal : Nat
  journalSize : Nat
  trigger : Nat
  highMark : Nat
  lowMark : Nat
  staleTime : Nat
  restTime : Nat
  escalateTime : Nat
  watchWindow : Nat
  silentRest : Bool
  deriving DecidableEq, Repr

/-- Run control's registers (11.4 to 11.6). `hold` is the reset that holds the part, if one does (R183). -/
structure RunControl where
  state : RunState
  hold : Option ResetCause
  run : Bool
  enables : Causes
  captureLast : Bool
  attention : Causes
  resetCause : ResetCause
  faultCode : FaultCode
  layout : Option Layout
  deriving DecidableEq, Repr

/-! ### Orders -/

/-- Shadow states of a slot (9.2). -/
inductive Shadow where
  | idle | queued | inHand | reported
  deriving DecidableEq, Repr

/-- What the part keeps of a slot: its shadow, and the kind and tag read at its take (R149, R161). -/
structure Slot where
  shadow : Shadow
  kind : Byte
  tag : Word
  deriving DecidableEq, Repr

/-- Order kinds (R154). -/
inductive OrderKind where
  | move | home | park | stop | release | apply | setMode | ack | orderAlert | lamp | lineTest
  deriving DecidableEq, Repr

/-- The order being taken, once TAKE has read and checked it (R153, R154). `asked`: a SET_MODE's request waits to be taken (R136). -/
structure Taking where
  slot : Nat
  kind : OrderKind
  target : Byte
  w3 : Word
  w4 : Word
  w5 : Word
  asked : Bool
  deriving DecidableEq, Repr

/-- Bit rates of a line (1.1). -/
inductive BitRate where
  | b38400 | b57600 | b115200
  deriving DecidableEq, Repr

/-- A line record (1.1). -/
structure LineRecord where
  enable : Bool
  stations : Nat
  rate : BitRate
  zone : Fin 4
  deriving DecidableEq, Repr

/-- An input definition (2.1). `attendant` is class ATTENDANT. -/
structure InputDef where
  line : Fin 4
  station : Nat
  key : Fin 8
  attendant : Bool
  active : Bool
  debounce : Nat
  holdTime : Nat
  repeatInterval : Nat
  stuckTime : Nat
  stormLimit : Nat
  stormWindow : Nat
  stormCool : Nat
  wake : Bool
  wakePass : Bool
  alwaysJournal : Bool
  baseLamp : Lamp
  restLamp : Lamp
  zone : Fin 4
  deriving DecidableEq, Repr

/-- What waits in the hand table (R155). -/
inductive HandWork where
  /-- A STOP CONTROLLED: the one channel named (or ALL), the channels not yet counted, the result so far (R158). -/
  | stop (one : Option (Fin 8)) (waiting : List (Fin 8)) (result : Int)
  /-- An APPLY INPUTS with the group it validated (R160). -/
  | applyInputs (lines : Vector LineRecord 4) (defs : List InputDef)
  /-- A LINE_TEST (R17). -/
  | lineTest (line : Fin 4)
  deriving DecidableEq, Repr

/-- An entry of the hand table (R155). -/
structure HandEntry where
  slot : Nat
  work : HandWork
  deriving DecidableEq, Repr

/-- The order taker (Chapter 9). -/
structure Orders where
  slots : List Slot
  takeQueue : List Nat
  taking : Option Taking
  hand : List HandEntry
  deriving DecidableEq, Repr

/-! ### Station lines -/

/-- A character in a receive FIFO with its tags (1.3). -/
structure RxChar where
  data : Byte
  framing : Bool
  mark : Bool
  overrun : Bool
  deriving DecidableEq, Repr

/-- Presence of a station (1.5). -/
inductive Presence where
  | disabled | unknown | present | suspect | absent
  deriving DecidableEq, Repr

/-- A presence record (1.5). -/
structure Station where
  presence : Presence
  failures : BitVec 2
  bad : Byte
  everPresent : Bool
  lost : Bool
  deriving DecidableEq, Repr

/-- A poll frame (1.2). -/
structure PollFrame where
  address : Byte
  lampLo : Byte
  lampHi : Byte
  check : Byte
  deriving DecidableEq, Repr

/-- Where a line's polling stands (R2, R5, R13, R14). -/
inductive Exchange where
  /-- No exchange and none to come by itself. -/
  | idle
  /-- Between cycles, until the 100 ms spacing has passed (R14). -/
  | waiting
  /-- A poll is being transmitted; DE is asserted (R2). -/
  | sending (station : Nat) (frame : PollFrame)
  /-- The receiver is on, no start bit yet; the MISS deadline is pending (R5). -/
  | window (station : Nat)
  /-- The reply is open and a character is being received (R5). -/
  | receiving (station : Nat)
  /-- The reply is open, a stop bit has passed; the close is pending (R5). -/
  | gap (station : Nat)
  deriving DecidableEq, Repr

/-- A line's test (1.8): accepted and waiting to begin, or running. The slot is the order's. -/
inductive LineTest where
  | none
  | accepted (slot : Nat)
  | running (slot : Nat)
  deriving DecidableEq, Repr

/-- A station line controller (Chapter 1). `loop` holds the characters that a running test is still to transmit to itself (R18). -/
structure Line where
  record : LineRecord
  stations : Vector Station 12
  fifo : List RxChar
  overrun : Bool
  exchange : Exchange
  cycleStart : Time
  test : LineTest
  loop : List RxChar
  lineFail : Bool
  deriving DecidableEq, Repr

/-! ### Inputs and bindings -/

/-- Conditioning states (2.3). -/
inductive KeyState where
  | inactive | up | down | held | stuck
  deriving DecidableEq, Repr

/-- Treatments of a down period (2.6). -/
inductive Treatment where
  | delivered | quiet | silent
  deriving DecidableEq, Repr

/-- A commanded lamp pattern (R15). -/
structure LampCommand where
  pattern : Lamp
  expiry : Option Time
  deriving DecidableEq, Repr

/-- A defined input: its applied definition, its conditioning state and its commanded lamp (R15, R23 to R40). -/
structure Input where
  d : InputDef
  state : KeyState
  agree : Nat
  pressTime : Option Time
  holdDue : Option Time
  repeatDue : Option Time
  stuckDue : Option Time
  pressCount : Byte
  suspended : Option Time
  windowStart : Option Time
  stormCount : Byte
  treatment : Option Treatment
  lamp : Option LampCommand
  deriving DecidableEq, Repr

/-- Busy policies (3.5). -/
inductive BusyPolicy where
  | queue | replace | ignore
  deriving DecidableEq, Repr

/-- Actions of a binding with their operands (3.1). -/
inductive Action where
  | moveTo (c : Fin 8) (target : Int) (scale : Nat)
  | runHeld (c : Fin 8) (target : Int) (scale : Nat)
  | stepBy (c : Fin 8) (delta : Int) (scale : Nat)
  | lamp (input : Byte) (pattern : Lamp) (secs : Nat)
  | call (zone : Zone)
  | ackZone (zone : Zone)
  | setMode (mode : Mode)
  deriving DecidableEq, Repr

/-- An enabled binding entry (3.1). -/
structure BindingEntry where
  hostNeeded : Bool
  gesture : Gesture
  modeMask : BitVec 4
  action : Action
  busy : BusyPolicy
  fallback : Lamp
  input : Byte
  lockout : Word
  deriving DecidableEq, Repr

/-- An entry of the applied store (absent when disabled) with its lockout's expiry (R42). -/
structure Binding where
  entry : Option BindingEntry
  lockout : Option Time
  deriving DecidableEq, Repr

/-! ### Motion channels -/

/-- Channel states (4.3). -/
inductive ChanState where
  | unhomed | homing | idle | moving | stopping | held | fault | parked
  deriving DecidableEq, Repr

/-- Phases of a profile (R83). -/
inductive Phase where
  | none | accel | cruise | slow | decel | stoppingDecel
  deriving DecidableEq, Repr

/-- Who parked a channel (4.5). -/
inductive ParkCause where
  | host | mode
  deriving DecidableEq, Repr

/-- Causes of FAULT (4.7). -/
inductive ChanFault where
  | driver | limit | homeFail
  deriving DecidableEq, Repr

/-- Kinds of move (4.3). -/
inductive MoveKind where
  | move | home | park
  deriving DecidableEq, Repr

/-- Sources of a move (4.3): `mark` is the current-store mark (R50). -/
inductive MoveSource where
  | order (slot : Nat)
  | binding (entry : Nat) (mark : Bool)
  | mode
  deriving DecidableEq, Repr

/-- Targets of a move (4.3). -/
inductive MoveTarget where
  | absolute (s : Int)
  | relative (d : Int)
  | absent
  deriving DecidableEq, Repr

/-- A move (4.3). -/
structure Move where
  kind : MoveKind
  source : MoveSource
  target : MoveTarget
  scale : Nat
  deriving DecidableEq, Repr

/-- Applied channel parameters (4.2). -/
structure Params where
  enable : Bool
  maxSpeed : Nat
  startSpeed : Nat
  accel : Nat
  decel : Nat
  guardDecel : Nat
  softMin : Int
  softMax : Int
  homeOffset : Int
  parkPosition : Int
  homeSpeed : Nat
  homeSearch : Nat
  zone : Fin 4
  deriving DecidableEq, Repr

/-- Which deceleration a stop uses: B (decel) or G (guard_decel) (R95). -/
inductive StopRate where
  | b | g
  deriving DecidableEq, Repr

/-- The profile registers (R83), in pq and vq. `positive` is the direction register; `tickV` is the v that the latest tick left, which
the status record shows (R86). -/
structure Profile where
  p : Int
  v : Nat
  tickV : Nat
  positive : Bool
  phase : Phase
  latch : Bool
  target : Option Int
  clamped : Bool
  cap : Option Nat
  stopRate : Option StopRate
  stopPoint : Option Int
  overrun : Bool
  deriving DecidableEq, Repr

/-- Counted levels of a channel's inputs (R59): true is active. -/
structure ChannelPins where
  home : Bool
  limitLo : Bool
  limitHi : Bool
  flt : Bool
  deriving DecidableEq, Repr

/-- Faults in force (4.7). -/
structure FaultSet where
  driver : Bool
  limit : Bool
  homeFail : Bool
  deriving DecidableEq, Repr

/-- A motion channel (Chapters 4 and 5). `tickS` is S when its latest tick began, and `unissued` counts the pulses of that tick that
have not been issued yet (R85). -/
structure Channel where
  params : Option Params
  state : ChanState
  current : Option Move
  queue : List Move
  lost : Bool
  parkCause : Option ParkCause
  faults : FaultSet
  faultCode : Option ChanFault
  pendingTerm : Option Termination
  heldPark : Option ParkCause
  heldMove : Option Byte
  prof : Profile
  search : Nat
  tickS : Int
  unissued : Nat
  pins : ChannelPins
  en : Bool
  dir : Bool
  moveCount : Word
  lastWrite : Time
  deriving DecidableEq, Repr

/-! ### Guards, board, mode, journal -/

/-- A guard record (6.1): `cut` is action CUT, `attended` is rearm ATTENDED, bit n of the mask is channel n. -/
structure GuardRecord where
  enable : Bool
  activeHigh : Bool
  cut : Bool
  attended : Bool
  zone : Fin 4
  mask : BitVec 8
  filter : Nat
  clearTime : Nat
  deriving DecidableEq, Repr

/-- Guard states (R102). -/
inductive GuardState where
  | clear | tripped | settling | awaitAck
  deriving DecidableEq, Repr

/-- A guard (R102) and the level of its pin. -/
structure Guard where
  record : GuardRecord
  state : GuardState
  filteredOpen : Bool
  filterDue : Option Time
  clearDue : Option Time
  acked : Bool
  boarded : Bool
  pin : Bool
  deriving DecidableEq, Repr

/-- A board entry in use (7.1). -/
structure Entry where
  code : AlertCode
  source : Source
  zone : Zone
  severity : Severity
  state : EntryState
  escalated : Bool
  count : Byte
  first : Time
  last : Time
  deriving DecidableEq, Repr

/-- The alert board (7.1): `made` lists the indices in use, the entry made earliest first. -/
structure Board where
  entries : Vector (Option Entry) 32
  made : List (Fin 32)
  overflow : Bool
  deriving DecidableEq, Repr

/-- Causes of a mode request (8.2); an order's request names its slot. -/
inductive ModeCause where
  | order (slot : Nat)
  | binding
  | wake
  | restTimer
  | silent
  deriving DecidableEq, Repr

/-- A mode request (8.2). -/
structure ModeRequest where
  mode : Mode
  cause : ModeCause
  deriving DecidableEq, Repr

/-- The mode controller (Chapter 8): `requests` are those made and not yet taken (R135). -/
structure Modes where
  mode : Mode
  settling : Bool
  restDue : Option Time
  silent : Bool
  watchDue : Option Time
  requests : List ModeRequest
  deriving DecidableEq, Repr

/-- The journal writer (10.1): `coalesced` lists the nonzero coalesce counts by input, inputs rising. `gapRaises` counts the
JOURNAL_GAP raises of R167 that wait for the raise in progress to be whole (R116); it is 0 between commands. -/
structure Journal where
  fill : Nat
  empty : Nat
  throttled : Bool
  coalesced : List (Nat × Word)
  gap : Word
  gapRaises : Nat
  staleDue : Option Time
  deriving DecidableEq, Repr

/-! ### The part and the state -/

/-- Where the part stands within the present millisecond of gallery time: whether its motion tick is still owed, how many microseconds
of it have passed (R85), and whether its scrub has been made (R192). -/
structure Clock where
  tickOwed : Bool
  us : Nat
  scrubbed : Bool
  deriving DecidableEq, Repr

/-- The device: everything but the queue of waiting commands. -/
structure Part where
  run : RunControl
  time : Time
  clock : Clock
  hostData : Word
  mem : Memory
  prot : Protection
  orders : Orders
  lines : Vector Line 4
  inputs : List Input
  bindings : List Binding
  channels : Vector Channel 8
  guards : Vector Guard 8
  board : Board
  modes : Modes
  journal : Journal
  deriving DecidableEq, Repr

/-- The machine's state: the device, and the commands that wait, first in, first out. -/
structure State where
  part : Part
  pending : List Instr
  deriving DecidableEq, Repr

/-- No command of this part stops with a fault: what goes wrong in the part is state (R179, R77, R156). The type has no
constructor, so that none can be raised. -/
inductive Fault where
  deriving DecidableEq, Repr

/-- Why a command is refused. -/
inductive Refusal where
  /-- Raised by an arm of `exec` for a row that has no meaning yet; safe, since the run ends there. -/
  | notModelled (mnemonic : String)
  deriving DecidableEq, Repr

/-! ### Field updates -/

/-- Replace run control. -/
def Part.setRun (p : Part) (x : RunControl) : Part := { p with run := x }
/-- Replace gallery time. -/
def Part.setTime (p : Part) (x : Time) : Part := { p with time := x }
/-- Replace the position within the millisecond. -/
def Part.setClock (p : Part) (x : Clock) : Part := { p with clock := x }
/-- Replace the word the last host read returned. -/
def Part.setHostData (p : Part) (x : Word) : Part := { p with hostData := x }
/-- Replace exhibit memory. -/
def Part.setMem (p : Part) (x : Memory) : Part := { p with mem := x }
/-- Replace the protection registers. -/
def Part.setProt (p : Part) (x : Protection) : Part := { p with prot := x }
/-- Replace the order taker's state. -/
def Part.setOrders (p : Part) (x : Orders) : Part := { p with orders := x }
/-- Replace the line controllers. -/
def Part.setLines (p : Part) (x : Vector Line 4) : Part := { p with lines := x }
/-- Replace the inputs. -/
def Part.setInputs (p : Part) (x : List Input) : Part := { p with inputs := x }
/-- Replace the binding store. -/
def Part.setBindings (p : Part) (x : List Binding) : Part := { p with bindings := x }
/-- Replace the channels. -/
def Part.setChannels (p : Part) (x : Vector Channel 8) : Part := { p with channels := x }
/-- Replace the guards. -/
def Part.setGuards (p : Part) (x : Vector Guard 8) : Part := { p with guards := x }
/-- Replace the board. -/
def Part.setBoard (p : Part) (x : Board) : Part := { p with board := x }
/-- Replace the mode controller's state. -/
def Part.setModes (p : Part) (x : Modes) : Part := { p with modes := x }
/-- Replace the journal writer's state. -/
def Part.setJournal (p : Part) (x : Journal) : Part := { p with journal := x }

/-- Replace the device. -/
def State.setPart (s : State) (x : Part) : State := { s with part := x }
/-- Replace the queue of waiting commands. -/
def State.setPending (s : State) (x : List Instr) : State := { s with pending := x }

/-! ### Reset values -/

/-- No cause set, no enable set. -/
def Causes.clear : Causes := { journal := false, alert := false, memerr := false, runstate := false }

/-- ZEINJ clear (R193). -/
def Injection.clear : Injection := { armed := false, mode := .oneBit, bit := 0, partTarget := false }

/-- Protection after a POWER or PIN reset (R183, R190, R192). -/
def Protection.initial : Protection :=
  { zeca := 0, zeua := 0, cv := false, uv := false, corrected := 0, uncorrected := 0,
    injection := .clear, scrubPos := 0 }

/-- Run control right after a POWER reset whose hold has ended (R183). -/
def RunControl.initial : RunControl :=
  { state := .clearing, hold := none, run := false, enables := .clear, captureLast := false,
    attention := .clear, resetCause := .power, faultCode := .none, layout := none }

/-- The order taker after a reset (R149, R151, R155). -/
def Orders.initial : Orders := { slots := [], takeQueue := [], taking := none, hand := [] }

/-- The empty line record (R1). DESIGN CHOICE for rate and zone, which nothing reads (log entry 3). -/
def LineRecord.empty : LineRecord := { enable := false, stations := 0, rate := .b38400, zone := 0 }

/-- A station of a disabled address (R7). -/
def Station.disabled : Station :=
  { presence := .disabled, failures := 0, bad := 0, everPresent := false, lost := false }

/-- A line controller after a reset (R1, R4, R7, R20). -/
def Line.initial : Line :=
  { record := .empty, stations := Vector.replicate 12 .disabled, fifo := [], overrun := false,
    exchange := .idle, cycleStart := 0, test := .none, loop := [], lineFail := false }

/-- The profile registers after a reset and at entry to RUNNING (R83). -/
def Profile.initial : Profile :=
  { p := 0, v := 0, tickV := 0, positive := false, phase := .none, latch := false, target := none, clamped := false,
    cap := none, stopRate := none, stopPoint := none, overrun := false }

/-- No fault in force. -/
def FaultSet.clear : FaultSet := { driver := false, limit := false, homeFail := false }

/-- Input levels at power-on: DESIGN CHOICE inactive (log entry 5). -/
def ChannelPins.initial : ChannelPins := { home := false, limitLo := false, limitHi := false, flt := false }

/-- A channel after a reset, its pins apart (R60, R82, R83). -/
def Channel.initial : Channel :=
  { params := none, state := .unhomed, current := none, queue := [], lost := true, parkCause := none,
    faults := .clear, faultCode := none, pendingTerm := none, heldPark := none, heldMove := none,
    prof := .initial, search := 0, tickS := 0, unissued := 0, pins := .initial, en := false, dir := false,
    moveCount := 0, lastWrite := 0 }

/-- The record of a disabled guard (R102). -/
def GuardRecord.empty : GuardRecord :=
  { enable := false, activeHigh := false, cut := false, attended := false, zone := 0, mask := 0,
    filter := 0, clearTime := 0 }

/-- A guard after a reset, its pin apart (R102). -/
def Guard.initial : Guard :=
  { record := .empty, state := .clear, filteredOpen := false, filterDue := none, clearDue := none,
    acked := false, boarded := false, pin := false }

/-- The empty board (R115). -/
def Board.initial : Board := { entries := Vector.replicate 32 none, made := [], overflow := false }

/-- The mode controller after a reset (R134). -/
def Modes.initial : Modes :=
  { mode := .closed, settling := false, restDue := none, silent := false, watchDue := none, requests := [] }

/-- The journal writer after a reset (R164). -/
def Journal.initial : Journal :=
  { fill := 0, empty := 0, throttled := false, coalesced := [], gap := 0, gapRaises := 0, staleDue := none }

/-- The start of a millisecond (R180, R183). -/
def Clock.initial : Clock := { tickOwed := false, us := 0, scrubbed := false }

/-- The device right after a POWER reset whose hold has ended: the part is in CLEARING (R183). -/
def Part.initial : Part :=
  { run := .initial, time := 0, clock := .initial, hostData := 0, mem := [], prot := .initial,
    orders := .initial, lines := Vector.replicate 4 .initial, inputs := [], bindings := [],
    channels := Vector.replicate 8 .initial, guards := Vector.replicate 8 .initial,
    board := .initial, modes := .initial, journal := .initial }

/-- The machine right after a POWER reset whose hold has ended, with no command waiting (R183). -/
def State.reset : State := { part := .initial, pending := [] }

end Sys2Proof.Machine
end

