-- ==== Sys2Proof/Machine/Operands.lean ====
section
/-! DEFINITION. Operand forms and formats (Chapter 13): bit fields, the code tables of 13.9, and the words of every record the
part writes. -/

namespace Sys2Proof.Machine

/-! ### Bit fields -/

/-- The `len` bits of a word from bit `lo` up. -/
def bits (w : Word) (lo len : Nat) : Nat := w.toNat / 2 ^ lo % 2 ^ len

/-- One bit of a word. -/
def bit (w : Word) (i : Nat) : Bool := w.getLsbD i

/-- A flag as a number, for a field of one bit. -/
def flag (b : Bool) : Nat := if b then 1 else 0

/-- A word from the number its fields add up to. -/
def word (n : Nat) : Word := BitVec.ofNat 16 n

/-- Low byte of a word. -/
def lowByte (w : Word) : Byte := BitVec.ofNat 8 w.toNat

/-- High byte of a word. -/
def highByte (w : Word) : Byte := BitVec.ofNat 8 (w.toNat / 256)

/-- A signed 32-bit field from its low and high words (00_scope.md 3.1). -/
def long (lo hi : Word) : Int := (BitVec.ofNat 32 (lo.toNat + 65536 * hi.toNat)).toInt

/-- The low and high words of a 32-bit field. -/
def longWords (x : Long) : List Word := [word (x.toNat % 65536), word (x.toNat / 65536)]

/-- A signed value as two words, its low 32 bits (R101). -/
def intWords (x : Int) : List Word := longWords (BitVec.ofInt 32 x)

/-- Word `i` of a group or record that has been read. -/
def wordAt (ws : List Word) (i : Nat) : Word := ws.getD i 0

/-! ### Code tables (13.9, 13.10) -/

/-- ZSTAT run state (13.10). -/
def RunState.code : RunState → Nat
  | .clearing => 0 | .halted => 1 | .checking => 2 | .running => 3 | .stopping => 4 | .faulted => 5

/-- ZSTAT reset cause (13.10). -/
def ResetCause.code : ResetCause → Nat
  | .power => 0 | .pin => 1 | .soft => 2

/-- ZSTAT fault code (13.10). -/
def FaultCode.code : FaultCode → Nat
  | .none => 0 | .signature => 1 | .version => 2 | .range => 3 | .overlap => 4 | .count => 5
  | .marks => 6 | .memory => 7 | .config => 8

/-- Gallery mode (13.9). -/
def Mode.code : Mode → Nat
  | .opened => 0 | .rest => 1 | .closed => 2 | .service => 3

/-- The gallery mode a code names, if one. -/
def Mode.ofCode : Nat → Option Mode
  | 0 => some .opened | 1 => some .rest | 2 => some .closed | 3 => some .service | _ => none

/-- Gesture (13.9). -/
def Gesture.code : Gesture → Nat
  | .press => 0 | .release => 1 | .hold => 2 | .repeat => 3

/-- The gesture of a 2-bit code. -/
def Gesture.ofCode : Nat → Gesture
  | 0 => .press | 1 => .release | 2 => .hold | _ => .repeat

/-- Lamp pattern (13.9). -/
def Lamp.code : Lamp → Nat
  | .off => 0 | .on => 1 | .slow => 2 | .fast => 3

/-- The lamp pattern of a 2-bit code. -/
def Lamp.ofCode : Nat → Lamp
  | 0 => .off | 1 => .on | 2 => .slow | _ => .fast

/-- A line's, channel's, guard's or input's zone. -/
def zoneOfCode (n : Nat) : Fin 4 := Fin.ofNat 4 n

/-- Zone in a 4-bit field (13.9). -/
def Zone.code : Zone → Nat
  | .one z => z.val | .all => 15

/-- The zone an 8-bit operand names, if one (13.9). -/
def Zone.ofCode (n : Nat) : Option Zone :=
  if n < 4 then some (.one (Fin.ofNat 4 n)) else if n = 15 then some .all else none

/-- Severity (13.9). -/
def Severity.code : Severity → Nat
  | .info => 0 | .attend => 1 | .urgent => 2

/-- The severity a code names, if one. -/
def Severity.ofCode : Nat → Option Severity
  | 0 => some .info | 1 => some .attend | 2 => some .urgent | _ => none

/-- Alert code (13.9). -/
def AlertCode.code : AlertCode → Nat
  | .guardTrip => 1 | .driverFault => 2 | .limitHit => 3 | .homeFail => 4 | .stationLost => 5
  | .lineFail => 6 | .lineTestFail => 7 | .keyStuck => 8 | .pressStorm => 9 | .call => 10
  | .hostSilent => 11 | .memoryUncorrected => 12 | .memoryWear => 13 | .journalGap => 14 | .orderAlert => 15

/-- Whether a code's cause persists and later ends (7.2). -/
def AlertCode.condition : AlertCode → Bool
  | .guardTrip | .driverFault | .limitHit | .homeFail | .stationLost | .lineFail | .keyStuck
  | .pressStorm | .hostSilent => true
  | .lineTestFail | .call | .memoryUncorrected | .memoryWear | .journalGap | .orderAlert => false

/-- Source kind (13.9). -/
def Source.kind : Source → Nat
  | .none => 0 | .guard _ => 1 | .channel _ => 2 | .station _ _ => 3 | .line _ => 4
  | .input _ => 5 | .region _ => 6 | .host _ => 7

/-- Source number (13.6). -/
def Source.number : Source → Nat
  | .none => 0 | .guard g => g.val | .channel c => c.val | .station l a => a + 256 * l.val | .line l => l.val
  | .input i => i | .region n => n | .host c => c.toNat

/-- Board entry state (13.6). -/
def EntryState.code : EntryState → Nat
  | .opened => 1 | .lapsed => 2 | .held => 3

/-- ALERT record cause (13.7). -/
def AlertCause.code : AlertCause → Nat
  | .raised => 1 | .merged => 2 | .reopened => 3 | .lapsed => 4 | .acked => 5 | .removed => 6
  | .evicted => 7 | .escalated => 8 | .notBoarded => 9

/-- Reading agent (13.7). -/
def Agent.code : Agent → Nat
  | .host => 0 | .order => 1 | .config => 2 | .layout => 3 | .scrub => 4

/-- Termination code (13.9). -/
def Termination.code : Termination → Nat
  | .complete => 1 | .clamped => 2 | .limited => 3 | .stopped => 4 | .guarded => 5 | .superseded => 6
  | .faulted => 7 | .cut => 8 | .failed => 9 | .reset => 10

/-- Refusal code (13.9). -/
def RefusalCode.code : RefusalCode → Nat
  | .badKind => 1 | .badOperand => 2 | .notHomed => 3 | .wrongMode => 4 | .wrongState => 5 | .queueFull => 6
  | .channelBusy => 7 | .badConfig => 8 | .memory => 9 | .noAlert => 10 | .lineBusy => 11

/-- Journal record kind (13.7). -/
def RecordKind.code : RecordKind → Nat
  | .pad => 1 | .press => 2 | .coalesced => 3 | .slot => 4 | .channel => 5 | .guard => 6 | .alert => 7
  | .station => 8 | .mode => 9 | .memory => 10 | .gap => 11

/-- The order kind a code names, if one (13.2). -/
def OrderKind.ofCode : Nat → Option OrderKind
  | 1 => some .move | 2 => some .home | 3 => some .park | 4 => some .stop | 5 => some .release
  | 6 => some .apply | 7 => some .setMode | 8 => some .ack | 9 => some .orderAlert | 10 => some .lamp
  | 11 => some .lineTest | _ => none

/-- Channel state (13.9). -/
def ChanState.code : ChanState → Nat
  | .unhomed => 0 | .homing => 1 | .idle => 2 | .moving => 3 | .stopping => 4 | .held => 5 | .fault => 6
  | .parked => 7

/-- Phase (13.9). -/
def Phase.code : Phase → Nat
  | .none => 0 | .accel => 1 | .cruise => 2 | .slow => 3 | .decel => 4 | .stoppingDecel => 5

/-- Park cause (13.9). -/
def parkCode : Option ParkCause → Nat
  | none => 0 | some .host => 1 | some .mode => 2

/-- Fault code of a channel (13.9). -/
def chanFaultCode : Option ChanFault → Nat
  | none => 0 | some .driver => 1 | some .limit => 2 | some .homeFail => 3

/-- Cause of a CHANNEL record for an entry to FAULT (13.7). -/
def ChanFault.cause : ChanFault → Nat
  | .driver => 16 | .limit => 17 | .homeFail => 18

/-- Move kind in a status record (13.6). -/
def moveKindCode : Option Move → Nat
  | none => 0
  | some m => match m.kind with | .move => 1 | .home => 2 | .park => 3

/-- Move source in a status record (13.6). -/
def moveSourceCode : Option Move → Nat
  | none => 0
  | some m => match m.source with | .order _ => 1 | .binding _ _ => 2 | .mode => 3

/-- Source index in a status record (13.6): 0 where neither slot nor entry applies (R195). -/
def moveSourceIndex : Option Move → Nat
  | none => 0
  | some m => match m.source with | .order i => i | .binding e _ => e | .mode => 0

/-- Guard state (13.9). -/
def GuardState.code : GuardState → Nat
  | .clear => 0 | .tripped => 1 | .settling => 2 | .awaitAck => 3

/-- Presence (13.6). -/
def Presence.code : Presence → Nat
  | .disabled => 0 | .unknown => 1 | .present => 2 | .suspect => 3 | .absent => 4

/-- Conditioning state (13.6). -/
def KeyState.code : KeyState → Nat
  | .inactive => 0 | .up => 1 | .down => 2 | .held => 3 | .stuck => 4

/-- Cause of a MODE record (13.7). -/
def ModeCause.code : ModeCause → Nat
  | .order _ => 0 | .binding => 1 | .wake => 2 | .restTimer => 3 | .silent => 4

/-- Bit of a mode in a binding's mode mask (13.3). -/
def Mode.inMask (m : Mode) (mask : BitVec 4) : Bool := mask.getLsbD m.code

/-! ### Records the part writes (13.6) -/

/-- An input's word of the input state map (13.6). -/
def Input.mapWord (i : Input) : Word :=
  word (i.state.code + 8 * flag i.suspended.isSome + 256 * i.pressCount.toNat)

/-- A station's word of the input state map (13.6). -/
def Station.mapWord (s : Station) : Word :=
  word (s.presence.code + 8 * s.failures.toNat + 256 * s.bad.toNat)

/-- A board entry's eight words; a free entry is eight zeros (13.6). -/
def entryWords : Option Entry → List Word
  | none => List.replicate 8 0
  | some e =>
    [ word (e.state.code + 8 * flag e.escalated + 16 * flag (!e.code.condition) + 32 * e.severity.code
        + 256 * e.zone.code + 4096 * e.source.kind),
      word (e.code.code + 256 * e.count.toNat), word e.source.number, 0 ]
    ++ longWords e.first ++ longWords e.last

/-- MODE_NOW (13.1). -/
def Modes.nowWord (m : Modes) : Word := word (m.mode.code + 32768 * flag m.settling)

/-! ### Journal records (13.7) -/

/-- A journal record before it is placed: header byte, time, the words from w3 on, and whether it is of the immediate class (R170). -/
structure Record where
  kind : RecordKind
  header : Byte
  time : Time
  body : List Word
  immediate : Bool
  deriving DecidableEq, Repr

/-- Length of a record in words (R165). -/
def Record.length (r : Record) : Nat := 3 + r.body.length

/-- Words of a record (13.7). -/
def Record.words (r : Record) : List Word :=
  word (r.kind.code + 16 * r.length + 256 * r.header.toNat) :: longWords r.time ++ r.body

/-- The PAD header: kind PAD, length 1 (13.7). -/
def padWord : Word := word (RecordKind.pad.code + 16)

/-- What the binding engine returns for an event (R58). -/
structure EngineReturn where
  acted : Nat
  locked : Bool
  dropped : Bool
  fallback : Bool
  deriving DecidableEq, Repr

/-- A gesture's return when no entry was examined or acted (R58). -/
def EngineReturn.nothing : EngineReturn := { acted := 0, locked := false, dropped := false, fallback := false }

/-- A PRESS record (R37, 13.7). -/
def pressRecord (i : Nat) (g : Gesture) (forced quiet : Bool) (e : EngineReturn) (t : Time) : Record :=
  { kind := .press,
    header := BitVec.ofNat 8 (flag forced + 2 * flag quiet + 4 * flag e.locked + 8 * flag e.dropped + 16 * flag e.fallback),
    time := t, body := [word (i % 256 + 256 * g.code + 4096 * e.acted)], immediate := false }

/-- A COALESCED record (R173). -/
def coalescedRecord (i : Nat) (n : Word) (t : Time) : Record :=
  { kind := .coalesced, header := 0, time := t, body := [word i, n], immediate := false }

/-- A SLOT record (R161). -/
def slotRecord (slot : Nat) (kind : Byte) (refused : Bool) (code : Nat) (tag : Word) (result : Int) (t : Time) : Record :=
  { kind := .slot, header := BitVec.ofNat 8 code, time := t,
    body := word (slot % 64 + 128 * flag refused + 256 * kind.toNat) :: tag :: intWords result, immediate := false }

/-- A CHANNEL record (R81). -/
def channelRecord (c : Fin 8) (left entered : ChanState) (cause : Nat) (lost : Bool) (s : Int) (t : Time) : Record :=
  { kind := .channel, header := BitVec.ofNat 8 cause, time := t,
    body := word (c.val + 16 * left.code + 256 * entered.code + 4096 * flag lost) :: intWords s, immediate := false }

/-- Causes of a GUARD record (R113, 13.7). -/
inductive GuardCause where
  | input | timer | ack | apply | run
  deriving DecidableEq, Repr

/-- GUARD record cause (13.7). -/
def GuardCause.code : GuardCause → Nat
  | .input => 1 | .timer => 2 | .ack => 3 | .apply => 4 | .run => 5

/-- A GUARD record (R113). -/
def guardRecord (g : Fin 8) (left entered : GuardState) (cause : GuardCause) (t : Time) : Record :=
  { kind := .guard, header := BitVec.ofNat 8 cause.code, time := t,
    body := [word (g.val + 16 * left.code + 64 * entered.code)], immediate := false }

/-- An ALERT record (R133): `index` absent is 0x3F, `state` 0 is FREE. -/
def alertRecord (index : Option (Fin 32)) (cause : AlertCause) (e : Entry) (state : Nat) (overflow : Bool) (t : Time) : Record :=
  { kind := .alert, header := BitVec.ofNat 8 cause.code, time := t,
    body :=
      [ word ((match index with | some i => i.val | none => 63) + 64 * state + 256 * flag e.escalated + 512 * flag overflow
          + 1024 * e.severity.code + 4096 * e.zone.code),
        word (e.code.code + 256 * e.count.toNat), word e.source.number, word e.source.kind ],
    immediate := e.severity == .urgent || e.escalated }

/-- A STATION record (R12). -/
def stationRecord (l : Fin 4) (a : Nat) (s : Station) (t : Time) : Record :=
  { kind := .station, header := 0, time := t,
    body := [word (l.val + 16 * a + 256 * s.presence.code + 4096 * s.failures.toNat)], immediate := false }

/-- A MODE record (R137). -/
def modeRecord (left entered : Mode) (cause : ModeCause) (settling : Bool) (t : Time) : Record :=
  { kind := .mode, header := 0, time := t,
    body := [word (left.code + 4 * entered.code + 16 * flag settling + 256 * cause.code)], immediate := false }

/-- A MEMORY record (R188). -/
def memoryRecord (uncorrected : Bool) (a : Nat) (agent : Agent) (t : Time) : Record :=
  { kind := .memory, header := 0, time := t, body := [word a, word (flag uncorrected + 16 * agent.code)],
    immediate := uncorrected }

/-- A GAP record (R168). -/
def gapRecord (n : Word) (t : Time) : Record :=
  { kind := .gap, header := 0, time := t, body := [n], immediate := false }

end Sys2Proof.Machine
end

