-- ==== Sys2Proof/Machine/Flags.lean ====
section
/-! DEFINITION. Values computed from state: comparisons of gallery time, saturating counts, the registers the host reads and
the output pins the state drives. -/

namespace Sys2Proof.Machine

/-! ### Time and counts -/

/-- Gallery time `now` has reached `due`: their difference modulo 2^32 is below 2^31 (00_scope.md 3.2). -/
def reached (now due : Time) : Bool := decide ((now - due).toNat < 2147483648)

/-- A gallery time plus a number of milliseconds, modulo 2^32. -/
def after (t : Time) (ms : Nat) : Time := t + BitVec.ofNat 32 ms

/-- Add one, staying at the largest value of the width. -/
def satInc {n : Nat} (x : BitVec n) : BitVec n := if x = BitVec.allOnes n then x else x + 1

/-- A timer that is running and has reached its due time. -/
def expired (now : Time) : Option Time → Bool
  | some d => reached now d
  | none => false

/-! ### Registers (13.10) -/

/-- Bits of the four causes, from bit 0 up. -/
def Causes.value (c : Causes) : Nat := flag c.journal + 2 * flag c.alert + 4 * flag c.memerr + 8 * flag c.runstate

/-- Four causes or enables from the bits of a written word, from bit `lo` up. -/
def Causes.ofWord (v : Word) (lo : Nat) : Causes :=
  { journal := bit v lo, alert := bit v (lo + 1), memerr := bit v (lo + 2), runstate := bit v (lo + 3) }

/-- Causes left set when those of `w` are cleared (R186). -/
def Causes.without (c w : Causes) : Causes :=
  { journal := c.journal && !w.journal, alert := c.alert && !w.alert, memerr := c.memerr && !w.memerr,
    runstate := c.runstate && !w.runstate }

/-- ZCTL as read: SOFT_RESET reads 0 (R185). -/
def Part.zctl (p : Part) : Word :=
  word (flag p.run.run + 16 * p.run.enables.value + 256 * flag p.run.captureLast)

/-- ZSTAT (R184). -/
def Part.zstat (p : Part) : Word :=
  word (p.run.state.code + 8 * p.modes.mode.code + 32 * p.run.resetCause.code + 256 * p.run.faultCode.code + 4096)

/-- ZATN (R186). -/
def Part.zatn (p : Part) : Word := word p.run.attention.value

/-- ZECNT (R190). -/
def Part.zecnt (p : Part) : Word :=
  word (p.prot.corrected.toNat + 256 * p.prot.uncorrected.toNat + 4096 * flag p.prot.cv + 8192 * flag p.prot.uv)

/-- ZEINJ's MODE code (13.10). -/
def InjectMode.code : InjectMode → Nat
  | .oneBit => 0 | .twoBit => 1 | .address => 2

/-- ZEINJ (R193). -/
def Part.zeinj (p : Part) : Word :=
  word (flag p.prot.injection.armed + 2 * p.prot.injection.mode.code + 8 * p.prot.injection.bit.val
    + 256 * flag p.prot.injection.partTarget)

/-- What a host read of a register address returns (R175, R184 to R186, R190, R193). -/
def Part.readRegister (p : Part) (a : Word) : Word :=
  if a = 0xFFF0 then Config.zid
  else if a = 0xFFF2 then p.zctl
  else if a = 0xFFF4 then p.zstat
  else if a = 0xFFF6 then p.zatn
  else if a = 0xFFF8 then word p.prot.zeca.toNat
  else if a = 0xFFFA then word p.prot.zeua.toNat
  else if a = 0xFFFC then p.zecnt
  else if a = 0xFFFE then p.zeinj
  else 0

/-- ATTN_N is driven low: a cause is set with its enable set (R186). -/
def Part.attnAsserted (p : Part) : Bool :=
  (p.run.attention.journal && p.run.enables.journal) || (p.run.attention.alert && p.run.enables.alert)
    || (p.run.attention.memerr && p.run.enables.memerr) || (p.run.attention.runstate && p.run.enables.runstate)

/-! ### Board outputs (R126, R128, R129) -/

/-- OPEN or LAPSED (R129). -/
def Entry.unacked (e : Entry) : Bool := e.state == .opened || e.state == .lapsed

/-- Beacon patterns (13.6). -/
inductive Beacon where
  | off | steady | slow | fast
  deriving DecidableEq, Repr

/-- Beacon pattern code (13.6). -/
def Beacon.code : Beacon → Nat
  | .off => 0 | .steady => 1 | .slow => 2 | .fast => 3

/-- The entries in use, in index order. -/
def Board.used (b : Board) : List Entry := b.entries.toList.filterMap id

/-- Number of entries in use (7.1). -/
def Board.count (b : Board) : Nat := b.used.length

/-- An entry's zone is `z` or ALL. -/
def Zone.covers (zone : Zone) (z : Fin 4) : Bool := zone == .one z || zone == .all

/-- The beacon pattern of a zone (R128). -/
def Board.pattern (b : Board) (z : Fin 4) : Beacon :=
  let es := b.used.filter (fun e => e.zone.covers z)
  if b.overflow || es.any (fun e => (e.unacked && e.severity == .urgent) || e.escalated) then .fast
  else if es.any (fun e => e.unacked && e.severity == .attend) then .slow
  else if es.any (fun e => e.state == .held && (e.severity == .attend || e.severity == .urgent)) then .steady
  else .off

/-- The board's header words (13.6). -/
def Board.header (b : Board) : List Word :=
  [ word b.count, word (flag b.overflow),
    word ((b.pattern 0).code + 4 * (b.pattern 1).code + 16 * (b.pattern 2).code + 64 * (b.pattern 3).code), 0 ]

/-- The indication of an unacknowledged URGENT entry (R126). -/
def Board.urgent (b : Board) : Bool := b.used.any (fun e => e.unacked && e.severity == .urgent)

/-- CALL is asserted (R129). -/
def Part.callPin (p : Part) : Bool :=
  p.board.overflow || p.board.used.any (fun e => e.unacked && (e.severity == .urgent || e.escalated))

/-- A BEACON pin is high (R129). -/
def Part.beaconPin (p : Part) (z : Fin 4) : Bool :=
  match p.board.pattern z with
  | .off => false
  | .steady => true
  | .slow => decide (p.time.toNat % 1000 < 500)
  | .fast => decide (p.time.toNat % 250 < 125)

/-! ### Line outputs (R2, R18) -/

/-- DE is asserted (R2). -/
def Line.de (l : Line) : Bool :=
  match l.exchange with
  | .sending _ _ => true
  | _ => false

/-- The receiver is on: a reply window or an open reply (R2), or a running test (R18). -/
def Line.receiverOn (l : Line) : Bool :=
  match l.exchange, l.test with
  | _, .running _ => true
  | .window _, _ => true
  | .receiving _, _ => true
  | .gap _, _ => true
  | _, _ => false

/-- The line is marked as testing (R17). -/
def Line.testing (l : Line) : Bool :=
  match l.test with
  | .none => false
  | _ => true

/-! ### Channel views (Chapters 4 and 5) -/

/-- Reported step position of a profile position (R85). -/
def stepsOf (p : Int) : Int := (p + Config.halfStep) / Config.step

/-- S once every pulse of the latest tick has been issued (R85). -/
def Channel.endS (c : Channel) : Int := stepsOf c.prof.p

/-- A channel's reported step position S (R85): between the pulses of a tick it counts the pulses already issued. -/
def Channel.s (c : Channel) : Int := if c.tickS ≤ c.endS then c.endS - c.unissued else c.endS + c.unissued

/-- How many of a tick's `n` pulses have not begun `us` microseconds into it: pulse k begins after k x floor(1,000 / (n + 1)) (R85). -/
def unissuedAfter (n us : Nat) : Nat := n - us / (1000 / (n + 1))

/-- The pulses of the latest tick that begin within its first `us` microseconds are issued (R85). -/
def Channel.issueTo (us : Nat) (c : Channel) : Channel :=
  { c with unissued := min c.unissued (unissuedAfter (c.endS - c.tickS).natAbs us) }

/-- Every pulse of the latest tick is issued (R85). -/
def Channel.issueAll (c : Channel) : Channel := { c with unissued := 0 }

/-- The channel is enabled in its applied parameters (R60). -/
def Channel.enabled (c : Channel) : Bool :=
  match c.params with
  | some pr => pr.enable
  | none => false

/-- A state of motion (4.3). -/
def ChanState.inMotion (st : ChanState) : Bool := st == .moving || st == .stopping || st == .homing

/-- A settled state (R142). -/
def ChanState.settled (st : ChanState) : Bool := st == .parked || st == .unhomed || st == .held || st == .fault

/-- Vmax (R87). -/
def Params.vmax (pr : Params) : Nat := pr.maxSpeed * 16777216 / 1000
/-- Vs (R87). -/
def Params.vs (pr : Params) : Nat := pr.startSpeed * 16777216 / 1000
/-- The used home speed in steps/s (4.2). -/
def Params.usedHome (pr : Params) : Nat := min pr.homeSpeed pr.startSpeed
/-- Vh (R87). -/
def Params.vh (pr : Params) : Nat := pr.usedHome * 16777216 / 1000
/-- A (R87). -/
def Params.a (pr : Params) : Nat := (pr.accel * 16777216 + 500000) / 1000000
/-- B (R87). -/
def Params.b (pr : Params) : Nat := (pr.decel * 16777216 + 500000) / 1000000
/-- G (R87). -/
def Params.g (pr : Params) : Nat := (pr.guardDecel * 16777216 + 500000) / 1000000

/-- The direction of travel (R76): that of the latest tick's pulses while some of them are still to be issued, else the direction
register. DESIGN CHOICE (log entry 46): the two differ after an overrun has halted and started the other way within the tick (R98). -/
def Channel.heading (c : Channel) : Bool := if c.unissued = 0 then c.prof.positive else decide (c.tickS < c.endS)

/-- Speed in steps/s as the status record shows it (R67, R86). -/
def Channel.speed (c : Channel) : Nat :=
  match c.state, c.params with
  | .moving, _ => c.prof.tickV * 1000 / 16777216
  | .stopping, _ => c.prof.tickV * 1000 / 16777216
  | .homing, some pr => pr.usedHome
  | _, _ => 0

/-- The current move's effective target in steps; 0 when none is current or for HOME (R80, R89). -/
def Channel.shownTarget (c : Channel) : Int :=
  match c.current, c.prof.target with
  | some _, some t => t / Config.step
  | _, _ => 0

/-- The twelve words of a status record, given position and speed (13.6). -/
def Channel.recordWords (c : Channel) (s : Int) (speed : Nat) : List Word :=
  [ word (c.state.code + 16 * c.prof.phase.code + 128 * parkCode c.parkCause + 512 * chanFaultCode c.faultCode
      + 2048 * flag c.lost) ]
  ++ intWords s ++ [word speed] ++ intWords c.shownTarget
  ++ [ word (c.queue.length + 16 * moveSourceCode c.current + 64 * moveKindCode c.current),
       word (moveSourceIndex c.current),
       word (flag c.pins.home + 2 * flag c.pins.limitLo + 4 * flag c.pins.limitHi + 8 * flag c.pins.flt + 16 * flag c.en),
       c.moveCount, 0, 0 ]

/-- The status record (13.6). -/
def Channel.statusWords (c : Channel) : List Word := c.recordWords c.s c.speed

/-- Every status field other than position and speed (R80). -/
def Channel.published (c : Channel) : List Word := c.recordWords 0 0

/-! ### Conditions over the part -/

/-- RUNNING or STOPPING: the blocks work and gallery time counts (R180). -/
def Part.active (p : Part) : Bool := p.run.state == .running || p.run.state == .stopping

/-- The run state is RUNNING. -/
def Part.isRunning (p : Part) : Bool := p.run.state == .running

/-- REST or CLOSED: the modes that want channels parked (R141). -/
def Part.wantsPark (p : Part) : Bool := p.modes.mode == .rest || p.modes.mode == .closed

/-- A channel of the part. -/
def Part.chan (p : Part) (c : Fin 8) : Channel := p.channels[c]

/-- A guard of the part. -/
def Part.guard (p : Part) (g : Fin 8) : Guard := p.guards[g]

/-- A line of the part. -/
def Part.line (p : Part) (l : Fin 4) : Line := p.lines[l]

/-- Some guard covering the channel is TRIPPED, SETTLING or AWAIT_ACK (R112). -/
def Part.guarded (p : Part) (c : Fin 8) : Bool :=
  p.guards.toList.any (fun g => g.record.enable && g.record.mask.getLsbD c.val && g.state != .clear)

/-- The five conditions under which the rest timer runs (R144). -/
def Part.restOk (p : Part) : Bool :=
  p.isRunning && p.modes.mode == .opened
    && (match p.run.layout with | some l => decide (l.restTime ≠ 0) | none => false)
    && !(p.channels.toList.any (fun c => c.state.inMotion)) && !p.board.urgent

end Sys2Proof.Machine
end

