-- ==== Sys2Proof/Machine/Ops.lean ====
section
/-! DEFINITION. The named operations over memory, registers and the state's parts. -/

namespace Sys2Proof.Machine

/-! ### Sparse lists: exhibit memory and the coalesce counts -/

/-- The value at a key: the first entry's, or `d` where none is listed. -/
def sparseGet {α : Type} (d : α) : List (Nat × α) → Nat → α
  | [], _ => d
  | (k, v) :: t, a => if k = a then v else sparseGet d t a

/-- Set the value at a key, keeping keys rising and listing no `d`. -/
def sparseSet {α : Type} [DecidableEq α] (d : α) : List (Nat × α) → Nat → α → List (Nat × α)
  | [], a, v => if v = d then [] else [(a, v)]
  | (k, w) :: t, a, v =>
    if a < k then (if v = d then (k, w) :: t else (a, v) :: (k, w) :: t)
    else if a = k then (if v = d then t else (a, v) :: t)
    else (k, w) :: sparseSet d t a v

/-- The canonical form: keys rising, no entry equal to what an unlisted key reads as. -/
abbrev SparseWf {α : Type} (d : α) (m : List (Nat × α)) : Prop :=
  m.Pairwise (fun x y => x.1 < y.1) ∧ ∀ e ∈ m, e.2 ≠ d

/-- Exhibit memory is in canonical form, and lists only words that exist (R175). -/
abbrev Memory.wf (m : Memory) : Prop := SparseWf Cell.clear m ∧ ∀ e ∈ m, e.1 < Config.memWords

/-- The stored word at a word offset. -/
def Memory.cell (m : Memory) (a : Nat) : Cell := sparseGet Cell.clear m a

/-- Store a word at a word offset; an offset that does not exist stores nothing (R175). -/
def Memory.store (m : Memory) (a : Nat) (c : Cell) : Memory :=
  if a < Config.memWords then sparseSet Cell.clear m a c else m

/-- The data bits a stored word holds (R187, R194): the bits an injection inverted are inverted. -/
def Cell.stored (c : Cell) : Word :=
  match c.upset with
  | .none => c.written
  | .one b => c.written ^^^ word (2 ^ b.val)
  | .two b => c.written ^^^ word (2 ^ b.val) ^^^ word (2 ^ ((b.val + 1) % 22))
  | .address => c.written

/-- A word with check bits that match it (R187). -/
def Cell.good (w : Word) : Cell := { written := w, upset := .none }

/-- The stored word an armed injection makes of a write (R194). -/
def Injection.cell (i : Injection) (w : Word) : Cell :=
  match i.mode with
  | .oneBit => { written := w, upset := .one i.bit }
  | .twoBit => { written := w, upset := .two i.bit }
  | .address => { written := w, upset := .address }

/-- ARM cleared (R194). -/
def Protection.disarm (q : Protection) : Protection := { q with injection := { q.injection with armed := false } }

/-- The data a read of a word would return, judged by R187 and R188, without the read's effects. -/
def Cell.data (c : Cell) : Word :=
  match c.upset with
  | .none => c.written
  | .one _ => c.written
  | .two _ => c.stored
  | .address => c.stored

/-- A write that no injection alters: a write-back, a scrub write (R187, R194). -/
def Part.storeGood (p : Part) (a : Nat) (w : Word) : Part := p.setMem (p.mem.store a (.good w))

/-- A write of target kind `part` (PART_WRITE) or not (HOST_WRITE), altered by an injection armed for that kind (R187, R194). -/
def Part.storeFrom (p : Part) (part : Bool) (a : Nat) (w : Word) : Part :=
  if p.prot.injection.armed && p.prot.injection.partTarget == part && decide (a < Config.memWords) then
    (p.setMem (p.mem.store a (p.prot.injection.cell w))).setProt p.prot.disarm
  else p.storeGood a w

/-- A write by a block of the part (R187). -/
def Part.write (p : Part) (a : Nat) (w : Word) : Part := p.storeFrom true a w

/-- Consecutive words written by a block of the part. -/
def Part.writeAll (p : Part) (a : Nat) : List Word → Part
  | [] => p
  | w :: ws => (p.write a w).writeAll (a + 1) ws

/-- A write into a region of the layout snapshot; without a snapshot there is no region (R177). -/
def Part.writeRegion (p : Part) (base : Layout → Nat) (ws : List Word) : Part :=
  match p.run.layout with
  | some l => p.writeAll (base l) ws
  | none => p

/-! ### Attention (R186) -/

/-- Set ZATN JOURNAL. -/
def Part.attendJournal (p : Part) : Part := p.setRun { p.run with attention := { p.run.attention with journal := true } }
/-- Set ZATN ALERT. -/
def Part.attendAlert (p : Part) : Part := p.setRun { p.run with attention := { p.run.attention with alert := true } }
/-- Set ZATN MEMERR. -/
def Part.attendMemerr (p : Part) : Part := p.setRun { p.run with attention := { p.run.attention with memerr := true } }

/-- A change of run state other than one a reset makes: ZATN RUNSTATE is set (R178). -/
def Part.enterRun (p : Part) (st : RunState) : Part :=
  p.setRun { p.run with state := st, attention := { p.run.attention with runstate := true } }

/-! ### One member of a group -/

/-- Replace a channel. -/
def Part.setChan (p : Part) (c : Fin 8) (x : Channel) : Part := p.setChannels (p.channels.set c x)
/-- Replace a guard. -/
def Part.setGuard (p : Part) (g : Fin 8) (x : Guard) : Part := p.setGuards (p.guards.set g x)
/-- Replace a line. -/
def Part.setLine (p : Part) (l : Fin 4) (x : Line) : Part := p.setLines (p.lines.set l x)

/-- Change an input; an input that is not defined is left so (R21). -/
def Part.modInput (p : Part) (i : Nat) (f : Input → Input) : Part := p.setInputs (p.inputs.modify i f)

/-- Change a binding of the store. -/
def Part.modBinding (p : Part) (e : Nat) (f : Binding → Binding) : Part := p.setBindings (p.bindings.modify e f)

/-- Run an operation for each channel, in ascending channel number. -/
def Part.eachChannel (p : Part) (f : Fin 8 → Part → Part) : Part := (List.finRange 8).foldl (fun q c => f c q) p

/-- Run an operation for each guard, in ascending guard number. -/
def Part.eachGuard (p : Part) (f : Fin 8 → Part → Part) : Part := (List.finRange 8).foldl (fun q g => f g q) p

/-- Run an operation for each line, in ascending line number. -/
def Part.eachLine (p : Part) (f : Fin 4 → Part → Part) : Part := (List.finRange 4).foldl (fun q l => f l q) p

/-! ### Outcomes -/

/-- A command's outcome: the next state has this device and the same waiting commands. -/
def done (s : State) (p : Part) : Host.Outcome State Fault Refusal := .next (s.setPart p)

/-- The part is not held by a reset (R183): its registers and memory are served. -/
def Part.free (p : Part) : Bool := p.run.hold.isNone

/-! ### Time -/

/-- The last microsecond of a millisecond. -/
def lastUs : Nat := 999

/-- Every channel has issued the pulses of its latest tick (R85). -/
def Part.issueAll (p : Part) : Part := p.setChannels (p.channels.map Channel.issueAll)

/-- While the blocks work, the present millisecond goes on to `us` microseconds, if it has not come so far: the pulses that begin until
then are issued (R85). DESIGN CHOICE (log entry 4). -/
def Part.goTo (p : Part) (us : Nat) : Part :=
  let now := max p.clock.us (min us lastUs)
  if p.active then (p.setClock { p.clock with us := now }).setChannels (p.channels.map (Channel.issueTo now)) else p

/-- Gallery time counts a millisecond (R180); `owed`: its motion tick is still to come. -/
def Part.countMs (p : Part) (owed : Bool) : Part :=
  (p.issueAll.setTime (p.time + 1)).setClock { tickOwed := owed, us := 0, scrubbed := false }

/-- The scrub of the present millisecond is still to be made (R192). -/
def Part.scrubOwed (p : Part) : Bool := p.isRunning && !p.clock.scrubbed

/-- Gallery time counts, and timers can fall due, while the run state is RUNNING or STOPPING (R180).
An event due at the next millisecond may be taken before that millisecond's motion tick, once the present one has had its scrub: gallery
time then moves on and the tick is owed (log entries 1 and 32). `none`: the due time has not come. -/
def Part.atDue (p : Part) (due : Time) : Option Part :=
  if !p.active then none
  else if reached p.time due then some p
  else if !p.clock.tickOwed && !p.scrubOwed && due == p.time + 1 then some (p.countMs true)
  else none

/-- The same for a timer that may be stopped. -/
def Part.atTimer (p : Part) : Option Time → Option Part
  | some due => p.atDue due
  | none => none

/-! ### Rest timer and settling (R142, R144, R145) -/

/-- The rest time in ms (R144). -/
def Part.restMs (p : Part) : Nat :=
  match p.run.layout with
  | some l => l.restTime * 1000
  | none => 0

/-- Re-evaluate the rest timer's conditions (R144): it starts when they come to hold and stops when one fails. -/
def Part.restEval (p : Part) : Part :=
  if p.restOk then
    (match p.modes.restDue with
     | some _ => p
     | none => p.setModes { p.modes with restDue := some (after p.time p.restMs) })
  else p.setModes { p.modes with restDue := none }

/-- A notice that restarts the rest timer if it is running (R145). -/
def Part.restNotice (p : Part) : Part :=
  match p.modes.restDue with
  | some _ => p.setModes { p.modes with restDue := some (after p.time p.restMs) }
  | none => p

/-- Write MODE_NOW (R134). -/
def Part.writeModeNow (p : Part) : Part := p.writeRegion (fun l => l.pointers + 5) [p.modes.nowWord]

/-- Examine SETTLING (R142): it clears when every channel is settled. -/
def Part.settleExam (p : Part) : Part :=
  if p.modes.settling && p.channels.toList.all (fun c => c.state.settled) then
    (p.setModes { p.modes with settling := false }).writeModeNow
  else p

end Sys2Proof.Machine
end

