-- ==== Sys2Proof/Machine/Report.lean ====
section
/-! DEFINITION. The journal writer and the alert unit's board, which call each other: a dropped record raises JOURNAL_GAP (R167),
and a raise hands the writer an ALERT record (R133). A raise is whole before the next begins (R116), so a JOURNAL_GAP raise waits,
counted in `gapRaises`, until the raise in progress is. -/

namespace Sys2Proof.Machine

/-! ### The journal writer (Chapter 10) -/

/-- Occupancy in words (R166). -/
def Journal.occupancy (j : Journal) (size : Nat) : Nat := (j.fill + size - j.empty) % size

/-- Free space in words (R166). -/
def Journal.free (j : Journal) (size : Nat) : Nat := size - 1 - j.occupancy size

/-- Start the stale timer if it is stopped and has a time (R171, first row). -/
def Journal.startStale (j : Journal) (now : Time) (staleTime : Nat) : Journal :=
  if staleTime = 0 then j
  else match j.staleDue with
    | some _ => j
    | none => { j with staleDue := some (after now staleTime) }

/-- Write J_STATE (13.1). -/
def Part.writeJState (p : Part) : Part := p.writeRegion (fun l => l.pointers + 3) [word (flag p.journal.throttled)]
/-- Write J_GAP (13.1). -/
def Part.writeJGap (p : Part) : Part := p.writeRegion (fun l => l.pointers + 2) [p.journal.gap]
/-- Write J_FILL (13.1). -/
def Part.writeJFill (p : Part) : Part := p.writeRegion (fun l => l.pointers) [word p.journal.fill]

/-- After a placement: the new fill pointer, J_FILL, the stale timer (R171), the attention checks (R170) and the high mark (R172). -/
def Part.placed (p : Part) (l : Layout) (fill : Nat) (immediate : Bool) : Part :=
  let before : Nat := p.journal.occupancy l.journalSize
  let j : Journal := { p.journal with fill := fill }
  let now : Nat := j.occupancy l.journalSize
  let p := (p.setJournal (if before = 0 ∧ 0 < now then j.startStale p.time l.staleTime else j)).writeJFill
  let p := if (before < l.trigger ∧ l.trigger ≤ now) ∨ immediate = true then p.attendJournal else p
  if p.journal.throttled = false ∧ l.highMark ≤ now then
    (p.setJournal { p.journal with throttled := true }).writeJState
  else p

/-- Place a record at the fill pointer, with a PAD on a wrap; `none` when it does not fit (R166). DESIGN CHOICE (log entry 47): its words
are written in ascending order, a PAD before them and J_FILL after, which decides the word that an armed injection alters (R194). -/
def Part.place (p : Part) (r : Record) : Option Part :=
  match p.run.layout with
  | none => none
  | some l =>
    let size := l.journalSize
    let fill := p.journal.fill
    let free := p.journal.free size
    if fill + r.length ≤ size ∧ r.length ≤ free then
      some ((p.writeAll (l.journal + fill) r.words).placed l ((fill + r.length) % size) r.immediate)
    else if fill < size ∧ size < fill + r.length ∧ (size - fill) + r.length ≤ free then
      some (((p.write (l.journal + fill) padWord).writeAll l.journal r.words).placed l r.length r.immediate)
    else none

/-- A record is dropped (R167): the gap count rises, J_GAP is written, and the first drop calls for a JOURNAL_GAP raise. -/
def Part.dropRecord (p : Part) : Part :=
  let j := p.journal
  (p.setJournal { j with gap := satInc j.gap, gapRaises := if j.gap = 0 then j.gapRaises + 1 else j.gapRaises }).writeJGap

/-- Place a record or drop it (R166, R167). -/
def Part.placeOrDrop (p : Part) (r : Record) : Part := (p.place r).getD p.dropRecord

/-- The writer takes a record handed to it (R168, R174): with a gap pending, its GAP record goes first. DESIGN CHOICE (log entry 36): a
GAP record carries the gallery time of its placement. -/
def Part.writeRecord (p : Part) (r : Record) : Part :=
  if !p.active then p
  else if p.journal.gap = 0 then p.placeOrDrop r
  else match p.place (gapRecord p.journal.gap p.time) with
    | some q => ((q.setJournal { q.journal with gap := 0 }).writeJGap).placeOrDrop r
    | none => p.dropRecord

/-! ### The board (Chapter 7) -/

/-- The board index of the entry with a code and source, if one is in use (R116). -/
def Board.find (b : Board) (code : AlertCode) (src : Source) : Option (Fin 32) :=
  (List.finRange 32).find? (fun i => match b.entries[i] with
    | some e => e.code == code && e.source == src
    | none => false)

/-- The free entry with the lowest index (R118). -/
def Board.freeIndex (b : Board) : Option (Fin 32) := (List.finRange 32).find? (fun i => b.entries[i].isNone)

/-- The earliest-made entry that satisfies a test (R119). -/
def Board.oldest (b : Board) (t : Entry → Bool) : Option (Fin 32) :=
  b.made.find? (fun i => match b.entries[i] with | some e => t e | none => false)

/-- The entry to evict: the earliest of the first class that holds any (R119). -/
def Board.victim (b : Board) : Option (Fin 32) :=
  match b.oldest (fun e => e.severity == .info && e.state == .lapsed) with
  | some i => some i
  | none =>
    match b.oldest (fun e => e.severity == .info) with
    | some i => some i
    | none => b.oldest (fun e => e.severity == .attend && e.state == .held)

/-- Put an entry, made now, at an index (R118). -/
def Board.make (b : Board) (i : Fin 32) (e : Entry) : Board :=
  { b with entries := b.entries.set i (some e), made := b.made.filter (· ≠ i) ++ [i] }

/-- Change an entry in place. -/
def Board.change (b : Board) (i : Fin 32) (e : Entry) : Board := { b with entries := b.entries.set i (some e) }

/-- Take an entry off the board; `clearOverflow` unless it is evicted (R121). -/
def Board.drop (b : Board) (i : Fin 32) (clearOverflow : Bool) : Board :=
  { entries := b.entries.set i none, made := b.made.filter (· ≠ i), overflow := b.overflow && !clearOverflow }

/-- Write a board entry to its place (R131, 13.6). -/
def Part.writeEntry (p : Part) (i : Fin 32) : Part :=
  p.writeRegion (fun l => l.board + 4 + 8 * i.val) (entryWords p.board.entries[i])

/-- Write the header if it differs from the one before, or if `always` (R131). -/
def Part.writeHeader (p : Part) (before : List Word) (always : Bool) : Part :=
  if always || p.board.header != before then p.writeRegion (fun l => l.board) p.board.header else p

/-- Make a change of the board seen: entry `i` and the header are written, and the rest timer's URGENT condition is looked at
when it changed (R126, R131, R144). -/
def Part.changeBoard (p : Part) (b : Board) (i : Fin 32) (headerAlways : Bool) : Part :=
  let before := p.board
  let q := ((p.setBoard b).writeEntry i).writeHeader before.header headerAlways
  if before.urgent = b.urgent then q else q.restEval

/-- ATTEND or URGENT. -/
def Severity.calls (s : Severity) : Bool := s != .info

/-- The higher of two severities (R117). -/
def Severity.max (a b : Severity) : Severity := if a.code < b.code then b else a

/-- Escalation due time of an entry (R127). -/
def Entry.escalateDue (e : Entry) (escalateTime : Nat) : Time := after e.first (escalateTime * 1000)

/-- An entry reaches its due time: ESCALATED is set (R127). -/
def Part.escalate (p : Part) (i : Fin 32) (e : Entry) : Part :=
  let e' := { e with escalated := true, last := p.time }
  let q := (p.changeBoard (p.board.change i e') i false).attendAlert
  q.writeRecord (alertRecord (some i) .escalated e' e'.state.code q.board.overflow q.time)

/-- An entry that may escalate and has not (R127): ATTEND or URGENT, OPEN or LAPSED, with an escalate time. -/
def Entry.mayEscalate (e : Entry) (escalateTime : Nat) : Bool :=
  decide (escalateTime ≠ 0) && e.severity.calls && e.unacked && !e.escalated

/-- A raise merges into the entry with its code and source (R117). An entry whose severity rises past its due time escalates
at once (R127). -/
def Part.merge (p : Part) (i : Fin 32) (e : Entry) (sev : Severity) : Part :=
  let reopened := e.state == .lapsed && e.code.condition
  let e' := { e with count := satInc e.count, last := p.time, severity := e.severity.max sev,
                     state := if reopened then .opened else e.state }
  let q := p.changeBoard (p.board.change i e') i false
  let rose := e'.severity != e.severity
  let q := if (reopened && e'.severity.calls) || (rose && e'.severity.calls) then q.attendAlert else q
  let q := q.writeRecord (alertRecord (some i) (if reopened then .reopened else .merged) e' e'.state.code q.board.overflow q.time)
  match q.run.layout with
  | some l =>
    if rose && e'.mayEscalate l.escalateTime && reached q.time (e'.escalateDue l.escalateTime) then q.escalate i e'
    else q
  | none => q

/-- The entry a raise makes (R118). -/
def Entry.fresh (code : AlertCode) (src : Source) (zone : Zone) (sev : Severity) (now : Time) : Entry :=
  { code := code, source := src, zone := zone, severity := sev,
    state := if code.condition then .opened else .lapsed,
    escalated := false, count := 1, first := now, last := now }

/-- A raise makes an entry at a free index (R118). -/
def Part.makeEntry (p : Part) (i : Fin 32) (e : Entry) : Part :=
  let q := p.changeBoard (p.board.make i e) i true
  let q := if e.severity.calls then q.attendAlert else q
  q.writeRecord (alertRecord (some i) .raised e e.state.code q.board.overflow q.time)

/-- An entry is evicted (R119): it leaves the board, is written free and journaled EVICTED. The header is written with the entry
that takes its index (R119: the count does not change). -/
def Part.evict (p : Part) (i : Fin 32) (e : Entry) : Part :=
  let q := (p.setBoard (p.board.drop i false)).writeEntry i
  q.writeRecord (alertRecord (some i) .evicted e 0 q.board.overflow q.time)

/-- A raise with no room (R120). -/
def Part.notBoarded (p : Part) (e : Entry) : Part :=
  let q :=
    if e.severity.calls then
      ((p.setBoard { p.board with overflow := true }).writeHeader p.board.header false).attendAlert
    else p
  q.writeRecord (alertRecord none .notBoarded e 0 q.board.overflow q.time)

/-- One raise, whole but for the JOURNAL_GAP raises its dropped records call for (R115 to R120). The answer is the board index of the
entry made or merged into, none if NOT_BOARDED; a raise that reaches the unit outside RUNNING and STOPPING is discarded (R115). -/
def Part.raiseOne (p : Part) (code : AlertCode) (src : Source) (zone : Zone)
    (sev : Severity) : Part × Option (Fin 32) :=
  if !p.active then (p, none)
  else
    let e := Entry.fresh code src zone sev p.time
    match p.board.find code src with
    | some i =>
      (match p.board.entries[i] with
       | some old => (p.merge i old sev, some i)
       | none => (p, some i))
    | none =>
      match p.board.freeIndex with
      | some i => (p.makeEntry i e, some i)
      | none =>
        match p.board.victim with
        | some i =>
          (match p.board.entries[i] with
           | some old => ((p.evict i old).makeEntry i e, some i)
           | none => (p.makeEntry i e, some i))
        | none => (p.notBoarded e, none)

/-! ### JOURNAL_GAP (R167) -/

/-- One JOURNAL_GAP raise that was waiting is made. -/
def Part.raiseGap (p : Part) : Part :=
  ((p.setJournal { p.journal with gapRaises := p.journal.gapRaises - 1 }).raiseOne .journalGap .none .all .info).1

/-- The JOURNAL_GAP raises that wait are made, each whole before the next; `n` bounds them. -/
def Part.raiseGaps : Nat → Part → Part
  | 0, p => p
  | n + 1, p => if p.journal.gapRaises = 0 then p else p.raiseGap.raiseGaps n

/-- What was in progress is whole, and, while the blocks work (R115), the JOURNAL_GAP raises that waited for it are made. A raise after
the first is called for only once a GAP record of four words has been placed (R168), and a record of at most seven words is only dropped
when at most twelve are free, so five suffice (log entry 11). -/
def Part.whole (p : Part) : Part := if p.active then p.raiseGaps 5 else p

/-- Hand a record to the journal writer (R165 to R168, R174). -/
def Part.hand (p : Part) (r : Record) : Part := (p.writeRecord r).whole

/-- Raise an alert (R116). -/
def Part.raiseFull (p : Part) (code : AlertCode) (src : Source) (zone : Zone) (sev : Severity) : Part × Option (Fin 32) :=
  ((p.raiseOne code src zone sev).1.whole, (p.raiseOne code src zone sev).2)

/-- Raise an alert whose answer the raiser does not use (R116). -/
def Part.raiseAlert (p : Part) (code : AlertCode) (src : Source) (zone : Zone) (sev : Severity) : Part :=
  (p.raiseFull code src zone sev).1

/-- Hand the writer a PRESS record, with its input's ALWAYS_JOURNAL flag (R172): while THROTTLED an ordinary input's record is
only counted. -/
def Part.handPress (p : Part) (i : Nat) (always : Bool) (r : Record) : Part :=
  if p.active && p.journal.throttled && !always then
    p.setJournal { p.journal with
      coalesced := sparseSet 0 p.journal.coalesced i (satInc (sparseGet 0 p.journal.coalesced i)) }
  else p.hand r

/-- The end of a condition (R122). -/
def Part.condEnd (p : Part) (code : AlertCode) (src : Source) : Part :=
  if !p.active then p
  else match p.board.find code src with
    | none => p
    | some i =>
      match p.board.entries[i] with
      | none => p
      | some e =>
        match e.state with
        | .opened =>
          let e' := { e with state := .lapsed, last := p.time }
          let q := p.changeBoard (p.board.change i e') i false
          q.hand (alertRecord (some i) .lapsed e' e'.state.code q.board.overflow q.time)
        | .held =>
          let q := p.changeBoard (p.board.drop i true) i true
          q.hand (alertRecord (some i) .removed { e with last := p.time } 0 q.board.overflow q.time)
        | .lapsed => p

/-- Acknowledge an entry (R123), without the report to the guard monitor. -/
def Part.ackBoard (p : Part) (i : Fin 32) (e : Entry) : Part :=
  match e.state with
  | .opened =>
    let e' := { e with state := .held, escalated := false, last := p.time }
    let q := p.changeBoard (p.board.change i e') i true
    q.hand (alertRecord (some i) .acked e' e'.state.code q.board.overflow q.time)
  | .lapsed =>
    let q := p.changeBoard (p.board.drop i true) i true
    q.hand (alertRecord (some i) .acked { e with last := p.time, escalated := false } 0 q.board.overflow q.time)
  | .held => p

end Sys2Proof.Machine
end

