-- ==== Sys2Proof/Machine/Protect.lean ====
section
/-! DEFINITION. Memory protection (Chapter 12): judged reads, capture and counts, the scrubber, the ZECNT and ZEINJ writes; and
the journal's stale timer and the escalation of alerts, the two other things that reach the host's attention by themselves. -/

namespace Sys2Proof.Machine

/-- A read's result: the word returned to the agent, whether it was UNCORRECTED, and the part after it. -/
structure ReadResult where
  value : Word
  bad : Bool
  part : Part
  deriving DecidableEq, Repr

/-- `a` lies in the region of `size` words at `base`. -/
def inRegion (a base size : Nat) : Bool := decide (base ≤ a ∧ a < base + size)

/-- The source of a MEMORY_UNCORRECTED raise: the region that holds the word under the snapshot (R191). -/
def Part.regionOf (p : Part) (a : Nat) : Source :=
  match p.run.layout with
  | none => .none
  | some l =>
    if a < 32 then .region 0
    else if inRegion a l.pointers 8 then .region 1
    else if inRegion a l.orders (8 * l.slotCount) then .region 2
    else if inRegion a l.bindings (8 * l.entryCount) then .region 3
    else if inRegion a l.inputs (16 + 6 * l.inputCount) then .region 4
    else if inRegion a l.guards 32 then .region 5
    else if inRegion a l.params 128 then .region 6
    else if inRegion a l.status 96 then .region 7
    else if inRegion a l.stateMap (l.inputCount + 48) then .region 8
    else if inRegion a l.board 260 then .region 9
    else if inRegion a l.journal l.journalSize then .region 10
    else .none

/-- Offer an address to ZECA, and count a corrected read (R188, R190). -/
def Protection.noteCorrected (q : Protection) (captureLast : Bool) (a : Nat) : Protection :=
  { q with corrected := satInc q.corrected, cv := true,
           zeca := if q.cv && !captureLast then q.zeca else BitVec.ofNat 15 a }

/-- Offer an address to ZEUA, and count an uncorrected read (R188, R190). -/
def Protection.noteUncorrected (q : Protection) (captureLast : Bool) (a : Nat) : Protection :=
  { q with uncorrected := satInc q.uncorrected, uv := true,
           zeua := if q.uv && !captureLast then q.zeua else BitVec.ofNat 15 a }

/-- A CORRECTED read's effects (R188): write-back, count, capture, record, and MEMORY_WEAR at the sixteenth. -/
def Part.correctedRead (p : Part) (agent : Agent) (a : Nat) (w : Word) : Part :=
  let q := p.storeGood a w
  let q := q.setProt (q.prot.noteCorrected q.run.captureLast a)
  let q := q.hand (memoryRecord false a agent q.time)
  if p.prot.corrected + 1 = Config.wearCount then q.raiseAlert .memoryWear .none .all .info else q

/-- An UNCORRECTED read's effects (R188, R191): count, capture, MEMERR, record, MEMORY_UNCORRECTED. -/
def Part.uncorrectedRead (p : Part) (agent : Agent) (a : Nat) : Part :=
  let q := (p.setProt (p.prot.noteUncorrected p.run.captureLast a)).attendMemerr
  let q := q.hand (memoryRecord true a agent q.time)
  q.raiseAlert .memoryUncorrected (q.regionOf a) .all .urgent

/-- A read of one word, judged (R187, R188). -/
def Part.readWord (p : Part) (agent : Agent) (a : Nat) : ReadResult :=
  let c := p.mem.cell a
  match c.upset with
  | .none => { value := c.data, bad := false, part := p }
  | .one _ => { value := c.data, bad := false, part := p.correctedRead agent a c.data }
  | .two _ => { value := c.data, bad := true, part := p.uncorrectedRead agent a }
  | .address => { value := c.data, bad := true, part := p.uncorrectedRead agent a }

/-- What a reader of several words gets: the words read, the index of the first uncorrected one, the part after. -/
structure ReadAll where
  words : List Word
  firstBad : Option Nat
  part : Part
  deriving DecidableEq, Repr

/-- Read `n` words in ascending order, all of them (the order taker, the layout check: R189). -/
def Part.readEvery (p : Part) (agent : Agent) (a : Nat) : Nat → ReadAll
  | 0 => { words := [], firstBad := none, part := p }
  | n + 1 =>
    let rs := p.readEvery agent a n
    let r := rs.part.readWord agent (a + n)
    { words := rs.words ++ [r.value],
      firstBad := match rs.firstBad with | some i => some i | none => if r.bad then some n else none,
      part := r.part }

/-- Read words in ascending order, stopping at the first uncorrected one (the configuration loader: R189). -/
def Part.readUntilBad (p : Part) (agent : Agent) (a : Nat) : Nat → ReadAll
  | 0 => { words := [], firstBad := none, part := p }
  | n + 1 =>
    let rs := p.readUntilBad agent a n
    match rs.firstBad with
    | some _ => rs
    | none =>
      let r := rs.part.readWord agent (a + n)
      { words := rs.words ++ [r.value], firstBad := if r.bad then some n else none, part := r.part }

/-- One scrub (R192): that of the present millisecond. -/
def Part.scrub (p : Part) : Part :=
  let a := p.prot.scrubPos
  let c := p.mem.cell a.val
  let q :=
    match c.upset with
    | .none => p.storeGood a.val c.data
    | _ => (p.readWord .scrub a.val).part
  (q.setProt { q.prot with scrubPos := a + 1 }).setClock { q.clock with scrubbed := true }

/-- SCRUB (R192): while RUNNING the scrubber handles one word and moves on, once in each millisecond of gallery time; in every other run
state it makes no scrub. -/
def execScrub (s : State) : Host.Outcome State Fault Refusal :=
  done s (if s.part.scrubOwed then s.part.scrub else s.part)

/-- ZECNT written (R190): counts and valid flags cleared; the addresses stay. -/
def Part.clearCounts (p : Part) : Part :=
  p.setProt { p.prot with corrected := 0, uncorrected := 0, cv := false, uv := false }

/-- CLEAR_ERROR_COUNTS (R190): any host write to ZECNT, whatever its data; discarded while a reset holds the part (R175). -/
def execClearErrorCounts (_v : Word) (s : State) : Host.Outcome State Fault Refusal :=
  done s (if s.part.free then s.part.clearCounts else s.part)

/-- The fields of a word written to ZEINJ (R193, R196): MODE code 3 is stored as ADDRESS, BIT modulo 22. -/
def Injection.ofWord (v : Word) : Injection :=
  { armed := v.getLsbD 0,
    mode := match bits v 1 2 with | 0 => .oneBit | 1 => .twoBit | _ => .address,
    bit := Fin.ofNat 22 (bits v 3 5),
    partTarget := v.getLsbD 8 }

/-- ZEINJ written (R193). -/
def Part.writeInjection (p : Part) (v : Word) : Part := p.setProt { p.prot with injection := .ofWord v }

/-- ARM_INJECTION (R193): a ZEINJ write with ARM set. -/
def execArmInjection (v : Word) (s : State) : Host.Outcome State Fault Refusal :=
  done s (if s.part.free then s.part.writeInjection (v ||| 1) else s.part)

/-- DISARM_INJECTION (R193): a ZEINJ write with ARM clear. -/
def execDisarmInjection (v : Word) (s : State) : Host.Outcome State Fault Refusal :=
  done s (if s.part.free then s.part.writeInjection (v &&& 0xFFFE) else s.part)

/-- STALE_TIMER_EXPIRY (R171): ZATN JOURNAL is set and the timer restarts. -/
def execStaleTimerExpiry (s : State) : Host.Outcome State Fault Refusal :=
  done s (match s.part.atTimer s.part.journal.staleDue, s.part.run.layout with
    | some p, some l => (p.attendJournal).setJournal { p.journal with staleDue := some (after p.time l.staleTime) }
    | _, _ => s.part)

/-- ESCALATION (R127): an unacknowledged ATTEND or URGENT entry reaches its due time. -/
def execEscalation (index : Fin 32) (s : State) : Host.Outcome State Fault Refusal :=
  done s (match s.part.board.entries[index], s.part.run.layout with
    | some e, some l =>
      if e.mayEscalate l.escalateTime then
        (match s.part.atDue (e.escalateDue l.escalateTime) with
         | some p => (p.escalate index e).whole
         | none => s.part)
      else s.part
    | _, _ => s.part)

end Sys2Proof.Machine
end

