-- ==== Sys2Proof/Machine/Groups.lean ====
section
/-! DEFINITION. Configuration groups: the words of each record decoded (Chapter 13) and checked by its rule (R22, R43, R61, R103),
and the layout block's check (R177). -/

namespace Sys2Proof.Machine

/-- A field lies in a range. -/
def within (x lo hi : Nat) : Bool := decide (lo ≤ x ∧ x ≤ hi)

/-- A signed field lies in a range. -/
def withinI (x lo hi : Int) : Bool := decide (lo ≤ x ∧ x ≤ hi)

/-- Words read as a group: item `i` of `n` words, word `k`. -/
def item (ws : List Word) (n i k : Nat) : Word := wordAt ws (n * i + k)

/-! ### INPUTS (R22, 13.4) -/

/-- The bit rate a code names (13.4). -/
def BitRate.ofCode : Nat → Option BitRate
  | 0 => some .b38400 | 1 => some .b57600 | 2 => some .b115200 | _ => none

/-- Line record l, if it passes R22. -/
def lineOf (ws : List Word) (l : Nat) : Option LineRecord :=
  let w0 := item ws 4 l 0
  match BitRate.ofCode (bits (item ws 4 l 1) 0 2) with
  | some rate =>
    if bits w0 4 4 ≤ 12 then
      some { enable := bit w0 0, stations := bits w0 4 4, rate := rate, zone := zoneOfCode (bits w0 8 2) }
    else none
  | none => none

/-- Input definition i, from the group's words (13.4). -/
def inputOf (ws : List Word) (i : Nat) : InputDef :=
  let w := fun k => wordAt ws (16 + 6 * i + k)
  { line := Fin.ofNat 4 (bits (w 0) 0 2), station := bits (w 0) 4 4, key := Fin.ofNat 8 (bits (w 0) 8 3),
    attendant := bit (w 0) 11, active := bit (w 0) 12, wake := bit (w 0) 13, wakePass := bit (w 0) 14,
    alwaysJournal := bit (w 0) 15,
    debounce := bits (w 1) 0 4, baseLamp := .ofCode (bits (w 1) 4 2), restLamp := .ofCode (bits (w 1) 6 2),
    zone := zoneOfCode (bits (w 1) 8 2),
    holdTime := (w 2).toNat, repeatInterval := (w 3).toNat,
    stuckTime := bits (w 4) 0 10, stormLimit := bits (w 4) 10 6,
    stormWindow := bits (w 5) 0 6, stormCool := bits (w 5) 6 10 }

/-- The fields of an active definition lie in their ranges (2.1, R22). -/
def InputDef.inRange (d : InputDef) : Bool :=
  within d.station 1 12 && within d.debounce 1 8 && within d.holdTime 100 10000 && within d.repeatInterval 50 5000
    && within d.stuckTime 0 600
    && (d.stormLimit == 0 || (within d.stormLimit 2 60 && within d.stormWindow 1 60 && within d.stormCool 1 600))

/-- An active definition names the same key as another (R22). -/
def InputDef.clashes (e d : InputDef) : Bool := e.active && e.line == d.line && e.station == d.station && e.key == d.key

/-- An active definition passes R22, after the earlier ones. -/
def InputDef.passes (lines : Vector LineRecord 4) (earlier : List InputDef) (d : InputDef) : Bool :=
  d.inRange && decide (d.station ≤ lines[d.line].stations) && !earlier.any (fun e => e.clashes d)

/-- The lowest number of a definition that fails R22. -/
def badInput (lines : Vector LineRecord 4) (earlier : List InputDef) : Nat → List InputDef → Option Nat
  | _, [] => none
  | i, d :: rest =>
    if d.active && !d.passes lines earlier then some i else badInput lines (earlier ++ [d]) (i + 1) rest

/-- A validated INPUTS group. -/
structure InputsGroup where
  lines : Vector LineRecord 4
  defs : List InputDef
  deriving DecidableEq, Repr

/-- The INPUTS group, or the offender's number (R22): an input's, or 256 plus a line's. -/
def inputsOf (count : Nat) (ws : List Word) : Except Nat InputsGroup :=
  match lineOf ws 0, lineOf ws 1, lineOf ws 2, lineOf ws 3 with
  | some a, some b, some c, some d =>
    let lines : Vector LineRecord 4 := #v[a, b, c, d]
    let defs := (List.range count).map (inputOf ws)
    (match badInput lines [] 0 defs with
     | some i => .error i
     | none => .ok { lines := lines, defs := defs })
  | none, _, _, _ => .error 256
  | _, none, _, _ => .error 257
  | _, _, none, _ => .error 258
  | _, _, _, none => .error 259

/-! ### GUARDS (R103, 13.5) -/

/-- Guard record g (13.5). -/
def guardOf (ws : List Word) (g : Nat) : GuardRecord :=
  let w0 := item ws 4 g 0
  { enable := bit w0 0, activeHigh := bit w0 1, cut := bit w0 2, attended := bit w0 3,
    zone := zoneOfCode (bits w0 4 2), mask := BitVec.ofNat 8 (bits w0 8 8),
    filter := (item ws 4 g 1).toNat, clearTime := (item ws 4 g 2).toNat }

/-- A guard record passes R103. -/
def GuardRecord.passes (r : GuardRecord) : Bool := !r.enable || (within r.filter 1 50 && within r.clearTime 0 10000)

/-- The GUARDS group, or the number of the first record that fails (R103). -/
def guardsOf (ws : List Word) : Except Nat (Vector GuardRecord 8) :=
  match (List.range 8).find? (fun g => !(guardOf ws g).passes) with
  | some g => .error g
  | none => .ok (Vector.ofFn (fun g => guardOf ws g.val))

/-! ### BINDINGS (R43, 13.3) -/

/-- The busy policy a code names (13.3). -/
def BusyPolicy.ofCode : Nat → Option BusyPolicy
  | 0 => some .queue | 1 => some .replace | 2 => some .ignore | _ => none

/-- A channel operand of 8 bits, if it names a channel. -/
def channelOf (n : Nat) : Option (Fin 8) := if n < 8 then some (Fin.ofNat 8 n) else none

/-- The action of entry e with its operands (13.3), if R43's checks of it pass. A LAMP duration above 255 s is taken as 255 s (3.1);
a LAMP pattern is the low two bits of its word (log entry 14). -/
def actionOf (ws : List Word) (e : Nat) : Option Action :=
  let w := item ws 8 e
  let operand := bits (w 3) 0 8
  let value := long (w 4) (w 5)
  let scale := bits (w 6) 0 8
  match bits (w 0) 8 4 with
  | 1 => (channelOf operand).map (fun c => .moveTo c value scale)
  | 2 => (channelOf operand).map (fun c => .runHeld c value scale)
  | 3 => (channelOf operand).map (fun c => .stepBy c value scale)
  | 4 => some (.lamp (BitVec.ofNat 8 operand) (.ofCode (bits (w 4) 0 2)) (min (w 5).toNat 255))
  | 5 => (Zone.ofCode operand).map .call
  | 6 => (Zone.ofCode operand).map .ackZone
  | 7 => (Mode.ofCode operand).map .setMode
  | _ => none

/-- The busy policy is used, and so checked (R43). -/
def Action.usesBusy : Action → Bool
  | .moveTo _ _ _ => true | .stepBy _ _ _ => true | _ => false

/-- The action answers PRESS alone (R43). -/
def Action.pressOnly : Action → Bool
  | .runHeld _ _ _ => true | _ => false

/-- Entry e, disabled or enabled, if it passes R43. -/
def bindingOf (ws : List Word) (e : Nat) : Option Binding :=
  let w := item ws 8 e
  if !bit (w 0) 0 then some { entry := none, lockout := none }
  else match actionOf ws e with
    | none => none
    | some a =>
      let gesture := Gesture.ofCode (bits (w 0) 2 2)
      let busy := BusyPolicy.ofCode (bits (w 0) 12 2)
      if (a.usesBusy && busy.isNone) || (a.pressOnly && gesture != .press) then none
      else
        some { entry := some
                 { hostNeeded := bit (w 0) 1, gesture := gesture, modeMask := BitVec.ofNat 4 (bits (w 0) 4 4), action := a,
                   busy := busy.getD .ignore, fallback := .ofCode (bits (w 0) 14 2),
                   input := BitVec.ofNat 8 (bits (w 1) 0 8), lockout := w 2 },
               lockout := none }

/-- The BINDINGS group, or the index of the first entry that fails (R43). -/
def bindingsOf (count : Nat) (ws : List Word) : Except Nat (List Binding) :=
  match (List.range count).find? (fun e => (bindingOf ws e).isNone) with
  | some e => .error e
  | none => .ok ((List.range count).filterMap (bindingOf ws))

/-! ### CHANNEL n (R61, 13.5) -/

/-- The parameter record (13.5). -/
def paramsOf (ws : List Word) : Params :=
  let w := wordAt ws
  { enable := bit (w 0) 0, zone := zoneOfCode (bits (w 0) 1 2),
    maxSpeed := (w 1).toNat, startSpeed := (w 2).toNat, homeSpeed := (w 3).toNat,
    accel := (w 4).toNat + 65536 * bits (w 0) 3 1, decel := (w 5).toNat + 65536 * bits (w 0) 4 1,
    guardDecel := (w 6).toNat + 65536 * bits (w 0) 5 1, homeSearch := (w 7).toNat + 65536 * bits (w 0) 6 5,
    softMin := long (w 8) (w 9), softMax := long (w 10) (w 11), homeOffset := long (w 12) (w 13),
    parkPosition := long (w 14) (w 15) }

/-- The checks of R61 in their order, each with the index it reports. -/
def Params.checks (r : Params) : List (Nat × Bool) :=
  [ (1, within r.maxSpeed 1 20000), (2, within r.startSpeed 10 2000 && decide (r.startSpeed ≤ r.maxSpeed)),
    (3, within r.accel 10 100000), (4, within r.decel 10 100000), (5, within r.guardDecel 10 100000),
    (10, within r.homeSpeed 10 2000), (11, within r.homeSearch 1 2000000),
    (6, withinI r.softMin (-1000000) 1000000),
    (7, withinI r.softMax (-1000000) 1000000 && decide (r.softMin < r.softMax)),
    (8, withinI r.homeOffset r.softMin r.softMax), (9, withinI r.parkPosition r.softMin r.softMax) ]

/-- The index of the first check that fails (R61); none is made of a disabled record. -/
def Params.offender (r : Params) : Option Nat :=
  if r.enable then (r.checks.find? (fun c => !c.2)).map Prod.fst else none

/-- A CHANNEL group, or the index of the first field that fails (R61). -/
def channelParamsOf (ws : List Word) : Except Nat Params :=
  match (paramsOf ws).offender with
  | some i => .error i
  | none => .ok (paramsOf ws)

/-! ### The layout block (R177) -/

/-- The layout block's words as a snapshot (13.1). -/
def layoutOf (ws : List Word) : Layout :=
  let w := fun i => (wordAt ws i).toNat
  { pointers := w 2, orders := w 3, slotCount := w 4, bindings := w 5, entryCount := w 6, inputs := w 7, inputCount := w 8,
    guards := w 9, params := w 10, status := w 11, stateMap := w 12, board := w 13, journal := w 14, journalSize := w 15,
    trigger := w 16, highMark := w 17, lowMark := w 18, staleTime := w 19, restTime := w 20, escalateTime := w 21,
    watchWindow := w 22, silentRest := w 23 == 1 }

/-- The regions a layout places: base and size (R177). -/
def Layout.regions (l : Layout) : List (Nat × Nat) :=
  [ (l.pointers, 8), (l.orders, 8 * l.slotCount), (l.bindings, 8 * l.entryCount), (l.inputs, 16 + 6 * l.inputCount),
    (l.guards, 32), (l.params, 128), (l.status, 96), (l.stateMap, l.inputCount + 48), (l.board, 260),
    (l.journal, l.journalSize) ]

/-- A time of 0, or in its range. -/
def offOr (x lo hi : Nat) : Bool := x == 0 || within x lo hi

/-- Check 4: the counts (R177). -/
def Layout.countsOk (l : Layout) : Bool :=
  within l.slotCount 8 64 && within l.entryCount 1 256 && within l.inputCount 1 256 && within l.journalSize 256 8192

/-- Check 5: the regions lie in 0x0020 to 0x5FFF, the times and the silent action in their ranges (R177). -/
def Layout.rangesOk (l : Layout) (silentAction : Nat) : Bool :=
  l.regions.all (fun r => decide (0x20 ≤ r.1 ∧ r.1 + r.2 ≤ Config.memWords))
    && offOr l.staleTime 10 10000 && offOr l.restTime 10 3600 && offOr l.escalateTime 10 3600
    && offOr l.watchWindow 100 60000 && decide (silentAction ≤ 1)

/-- Two regions share no word. -/
def apart (r q : Nat × Nat) : Bool := decide (r.1 + r.2 ≤ q.1) || decide (q.1 + q.2 ≤ r.1)

/-- Regions of a list are apart, two by two. -/
def allApart : List (Nat × Nat) → Bool
  | [] => true
  | r :: rest => rest.all (apart r) && allApart rest

/-- Check 7: the trigger and the marks (R177). -/
def Layout.marksOk (l : Layout) : Bool :=
  within l.trigger 1 (l.journalSize - 1) && decide (1 ≤ l.lowMark) && decide (l.lowMark < l.highMark)
    && decide (l.highMark ≤ l.journalSize - 1)

/-- The layout block's check after its words have been read: the fault code of the first check that fails (R177). -/
def checkLayout (ws : List Word) (memoryBad : Bool) : Except FaultCode Layout :=
  let l := layoutOf ws
  if memoryBad then .error .memory
  else if wordAt ws 0 ≠ Config.signature then .error .signature
  else if wordAt ws 1 ≠ 1 then .error .version
  else if !l.countsOk then .error .count
  else if !l.rangesOk (wordAt ws 23).toNat then .error .range
  else if !allApart l.regions then .error .overlap
  else if !l.marksOk then .error .marks
  else .ok l

end Sys2Proof.Machine
end

