-- ==== Sys2Proof/Machine/Profile.lean ====
section
/-! DEFINITION. The profile generator's arithmetic (Chapter 5), over exact integers (R101: nothing is reduced to a narrower width). -/

namespace Sys2Proof.Machine

/-- Distance to a position, measured in the direction of travel (R91). -/
def Profile.ahead (f : Profile) (x : Int) : Int := if f.positive then x - f.p else f.p - x

/-- The position after travelling a distance in the direction of travel (R93). -/
def Profile.moved (f : Profile) (d : Nat) : Int := if f.positive then f.p + d else f.p - d

/-- Bd(v): distance needed to come down from v at decel (R91). -/
def Params.stopDistance (pr : Params) (v : Nat) : Nat := v * v / (2 * pr.b)

/-- The scale used: 1 to 100, and at most 25 in SERVICE (R88). -/
def usedScale (scale : Nat) (service : Bool) : Nat :=
  let c := if scale = 0 then 1 else if 100 < scale then 100 else scale
  if service && decide (25 < c) then 25 else c

/-- The cruise cap Vc (R88). -/
def Params.cap (pr : Params) (scale : Nat) (service : Bool) : Nat :=
  max pr.vs (pr.vmax * usedScale scale service / 100)

/-- The effective target of an asked-for target (R89). -/
def Params.limit (pr : Params) (asked : Int) : Int := max pr.softMin (min pr.softMax asked)

/-- The soft limit that a position lies beyond, in pq (R94). -/
def Params.beyond (pr : Params) (x : Int) : Option Int :=
  if pr.softMax * Config.step < x then some (pr.softMax * Config.step)
  else if x < pr.softMin * Config.step then some (pr.softMin * Config.step)
  else none

/-- The registers of a channel that comes to rest (R83). -/
def Profile.atRest (f : Profile) : Profile :=
  { f with v := 0, tickV := 0, phase := .none, latch := false, target := none, clamped := false, cap := none,
           stopRate := none, stopPoint := none, overrun := false }

/-- Fix the effective target, the clamped register and the cap of a move (R88, R89). -/
def Profile.aim (f : Profile) (pr : Params) (asked : Int) (scale : Nat) (service : Bool) : Profile :=
  { f with target := some (pr.limit asked * Config.step), clamped := decide (pr.limit asked ≠ asked),
           cap := some (pr.cap scale service) }

/-- Start from rest toward the target already fixed (R90). DEDUCED (log entry 49): no tick of the move has left a v yet, so its speed
shows 0 until the first (R86, R80). -/
def Profile.start (f : Profile) (pr : Params) (target : Int) : Profile :=
  { f with positive := decide (f.p < target), v := pr.vs, tickV := 0, phase := .accel, latch := false, overrun := false,
           stopRate := none, stopPoint := none }

/-- How an arrival ends: COMPLETE, or CLAMPED when the clamped register is set (R93). -/
def Profile.arrival (f : Profile) : Termination := if f.clamped then .clamped else .complete

/-- A tick's outcome: the registers after it, and the termination if the move ends with it. -/
structure TickResult where
  prof : Profile
  ended : Option Termination
  deriving DecidableEq, Repr

/-- R91: enter DECEL when the remaining distance is at most Bd(v) + v. -/
def Profile.decelEntry (f : Profile) (pr : Params) (target : Int) : Profile :=
  if !f.latch && (f.phase == .accel || f.phase == .cruise || f.phase == .slow)
      && decide (f.ahead target ≤ (pr.stopDistance f.v + f.v : Nat)) then
    { f with phase := .decel, latch := true }
  else f

/-- R92: the tick's new speed and the phase after it. -/
def Profile.nextSpeed (f : Profile) (pr : Params) (cap : Nat) : Nat × Phase :=
  match f.phase with
  | .accel => let v := min cap (f.v + pr.a); (v, if v = cap then .cruise else .accel)
  | .slow => let v := max cap (f.v - pr.b); (v, if v = cap then .cruise else .slow)
  | .decel => (max pr.vs (f.v - pr.b), .decel)
  | ph => (f.v, ph)

/-- Move P to `x` with speed `v`, under the soft-limit clamp (R94). -/
def Profile.travel (f : Profile) (pr : Params) (x : Int) (v : Nat) : TickResult :=
  match pr.beyond x with
  | some lim => { prof := { f with p := lim, v := 0 }, ended := some .limited }
  | none => { prof := { f with p := x, v := v, tickV := v }, ended := none }

/-- A tick of a profile move that is not in overrun (R91 to R94). -/
def Profile.tickMove (f : Profile) (pr : Params) (target : Int) (cap : Nat) : TickResult :=
  let f := f.decelEntry pr target
  let (v, ph) := f.nextSpeed pr cap
  let f := { f with phase := ph }
  if f.ahead target ≤ (v : Int) then { prof := { f with p := target, v := 0 }, ended := some f.arrival }
  else f.travel pr (f.moved v) v

/-- The first whole-step position at or beyond P in the direction of travel (R96). -/
def Profile.nextWhole (f : Profile) : Int :=
  if f.positive then -((-f.p) / Config.step) * Config.step else f.p / Config.step * Config.step

/-- The deceleration of the stop in progress (R95). -/
def Profile.rate (f : Profile) (pr : Params) : Nat :=
  match f.stopRate with
  | some .g => pr.g
  | _ => pr.b

/-- A tick of a controlled stop or of an overrun's stop (R95, R96); `halt` says what happens on halting. -/
def Profile.tickStop (f : Profile) (pr : Params) (halt : Profile → TickResult) : TickResult :=
  match f.stopPoint with
  | none =>
    let v := max pr.vs (f.v - f.rate pr)
    let r := f.travel pr (f.moved v) v
    (match r.ended with
     | some _ => r
     | none =>
       if v = pr.vs then
         (if r.prof.nextWhole = r.prof.p then halt { r.prof with v := 0 }
          else { r with prof := { r.prof with stopPoint := some r.prof.nextWhole } })
       else r)
  | some sp =>
    if f.ahead sp ≤ (pr.vs : Int) then halt { f with p := sp, v := 0 }
    else f.travel pr (f.moved pr.vs) pr.vs

/-- An overrun's halt (R98): a fresh move toward the restart target, or its arrival at once. -/
def Profile.restart (pr : Params) (f : Profile) : TickResult :=
  match f.target with
  | some t =>
    if t = f.p then { prof := f, ended := some f.arrival }
    else { prof := f.start pr t, ended := none }
  | none => { prof := f, ended := some .complete }

/-- The tick of a MOVING channel (R91 to R94; in overrun R98). -/
def Profile.tickMoving (f : Profile) (pr : Params) : TickResult :=
  if f.overrun then f.tickStop pr (Profile.restart pr)
  else match f.target, f.cap with
    | some t, some c => f.tickMove pr t c
    | _, _ => { prof := f, ended := none }

/-- The tick of a STOPPING channel (R95, R96): on halting the move ends with its pending termination. -/
def Profile.tickStopping (f : Profile) (pr : Params) (term : Termination) : TickResult :=
  f.tickStop pr (fun g => { prof := g, ended := some term })

/-- A controlled stop is taken (R95). -/
def Profile.beginStop (f : Profile) (guarded : Bool) : Profile :=
  { f with phase := .stoppingDecel, stopRate := some (if guarded then .g else .b), stopPoint := none, latch := false,
           overrun := false }

/-- A replan onto a new asked-for target with a scale (R97, R98). DESIGN CHOICE (log entry 33): where case 1 ends an overrun the stop
rate register becomes absent, of which R97 says nothing. -/
def Profile.replan (f : Profile) (pr : Params) (asked : Int) (scale : Nat) (service : Bool) : Profile :=
  let t := pr.limit asked * Config.step
  let d := f.ahead t
  let aimed := f.aim pr asked scale service
  if 0 < d ∧ (pr.stopDistance f.v : Int) < d then
    let cap := pr.cap scale service
    { aimed with latch := false, overrun := false, stopRate := none, stopPoint := none,
                 phase := if f.v < cap then .accel else if f.v = cap then .cruise else .slow }
  else if f.overrun then aimed
  else { aimed with overrun := true, phase := .stoppingDecel, stopRate := some .b, stopPoint := none, latch := false }

/-- Stepping is stopped at once, the pulses up to S having been issued: P becomes S x 2^24 (R85). -/
def Profile.stopAt (f : Profile) (s : Int) : Profile := { f with p := s * Config.step }

/-- A homing tick (R100): P decreases by Vh; the pulses stop at home_search (R68, R85). Answers P after, and the search count. DESIGN
CHOICE (log entry 45): P stops at the last step that home_search allows, so R85 spaces the tick's pulses by the number left. -/
def Channel.homingTick (c : Channel) (pr : Params) : Int × Nat :=
  if pr.homeSearch ≤ c.search then (c.prof.p, c.search)
  else
    let x := c.prof.p - pr.vh
    let n := (c.endS - stepsOf x).toNat
    if pr.homeSearch ≤ c.search + n then ((c.endS - (pr.homeSearch - c.search : Nat)) * Config.step, pr.homeSearch)
    else (x, c.search + n)

end Sys2Proof.Machine
end

