-- ==== Sys2Proof/Machine/Slots.lean ====
section
/-! DEFINITION. Reports into order slots (9.4) and the hand table's waits (R158). -/

namespace Sys2Proof.Machine

/-- States of a slot's w0 (9.1). -/
inductive SlotState where
  | free | posted | taken | finished | refused
  deriving DecidableEq, Repr

/-- Slot state code (13.2): DONE is `finished`. -/
def SlotState.code : SlotState → Nat
  | .free => 0 | .posted => 1 | .taken => 2 | .finished => 3 | .refused => 4

/-- What the part keeps of a slot; a slot beyond the table has nothing. -/
def Part.slot (p : Part) (i : Nat) : Slot := p.orders.slots.getD i { shadow := .idle, kind := 0, tag := 0 }

/-- Change what the part keeps of a slot. -/
def Part.modSlot (p : Part) (i : Nat) (f : Slot → Slot) : Part :=
  p.setOrders { p.orders with slots := p.orders.slots.modify i f }

/-- Write words of a slot from word `k` on; a slot beyond the table has no words (13.2). -/
def Part.writeSlot (p : Part) (i k : Nat) (ws : List Word) : Part :=
  match p.run.layout with
  | some l => if i < l.slotCount then p.writeAll (l.orders + 8 * i + k) ws else p
  | none => p

/-- Write w0 of a slot (13.2). -/
def Part.writeSlotState (p : Part) (i : Nat) (st : SlotState) (code : Nat) : Part := p.writeSlot i 0 [word (st.code + 256 * code)]

/-- Write w6 and w7 of a slot, its result value. -/
def Part.writeSlotResult (p : Part) (i : Nat) (result : Int) : Part := p.writeSlot i 6 (intWords result)

/-- The kind a SLOT record carries (R161): the order's, and 0 for a refusal MEMORY. -/
def recordKind (st : SlotState) (code : Nat) (kind : Byte) : Byte :=
  if st = .refused ∧ code = RefusalCode.memory.code then 0 else kind

/-- A report (R148, R156, R157, R161): result, w0, shadow REPORTED, SLOT record. -/
def Part.report (p : Part) (i : Nat) (st : SlotState) (code : Nat) (result : Int) : Part :=
  let q := (p.writeSlotResult i result).writeSlotState i st code
  let q := q.modSlot i (fun s => { s with shadow := .reported })
  q.hand (slotRecord i (recordKind st code (q.slot i).kind) (st == .refused) code (q.slot i).tag result q.time)

/-- An order in hand ends (R157). -/
def Part.reportDone (p : Part) (i : Nat) (t : Termination) (result : Int) : Part := p.report i .finished t.code result

/-- The order being taken ends within its take (R155). -/
def Part.endTake (p : Part) (i : Nat) (t : Termination) (result : Int) : Part :=
  (p.setOrders { p.orders with taking := none }).reportDone i t result

/-- The order being taken is refused (R156). -/
def Part.refuse (p : Part) (i : Nat) (code : RefusalCode) (result : Int) : Part :=
  (p.setOrders { p.orders with taking := none }).report i .refused code.code result

/-- The order being taken is placed, and its take ends (R155). -/
def Part.takePlaced (p : Part) : Part := p.setOrders { p.orders with taking := none }

/-- A waiting STOP CONTROLLED notes that a channel has come to rest at S (R158). -/
def HandEntry.count (e : HandEntry) (c : Fin 8) (s : Int) : HandEntry :=
  match e.work with
  | .stop one waiting result =>
    if waiting.contains c then
      { e with work := .stop one (waiting.filter (· ≠ c)) (if one = some c then s else result) }
    else e
  | _ => e

/-- A channel counts as at rest for every STOP CONTROLLED that waits for it (R158). -/
def Part.countStopped (p : Part) (c : Fin 8) (s : Int) : Part :=
  p.setOrders { p.orders with hand := p.orders.hand.map (fun e => e.count c s) }

/-- Put an order into the hand table, in order of taking (R155). -/
def Part.addHand (p : Part) (e : HandEntry) : Part := p.setOrders { p.orders with hand := p.orders.hand ++ [e] }

/-- Take a slot out of the hand table. -/
def Part.dropHand (p : Part) (slot : Nat) : Part :=
  p.setOrders { p.orders with hand := p.orders.hand.filter (fun e => e.slot ≠ slot) }

/-- The hand table's entry of a slot. -/
def Part.handOf (p : Part) (slot : Nat) : Option HandEntry := p.orders.hand.find? (fun e => e.slot == slot)

/-- STOP_WAIT_END (R158): a waiting STOP CONTROLLED whose named channels have all counted ends DONE COMPLETE. -/
def execStopWaitEnd (slot : BitVec 6) (s : State) : Host.Outcome State Fault Refusal :=
  done s (match s.part.handOf slot.toNat with
    | some { slot := i, work := .stop _ [] result } => (s.part.dropHand i).reportDone i .complete result
    | _ => s.part)

end Sys2Proof.Machine
end

