-- ==== Sys2Proof/Machine/Channels.lean ====
section
/-! DEFINITION. Motion channels (Chapter 4): the start and the end of moves, stops, cuts, faults, the motion tick and the
channel inputs. -/

namespace Sys2Proof.Machine

/-! ### Status record and journal (R80, R81) -/

/-- Write a channel's status record, while the blocks work (R80, R82). -/
def Part.writeStatus (p : Part) (c : Fin 8) : Part :=
  if p.active then
    (p.setChan c { p.chan c with lastWrite := p.time }).writeRegion (fun l => l.status + 12 * c.val) (p.chan c).statusWords
  else p

/-- A channel's change of state is told to the journal writer and the mode controller (R81, R142, R144, R145). -/
def Part.tellState (p : Part) (c : Fin 8) (before : ChanState) (cause : Nat) : Part :=
  let x := p.chan c
  if x.state = before then p
  else
    let q := p.hand (channelRecord c before x.state cause x.lost x.s p.time)
    let q := if before.inMotion != x.state.inMotion then q.restEval else q
    let q := if before.inMotion && !x.state.inMotion then q.restNotice else q
    q.settleExam

/-- Make a change of a channel seen: its status record is written when a field other than position and speed changed, or when the
rule at hand says so (`always`), and then its CHANNEL record (R80, R81). -/
def Part.commit (p : Part) (c : Fin 8) (before : Channel) (cause : Nat) (always : Bool) : Part :=
  let q := if always || (p.chan c).published != before.published then p.writeStatus c else p
  q.tellState c before.state cause

/-! ### The pending queue and the end of a move (R63, R65) -/

/-- A move's end is reported to its source: an ORDER move's slot is written DONE (R63, R65). -/
def Part.reportEnd (p : Part) (c : Fin 8) (m : Move) (t : Termination) : Part :=
  match m.source with
  | .order slot => p.reportDone slot t (p.chan c).s
  | _ => p

/-- The pending queue is superseded (R63). -/
def Part.supersedeQueue (p : Part) (c : Fin 8) : Part :=
  let x := p.chan c
  let q := p.setChan c { x with queue := [], moveCount := x.moveCount + BitVec.ofNat 16 x.queue.length }
  x.queue.foldl (fun q m => q.reportEnd c m .superseded) q

/-- The held-move record after a move of a source has ended (R55, R65). -/
def MoveSource.heldAfter (src : MoveSource) (held : Option Byte) : Option Byte :=
  match src with
  | .binding _ _ => none
  | _ => held

/-- The first two steps of a move's end (R65), with the registers of a channel at rest (R83) and the count of R158. -/
def Part.finishMove (p : Part) (c : Fin 8) (t : Termination) : Part :=
  match (p.chan c).current with
  | none => p
  | some m =>
    let q := (p.reportEnd c m t).countStopped c (p.chan c).s
    let x := q.chan c
    q.setChan c { x with current := none, moveCount := x.moveCount + 1, prof := x.prof.atRest, pendingTerm := none,
                         heldMove := m.source.heldAfter x.heldMove }

/-! ### Faults (R77) -/

/-- A cause joins the faults in force (R77). -/
def FaultSet.add (f : FaultSet) : ChanFault → FaultSet
  | .driver => { f with driver := true }
  | .limit => { f with limit := true }
  | .homeFail => { f with homeFail := true }

/-- The alert a cause raises (R77). -/
def ChanFault.alert : ChanFault → AlertCode
  | .driver => .driverFault | .limit => .limitHit | .homeFail => .homeFail

/-- Its severity (R77). -/
def ChanFault.severity : ChanFault → Severity
  | .driver => .urgent | .limit => .attend | .homeFail => .attend

/-- A channel's zone (4.2). -/
def Channel.zone (x : Channel) : Fin 4 :=
  match x.params with
  | some pr => pr.zone
  | none => 0

/-- The position is lost, the park cause cleared, a remembered HELD position discarded (R77 step 1); a driver fault takes EN low
(R75). -/
def Channel.losePosition (x : Channel) (cause : ChanFault) : Channel :=
  { x with lost := true, parkCause := none, heldPark := none, en := x.en && cause != .driver }

/-- The channel stands in FAULT with a further cause (R77 step 3). -/
def Channel.inFault (x : Channel) (cause : ChanFault) : Channel :=
  { x with state := .fault, faults := x.faults.add cause, faultCode := some cause }

/-- Entry to FAULT with a cause (R77). -/
def Part.faultEntry (p : Part) (c : Fin 8) (cause : ChanFault) : Part :=
  let before := p.chan c
  let q := ((p.setChan c (before.losePosition cause)).finishMove c .faulted).supersedeQueue c
  let q := q.setChan c ((q.chan c).inFault cause)
  let q := q.raiseAlert cause.alert (.channel c) (.one before.zone) cause.severity
  q.commit c before cause.cause true

/-! ### Moves begin and end (R64, R65, R67, R141) -/

/-- The position a move asks for, a relative one counted from S (R64 step 1). -/
def Move.asked (m : Move) (s : Int) : Int :=
  match m.target with
  | .absolute x => x
  | .relative d => s + d
  | .absent => s

/-- The park of the mode controller (4.3). -/
def modeParkMove (pr : Params) : Move :=
  { kind := .park, source := .mode, target := .absolute pr.parkPosition, scale := 100 }

/-- The channel when a HOME has become current (R67, R100): position lost, EN high unless FLT holds it low, search count 0. -/
def Channel.homeBegun (x : Channel) (m : Move) : Channel :=
  { x with current := some m, parkCause := none, lost := true, en := !x.pins.flt, search := 0,
           prof := { x.prof.atRest with positive := false } }

/-- The home switch gives the channel its position (R67, R68), and no further pulse of the tick is issued. -/
def Channel.homedAt (x : Channel) (pr : Params) : Channel :=
  { x with lost := false, unissued := 0, prof := { x.prof with p := pr.homeOffset * Config.step } }

/-- The channel when a MOVE or PARK has become current, its target and cap fixed (R64, R88, R89). -/
def Channel.moveBegun (x : Channel) (pr : Params) (m : Move) (service : Bool) : Channel :=
  { x with current := some { m with target := .absolute (m.asked x.s) }, parkCause := none,
           prof := x.prof.aim pr (m.asked x.s) m.scale service }

/-- The state of rest R65 step 3 chooses for a homed channel that no guard holds, with its park cause. -/
def restChoice (m : Option Move) (t : Termination) : ChanState × Option ParkCause :=
  match m with
  | some m =>
    if m.kind = .park ∧ t = .complete then (.parked, some (match m.source with | .order _ => .host | _ => .mode))
    else (.idle, none)
  | none => (.idle, none)

/-- The current move is a HOME that ended COMPLETE (R65 step 4). -/
def homeCompleted (m : Option Move) (t : Termination) : Bool :=
  match m with
  | some m => m.kind == .home && t == .complete
  | none => false

/-- What happens to a channel's current move. -/
inductive MoveEvent where
  /-- It ends with a termination (R65). -/
  | ends (t : Termination)
  /-- A move becomes current; the code is the cause of the CHANNEL record of a change of state (R64, R81). -/
  | starts (m : Move) (cause : Nat)
  deriving DecidableEq, Repr

/-- The end of a move and the start of the next, which may end at once in its turn (R64, R65, R67, R141). `before` is the channel
before the event, for the records; the first argument bounds the chain. DESIGN CHOICE (log entry 39): a move that becomes current and
ends within the event, leaving the channel in another state of rest, has the record of that state written, with its termination (R64,
R81). -/
def Part.moveEvent : Nat → Fin 8 → Channel → Part → MoveEvent → Part
  | 0, _, _, p, _ => p
  | n + 1, c, before, p, .ends t =>
    let m := (p.chan c).current
    let q := p.finishMove c t
    let x := q.chan c
    if q.guarded c then
      ((q.setChan c { x with state := .held, heldPark := none, parkCause := none }).supersedeQueue c).commit c before t.code true
    else if x.lost then
      (q.setChan c { x with state := .unhomed, parkCause := none }).commit c before t.code true
    else
      match x.params with
      | none => q
      | some pr =>
        if homeCompleted m t && q.wantsPark && q.isRunning then
          q.moveEvent n c before (.starts (modeParkMove pr) t.code)
        else
          match x.queue, q.isRunning with
          | next :: rest, true => (q.setChan c { x with queue := rest }).moveEvent n c before (.starts next t.code)
          | _, _ =>
            let (st, cause) := restChoice m t
            let q := (q.setChan c { x with state := st, parkCause := cause }).commit c before t.code true
            if st = .idle ∧ q.isRunning = true ∧ q.wantsPark = true then
              q.moveEvent n c (q.chan c) (.starts (modeParkMove pr) 0)
            else q
  | n + 1, c, before, p, .starts m cause =>
    let x := p.chan c
    match x.params with
    | none => p
    | some pr =>
      match m.kind with
      | .home =>
        let x := x.homeBegun m
        if x.pins.home then (p.setChan c (x.homedAt pr)).moveEvent n c before (.ends .complete)
        else
          let q := (p.setChan c { x with state := .homing, dir := false, tickS := x.endS, unissued := 0 }).commit c before cause true
          if x.pins.limitLo then q.faultEntry c .homeFail else q
      | _ =>
        let x := x.moveBegun pr m (p.modes.mode == .service)
        let target := pr.limit (m.asked (p.chan c).s) * Config.step
        if target = x.prof.p then (p.setChan c x).moveEvent n c before (.ends x.prof.arrival)
        else
          (p.setChan c { x with state := .moving, prof := x.prof.start pr target, tickS := x.endS, unissued := 0 }).commit c before cause true

/-- A bound on the chain of R64 and R65: each queued move starts and ends, and may have a MODE park before it. -/
def Channel.chain (x : Channel) : Nat := 4 * x.queue.length + 8

/-- The current move ends with a termination, seen from the channel before the event (R65). -/
def Part.endMove (p : Part) (c : Fin 8) (before : Channel) (t : Termination) : Part :=
  p.moveEvent (p.chan c).chain c before (.ends t)

/-- A move is given to a channel at rest (R64). -/
def Part.giveMove (p : Part) (c : Fin 8) (m : Move) : Part :=
  p.moveEvent (p.chan c).chain c (p.chan c) (.starts m 0)

/-- A homed channel that has entered IDLE starts a MODE park in REST or CLOSED, while RUNNING (R141). -/
def Part.modePark (p : Part) (c : Fin 8) : Part :=
  match (p.chan c).params with
  | some pr =>
    if (p.chan c).state = .idle ∧ (p.chan c).lost = false ∧ p.isRunning = true ∧ p.wantsPark = true then
      p.giveMove c (modeParkMove pr)
    else p
  | none => p

/-! ### Stops and cuts (R71, R72, R74) -/

/-- Stepping stops at once (R85): the pulses of the tick not yet issued are not issued, and P becomes S x 2^24. -/
def Channel.halt (x : Channel) : Channel := { x with prof := x.prof.stopAt x.s, unissued := 0 }

/-- A MOVING channel begins a controlled stop (R71, R95). -/
def Channel.stopBegun (x : Channel) (t : Termination) : Channel :=
  { x with state := .stopping, pendingTerm := some t, prof := x.prof.beginStop (t == .guarded) }

/-- A stop asked for of a STOPPING channel (R72): only GUARDED changes it. -/
def Channel.stopAgain (x : Channel) (t : Termination) : Channel :=
  if t = .guarded then { x with pendingTerm := some .guarded, prof := { x.prof with stopRate := some .g } } else x

/-- A controlled stop with a termination (R71, R72). -/
def Part.controlledStop (p : Part) (c : Fin 8) (t : Termination) : Part :=
  let before := p.chan c
  let q := p.supersedeQueue c
  match before.state with
  | .moving => (q.setChan c ((q.chan c).stopBegun t)).commit c before 0 true
  | .homing => (q.setChan c (q.chan c).halt).endMove c before t
  | .stopping => (q.setChan c ((q.chan c).stopAgain t)).commit c before 0 false
  | _ => q.commit c before 0 false

/-- A cut with a termination (R74). -/
def Part.cut (p : Part) (c : Fin 8) (t : Termination) : Part :=
  let before := p.chan c
  let q := (p.setChan c { before with en := false }).supersedeQueue c
  let x := q.chan c
  match before.state with
  | .moving | .stopping | .homing => (q.setChan c { x.halt with lost := true }).endMove c before t
  | .idle | .parked => (q.setChan c { x with lost := true, parkCause := none, state := .unhomed }).commit c before 0 true
  | .held => (q.setChan c { x with lost := true }).commit c before 0 true
  | .unhomed | .fault => q.commit c before 0 true

/-! ### Channel inputs (R59, R68, R75, R76) -/

/-- The counted level of an input. -/
def ChannelPins.get (x : ChannelPins) : ChannelPin → Bool
  | .home => x.home | .limitLo => x.limitLo | .limitHi => x.limitHi | .flt => x.flt

/-- An input with a new counted level. -/
def ChannelPins.put (x : ChannelPins) (pin : ChannelPin) (level : Bool) : ChannelPins :=
  match pin with
  | .home => { x with home := level } | .limitLo => { x with limitLo := level }
  | .limitHi => { x with limitHi := level } | .flt => { x with flt := level }

/-- An enabled channel stops stepping at once and enters FAULT (R75, R76, R68). DESIGN CHOICE (log entry 34): a channel that has come to
rest within the tick, or begun its next move, has issued all the tick's pulses. -/
def Part.faultNow (p : Part) (c : Fin 8) (cause : ChanFault) : Part :=
  if (p.chan c).state.inMotion then (p.setChan c (p.chan c).halt).faultEntry c cause else p.faultEntry c cause

/-- HOME becomes active while HOMING (R68, R100): the position becomes home_offset and the home ends COMPLETE. -/
def Part.homeFound (p : Part) (c : Fin 8) : Part :=
  match (p.chan c).params with
  | some pr => (p.setChan c ((p.chan c).homedAt pr)).endMove c (p.chan c) .complete
  | none => p

/-- What an input of an enabled channel that has become active acts on (R68, R75, R76). Which way a channel travels while pulses of an
overrun's halting tick are still to be issued is log entry 46. -/
def Part.inputActs (p : Part) (c : Fin 8) (pin : ChannelPin) : Part :=
  let x := p.chan c
  match pin, x.state with
  | .flt, _ => p.faultNow c .driver
  | .limitHi, .moving => if x.heading then p.faultNow c .limit else p
  | .limitHi, .stopping => if x.heading then p.faultNow c .limit else p
  | .limitLo, .moving => if x.heading then p else p.faultNow c .limit
  | .limitLo, .stopping => if x.heading then p else p.faultNow c .limit
  | .limitLo, .homing => p.faultNow c .homeFail
  | .home, .homing => p.homeFound c
  | _, _ => p

/-- The counted level of an input changes (R59): it is published while the blocks work, and acts on an enabled channel. A level
that is already counted is no change. -/
def Part.inputChange (p : Part) (c : Fin 8) (pin : ChannelPin) (level : Bool) : Part :=
  let before := p.chan c
  if before.pins.get pin = level then p
  else
    let q := p.setChan c { before with pins := before.pins.put pin level }
    if p.active then
      let q := q.commit c before 0 false
      if level && before.enabled then q.inputActs c pin else q
    else q

/-- HOME_ACTIVE (R68): the home switch closes `us` microseconds into the present tick. -/
def execHomeActive (c : Fin 8) (us : Nat) (s : State) : Host.Outcome State Fault Refusal :=
  done s ((s.part.goTo us).inputChange c .home true)

/-- LIMIT_ACTIVE (R76): a limit switch closes `us` microseconds into the present tick. -/
def execLimitActive (c : Fin 8) (high : Bool) (us : Nat) (s : State) : Host.Outcome State Fault Refusal :=
  done s ((s.part.goTo us).inputChange c (if high then .limitHi else .limitLo) true)

/-- FLT_ACTIVE (R75): the driver reports a fault `us` microseconds into the present tick. -/
def execFltActive (c : Fin 8) (us : Nat) (s : State) : Host.Outcome State Fault Refusal :=
  done s ((s.part.goTo us).inputChange c .flt true)

/-- CHANNEL_INPUT_CHANGE (R59): an input's new level counts, at the present microsecond of the tick. -/
def execChannelInputChange (c : Fin 8) (pin : ChannelPin) (level : Bool) (s : State) : Host.Outcome State Fault Refusal :=
  done s (s.part.inputChange c pin level)

/-- HOME_SEARCH_EXHAUSTED (R68): the search count has reached home_search, its last step has been issued, and HOME has not become
active. -/
def execHomeSearchExhausted (c : Fin 8) (s : State) : Host.Outcome State Fault Refusal :=
  let x := s.part.chan c
  done s (match x.params with
    | some pr =>
      if s.part.active = true ∧ x.state = .homing ∧ pr.homeSearch ≤ x.search then
        (s.part.setChan c x.issueAll).faultNow c .homeFail else s.part
    | none => s.part)

/-! ### The motion tick (R84) -/

/-- A limit switch in the direction of travel is active (R76). -/
def Channel.limitAhead (x : Channel) : Bool := if x.prof.positive then x.pins.limitHi else x.pins.limitLo

/-- The channel at the start of a tick that leaves it with a profile (R85): the tick's pulses are still to be issued. -/
def Channel.pulsed (x : Channel) (f : Profile) : Channel :=
  { x with tickS := x.endS, prof := f, unissued := (stepsOf f.p - x.endS).natAbs }

/-- The same for a tick of a profile move: the pulses' direction is driven on DIR (R59, R85). -/
def Channel.ticked (x : Channel) (f : Profile) : Channel :=
  { x.pulsed f with dir := if stepsOf f.p = x.endS then x.dir else x.prof.positive }

/-- The profile tick of a MOVING or STOPPING channel (R91 to R96, R98). -/
def Channel.profileTick (x : Channel) (pr : Params) : TickResult :=
  match x.state with
  | .stopping => x.prof.tickStopping pr (x.pendingTerm.getD .stopped)
  | _ => x.prof.tickMoving pr

/-- A channel's motion tick (R84): a limit already active in the direction of travel issues no pulse and faults (R76). A move that ends
with the tick counts its pulses as issued (log entry 34). -/
def Part.tickChannel (c : Fin 8) (p : Part) : Part :=
  let x := p.chan c
  match x.params with
  | none => p
  | some pr =>
    if !pr.enable then p
    else match x.state with
      | .homing =>
        let (pos, count) := x.homingTick pr
        (p.setChan c { x.pulsed { x.prof with p := pos } with search := count }).commit c x 0 false
      | .moving | .stopping =>
        if x.limitAhead then (p.setChan c (x.pulsed x.prof)).faultNow c .limit
        else
          let r := x.profileTick pr
          let y := x.ticked r.prof
          (match r.ended with
           | some t => (p.setChan c y.issueAll).endMove c x t
           | none => (p.setChan c y).commit c x 0 false)
      | _ => p

/-- Gallery time counts one millisecond, unless an event of this millisecond has already moved it on (log entry 1). A millisecond that
ends without its scrub makes it as it ends (R192, log entry 32). -/
def Part.nextMs (p : Part) : Part :=
  if p.clock.tickOwed then p.issueAll.setClock { p.clock with tickOwed := false, us := 0 }
  else (if p.scrubOwed then p.scrub else p).countMs false

/-- MOTION_TICK (R84): gallery time counts a millisecond, and each channel in motion takes its tick. Its pulses are
issued as the millisecond goes on (R85, log entry 4). -/
def execMotionTick (s : State) : Host.Outcome State Fault Refusal :=
  done s (if s.part.active then s.part.nextMs.eachChannel Part.tickChannel else s.part)

/-- STATUS_REFRESH (R80): a channel in motion writes its record 50 ms after its last write. -/
def execStatusRefresh (c : Fin 8) (s : State) : Host.Outcome State Fault Refusal :=
  done s (if (s.part.chan c).state.inMotion then
    (match s.part.atDue (after (s.part.chan c).lastWrite Config.statusRefresh) with
     | some p => p.writeStatus c
     | none => s.part)
    else s.part)

end Sys2Proof.Machine
end

