-- ==== Sys2Proof/Machine/Guards.lean ====
section
/-! DEFINITION. The guard monitor (Chapter 6), and the acknowledgement of alerts, which reports to it (R123 to R126). -/

namespace Sys2Proof.Machine

/-! ### Guards and the channels they hold (R106, R107, R112) -/

/-- Change a guard. -/
def Part.modGuard (p : Part) (g : Fin 8) (f : Guard → Guard) : Part := p.setGuard g (f (p.guard g))

/-- A guard enters a state, and the GUARD record is written (R113). -/
def Part.enterGuard (p : Part) (g : Fin 8) (st : GuardState) (cause : GuardCause) : Part :=
  (p.modGuard g (fun x => { x with state := st })).hand (guardRecord g (p.guard g).state st cause p.time)

/-- An IDLE or PARKED channel is held at once and remembers its park state (R107). -/
def Part.holdAtRest (p : Part) (c : Fin 8) : Part :=
  let before := p.chan c
  let q := p.setChan c { before with state := .held, heldPark := before.parkCause, parkCause := none }
  (q.supersedeQueue c).commit c before 0 true

/-- The trip action on one covered channel (R106): `cut` for action CUT. -/
def Part.tripAction (cut : Bool) (p : Part) (c : Fin 8) : Part :=
  match (p.chan c).state with
  | .moving | .stopping | .homing => if cut then p.cut c .guarded else p.controlledStop c .guarded
  | .idle | .parked => p.holdAtRest c
  | .held | .unhomed | .fault => p

/-- The channels of a mask, in ascending number. -/
def maskChannels (mask : BitVec 8) : List (Fin 8) := (List.finRange 8).filter (fun c => mask.getLsbD c.val)

/-- The trip actions of a guard on its covered channels, in ascending channel number (R106 step 3). -/
def Part.tripActions (p : Part) (g : Fin 8) : Part :=
  (maskChannels (p.guard g).record.mask).foldl (Part.tripAction (p.guard g).record.cut) p

/-- A guard trips (R106). -/
def Part.guardTrip (p : Part) (g : Fin 8) (cause : GuardCause) : Part :=
  let q := (p.modGuard g (fun x => { x with acked := false })).enterGuard g .tripped cause
  let (q, at?) := q.raiseFull .guardTrip (.guard g) (.one (p.guard g).record.zone) .urgent
  (q.modGuard g (fun x => { x with boarded := at?.isSome })).tripActions g

/-- Where a HELD channel goes when no guard holds it (R112). -/
def Channel.released (x : Channel) (wantsPark : Bool) : Channel :=
  let x' := { x with heldPark := none }
  if x.lost then { x' with state := .unhomed }
  else match x.heldPark with
    | some .host => { x' with state := .parked, parkCause := some .host }
    | some .mode => if wantsPark then { x' with state := .parked, parkCause := some .mode } else { x' with state := .idle }
    | none => { x' with state := .idle }

/-- A HELD channel is examined: it leaves HELD when no guard covering it is other than CLEAR, and may be parked again (R112). -/
def Part.leaveHeld (p : Part) (c : Fin 8) : Part :=
  let before := p.chan c
  if before.state = .held ∧ p.guarded c = false then
    ((p.setChan c (before.released p.wantsPark)).commit c before 0 true).modePark c
  else p

/-- The filter timer when its guard becomes CLEAR (R111): it stops, unless it is due at this very time, when its expiry is still to be
taken (R108; DEDUCED, log entry 9). -/
def Guard.filterAtClear (x : Guard) (now : Time) : Option Time := x.filterDue.filter (fun due => reached now due)

/-- A guard becomes CLEAR from SETTLING or AWAIT_ACK (R111). -/
def Part.guardClear (p : Part) (g : Fin 8) (cause : GuardCause) : Part :=
  let q := (p.modGuard g (fun x => { x with clearDue := none, filterDue := x.filterAtClear p.time })).enterGuard g .clear cause
  let q := q.condEnd .guardTrip (.guard g)
  let q := (maskChannels (q.guard g).record.mask).foldl Part.leaveHeld q
  q.modGuard g (fun x => { x with acked := false, boarded := false })

/-- The clear timer of a SETTLING guard reaches its due time (R108). -/
def Part.clearExpire (p : Part) (g : Fin 8) : Part :=
  let q := p.modGuard g (fun x => { x with clearDue := none })
  if !(p.guard g).record.attended || (p.guard g).acked then q.guardClear g .timer else q.enterGuard g .awaitAck .timer

/-- A TRIPPED guard whose filtered level is closed settles (R108); with a clear time of 0 it goes on within the event. -/
def Part.settleGuard (p : Part) (g : Fin 8) (cause : GuardCause) : Part :=
  let ms := (p.guard g).record.clearTime
  let q := (p.modGuard g (fun x => { x with clearDue := some (after p.time ms) })).enterGuard g .settling cause
  if ms = 0 then q.clearExpire g else q

/-- A SETTLING or AWAIT_ACK guard whose filtered level is open returns to TRIPPED (R108, R110). -/
def Part.returnToTripped (p : Part) (g : Fin 8) (cause : GuardCause) : Part :=
  ((p.modGuard g (fun x => { x with clearDue := none })).enterGuard g .tripped cause).tripActions g

/-- A guard takes its filtered level (R105). -/
def Part.guardTakes (p : Part) (g : Fin 8) (cause : GuardCause) : Part :=
  match (p.guard g).state, (p.guard g).filteredOpen with
  | .clear, true => p.guardTrip g cause
  | .tripped, false => p.settleGuard g cause
  | .settling, true => p.returnToTripped g cause
  | .awaitAck, true => p.returnToTripped g cause
  | _, _ => p

/-- The guard's pin stands at the open level (R105). -/
def Guard.pinOpen (x : Guard) : Bool := x.pin == x.record.activeHigh

/-- The filter timer after the pin reached a level (R105). -/
def Guard.filtered (x : Guard) (now : Time) : Guard :=
  { x with filterDue := if x.pinOpen = x.filteredOpen then none else some (after now x.record.filter) }

/-- GUARD_PIN_CHANGE (R105): the pin reaches a level; a level it already had is no change. -/
def execGuardPinChange (g : Fin 8) (level : Bool) (s : State) : Host.Outcome State Fault Refusal :=
  let p := s.part
  let x := p.guard g
  done s (if x.pin = level then p
    else
      let y := { x with pin := level }
      p.setGuard g (if p.active && x.record.enable then y.filtered p.time else y))

/-- GUARD_FILTER_EXPIRY (R105): the filtered level takes the pin's level, and the guard takes the change. -/
def execGuardFilterExpiry (g : Fin 8) (s : State) : Host.Outcome State Fault Refusal :=
  done s (match s.part.atTimer (s.part.guard g).filterDue with
    | some p => (p.modGuard g (fun x => { x with filterDue := none, filteredOpen := x.pinOpen })).guardTakes g .input
    | none => s.part)

/-- CLEAR_TIMER_EXPIRY (R108): a SETTLING guard becomes CLEAR or awaits an acknowledgement. -/
def execClearTimerExpiry (g : Fin 8) (s : State) : Host.Outcome State Fault Refusal :=
  done s (if (s.part.guard g).state = .settling then
    (match s.part.atTimer (s.part.guard g).clearDue with
     | some p => p.clearExpire g
     | none => s.part)
    else s.part)

/-! ### Acknowledgements (R109, R123 to R126) -/

/-- The guard's trip is acknowledged (R109): the flag is set in any state but CLEAR, and AWAIT_ACK ends. -/
def Part.ackGuard (p : Part) (g : Fin 8) : Part :=
  match (p.guard g).state with
  | .clear => p
  | .awaitAck => (p.modGuard g (fun x => { x with acked := true })).guardClear g .ack
  | _ => p.modGuard g (fun x => { x with acked := true })

/-- An entry is acknowledged, and a GUARD_TRIP's guard is told (R123). -/
def Part.ackEntry (p : Part) (i : Fin 32) (e : Entry) : Part :=
  let q := p.ackBoard i e
  match e.code, e.source with
  | .guardTrip, .guard g => q.ackGuard g
  | _, _ => q

/-- The zone operand takes in an alert zone (R125). -/
def Zone.takes (z : Zone) (zone : Zone) : Bool :=
  match z with
  | .all => true
  | .one k => zone.covers k

/-- One board index of an acknowledgement by zone (R125): whether an entry changed, and the part after it. DESIGN CHOICE (log entry 35):
a JOURNAL_GAP that a record dropped here raises is boarded before the next index, and so may be acknowledged in its turn. -/
def Part.ackIndex (z : Zone) (r : Bool × Part) (i : Fin 32) : Bool × Part :=
  match r.2.board.entries[i] with
  | some e => if e.unacked && z.takes e.zone then (true, r.2.ackEntry i e) else r
  | none => r

/-- The zone report to the guard monitor (R109, second case, R125). -/
def Part.zoneReport (z : Zone) (g : Fin 8) (p : Part) : Part :=
  if (p.guard g).boarded = false ∧ z.takes (.one (p.guard g).record.zone) = true then p.ackGuard g else p

/-- An acknowledgement by zone (R125, R126): the entries in ascending index, then the zone report, then one notice. DESIGN CHOICE (log
entry 48): guards 0 to 7 take the zone report in ascending order (R109). -/
def Part.ackZone (p : Part) (z : Zone) : Part :=
  if !p.active then p
  else
    let (changed, q) := (List.finRange 32).foldl (Part.ackIndex z) (false, p)
    let q := q.eachGuard (Part.zoneReport z)
    if changed then q.restNotice else q

end Sys2Proof.Machine
end

