-- ==== Sys2Proof/Machine/Modes.lean ====
section
/-! DEFINITION. The mode controller, rest timer and host watch (Chapter 8), with the start of a poll and of a polling cycle, which a
change of mode may bring about (R3, R13, R14, R16). -/

namespace Sys2Proof.Machine

/-! ### Poll frames and cycles (Chapter 1) -/

/-- The commanded pattern present at a gallery time (R15): one whose expiry has been reached is absent (log entry 12). -/
def Input.commanded (i : Input) (now : Time) : Option Lamp :=
  match i.lamp with
  | some c => if expired now c.expiry then none else some c.pattern
  | none => none

/-- The active input that names a key (R22 makes it at most one). -/
def InputDef.names (d : InputDef) (l : Fin 4) (a : Nat) (k : Fin 8) : Bool :=
  d.active && d.line == l && d.station == a && d.key == k

/-- The displayed pattern of a key (R16). -/
def Part.displayed (p : Part) (l : Fin 4) (a : Nat) (k : Fin 8) : Lamp :=
  match p.inputs.find? (fun i => i.d.names l a k) with
  | none => .off
  | some i =>
    match p.modes.mode with
    | .opened | .service => (i.commanded p.time).getD i.d.baseLamp
    | .rest => i.d.restLamp
    | .closed => .off

/-- Four lamp codes in a character, the lowest key in the low bits (13.8). -/
def lampByte (a b c d : Lamp) : Byte := BitVec.ofNat 8 (a.code + 4 * b.code + 16 * c.code + 64 * d.code)

/-- A poll frame from its address and lamps: CHECK makes the data bytes add to 0xFF (R3). -/
def PollFrame.make (a : Nat) (lo hi : Byte) : PollFrame :=
  let address : Byte := 0xA0 + BitVec.ofNat 8 a
  { address := address, lampLo := lo, lampHi := hi, check := 0xFF - (address + lo + hi) }

/-- The poll frame for a station, as formed when its transmission begins (R3). -/
def Part.frame (p : Part) (l : Fin 4) (a : Nat) : PollFrame :=
  let d := p.displayed l a
  PollFrame.make a (lampByte (d 0) (d 1) (d 2) (d 3)) (lampByte (d 4) (d 5) (d 6) (d 7))

/-- Change a line. -/
def Part.modLine (p : Part) (l : Fin 4) (f : Line → Line) : Part := p.setLine l (f (p.line l))

/-- The transmission of a poll begins (R2, R3, R4). -/
def Part.pollStart (p : Part) (l : Fin 4) (a : Nat) : Part :=
  p.modLine l (fun x => { x with fifo := [], overrun := false, exchange := .sending a (p.frame l a) })

/-- The line is polled: enabled with a station, not testing, while the blocks work (R13). -/
def Part.polls (p : Part) (l : Fin 4) : Bool :=
  p.active && (p.line l).record.enable && decide (1 ≤ (p.line l).record.stations) && !(p.line l).testing

/-- A polling cycle begins at address 1, if the line is polled (R13, R14). -/
def Part.beginCycle (p : Part) (l : Fin 4) : Part :=
  if p.polls l then (p.modLine l (fun x => { x with cycleStart := p.time })).pollStart l 1
  else p.modLine l (fun x => { x with exchange := .idle })

/-- OPEN and SERVICE poll back to back (R14). -/
def Mode.quick (m : Mode) : Bool := m == .opened || m == .service

/-- A line that waits between cycles goes on at once when the mode has become OPEN or SERVICE (R14). -/
def Part.endWait (l : Fin 4) (p : Part) : Part :=
  match (p.line l).exchange with
  | .waiting => if p.modes.mode.quick then p.beginCycle l else p
  | _ => p

/-! ### The change of mode (R137 to R141) -/

/-- The current move is a PARK with source MODE. -/
def Channel.modeParking (x : Channel) : Bool :=
  match x.current with
  | some m => m.kind == .park && m.source == .mode
  | none => false

/-- The pending queue is superseded if it is not empty, the state unchanged (R138). -/
def Part.emptyQueue (p : Part) (c : Fin 8) : Part := (p.supersedeQueue c).commit c (p.chan c) 0 false

/-- A channel's action on a change into REST or CLOSED (R138). -/
def Part.intoRest (c : Fin 8) (p : Part) : Part :=
  match (p.chan c).state with
  | .moving => if (p.chan c).modeParking then p.emptyQueue c else p.controlledStop c .superseded
  | .homing => p.emptyQueue c
  | .stopping => p.controlledStop c .superseded
  | .idle => p.modePark c
  | .parked | .unhomed | .held | .fault => p.emptyQueue c

/-- A channel PARKED with cause MODE becomes IDLE (R139). -/
def Part.unpark (c : Fin 8) (p : Part) : Part :=
  let x := p.chan c
  if x.state = .parked ∧ x.parkCause = some .mode then
    (p.setChan c { x with state := .idle, parkCause := none }).commit c x 0 true
  else p

/-- A channel's action on a change into OPEN from REST or CLOSED (R139). -/
def Part.intoOpen (c : Fin 8) (p : Part) : Part :=
  match (p.chan c).state with
  | .parked => p.unpark c
  | .moving | .stopping => if (p.chan c).modeParking then p.controlledStop c .superseded else p
  | _ => p

/-- A channel's action on a change into or out of SERVICE (R140). -/
def Part.aboutService (n : Mode) (c : Fin 8) (p : Part) : Part :=
  let q := p.controlledStop c .superseded
  match n with
  | .opened => q.unpark c
  | .rest | .closed => q.modePark c
  | .service => q

/-- A channel's action on a change from mode m to mode n (R137 step 3). -/
def Part.channelChange (m n : Mode) (c : Fin 8) (p : Part) : Part :=
  match m, n with
  | .service, _ => p.aboutService n c
  | _, .service => p.aboutService n c
  | _, .opened => p.intoOpen c
  | _, .rest => p.intoRest c
  | _, .closed => p.intoRest c

/-- A change of mode (R137), and the polling pace that follows it (R14). -/
def Part.changeMode (p : Part) (n : Mode) (cause : ModeCause) : Part :=
  let m := p.modes.mode
  let settling := n == .rest || n == .closed
  let q := (p.setModes { p.modes with mode := n, settling := settling }).writeModeNow
  let q := q.hand (modeRecord m n cause settling q.time)
  let q := q.eachChannel (Part.channelChange m n)
  (q.settleExam.restEval).eachLine Part.endWait

/-! ### Requests (R135, R136, R143 to R147) -/

/-- Whether the silent action is REST (R147). -/
def Part.silentRest (p : Part) : Bool :=
  match p.run.layout with
  | some l => l.silentRest
  | none => false

/-- The conditions of a request, checked again when it is taken (R135, R143, R145, R147). -/
def Part.stillHolds (p : Part) : ModeCause → Bool
  | .order _ => true
  | .binding => true
  | .wake => p.modes.mode == .rest
  | .restTimer => p.restOk
  | .silent => p.silentRest && p.modes.mode == .opened

/-- The request changes the mode when taken (R135). -/
def Part.requestActs (p : Part) (r : ModeRequest) : Bool :=
  p.isRunning && r.mode != p.modes.mode && p.stillHolds r.cause

/-- The order that made a request ends COMPLETE as soon as it has been taken (R136). -/
def Part.requestDone (p : Part) (r : ModeRequest) (changed : Bool) : Part :=
  match r.cause, p.orders.taking with
  | .order slot, some t => if t.slot = slot ∧ t.asked = true then p.endTake slot .complete (if changed then 1 else 0) else p
  | _, _ => p

/-- The controller takes one request whole (R135). -/
def Part.takeRequest (p : Part) (r : ModeRequest) : Part :=
  if p.requestActs r then (p.changeMode r.mode r.cause).requestDone r true else p.requestDone r false

/-- Make a request that waits to be taken (R135). -/
def Part.pushRequest (p : Part) (r : ModeRequest) : Part :=
  p.setModes { p.modes with requests := p.modes.requests ++ [r] }

/-- A request whose maker waits for it (R35, R57): those that reached the controller before it are taken first, then it is. -/
def Part.requestNow (p : Part) (r : ModeRequest) : Part :=
  let waiting := p.modes.requests
  (waiting.foldl Part.takeRequest (p.setModes { p.modes with requests := [] })).takeRequest r

/-- MODE_REQUEST (R135): the request that reached the controller first is taken. -/
def execModeRequest (s : State) : Host.Outcome State Fault Refusal :=
  let p := s.part
  done s (match p.modes.requests with
    | r :: rest => if p.active then (p.setModes { p.modes with requests := rest }).takeRequest r else p
    | [] => p)

/-- REST_TIMER_EXPIRY (R145): the timer stops and a request for REST is made. -/
def execRestTimerExpiry (s : State) : Host.Outcome State Fault Refusal :=
  done s (match s.part.atTimer s.part.modes.restDue with
    | some p => (p.setModes { p.modes with restDue := none }).pushRequest { mode := .rest, cause := .restTimer }
    | none => s.part)

/-- The host falls silent (R147). -/
def Part.fallSilent (p : Part) : Part :=
  let q := (p.setModes { p.modes with silent := true, watchDue := none }).raiseAlert .hostSilent .none .all .attend
  if q.silentRest && q.modes.mode == .opened && q.isRunning then q.pushRequest { mode := .rest, cause := .silent } else q

/-- HOST_WATCH_EXPIRY (R147): the window timer of an ANSWERING watch reaches its due time. -/
def execHostWatchExpiry (s : State) : Host.Outcome State Fault Refusal :=
  done s (if s.part.modes.silent then s.part
    else match s.part.atTimer s.part.modes.watchDue with
    | some p => p.fallSilent
    | none => s.part)

/-- The host watch window in ms (R146). -/
def Part.watchWindow (p : Part) : Nat :=
  match p.run.layout with
  | some l => l.watchWindow
  | none => 0

/-- A HEARTBEAT write reaches the watch (R146). -/
def Part.heartbeat (p : Part) : Part :=
  if p.active = true ∧ p.watchWindow ≠ 0 then
    let q := if p.modes.silent then (p.setModes { p.modes with silent := false }).condEnd .hostSilent .none else p
    q.setModes { q.modes with watchDue := some (after q.time q.watchWindow) }
  else p

end Sys2Proof.Machine
end

