-- ==== Sys2Proof/Machine/Bindings.lean ====
section
/-! DEFINITION. The binding engine (Chapter 3). -/

namespace Sys2Proof.Machine

/-! ### Lamps (R15) -/

/-- Set the commanded pattern of an input, with an expiry or none (R15); an input that is not defined is left so (R56). -/
def Part.commandLamp (p : Part) (i : Nat) (pattern : Lamp) (expiry : Option Time) : Part :=
  p.modInput i (fun x => { x with lamp := some { pattern := pattern, expiry := expiry } })

/-- The expiry of a pattern commanded for a number of seconds, 0 for none (R15). -/
def Part.lampExpiry (p : Part) (secs : Nat) : Option Time := if secs = 0 then none else some (after p.time (secs * 1000))

/-- LAMP_EXPIRY (R15): gallery time reaches the expiry of a commanded pattern, which becomes absent. -/
def execLampExpiry (input : Byte) (s : State) : Host.Outcome State Fault Refusal :=
  done s (match s.part.inputs[input.toNat]? with
    | some { lamp := some c, .. } =>
      (match s.part.atTimer c.expiry with
       | some p => p.modInput input.toNat (fun x => { x with lamp := none })
       | none => s.part)
    | _ => s.part)

/-! ### Motion actions (R49 to R54) -/

/-- The current move is of kind MOVE. -/
def Channel.runsMove (x : Channel) : Bool :=
  match x.current with
  | some m => m.kind == .move
  | none => false

/-- A motion action is admitted (R49). -/
def Part.admits (p : Part) (c : Fin 8) : Bool :=
  p.isRunning && p.modes.mode == .opened && (p.chan c).enabled
    && ((p.chan c).state == .idle || ((p.chan c).state == .moving && (p.chan c).runsMove))

/-- The channel is IDLE with an empty pending queue. -/
def Channel.idleEmpty (x : Channel) : Bool := x.state == .idle && x.queue.isEmpty

/-- What an action did: the part after it, and whether it was dropped (R49, R52, R54). -/
structure ActionResult where
  part : Part
  dropped : Bool
  deriving DecidableEq, Repr

/-- A binding's move (R50). -/
def bindingMove (e : Nat) (target : MoveTarget) (scale : Nat) : Move :=
  { kind := .move, source := .binding e true, target := target, scale := scale }

/-- The order whose move a REPLACE takes over ends SUPERSEDED (R53). -/
def Part.replaced (p : Part) (c : Fin 8) : Part :=
  match (p.chan c).current with
  | some m => p.reportEnd c m .superseded
  | none => p

/-- The moving channel's move takes a new target, source and scale, and is replanned (R53, R97, R99). -/
def Channel.retarget (x : Channel) (m : Move) (asked : Int) (service : Bool) : Channel :=
  match x.params with
  | some pr => { x with current := some { m with target := .absolute asked }, prof := x.prof.replan pr asked m.scale service }
  | none => x

/-- REPLACE (R53). A channel that is not MOVING takes the move afresh (log entry 13). -/
def Part.replaceMove (p : Part) (c : Fin 8) (m : Move) : Part :=
  let before := p.chan c
  let q := p.supersedeQueue c
  let asked := m.asked (q.chan c).s
  if before.state = .moving then
    let q := q.replaced c
    let x : Channel := { q.chan c with heldMove := none }
    (q.setChan c (x.retarget m asked (q.modes.mode == .service))).commit c before 0 true
  else q.giveMove c { m with target := .absolute asked }

/-- A busy policy is applied (R52, R53). -/
def Part.busy (p : Part) (c : Fin 8) (policy : BusyPolicy) (m : Move) : ActionResult :=
  match policy with
  | .ignore => { part := p, dropped := false }
  | .replace => { part := p.replaceMove c m, dropped := false }
  | .queue =>
    let x := p.chan c
    if x.queue.length < Config.queueDepth then
      { part := (p.setChan c { x with queue := x.queue ++ [m] }).commit c x 0 false, dropped := false }
    else { part := p, dropped := true }

/-- The current move is from entry e (R50). -/
def Channel.fromEntry (x : Channel) (e : Nat) : Option Move :=
  match x.current with
  | some m => if x.state = .moving ∧ m.source = .binding e true then some m else none
  | none => none

/-- The effective target of the current move, in steps (R89). -/
def Channel.effective (x : Channel) : Int :=
  match x.prof.target with
  | some t => t / Config.step
  | none => x.s

/-- A STEP_BY extends its own move (R51 case 1, R99). -/
def Part.extend (p : Part) (c : Fin 8) (m : Move) (delta : Int) : Part :=
  let x := p.chan c
  (p.setChan c (x.retarget m (x.effective + delta) (p.modes.mode == .service))).commit c x 0 true

/-- A motion action that is not done sets DROPPED (R49). -/
def ActionResult.drop (p : Part) : ActionResult := { part := p, dropped := true }

/-- MOVE_TO (R50). -/
def Part.moveTo (p : Part) (e : Nat) (policy : BusyPolicy) (c : Fin 8) (target : Int) (scale : Nat) : ActionResult :=
  let m := bindingMove e (.absolute target) scale
  if !p.admits c then .drop p
  else if (p.chan c).idleEmpty then { part := p.giveMove c m, dropped := false }
  else p.busy c policy m

/-- STEP_BY (R51). -/
def Part.stepBy (p : Part) (e : Nat) (policy : BusyPolicy) (c : Fin 8) (delta : Int) (scale : Nat) : ActionResult :=
  if !p.admits c then .drop p
  else match (p.chan c).fromEntry e with
    | some m => { part := p.extend c m delta, dropped := false }
    | none =>
      if (p.chan c).idleEmpty then
        { part := p.giveMove c (bindingMove e (.absolute ((p.chan c).s + delta)) scale), dropped := false }
      else p.busy c policy (bindingMove e (.relative delta) scale)

/-- RUN_HELD (R54). -/
def Part.runHeld (p : Part) (e : Nat) (input : Byte) (c : Fin 8) (target : Int) (scale : Nat) : ActionResult :=
  if p.admits c && (p.chan c).idleEmpty then
    { part := (p.setChan c { p.chan c with heldMove := some input }).giveMove c (bindingMove e (.absolute target) scale),
      dropped := false }
  else .drop p

/-! ### Turns (R46, R48, R56, R57) -/

/-- An entry's action for an event of an input. -/
def Part.act (p : Part) (e : Nat) (input : Byte) (b : BindingEntry) : ActionResult :=
  match b.action with
  | .moveTo c target scale => p.moveTo e b.busy c target scale
  | .runHeld c target scale => p.runHeld e input c target scale
  | .stepBy c delta scale => p.stepBy e b.busy c delta scale
  | .lamp j pattern secs => { part := p.commandLamp j.toNat pattern (p.lampExpiry secs), dropped := false }
  | .call zone => { part := p.raiseAlert .call (.input input.toNat) zone .attend, dropped := false }
  | .ackZone zone => { part := p.ackZone zone, dropped := false }
  | .setMode mode => { part := p.requestNow { mode := mode, cause := .binding }, dropped := false }

/-- The fallback of a withheld action (R48). -/
def Part.fallback (p : Part) (input : Byte) (b : BindingEntry) : Part :=
  if b.fallback = .off then p
  else p.commandLamp input.toNat b.fallback (some (after p.time Config.fallbackMs))

/-- What an event has come to: the part, and what the engine will return. -/
structure EventResult where
  part : Part
  ret : EngineReturn
  deriving DecidableEq, Repr

/-- A matching entry takes a turn (R46). -/
def Part.turn (p : Part) (e : Nat) (input : Byte) (b : BindingEntry) (r : EngineReturn) : EventResult :=
  let q := p.modBinding e (fun x => { x with lockout := some (after p.time b.lockout.toNat) })
  if b.hostNeeded && q.modes.silent then
    { part := q.fallback input b, ret := { r with acted := r.acted + 1, fallback := r.fallback || b.fallback != .off } }
  else
    let a := q.act e input b
    { part := a.part, ret := { r with acted := r.acted + 1, dropped := r.dropped || a.dropped } }

/-- A lockout is running: its expiry has not been reached (R42, R47). -/
def Binding.locked (b : Binding) (now : Time) : Bool :=
  match b.lockout with
  | some due => !reached now due
  | none => false

/-- An entry matches an event (R46). -/
def BindingEntry.matches (b : BindingEntry) (input : Byte) (g : Gesture) (mode : Mode) : Bool :=
  b.input == input && b.gesture == g && mode.inMask b.modeMask

/-- Examine one entry (R46); after four turns no further entry is examined. -/
def EventResult.examine (input : Byte) (g : Gesture) (mode : Mode) (r : EventResult) (e : Nat) : EventResult :=
  match r.part.bindings[e]? with
  | some { entry := some b, lockout := lockout } =>
    if Config.maxTurns ≤ r.ret.acted || !b.matches input g mode then r
    else if Binding.locked { entry := some b, lockout := lockout } r.part.time then { r with ret := { r.ret with locked := true } }
    else r.part.turn e input b r.ret
  | _ => r

/-- A channel whose held-move record holds the released input is asked for a controlled stop (R55). -/
def Part.releaseHeld (input : Byte) (c : Fin 8) (p : Part) : Part :=
  if (p.chan c).heldMove = some input then
    (p.setChan c { p.chan c with heldMove := none }).controlledStop c .stopped
  else p

/-- A gesture event (R45, R46, R58). -/
def Part.engine (p : Part) (input : Byte) (g : Gesture) : EventResult :=
  let mode := p.modes.mode
  let q := if g = .release then p.eachChannel (Part.releaseHeld input) else p
  if q.isRunning then
    (List.range q.bindings.length).foldl (EventResult.examine input g mode) { part := q, ret := .nothing }
  else { part := q, ret := .nothing }

/-- LOCKOUT_EXPIRY (R42): gallery time reaches a running lockout's expiry, and the lockout becomes clear. -/
def execLockoutExpiry (entry : Byte) (s : State) : Host.Outcome State Fault Refusal :=
  done s (match s.part.bindings[entry.toNat]? with
    | some b =>
      (match s.part.atTimer b.lockout with
       | some p => p.modBinding entry.toNat (fun x => { x with lockout := none })
       | none => s.part)
    | none => s.part)

end Sys2Proof.Machine
end

