-- ==== Sys2Proof/Machine/Inputs.lean ====
section
/-! DEFINITION. The input conditioner (Chapter 2). -/

namespace Sys2Proof.Machine

/-! ### The input state map (R40) -/

/-- Write an input's word of the input state map (R40), which has one for each input of the layout. -/
def Part.writeMap (p : Part) (i : Nat) : Part :=
  match p.inputs[i]?, p.run.layout with
  | some x, some l => if i < l.inputCount then p.write (l.stateMap + i) x.mapWord else p
  | _, _ => p

/-! ### Delivery of gestures (R34, R37) -/

/-- Deliver a gesture under a treatment (R37). -/
def Part.deliver (p : Part) (i : Nat) (g : Gesture) (forced : Bool) (t : Time) (treat : Treatment) : Part :=
  match p.inputs[i]? with
  | none => p
  | some x =>
    match treat with
    | .silent => p
    | .quiet => p.handPress i x.d.alwaysJournal (pressRecord i g forced true .nothing t)
    | .delivered =>
      let r := p.engine (BitVec.ofNat 8 i) g
      r.part.handPress i x.d.alwaysJournal (pressRecord i g forced false r.ret t)

/-- The treatment of a gesture after the PRESS (R34). -/
def Input.laterTreatment (x : Input) (mode : Mode) : Treatment :=
  match x.treatment with
  | some .silent => .silent
  | some .quiet => .quiet
  | _ => if !x.d.attendant && mode == .closed then .quiet else .delivered

/-- Deliver a HOLD, REPEAT or RELEASE (R34). -/
def Part.deliverLater (p : Part) (i : Nat) (g : Gesture) (forced : Bool) (t : Time) : Part :=
  match p.inputs[i]? with
  | some x => p.deliver i g forced t (x.laterTreatment p.modes.mode)
  | none => p

/-! ### Transitions (R26 to R33) -/

/-- The storm count after a press (R32). -/
def Input.storm (x : Input) (t : Time) : Input :=
  if x.d.stormLimit = 0 then x
  else
    let fresh := match x.windowStart with
      | none => true
      | some w => decide (x.d.stormWindow * 1000 ≤ (t - w).toNat)
    let x := if fresh then { x with windowStart := some t, stormCount := 1 } else { x with stormCount := satInc x.stormCount }
    if x.suspended.isNone && decide (x.d.stormLimit < x.stormCount.toNat) then
      { x with suspended := some (after t (x.d.stormCool * 1000)) }
    else x

/-- The input once its debounced level has flipped to down (R26). -/
def Input.pressed (x : Input) (t : Time) : Input :=
  { x with state := .down, pressTime := some t, holdDue := some (after t x.d.holdTime),
           stuckDue := if x.d.stuckTime = 0 then none else some (after t (x.d.stuckTime * 1000)),
           pressCount := x.pressCount + 1 }

/-- The treatment a PRESS fixes (R34, R35): `woke` when it made a wake request, `mode` as then in force. -/
def Input.pressTreatment (x : Input) (woke : Bool) (mode : Mode) : Treatment :=
  if x.suspended.isSome then .silent
  else if !x.d.attendant && mode == .closed then .quiet
  else if woke && mode == .opened && !x.d.wakePass then .quiet
  else .delivered

/-- A PRESS (R26). -/
def Part.press (p : Part) (i : Nat) : Part :=
  match p.inputs[i]? with
  | none => p
  | some x0 =>
    let t := p.time
    let x := (x0.pressed t).storm t
    let q := p.modInput i (fun _ => x)
    let q := if x0.suspended.isNone && x.suspended.isSome then
        q.raiseAlert .pressStorm (.input i) (.one x.d.zone) .info else q
    let q := if x.d.attendant then q else q.restNotice
    let woke := !x.d.attendant && x.d.wake && q.modes.mode == .rest && x.suspended.isNone
    let q := if woke then q.requestNow { mode := .opened, cause := .wake } else q
    let q := q.writeMap i
    let treat := x.pressTreatment woke q.modes.mode
    (q.modInput i (fun y => { y with treatment := some treat })).deliver i .press false t treat

/-- The timers of an input stop (R27, R30). -/
def Input.stopTimers (x : Input) : Input := { x with holdDue := none, repeatDue := none, stuckDue := none }

/-- A RELEASE of a DOWN or HELD input (R27, R38). -/
def Part.releaseInput (p : Part) (i : Nat) (forced : Bool) : Part :=
  let q := (p.modInput i (fun x => { x.stopTimers with state := .up })).writeMap i
  (q.deliverLater i .release forced q.time).modInput i (fun x => { x with treatment := none })

/-- A STUCK input becomes UP without a gesture (R31, R38). -/
def Part.stuckReturn (p : Part) (i : Nat) : Part :=
  ((p.modInput i (fun x => { x with state := .up })).writeMap i).condEnd .keyStuck (.input i)

/-- The debounced level (R25). -/
def KeyState.isDown (s : KeyState) : Bool := s == .down || s == .held || s == .stuck

/-- The debounced level flips (R25). -/
def Part.flip (p : Part) (i : Nat) (s : KeyState) : Part :=
  match s with
  | .up => p.press i
  | .down | .held => p.releaseInput i false
  | .stuck => p.stuckReturn i
  | .inactive => p

/-- One key state of a sample reaches its input (R25). -/
def Part.debounce (p : Part) (i : Nat) (down : Bool) : Part :=
  match p.inputs[i]? with
  | none => p
  | some x =>
    if x.state.isDown = down then p.modInput i (fun y => { y with agree := 0 })
    else if x.d.debounce ≤ x.agree + 1 then (p.modInput i (fun y => { y with agree := 0 })).flip i x.state
    else p.modInput i (fun y => { y with agree := y.agree + 1 })

/-- Key k of a sample (R24). -/
def Part.sampleKey (l : Fin 4) (a : Nat) (keys : Byte) (p : Part) (k : Fin 8) : Part :=
  match p.inputs.findIdx? (fun x => x.d.names l a k) with
  | some i => p.debounce i (keys.getLsbD k.val)
  | none => p

/-- A key sample, keys 0 to 7 in ascending order (R24). -/
def Part.sample (p : Part) (l : Fin 4) (a : Nat) (keys : Byte) : Part :=
  (List.finRange 8).foldl (Part.sampleKey l a keys) p

/-- The key is declared stuck, its stuck timer having been due at `t` (R30). -/
def Part.stuckExpire (p : Part) (i : Nat) (t : Time) : Part :=
  let q := (p.modInput i Input.stopTimers).deliverLater i .release true t
  let q := (q.modInput i (fun x => { x with treatment := none, state := .stuck })).writeMap i
  match q.inputs[i]? with
  | some x => q.raiseAlert .keyStuck (.input i) (.one x.d.zone) .attend
  | none => q

/-- The stuck timer of an input is due no later than `t` (R28, R29): its expiry is taken in place of the other timer's. -/
def Input.stuckBy (x : Input) (t : Time) : Option Time :=
  match x.stuckDue with
  | some due => if reached t due then some due else none
  | none => none

/-- The hold timer of a DOWN input has been due at `due` (R28); a stuck expiry due with it is taken instead. -/
def Part.holdExpire (p : Part) (i : Nat) (x : Input) (due : Time) : Part :=
  match x.stuckBy due with
  | some t => p.stuckExpire i t
  | none =>
    ((p.modInput i (fun y =>
        { y with state := .held, holdDue := none, repeatDue := some (after due y.d.repeatInterval) })).writeMap i).deliverLater
      i .hold false due

/-- The repeat timer of a HELD input has been due at `due` (R29); a stuck expiry due with it is taken instead. -/
def Part.repeatExpire (p : Part) (i : Nat) (x : Input) (due : Time) : Part :=
  match x.stuckBy due with
  | some t => p.stuckExpire i t
  | none =>
    (p.modInput i (fun y => { y with repeatDue := some (after due y.d.repeatInterval) })).deliverLater i .repeat false due

/-- An input's timer reaches its due time while the input is in one of some states (R28 to R30). -/
def Part.inputTimer (p : Part) (i : Nat) (states : List KeyState) (timer : Input → Option Time)
    (act : Part → Nat → Input → Time → Part) : Part :=
  match p.inputs[i]? with
  | none => p
  | some x =>
    if states.contains x.state then
      (match timer x with
       | some due =>
         (match p.atDue due with
          | some q => act q i x due
          | none => p)
       | none => p)
    else p

/-- HOLD_TIMER_EXPIRY (R28). -/
def execHoldTimerExpiry (input : Byte) (s : State) : Host.Outcome State Fault Refusal :=
  done s (s.part.inputTimer input.toNat [.down] Input.holdDue Part.holdExpire)

/-- REPEAT_TIMER_EXPIRY (R29). -/
def execRepeatTimerExpiry (input : Byte) (s : State) : Host.Outcome State Fault Refusal :=
  done s (s.part.inputTimer input.toNat [.held] Input.repeatDue Part.repeatExpire)

/-- STUCK_TIMER_EXPIRY (R30): an input that is DOWN or HELD is declared stuck. -/
def execStuckTimerExpiry (input : Byte) (s : State) : Host.Outcome State Fault Refusal :=
  done s (s.part.inputTimer input.toNat [.down, .held] Input.stuckDue (fun p i _ due => p.stuckExpire i due))

/-- SUSPENSION_EXPIRY (R33). -/
def execSuspensionExpiry (input : Byte) (s : State) : Host.Outcome State Fault Refusal :=
  let i := input.toNat
  done s (match s.part.inputs[i]? with
    | some x =>
      (match s.part.atTimer x.suspended with
       | some p => ((p.modInput i (fun y => { y with suspended := none })).writeMap i).condEnd .pressStorm (.input i)
       | none => s.part)
    | none => s.part)

/-! ### Presence and freezing (R38, R39) -/

/-- An active input of a station that has left presence (R38). -/
def Part.inputGone (l : Fin 4) (a : Nat) (p : Part) (i : Nat) : Part :=
  match p.inputs[i]? with
  | none => p
  | some x =>
    if x.d.active && x.d.line == l && x.d.station == a then
      let q := p.modInput i (fun y => { y with agree := 0 })
      match x.state with
      | .down | .held => q.releaseInput i true
      | .stuck => q.stuckReturn i
      | .up | .inactive => q
    else p

/-- A station has left presence (R38). -/
def Part.stationGone (p : Part) (l : Fin 4) (a : Nat) : Part :=
  (List.range p.inputs.length).foldl (Part.inputGone l a) p

/-- A line is frozen (R39): the agreement count of every active input on it becomes 0. -/
def Part.freeze (p : Part) (l : Fin 4) : Part :=
  p.setInputs (p.inputs.map (fun x => if x.d.active && x.d.line == l then { x with agree := 0 } else x))

end Sys2Proof.Machine
end

