-- ==== Sys2Proof/Machine/Apply.lean ====
section
/-! DEFINITION. The applications of the configuration groups (R1, R7, R23, R44, R62, R104), at an APPLY order and at entry to
RUNNING. -/

namespace Sys2Proof.Machine

/-! ### INPUTS (R1, R7, R23) -/

/-- An input of a new set (R23 step 3). DESIGN CHOICE (log entry 43): the press time before its first PRESS is absent; nothing reads it. -/
def Input.fresh (d : InputDef) : Input :=
  { d := d, state := if d.active then .up else .inactive, agree := 0, pressTime := none, holdDue := none, repeatDue := none,
    stuckDue := none, pressCount := 0, suspended := none, windowStart := none, stormCount := 0, treatment := none, lamp := none }

/-- A presence record rebuilt (R7): address a of a line. -/
def Station.rebuilt (r : LineRecord) (a : Nat) : Station :=
  { Station.disabled with presence := if r.enable && decide (a ≤ r.stations) then .unknown else .disabled }

/-- A line with a new record, its presence table rebuilt, its FIFO empty, no exchange (R1, R7). -/
def Line.applied (x : Line) (r : LineRecord) : Line :=
  { x with record := r, stations := Vector.ofFn (fun i => Station.rebuilt r (i.val + 1)), fifo := [], overrun := false,
           exchange := .idle, test := .none, loop := [], lineFail := false }

/-- Words before the station words in the input state map (R40). -/
def Part.mapInputs (p : Part) : Nat :=
  match p.run.layout with
  | some l => l.inputCount
  | none => 0

/-- Write station a's word, a of 1 to 12 (R12). -/
def Part.writeStation (p : Part) (l : Fin 4) (a : Fin 12) : Part :=
  p.writeRegion (fun y => y.stateMap + p.mapInputs + 12 * l.val + a.val) [(p.line l).stations[a].mapWord]

/-- Write all 12 station words of a line (R7). -/
def Part.writeStations (l : Fin 4) (p : Part) : Part := (List.finRange 12).foldl (fun q a => q.writeStation l a) p

/-- The new set of lines and inputs, with the words of the input state map (R1, R7, R23 steps 3 and 4). -/
def Part.installInputs (p : Part) (lines : Vector LineRecord 4) (defs : List InputDef) : Part :=
  let q := (p.setLines (Vector.ofFn (fun l : Fin 4 => (p.line l).applied lines[l]))).setInputs (defs.map Input.fresh)
  ((List.range defs.length).foldl Part.writeMap q).eachLine Part.writeStations

/-- An input of the old set that is DOWN or HELD is released (R23 step 1). -/
def Part.replaceRelease (p : Part) (i : Nat) : Part :=
  match p.inputs[i]? with
  | none => p
  | some x =>
    if x.state = .down ∨ x.state = .held then
      (p.deliverLater i .release true p.time).modInput i (fun y => { y.stopTimers with state := .up, treatment := none })
    else p

/-- An input of the old set that is STUCK becomes UP (R23 step 2). -/
def Part.replaceStuck (p : Part) (i : Nat) : Part :=
  match p.inputs[i]? with
  | none => p
  | some x =>
    if x.state = .stuck then (p.modInput i (fun y => { y with state := .up })).condEnd .keyStuck (.input i) else p

/-- A SUSPENDED input of the old set has its condition ended (R23 step 2). -/
def Part.replaceStorm (p : Part) (i : Nat) : Part :=
  match p.inputs[i]? with
  | none => p
  | some x => if x.suspended.isSome then p.condEnd .pressStorm (.input i) else p

/-- The STATION_LOST condition of a station ends, if it is in force (R7). -/
def Part.endLost (l : Fin 4) (p : Part) (a : Fin 12) : Part :=
  if (p.line l).stations[a].lost then p.condEnd .stationLost (.station l (a.val + 1)) else p

/-- The conditions of a line end before its rebuild (R7). -/
def Part.endLineConditions (l : Fin 4) (p : Part) : Part :=
  let q := (List.finRange 12).foldl (Part.endLost l) p
  if (q.line l).lineFail then q.condEnd .lineFail (.line l) else q

/-- The exchange of a line is abandoned (R1 steps 1 and 2). -/
def Part.abandon (l : Fin 4) (p : Part) : Part :=
  p.modLine l (fun x => { x with exchange := .idle, fifo := [], overrun := false })

/-- An accepted APPLY INPUTS replaces the set (R1, R7, R23). DESIGN CHOICE (log entry 22): after all releases the ends of KEY_STUCK,
then of PRESS_STORM, in ascending input number, then line by line those of STATION_LOST in ascending address and of LINE_FAIL. -/
def Part.applyInputsGroup (p : Part) (g : InputsGroup) : Part :=
  let q := p.eachLine Part.abandon
  let is := List.range q.inputs.length
  let q := is.foldl Part.replaceRelease q
  let q := is.foldl Part.replaceStuck q
  let q := is.foldl Part.replaceStorm q
  let q := q.eachLine Part.endLineConditions
  (q.installInputs g.lines g.defs).eachLine (fun l r => r.beginCycle l)

/-! ### GUARDS (R104) -/

/-- An enabled guard that was not CLEAR takes its new record (R104, second case): filter and clear timers are measured afresh. -/
def Guard.reread (x : Guard) (old : GuardRecord) (now : Time) : Guard :=
  let level := if x.filteredOpen then old.activeHigh else !old.activeHigh
  let y := { x with filteredOpen := level == x.record.activeHigh }
  { y with filterDue := if y.filterDue.isSome then (y.filtered now).filterDue else none,
           clearDue := if y.clearDue.isSome then some (after now y.record.clearTime) else none }

/-- A guard that was not CLEAR and stays enabled (R104, second case). A SETTLING guard whose new clear time is 0 goes on at once,
before the trip actions (DESIGN CHOICE, log entry 9). -/
def Part.guardKept (p : Part) (g : Fin 8) (old : GuardRecord) : Part :=
  let q := p.setGuard g ((p.guard g).reread old p.time)
  let q := q.guardTakes g .apply
  let q := if (q.guard g).state = .settling ∧ (q.guard g).record.clearTime = 0 then q.clearExpire g else q
  q.tripActions g

/-- A guard that is disabled (R104, first case). -/
def Part.guardDisabled (p : Part) (g : Fin 8) : Part :=
  let x := p.guard g
  let q :=
    if x.state = .clear then p
    else ((p.setGuard g { x with state := .clear }).condEnd .guardTrip (.guard g)).hand (guardRecord g x.state .clear .apply p.time)
  q.modGuard g (fun y => { y with filterDue := none, clearDue := none, acked := false, boarded := false })

/-- A CLEAR guard that is enabled takes its filtered level from its pin, and trips if it is open (R104, third case; R114). -/
def Part.guardFresh (p : Part) (g : Fin 8) (cause : GuardCause) : Part :=
  let q := p.modGuard g (fun x => { x with filterDue := none, filteredOpen := x.pinOpen })
  if (q.guard g).filteredOpen then q.guardTrip g cause else q

/-- Guard g is handled by the first case that fits (R104). -/
def Part.guardApplied (old : Vector Guard 8) (g : Fin 8) (p : Part) : Part :=
  if !(p.guard g).record.enable then p.guardDisabled g
  else if (p.guard g).state = .clear then p.guardFresh g .apply
  else p.guardKept g old[g].record

/-- An accepted APPLY GUARDS (R104). -/
def Part.applyGuardsGroup (p : Part) (records : Vector GuardRecord 8) : Part :=
  let old := p.guards
  let q := p.setGuards (Vector.ofFn (fun g : Fin 8 => { old[g] with record := records[g] }))
  (q.eachGuard (Part.guardApplied old)).eachChannel (fun c r => r.leaveHeld c)

/-! ### BINDINGS (R44) -/

/-- A binding's move loses its current-store mark (R44). -/
def Move.unmark (m : Move) : Move :=
  match m.source with
  | .binding e _ => { m with source := .binding e false }
  | _ => m

/-- Every binding-sourced move of a channel loses its mark (R44). -/
def Channel.unmark (x : Channel) : Channel := { x with current := x.current.map Move.unmark, queue := x.queue.map Move.unmark }

/-- An accepted APPLY BINDINGS (R44). -/
def Part.applyBindingsGroup (p : Part) (store : List Binding) : Part :=
  (p.setBindings store).setChannels (Vector.ofFn (fun c : Fin 8 => (p.chan c).unmark))

/-! ### CHANNEL n (R61, R62) -/

/-- The end of every fault condition in force is reported (R62, R78). DESIGN CHOICE (log entry 44): DRIVER, then LIMIT, then HOME_FAIL. -/
def Part.endFaults (p : Part) (c : Fin 8) : Part :=
  let f := (p.chan c).faults
  let q := if f.driver then p.condEnd .driverFault (.channel c) else p
  let q := if f.limit then q.condEnd .limitHit (.channel c) else q
  if f.homeFail then q.condEnd .homeFail (.channel c) else q

/-- A channel that an application disables (R62). -/
def Channel.disabled (x : Channel) (pr : Params) : Channel :=
  { x with params := some pr, state := .unhomed, lost := true, parkCause := none, faultCode := none, faults := .clear,
           en := false, dir := false }

/-- A channel that an application enables (R62). -/
def Channel.enabledBy (x : Channel) (pr : Params) : Channel :=
  { x with params := some pr, state := .unhomed, lost := true, en := !x.pins.flt }

/-- An accepted APPLY CHANNEL (R62). -/
def Part.applyChannelGroup (p : Part) (c : Fin 8) (pr : Params) : Part :=
  let before := p.chan c
  if before.enabled && !pr.enable then
    let q := p.endFaults c
    (q.setChan c ((q.chan c).disabled pr)).commit c before 0 true
  else if !before.enabled && pr.enable then
    let q := (p.setChan c (before.enabledBy pr)).commit c before 0 true
    if before.pins.flt then q.faultEntry c .driver else q
  else (p.setChan c { before with params := some pr }).commit c before 0 true

/-- The channel's state lets its parameters be replaced (R61). -/
def ChanState.replaceable (st : ChanState) : Bool := st == .unhomed || st == .idle || st == .parked || st == .fault

/-- The checks at the moment of replacement (R61): CHANNEL_BUSY, or BAD_CONFIG at a soft limit that S lies beyond. -/
def Channel.refuses (x : Channel) (pr : Params) : Option (RefusalCode × Int) :=
  if !x.state.replaceable then some (.channelBusy, 0)
  else if pr.enable && (x.state == .idle || x.state == .parked) && !x.lost then
    (if x.s < pr.softMin then some (.badConfig, 6) else if pr.softMax < x.s then some (.badConfig, 7) else none)
  else none

end Sys2Proof.Machine
end

