-- ==== Sys2Proof/Machine/Lines.lean ====
section
/-! DEFINITION. Station line controllers (Chapter 1): exchanges, presence, polling cycles and the line test. -/

namespace Sys2Proof.Machine

/-! ### The receive FIFO (R4) -/

/-- A character received in full is offered to the FIFO (R4). -/
def Line.offer (x : Line) (data : Byte) (framing mark : Bool) : Line :=
  if x.fifo.length < Config.fifoDepth then
    { x with fifo := x.fifo ++ [{ data := data, framing := framing, mark := mark, overrun := x.overrun }], overrun := false }
  else { x with overrun := true }

/-- A character of an open reply is followed by the gap that may close it (R5). In a running test the receiver takes the next of the
characters that the transmitter sends it, and after the last of them none (R18). DESIGN CHOICE (log entry 38): a fault of the loop shows
as a stop bit that reads low, or as a character that does not come. -/
def Line.receive (x : Line) (data : Byte) (framing mark : Bool) : Line :=
  match x.exchange, x.test, x.loop with
  | .receiving a, _, _ => { x.offer data framing mark with exchange := .gap a }
  | _, .running _, sent :: rest => { x.offer sent.data framing sent.mark with loop := rest }
  | _, _, _ => x

/-- CHARACTER_RECEIVED (R4, R5, R18): a character through its stop bit, while the receiver is on. -/
def execCharacterReceived (l : Fin 4) (data : Byte) (framing mark : Bool) (s : State) : Host.Outcome State Fault Refusal :=
  done s (s.part.modLine l (fun x => x.receive data framing mark))

/-- The poll's CHECK stop bit ends: DE is released, the receiver is on, the window is open (R2, R5). -/
def Line.openWindow (x : Line) : Line :=
  match x.exchange with
  | .sending a _ => { x with exchange := .window a }
  | _ => x

/-- REPLY_WINDOW_OPEN (R2, R5). -/
def execReplyWindowOpen (l : Fin 4) (s : State) : Host.Outcome State Fault Refusal :=
  done s (s.part.modLine l Line.openWindow)

/-- A start bit is detected: it opens the reply, or begins a further character of it (R5). -/
def Line.startBit (x : Line) : Line :=
  match x.exchange with
  | .window a => { x with exchange := .receiving a }
  | .gap a => { x with exchange := .receiving a }
  | _ => x

/-- START_BIT_DETECTED (R5). -/
def execStartBitDetected (l : Fin 4) (s : State) : Host.Outcome State Fault Refusal :=
  done s (s.part.modLine l Line.startBit)

/-! ### Outcomes and presence (R6 to R12) -/

/-- The entry of address a of a presence table; addresses run from 1 to 12. -/
def stationIndex (a : Nat) : Fin 12 := Fin.ofNat 12 (a - 1)

/-- A station of a line, by address. -/
def Part.station (p : Part) (l : Fin 4) (a : Nat) : Station := (p.line l).stations[stationIndex a]

/-- Change a station, by address. -/
def Part.modStation (p : Part) (l : Fin 4) (a : Nat) (f : Station → Station) : Part :=
  p.modLine l (fun x => { x with stations := x.stations.set (stationIndex a) (f x.stations[stationIndex a]) })

/-- A reply is GOOD, with its key sample (R6). -/
def judge (a : Nat) (fifo : List RxChar) : Option Byte :=
  match fifo with
  | [x, y, z] =>
    if fifo.all (fun c => !c.framing && !c.mark && !c.overrun) && x.data == BitVec.ofNat 8 a
        && x.data + y.data + z.data == 0xFF then some y.data else none
  | _ => none

/-- LINE_FAIL ends: an ABSENT station not yet reported raises STATION_LOST (R11). -/
def Part.reportAbsent (l : Fin 4) (p : Part) (i : Fin 12) : Part :=
  let a := i.val + 1
  let st := p.station l a
  if st.presence = .absent ∧ st.lost = false then
    (p.raiseAlert .stationLost (.station l a) (.one (p.line l).record.zone) .attend).modStation l a (fun y => { y with lost := true })
  else p

/-- LINE_FAIL in force ends (R11). -/
def Part.lineFailEnd (p : Part) (l : Fin 4) : Part :=
  let q := (p.modLine l (fun x => { x with lineFail := false })).condEnd .lineFail (.line l)
  (List.finRange 12).foldl (Part.reportAbsent l) q

/-- Write a station's word by its address (R12). -/
def Part.writeStationWord (p : Part) (l : Fin 4) (a : Nat) : Part := p.writeStation l (stationIndex a)

/-- An exchange ended GOOD (R8). -/
def Part.exchangeGood (p : Part) (l : Fin 4) (a : Nat) (keys : Byte) : Part :=
  let before := p.station l a
  let q := p.modStation l a (fun x => { x with failures := 0, everPresent := true, presence := .present })
  let q := if before.presence = .present then q else q.hand (stationRecord l a (q.station l a) q.time)
  let q := if before.lost then
      (q.modStation l a (fun x => { x with lost := false })).condEnd .stationLost (.station l a)
    else q
  let q := if (q.line l).lineFail then q.lineFailEnd l else q
  let q := if (q.station l a).mapWord = before.mapWord then q else q.writeStationWord l a
  q.sample l a keys

/-- Every other enabled station of the line is ABSENT (R10). -/
def Line.othersAbsent (x : Line) (a : Nat) : Bool :=
  (List.finRange 12).all (fun i =>
    decide (i.val + 1 = a) || decide (x.record.stations < i.val + 1) || x.stations[i].presence == .absent)

/-- The alert of a station that entered ABSENT (R10 step 3). -/
def Part.absentAlert (p : Part) (l : Fin 4) (a : Nat) : Part :=
  let x := p.line l
  if x.othersAbsent a then
    (p.raiseAlert .lineFail (.line l) (.one x.record.zone) .urgent).modLine l (fun y => { y with lineFail := true })
  else if x.lineFail then p
  else
    (p.raiseAlert .stationLost (.station l a) (.one x.record.zone) .attend).modStation l a (fun y => { y with lost := true })

/-- A station enters ABSENT (R10). -/
def Part.enterAbsent (p : Part) (l : Fin 4) (a : Nat) (wasSuspect : Bool) : Part :=
  let q := p.modStation l a (fun x => { x with presence := .absent })
  let q := if wasSuspect then q.stationGone l a else q
  let st := q.station l a
  let q := if st.everPresent then q.hand (stationRecord l a st q.time) else q
  q.absentAlert l a

/-- The failure count rises, saturating at 3; a BAD outcome counts too (R9). -/
def Station.failed (x : Station) (bad : Bool) : Station :=
  { x with failures := satInc x.failures, bad := if bad then satInc x.bad else x.bad }

/-- An exchange ended BAD or MISS (R9). DESIGN CHOICE (log entry 42): the station's word is written last, after the STATION record, the
forced releases and the alert of the same exchange (R9, R10, R12 give no order among them). -/
def Part.exchangeFailed (p : Part) (l : Fin 4) (a : Nat) (bad : Bool) : Part :=
  let q := p.modStation l a (fun x => x.failed bad)
  let st := q.station l a
  let q := match st.presence with
    | .present =>
      let r := q.modStation l a (fun x => { x with presence := .suspect })
      r.hand (stationRecord l a (r.station l a) r.time)
    | .suspect => if st.failures = 3 then q.enterAbsent l a true else q
    | .unknown => if st.failures = 3 then q.enterAbsent l a false else q
    | .absent => q
    | .disabled => q
  q.writeStationWord l a

/-! ### Polling cycles (R13, R14) -/

/-- An exchange has ended and its outcome has been applied: an accepted test waits to begin (R18); otherwise the next exchange of
the cycle follows, or the next cycle as R14 allows. -/
def Part.exchangeEnd (p : Part) (l : Fin 4) (a : Nat) : Part :=
  let x := p.line l
  if x.testing then p
  else if a < x.record.stations then p.pollStart l (a + 1)
  else if p.modes.mode.quick || reached p.time (after x.cycleStart Config.cycleSpacing) then p.beginCycle l
  else p.modLine l (fun y => { y with exchange := .waiting })

/-- No exchange is in progress. -/
def Part.idleLine (p : Part) (l : Fin 4) : Part := p.modLine l (fun x => { x with exchange := .idle })

/-- The reply closes and is judged (R6), its outcome applied (R8, R9). -/
def Part.replyClose (p : Part) (l : Fin 4) (a : Nat) : Part :=
  let verdict := judge a (p.line l).fifo
  let q := (p.modLine l (fun x => { x with fifo := [] })).idleLine l
  let q := match verdict with
    | some keys => q.exchangeGood l a keys
    | none => q.exchangeFailed l a true
  q.exchangeEnd l a

/-- REPLY_CLOSE (R5, R6): 3 character times have passed after a stop bit with no start bit. -/
def execReplyClose (l : Fin 4) (s : State) : Host.Outcome State Fault Refusal :=
  done s (match (s.part.line l).exchange with
    | .gap a => if s.part.active then s.part.replyClose l a else s.part
    | _ => s.part)

/-- REPLY_MISS (R5): the MISS deadline passes with no start bit. -/
def execReplyMiss (l : Fin 4) (s : State) : Host.Outcome State Fault Refusal :=
  done s (match (s.part.line l).exchange with
    | .window a => if s.part.active then ((s.part.idleLine l).exchangeFailed l a false).exchangeEnd l a else s.part
    | _ => s.part)

/-- CYCLE_WAIT_EXPIRY (R14): 100 ms have passed since the start of the previous cycle. -/
def execCycleWaitExpiry (l : Fin 4) (s : State) : Host.Outcome State Fault Refusal :=
  done s (match (s.part.line l).exchange with
    | .waiting =>
      (match s.part.atDue (after (s.part.line l).cycleStart Config.cycleSpacing) with
       | some p => p.beginCycle l
       | none => s.part)
    | _ => s.part)

/-! ### The line test (R17 to R20) -/

/-- A line test is accepted: the line is marked as testing, and a wait between cycles ends (R17, R18). -/
def Line.accepted (x : Line) (slot : Nat) : Line :=
  { x with test := .accepted slot, exchange := match x.exchange with | .waiting => .idle | e => e }

/-- The five characters a test transmits, as they should be stored (R18, R19). -/
def testExpected : List RxChar :=
  [ { data := 0x55, framing := false, mark := false, overrun := false },
    { data := 0xAA, framing := false, mark := false, overrun := false },
    { data := 0x0F, framing := false, mark := false, overrun := false },
    { data := 0xF0, framing := false, mark := false, overrun := false },
    { data := 0xA5, framing := false, mark := true, overrun := false } ]

/-- The test begins: the line is frozen, the FIFO emptied, and five characters are to be looped (R18). -/
def Part.testBegin (p : Part) (l : Fin 4) (slot : Nat) : Part :=
  (p.freeze l).modLine l (fun x => { x with test := .running slot, exchange := .idle, fifo := [], overrun := false, loop := testExpected })

/-- LINE_TEST_BEGIN (R18): an accepted test begins once no exchange is in progress. -/
def execLineTestBegin (l : Fin 4) (s : State) : Host.Outcome State Fault Refusal :=
  done s (match (s.part.line l).test, (s.part.line l).exchange with
    | .accepted slot, .idle => s.part.testBegin l slot
    | .accepted slot, .waiting => s.part.testBegin l slot
    | _, _ => s.part)

/-- The mismatch count of a test (R19). -/
def mismatches (fifo : List RxChar) : Nat := (List.range 5).countP (fun i => fifo[i]? != testExpected[i]?)

/-- A line that a test has left: FIFO empty, loop off, no longer testing, and a new cycle at address 1 (R19, R20). -/
def Part.testLeaves (p : Part) (l : Fin 4) : Part :=
  (p.modLine l (fun x => { x with test := .none, fifo := [], overrun := false, loop := [] })).beginCycle l

/-- Some line test is in progress (R20, R160). -/
def Part.anyTest (p : Part) : Bool := p.lines.toList.any Line.testing

/-- An APPLY INPUTS that waits in the hand table is applied and ends (R160). -/
def Part.applyWaiting (p : Part) (e : HandEntry) : Part :=
  match e.work with
  | .applyInputs lines defs =>
    ((p.applyInputsGroup { lines := lines, defs := defs }).dropHand e.slot).reportDone e.slot .complete 0
  | _ => p

/-- When the last test has ended, every waiting APPLY INPUTS is applied, in order of taking (R160). -/
def Part.applyAllWaiting (p : Part) : Part := if p.anyTest then p else p.orders.hand.foldl Part.applyWaiting p

/-- Listening ends (R19). -/
def Part.testEnd (p : Part) (l : Fin 4) (slot : Nat) : Part :=
  let n := mismatches (p.line l).fifo
  let q := p.dropHand slot
  let q :=
    if n = 0 then q.reportDone slot .complete 0
    else (q.reportDone slot .failed n).raiseAlert .lineTestFail (.line l) (.one (p.line l).record.zone) .info
  (q.testLeaves l).applyAllWaiting

/-- LINE_TEST_END (R19): 3 character times have passed after the fifth character's stop bit. -/
def execLineTestEnd (l : Fin 4) (s : State) : Host.Outcome State Fault Refusal :=
  done s (match (s.part.line l).test with
    | .running slot => s.part.testEnd l slot
    | _ => s.part)

end Sys2Proof.Machine
end

