-- ==== Sys2Proof/Machine/Orders.lean ====
section
/-! DEFINITION. The order taker (Chapter 9): the slot watch, the take, and what each kind of order does. TAKE reads and checks a
slot (R153, R154); the row of the order's kind then acts on it. A row whose order is not the one being taken changes nothing. -/

namespace Sys2Proof.Machine

/-! ### The slot watch (R150 to R152) -/

/-- Replace the take queue. -/
def Part.setTakeQueue (p : Part) (q : List Nat) : Part := p.setOrders { p.orders with takeQueue := q }

/-- A host write of a state byte to w0 of slot i reaches the order taker (R150). -/
def Part.slotWatch (p : Part) (i : Nat) (state : Byte) : Part :=
  if !p.active then p
  else match (p.slot i).shadow with
    | .idle =>
      if state = 1 then (p.modSlot i (fun x => { x with shadow := .queued })).setTakeQueue (p.orders.takeQueue ++ [i]) else p
    | .queued =>
      if state = 0 then (p.modSlot i (fun x => { x with shadow := .idle })).setTakeQueue (p.orders.takeQueue.filter (· ≠ i))
      else p
    | .inHand => p
    | .reported => if state = 0 then p.modSlot i (fun x => { x with shadow := .idle }) else p

/-! ### The take (R153, R154) -/

/-- The target of an order that names a channel or a group, and a STOP's kind, have a meaning (R154). -/
def targetOk (kind : OrderKind) (target : Nat) (w3 : Word) : Bool :=
  match kind with
  | .move | .home | .park | .release => decide (target < 8)
  | .stop => (decide (target < 8) || target == 15) && decide (w3.toNat ≤ 1)
  | .apply => decide (target ≤ 2) || within target 8 15
  | _ => true

/-- The take after w1 to w5 have been read (R153 step 3, R154). -/
def Part.takeChecked (p : Part) (slot : Nat) (ws : List Word) : Part :=
  let w1 := wordAt ws 0
  match OrderKind.ofCode (highByte w1).toNat with
  | none => p.refuse slot .badKind 0
  | some kind =>
    if targetOk kind (lowByte w1).toNat (wordAt ws 2) then
      let t : Taking :=
        { slot := slot, kind := kind, target := lowByte w1, w3 := wordAt ws 2, w4 := wordAt ws 3, w5 := wordAt ws 4, asked := false }
      p.setOrders { p.orders with taking := some t }
    else p.refuse slot .badOperand 0

/-- Take the slot at the head of the take queue (R153). -/
def Part.takeSlot (p : Part) (l : Layout) (slot : Nat) : Part :=
  let q := (p.modSlot slot (fun _ => { shadow := .inHand, kind := 0, tag := 0 })).writeSlotState slot .taken 0
  let r := q.readEvery .order (l.orders + 8 * slot + 1) 5
  let q := r.part.modSlot slot (fun x => { x with tag := wordAt r.words 1 })
  match r.firstBad with
  | some i => q.refuse slot .memory (i + 1)
  | none => (q.modSlot slot (fun x => { x with kind := highByte (wordAt r.words 0) })).takeChecked slot r.words

/-- TAKE (R153): while RUNNING, with no take in progress, the slot at the head of the take queue is taken. -/
def execTake (s : State) : Host.Outcome State Fault Refusal :=
  let p := s.part
  done s (match p.isRunning, p.orders.taking, p.orders.takeQueue, p.run.layout with
    | true, none, slot :: rest, some l => (p.setTakeQueue rest).takeSlot l slot
    | _, _, _, _ => p)

/-! ### The order being taken -/

/-- Act on the order being taken if it is of a kind and satisfies a test, while the blocks work. -/
def Part.withTaking (p : Part) (kind : OrderKind) (test : Taking → Bool) (act : Part → Taking → Part) : Part :=
  match p.orders.taking with
  | some t => if p.active && t.kind == kind && test t then act p t else p
  | none => p

/-- The channel an order names (R154). -/
def Taking.chan (t : Taking) : Fin 8 := Fin.ofNat 8 t.target.toNat

/-- An order that would be placed ends STOPPED with result 0 once the run state is STOPPING (R162). -/
def Part.stoppedTake (p : Part) (t : Taking) : Part := p.endTake t.slot .stopped 0

/-! ### MOVE, HOME and PARK (R66) -/

/-- The first check of R66 that fails. -/
def Part.refusesMove (p : Part) (c : Fin 8) (kind : MoveKind) : Option RefusalCode :=
  let x := p.chan c
  if !x.enabled then some .wrongState
  else if kind = .move ∧ p.modes.mode.quick = false then some .wrongMode
  else if x.state = .held ∨ x.state = .fault ∨ p.guarded c = true then some .wrongState
  else if kind = .move ∧ x.state = .parked ∧ x.parkCause = some .mode then some .wrongState
  else if kind ≠ .home ∧ (x.state = .unhomed ∨ x.state = .homing) then some .notHomed
  else if Config.queueDepth ≤ x.queue.length then some .queueFull
  else none

/-- At rest, where a move given becomes current at once (R66). -/
def Channel.startsAtOnce (x : Channel) : Bool :=
  (x.state == .unhomed || x.state == .idle || x.state == .parked) && x.queue.isEmpty

/-- An admitted move becomes current at once, or joins the pending queue (R63, R66). -/
def Part.placeMove (p : Part) (c : Fin 8) (m : Move) : Part :=
  let x := p.chan c
  if x.startsAtOnce then p.giveMove c m
  else (p.setChan c { x with queue := x.queue ++ [m] }).commit c x 0 false

/-- A MOVE, HOME or PARK order goes to its channel (R66, R155, R162). -/
def Part.offerMove (p : Part) (t : Taking) (m : Move) : Part :=
  match p.refusesMove t.chan m.kind with
  | some code => p.refuse t.slot code 0
  | none => if p.isRunning then p.takePlaced.placeMove t.chan m else p.stoppedTake t

/-- The target of a MOVE order (13.2): relative with bit 15 of w5. -/
def Taking.moveTarget (t : Taking) : MoveTarget :=
  if t.w5.getLsbD 15 then .relative (long t.w3 t.w4) else .absolute (long t.w3 t.w4)

/-- MOVE (R66). -/
def execMove (s : State) : Host.Outcome State Fault Refusal :=
  done s (s.part.withTaking .move (fun _ => true) (fun p t =>
    p.offerMove t { kind := .move, source := .order t.slot, target := t.moveTarget, scale := (lowByte t.w5).toNat }))

/-- HOME (R66, R67). -/
def execHome (s : State) : Host.Outcome State Fault Refusal :=
  done s (s.part.withTaking .home (fun _ => true) (fun p t =>
    p.offerMove t { kind := .home, source := .order t.slot, target := .absent, scale := 0 }))

/-- The park position of a channel (4.2). -/
def Channel.parkPosition (x : Channel) : Int :=
  match x.params with
  | some pr => pr.parkPosition
  | none => 0

/-- PARK (R66, R69). -/
def execPark (s : State) : Host.Outcome State Fault Refusal :=
  done s (s.part.withTaking .park (fun _ => true) (fun p t =>
    p.offerMove t { kind := .park, source := .order t.slot, target := .absolute (p.chan t.chan).parkPosition,
                    scale := (lowByte t.w5).toNat }))

/-! ### STOP (R73, R158) -/

/-- The one channel a STOP names; `none` for ALL. -/
def Taking.stopOne (t : Taking) : Option (Fin 8) := if t.target = 15 then none else some t.chan

/-- The channels a STOP names, ascending. -/
def Taking.stopNamed (t : Taking) : List (Fin 8) := match t.stopOne with | some c => [c] | none => List.finRange 8

/-- The result a STOP that ends now reports: S of the channel named, or 0 for ALL (R73). -/
def Part.stopResult (p : Part) (t : Taking) : Int := match t.stopOne with | some c => (p.chan c).s | none => 0

/-- The named channels in motion. -/
def Part.stopMoving (p : Part) (t : Taking) : List (Fin 8) := t.stopNamed.filter (fun c => (p.chan c).state.inMotion)

/-- A STOP CONTROLLED (R73, R158): it waits in the hand table for the channels in motion, and ends at once if all have counted. -/
def Part.stopControlled (p : Part) (t : Taking) : Part :=
  let moving := p.stopMoving t
  if p.isRunning = false ∧ moving ≠ [] then p.stoppedTake t
  else
    let q := p.takePlaced.addHand { slot := t.slot, work := .stop t.stopOne moving (p.stopResult t) }
    let q := t.stopNamed.foldl (fun r c => r.controlledStop c .stopped) q
    match q.handOf t.slot with
    | some { slot := i, work := .stop _ [] result } => (q.dropHand i).reportDone i .complete result
    | _ => q

/-- STOP_CONTROLLED (R73). -/
def execStopControlled (s : State) : Host.Outcome State Fault Refusal :=
  done s (s.part.withTaking .stop (fun t => t.w3 == 0) Part.stopControlled)

/-- A STOP CUT (R73, R74). -/
def Part.stopCut (p : Part) (t : Taking) : Part :=
  let q := t.stopNamed.foldl (fun r c => r.cut c .cut) p
  q.endTake t.slot .complete (q.stopResult t)

/-- STOP_CUT (R73, R74). -/
def execStopCut (s : State) : Host.Outcome State Fault Refusal :=
  done s (s.part.withTaking .stop (fun t => t.w3 == 1) Part.stopCut)

/-! ### RELEASE (R78) -/

/-- A channel released from FAULT (R78). -/
def Channel.releasedFault (x : Channel) : Channel :=
  { x with state := .unhomed, faults := .clear, faultCode := none, en := true }

/-- A RELEASE order (R78); a channel that becomes IDLE may be parked by the mode (R141). -/
def Part.releaseOrder (p : Part) (t : Taking) : Part :=
  let c := t.chan
  let x := p.chan c
  if x.enabled = true ∧ x.state = .fault ∧ x.pins.flt = false then
    let q := p.endFaults c
    ((q.setChan c (q.chan c).releasedFault).commit c x 0 true).endTake t.slot .complete x.s
  else if x.enabled = true ∧ x.state = .parked ∧ x.parkCause = some .host then
    (((p.setChan c { x with state := .idle, parkCause := none }).commit c x 0 true).modePark c).endTake t.slot .complete x.s
  else p.refuse t.slot .wrongState 0

/-- RELEASE (R78). -/
def execRelease (s : State) : Host.Outcome State Fault Refusal :=
  done s (s.part.withTaking .release (fun _ => true) Part.releaseOrder)

/-! ### APPLY (R160) -/

/-- Read and validate a group (R189, R160): a bad word refuses MEMORY with its index, a failed check BAD_CONFIG with its own; a
group that passes is given to `apply`, unless the run state is STOPPING. -/
def Part.applyGroup {α : Type} (p : Part) (t : Taking) (base size : Nat) (check : List Word → Except Nat α)
    (apply : Part → α → Part) : Part :=
  let r := p.readUntilBad .config base size
  match r.firstBad with
  | some i => r.part.refuse t.slot .memory i
  | none =>
    match check r.words with
    | .error i => r.part.refuse t.slot .badConfig i
    | .ok g => if r.part.isRunning then apply r.part g else r.part.stoppedTake t

/-- APPLY INPUTS waits in the hand table while a line test is in progress (R160). -/
def Part.applyInputsOrder (p : Part) (t : Taking) (g : InputsGroup) : Part :=
  if p.anyTest then p.takePlaced.addHand { slot := t.slot, work := .applyInputs g.lines g.defs }
  else (p.applyInputsGroup g).endTake t.slot .complete 0

/-- APPLY_INPUTS (R22, R23, R160). -/
def execApplyInputs (s : State) : Host.Outcome State Fault Refusal :=
  done s (s.part.withTaking .apply (fun t => t.target == 0) (fun p t =>
    match p.run.layout with
    | some l => p.applyGroup t l.inputs (16 + 6 * l.inputCount) (inputsOf l.inputCount) (fun q g => q.applyInputsOrder t g)
    | none => p))

/-- APPLY_GUARDS (R103, R104, R160). -/
def execApplyGuards (s : State) : Host.Outcome State Fault Refusal :=
  done s (s.part.withTaking .apply (fun t => t.target == 1) (fun p t =>
    match p.run.layout with
    | some l => p.applyGroup t l.guards 32 guardsOf (fun q g => (q.applyGuardsGroup g).endTake t.slot .complete 0)
    | none => p))

/-- APPLY_BINDINGS (R43, R44, R160). -/
def execApplyBindings (s : State) : Host.Outcome State Fault Refusal :=
  done s (s.part.withTaking .apply (fun t => t.target == 2) (fun p t =>
    match p.run.layout with
    | some l => p.applyGroup t l.bindings (8 * l.entryCount) (bindingsOf l.entryCount)
        (fun q b => (q.applyBindingsGroup b).endTake t.slot .complete 0)
    | none => p))

/-- An APPLY CHANNEL whose fields pass (R61, R62). -/
def Part.applyChannelOrder (p : Part) (t : Taking) (c : Fin 8) (pr : Params) : Part :=
  match (p.chan c).refuses pr with
  | some (code, result) => p.refuse t.slot code result
  | none => (p.applyChannelGroup c pr).endTake t.slot .complete 0

/-- APPLY_CHANNEL (R61, R62, R160). -/
def execApplyChannel (s : State) : Host.Outcome State Fault Refusal :=
  done s (s.part.withTaking .apply (fun t => within t.target.toNat 8 15) (fun p t =>
    let c : Fin 8 := Fin.ofNat 8 (t.target.toNat - 8)
    match p.run.layout with
    | some l => p.applyGroup t (l.params + 16 * c.val) 16 channelParamsOf (fun q pr => q.applyChannelOrder t c pr)
    | none => p))

/-! ### SET_MODE, ACK, ORDER_ALERT, LAMP, LINE_TEST -/

/-- A SET_MODE order (R136): its request waits to be taken, and the take with it. -/
def Part.setModeOrder (p : Part) (t : Taking) : Part :=
  match Mode.ofCode t.target.toNat with
  | none => p.refuse t.slot .badOperand 0
  | some m =>
    if p.isRunning then
      (p.setOrders { p.orders with taking := some { t with asked := true } }).pushRequest { mode := m, cause := .order t.slot }
    else p.stoppedTake t

/-- SET_MODE (R136). -/
def execSetMode (s : State) : Host.Outcome State Fault Refusal :=
  done s (s.part.withTaking .setMode (fun t => !t.asked) Part.setModeOrder)

/-- An ACK order (R124, R126). -/
def Part.ackOrder (p : Part) (t : Taking) : Part :=
  if 32 ≤ t.w3.toNat then p.refuse t.slot .badOperand 0
  else
    let i : Fin 32 := Fin.ofNat 32 t.w3.toNat
    match p.board.entries[i] with
    | none => p.refuse t.slot .noAlert 0
    | some e =>
      if e.code.code ≠ t.w4.toNat then p.refuse t.slot .noAlert 0
      else if e.unacked then ((p.ackEntry i e).endTake t.slot .complete 1).restNotice
      else p.endTake t.slot .complete 0

/-- ACK (R124). -/
def execAck (s : State) : Host.Outcome State Fault Refusal :=
  done s (s.part.withTaking .ack (fun _ => true) Part.ackOrder)

/-- An ORDER_ALERT order (R130). -/
def Part.alertOrder (p : Part) (t : Taking) : Part :=
  match Zone.ofCode t.target.toNat, Severity.ofCode t.w3.toNat with
  | some zone, some sev =>
    let (q, at?) := p.raiseFull .orderAlert (.host (lowByte t.w4)) zone sev
    q.endTake t.slot .complete (match at? with | some i => i.val | none => 32)
  | _, _ => p.refuse t.slot .badOperand 0

/-- ORDER_ALERT (R130). -/
def execOrderAlert (s : State) : Host.Outcome State Fault Refusal :=
  done s (s.part.withTaking .orderAlert (fun _ => true) Part.alertOrder)

/-- A LAMP order (R159). -/
def Part.lampOrder (p : Part) (t : Taking) : Part :=
  if t.target.toNat < p.inputs.length ∧ t.w3.toNat < 4 then
    (p.commandLamp t.target.toNat (.ofCode t.w3.toNat) (p.lampExpiry (min t.w4.toNat 255))).endTake t.slot .complete 0
  else p.refuse t.slot .badOperand 0

/-- LAMP (R159). -/
def execLamp (s : State) : Host.Outcome State Fault Refusal :=
  done s (s.part.withTaking .lamp (fun _ => true) Part.lampOrder)

/-- An APPLY INPUTS waits in the hand table (R17). -/
def Part.inputsWait (p : Part) : Bool :=
  p.orders.hand.any (fun e => match e.work with | .applyInputs _ _ => true | _ => false)

/-- A LINE_TEST order (R17). -/
def Part.testOrder (p : Part) (t : Taking) : Part :=
  let l : Fin 4 := Fin.ofNat 4 t.target.toNat
  if 4 ≤ t.target.toNat then p.refuse t.slot .badOperand 0
  else if p.modes.mode = .opened then p.refuse t.slot .wrongMode 0
  else if (p.line l).record.enable = false then p.refuse t.slot .wrongState 0
  else if (p.line l).testing = true ∨ p.inputsWait = true then p.refuse t.slot .lineBusy 0
  else if p.isRunning then
    (p.takePlaced.addHand { slot := t.slot, work := .lineTest l }).modLine l (fun x => x.accepted t.slot)
  else p.stoppedTake t

/-- LINE_TEST (R17). -/
def execLineTest (s : State) : Host.Outcome State Fault Refusal :=
  done s (s.part.withTaking .lineTest (fun _ => true) Part.testOrder)

end Sys2Proof.Machine
end

