-- ==== Sys2Proof/Machine/RunControl.lean ====
section
/-! DEFINITION. Run control (11.3 to 11.5): the checks, entry to RUNNING, STOPPING, HALTED and the resets. -/

namespace Sys2Proof.Machine

/-! ### Changes of run state (R178 to R182) -/

/-- HALTED or STOPPING has ended with RUN set, or RUN is set in HALTED: CHECKING begins (R178). The fault code is cleared (R179)
and the snapshot of the run before is no longer in force (R177). -/
def Part.beginChecking (p : Part) : Part :=
  let q := p.enterRun .checking
  q.setRun { q.run with faultCode := .none, layout := none }

/-- HALTED is entered; RUN is a level, so CHECKING follows at once when it is set (R178). -/
def Part.enterHalted (p : Part) : Part :=
  let q := p.enterRun .halted
  if q.run.run then q.beginChecking else q

/-- A waiting order of the hand table ends at entry to STOPPING (R162, R20): STOPPED with result 0, but for a STOP CONTROLLED whose
channels have all counted, which is COMPLETE (R158, log entry 15). DESIGN CHOICE (log entry 37): a test that is accepted and has not
begun, an exchange being in progress, also ends STOPPED; its mark is dropped, and the exchange and its FIFO go on. -/
def Part.endHand (p : Part) (e : HandEntry) : Part :=
  let q := p.dropHand e.slot
  match e.work with
  | .stop _ [] result => q.reportDone e.slot .complete result
  | .stop _ _ _ => q.reportDone e.slot .stopped 0
  | .applyInputs _ _ => q.reportDone e.slot .stopped 0
  | .lineTest l =>
    let q := q.reportDone e.slot .stopped 0
    match (q.line l).test, (q.line l).exchange with
    | .running _, _ => q.testLeaves l
    | .accepted _, .idle => q.testLeaves l
    | _, _ => q.modLine l (fun x => { x with test := .none })

/-- A SET_MODE whose request has not been taken ends STOPPED with result 0, the mode unchanged (R136). -/
def Part.endSetMode (p : Part) : Part :=
  match p.orders.taking with
  | some t =>
    if t.asked then
      (p.setModes { p.modes with requests := p.modes.requests.filter (fun r => r.cause != .order t.slot) }).stoppedTake t
    else p
  | none => p

/-- Entry to STOPPING (R181). DESIGN CHOICE (log entry 40): the waiting orders end in the order of their taking, tests among them, and a
SET_MODE that waits last, of which R162 gives no order. -/
def Part.enterStopping (p : Part) : Part :=
  let q := (p.enterRun .stopping).eachChannel (fun c r => r.controlledStop c .stopped)
  let q := q.orders.hand.foldl Part.endHand q
  q.endSetMode.restEval

/-- A channel at entry to HALTED (R82): outputs low, the rest kept. -/
def Channel.halted (x : Channel) : Channel := { x with en := false, dir := false }

/-- A guard at entry to HALTED (R114): its timers stop. -/
def Guard.halted (x : Guard) : Guard := { x with filterDue := none, clearDue := none }

/-- The order taker at entry to HALTED (R149, R162). -/
def Orders.halted (o : Orders) : Orders :=
  { slots := o.slots.map (fun x => { x with shadow := .idle }), takeQueue := [], taking := none, hand := [] }

/-- Every block stops (R182). -/
def Part.haltBlocks (p : Part) : Part :=
  { p with
    clock := .initial
    channels := Vector.ofFn (fun c : Fin 8 => (p.chan c).halted)
    guards := Vector.ofFn (fun g : Fin 8 => (p.guard g).halted)
    board := .initial
    lines := Vector.ofFn (fun l : Fin 4 => { p.line l with exchange := .idle, test := .none, loop := [] })
    inputs := p.inputs.map Input.stopTimers
    orders := p.orders.halted
    journal := { p.journal with staleDue := none }
    modes := { p.modes with restDue := none, watchDue := none, requests := [] } }

/-- Some channel is in motion. -/
def Part.anyMotion (p : Part) : Bool := p.channels.toList.any (fun x => x.state.inMotion)

/-- STOPPING_END (R182): every channel is at rest and no take is in progress. -/
def execStoppingEnd (s : State) : Host.Outcome State Fault Refusal :=
  let p := s.part
  done s (if p.run.state = .stopping ∧ p.anyMotion = false ∧ p.orders.taking = none then p.haltBlocks.enterHalted else p)

/-! ### CHECKING (R177, R179) -/

/-- What a part of the check has come to. -/
structure CheckRead (α : Type) where
  part : Part
  value : Except FaultCode α

/-- A group is read and checked (R179): MEMORY for a bad word, CONFIG for a failed check. -/
def Part.checkGroup {α : Type} (p : Part) (base size : Nat) (check : List Word → Except Nat α) : CheckRead α :=
  let r := p.readUntilBad .config base size
  match r.firstBad with
  | some _ => { part := r.part, value := .error .memory }
  | none =>
    match check r.words with
    | .error _ => { part := r.part, value := .error .config }
    | .ok g => { part := r.part, value := .ok g }

/-- Go on with the next part of the check, unless this one failed. -/
def CheckRead.next {α β : Type} (r : CheckRead α) (f : α → Part → CheckRead β) : CheckRead β :=
  match r.value with
  | .error e => { part := r.part, value := .error e }
  | .ok a => f a r.part

/-- The groups that a check has passed. -/
structure Groups where
  layout : Layout
  inputs : InputsGroup
  guards : Vector GuardRecord 8
  bindings : List Binding
  channels : List Params
  deriving DecidableEq, Repr

/-- The first n CHANNEL groups, in ascending number (R179). -/
def Part.checkChannels (p : Part) (l : Layout) : Nat → CheckRead (List Params)
  | 0 => { part := p, value := .ok [] }
  | n + 1 =>
    (p.checkChannels l n).next (fun prs q =>
      (q.checkGroup (l.params + 16 * n) 16 channelParamsOf).next (fun pr r => { part := r, value := .ok (prs ++ [pr]) }))

/-- The layout check (R177): the 32 words are read, then checked; a block that passes becomes the snapshot. -/
def Part.checkLayoutBlock (p : Part) : CheckRead Layout :=
  let r := p.readEvery .layout 0 32
  match checkLayout r.words r.firstBad.isSome with
  | .error e => { part := r.part, value := .error e }
  | .ok l => { part := r.part.setRun { r.part.run with layout := some l }, value := .ok l }

/-- All the checks of CHECKING, in their order (R179). -/
def Part.checkAll (p : Part) : CheckRead Groups :=
  p.checkLayoutBlock.next (fun l p =>
    (p.checkGroup l.inputs (16 + 6 * l.inputCount) (inputsOf l.inputCount)).next (fun i p =>
      (p.checkGroup l.guards 32 guardsOf).next (fun g p =>
        (p.checkGroup l.bindings (8 * l.entryCount) (bindingsOf l.entryCount)).next (fun b p =>
          (p.checkChannels l 8).next (fun c p =>
            { part := p, value := .ok { layout := l, inputs := i, guards := g, bindings := b, channels := c } })))))

/-- A failed check enters FAULTED with its code and leaves no snapshot (R177, R179). -/
def Part.checkFailed (p : Part) (code : FaultCode) : Part :=
  let q := p.enterRun .faulted
  q.setRun { q.run with faultCode := code, layout := none }

/-! ### Entry to RUNNING (R180) -/

/-- Steps 1 and 2: gallery time and the journal writer (R164, R180). -/
def Part.startJournal (p : Part) : Part :=
  let q := (((p.enterRun .running).setTime 0).setClock .initial).setJournal .initial
  q.writeRegion (fun l => l.pointers) [0, 0, 0, 0]

/-- Step 3: the alert board emptied and written free (R115). -/
def Part.startBoard (p : Part) : Part :=
  let q := p.setBoard .initial
  (q.writeRegion (fun l => l.board + 4) (List.replicate 256 0)).writeRegion (fun l => l.board) q.board.header

/-- Step 4: the mode, the rest timer and the host watch (R134, R144, R146). -/
def Part.startModes (p : Part) : Part :=
  (p.setModes { Modes.initial with watchDue := if p.watchWindow = 0 then none else some (after 0 p.watchWindow) }).writeModeNow

/-- A channel as entry to RUNNING leaves it (R82, R83). -/
def Channel.started (x : Channel) (pr : Params) : Channel :=
  { Channel.initial with params := some pr, pins := x.pins, en := pr.enable && !x.pins.flt }

/-- Step 5: every validated group becomes its applied copy (R180). -/
def Part.startGroups (p : Part) (g : Groups) : Part :=
  let q := p.installInputs g.inputs.lines g.inputs.defs
  let q := q.setBindings g.bindings
  q.setGuards (Vector.ofFn (fun i : Fin 8 => { Guard.initial with record := g.guards[i], pin := (p.guard i).pin }))

/-- Parameters of channel c among those validated. -/
def Groups.channel (g : Groups) (c : Fin 8) : Params :=
  g.channels.getD c.val
    { enable := false, maxSpeed := 0, startSpeed := 0, accel := 0, decel := 0, guardDecel := 0, softMin := 0, softMax := 0,
      homeOffset := 0, parkPosition := 0, homeSpeed := 0, homeSearch := 0, zone := 0 }

/-- Step 6 for a channel whose FLT is active (R75, R82). -/
def Part.startFault (c : Fin 8) (p : Part) : Part :=
  if (p.chan c).enabled && (p.chan c).pins.flt then p.faultEntry c .driver else p

/-- Step 6: the channels are initialised, and every status record written (R82). -/
def Part.startChannels (p : Part) (g : Groups) : Part :=
  let q := p.setChannels (Vector.ofFn (fun c : Fin 8 => (p.chan c).started (g.channel c)))
  (q.eachChannel Part.startFault).eachChannel (fun c r => r.writeStatus c)

/-- Step 7 for a guard (R114). -/
def Part.startGuard (g : Fin 8) (p : Part) : Part := if (p.guard g).record.enable then p.guardFresh g .run else p

/-- A slot that reads TAKEN at the scan is written DONE RESET, with w2 as its tag (R163). -/
def Part.scanTaken (p : Part) (l : Layout) (i : Nat) : Part :=
  let r := p.readWord .order (l.orders + 8 * i + 2)
  (r.part.modSlot i (fun x => { x with kind := 0, tag := r.value })).reportDone i .reset 0

/-- Step 8 for a slot (R163). -/
def Part.scanSlot (l : Layout) (p : Part) (i : Nat) : Part :=
  let r := p.readWord .order (l.orders + 8 * i)
  let state := (lowByte r.value).toNat
  if r.bad then r.part
  else if state = SlotState.taken.code then r.part.scanTaken l i
  else if state = SlotState.posted.code then
    (r.part.modSlot i (fun x => { x with shadow := .queued })).setTakeQueue (r.part.orders.takeQueue ++ [i])
  else r.part

/-- Step 8: the order table is scanned in ascending slot index (R163). -/
def Part.startOrders (p : Part) (l : Layout) : Part :=
  let q := p.setOrders { Orders.initial with slots := List.replicate l.slotCount { shadow := .idle, kind := 0, tag := 0 } }
  (List.range l.slotCount).foldl (Part.scanSlot l) q

/-- Step 9: the scrubber's position, and the lines begin polling (R13, R180). -/
def Part.startLines (p : Part) : Part :=
  (p.setProt { p.prot with scrubPos := 0 }).eachLine (fun l r => r.beginCycle l)

/-- Entry to RUNNING (R180), step by step. -/
def Part.enterRunning (p : Part) (g : Groups) : Part :=
  let q := ((p.startJournal.startBoard.startModes).startGroups g).startChannels g
  ((q.eachGuard Part.startGuard).startOrders g.layout).startLines

/-- The check ends (R179). -/
def Part.finishCheck (p : Part) : Part :=
  let r := p.checkAll
  match r.value with
  | .error code => r.part.checkFailed code
  | .ok g => r.part.enterRunning g

/-- CHECKING_COMPLETE (R179, R180). -/
def execCheckingComplete (s : State) : Host.Outcome State Fault Refusal :=
  done s (if s.part.run.state = .checking then s.part.finishCheck else s.part)

/-! ### ZCTL (R185) and resets (R183) -/

/-- The internal state of every block cleared (R183): exhibit memory, the levels at the input pins and the word on the port stay. -/
def Part.resetBlocks (p : Part) (run : RunControl) (prot : Protection) : Part :=
  { Part.initial with
    run := run, prot := prot, mem := p.mem, hostData := p.hostData
    channels := Vector.ofFn (fun c : Fin 8 => { Channel.initial with pins := (p.chan c).pins })
    guards := Vector.ofFn (fun g : Fin 8 => { Guard.initial with pin := (p.guard g).pin }) }

/-- The run state after a PIN or SOFT reset (R183): CLEARING when taken during CLEARING. -/
def RunState.afterReset (st : RunState) : RunState := if st = .clearing then .clearing else .halted

/-- A SOFT reset (R183): enables and CAPTURE_LAST kept, the error registers kept. -/
def Part.softReset (p : Part) : Part :=
  p.resetBlocks
    { RunControl.initial with state := p.run.state.afterReset, enables := p.run.enables, captureLast := p.run.captureLast,
                              resetCause := .soft }
    { p.prot with injection := .clear, scrubPos := 0 }

/-- RUN has been written (R178). -/
def Part.runLevel (p : Part) : Part :=
  match p.run.state, p.run.run with
  | .halted, true => p.beginChecking
  | .checking, false => p.enterHalted
  | .running, false => p.enterStopping
  | .faulted, false => p.enterHalted
  | _, _ => p

/-- A host write to ZCTL (R185, R196), discarded while a reset holds the part (R175). -/
def Part.zctlWrite (p : Part) (v : Word) : Part :=
  if !p.free then p
  else
    let q := p.setRun { p.run with run := v.getLsbD 0, enables := .ofWord v 4, captureLast := v.getLsbD 8 }
    if v.getLsbD 1 then q.softReset else q.runLevel

/-- SET_RUN (R178): a ZCTL write with RUN set. -/
def execSetRun (v : Word) (s : State) : Host.Outcome State Fault Refusal :=
  done s (s.part.zctlWrite ((v ||| 1) &&& 0xFFFD))

/-- CLEAR_RUN (R178): a ZCTL write with RUN clear. -/
def execClearRun (v : Word) (s : State) : Host.Outcome State Fault Refusal :=
  done s (s.part.zctlWrite (v &&& 0xFFFC))

/-- SOFT_RESET (R183, R185): a ZCTL write with SOFT_RESET written 1. -/
def execSoftReset (v : Word) (s : State) : Host.Outcome State Fault Refusal := done s (s.part.zctlWrite (v ||| 2))

/-- SET_ATTENTION_ENABLES (R185, R186): a ZCTL write, which replaces the four enables. -/
def execSetAttentionEnables (v : Word) (s : State) : Host.Outcome State Fault Refusal := done s (s.part.zctlWrite v)

/-- SET_CAPTURE_LAST (R185, R190): a ZCTL write, which replaces CAPTURE_LAST. -/
def execSetCaptureLast (v : Word) (s : State) : Host.Outcome State Fault Refusal := done s (s.part.zctlWrite v)

/-- A POWER reset (R183): it holds the part, and exhibit memory is cleared from the first word once the hold has ended. -/
def Part.powerReset (p : Part) : Part :=
  (p.resetBlocks { RunControl.initial with hold := some .power } .initial).setMem []

/-- POWER_RESET (R183). -/
def execPowerReset (s : State) : Host.Outcome State Fault Refusal := done s s.part.powerReset

/-- A PIN reset (R183): RESET_N holds the part; exhibit memory is kept. -/
def Part.pinReset (p : Part) : Part :=
  p.resetBlocks { RunControl.initial with state := p.run.state.afterReset, hold := some .pin, resetCause := .pin } .initial

/-- PIN_RESET (R183). -/
def execPinReset (s : State) : Host.Outcome State Fault Refusal := done s s.part.pinReset

/-- RESET_HOLD_END (R183): the new run state is entered and the part is served again. -/
def execResetHoldEnd (s : State) : Host.Outcome State Fault Refusal :=
  done s (s.part.setRun { s.part.run with hold := none })

/-- CLEARING_DONE (R178, R183): every word is 0x0000 with valid check bits, and the run state becomes HALTED. -/
def execClearingDone (s : State) : Host.Outcome State Fault Refusal :=
  done s (if s.part.free = true ∧ s.part.run.state = .clearing then (s.part.setMem []).enterHalted else s.part)

end Sys2Proof.Machine
end

