-- ==== Sys2Proof/Machine/Window.lean ====
section
/-! DEFINITION. The window port (11.1): host reads and writes, the watched words, ZATN, and the journal's empty pointer (R169, R173). -/

namespace Sys2Proof.Machine

/-! ### J_EMPTY (R169, R171, R173) -/

/-- Flush one input's coalesce count, unless the state has become THROTTLED again (R173). The record is the writer's own, so a raise
that its drop calls for waits until the flush has ended (log entry 11). -/
def Part.flushInput (p : Part) (i : Nat) : Part :=
  if p.journal.throttled then p
  else
    let n := sparseGet 0 p.journal.coalesced i
    let q := p.setJournal { p.journal with coalesced := sparseSet 0 p.journal.coalesced i 0 }
    q.writeRecord (coalescedRecord i n q.time)

/-- The flush (R173): the inputs with a nonzero count, in ascending number. Raises that it called for follow it (log entry 11). -/
def Part.flush (p : Part) : Part :=
  match p.journal.coalesced with
  | [] => p
  | counts => ((counts.map Prod.fst).foldl Part.flushInput p).whole

/-- The stale timer after an accepted J_EMPTY (R171). -/
def Journal.restale (j : Journal) (size : Nat) (now : Time) (staleTime : Nat) : Journal :=
  { j with staleDue :=
      match j.staleDue with
      | some _ => if j.occupancy size = 0 then none else some (after now staleTime)
      | none => none }

/-- The low-mark check of R173. -/
def Part.lowMark (p : Part) (l : Layout) : Part :=
  if p.journal.throttled = true ∧ p.journal.occupancy l.journalSize ≤ l.lowMark then
    ((p.setJournal { p.journal with throttled := false }).writeJState).flush
  else p

/-- A host write of `v` to J_EMPTY reaches the writer (R169). -/
def Part.jEmpty (p : Part) (v : Word) : Part :=
  match p.run.layout with
  | none => p
  | some l =>
    if !p.active then p
    else
      let size := l.journalSize
      if v.toNat < size ∧ (v.toNat + size - p.journal.empty) % size ≤ p.journal.occupancy size then
        let j : Journal := { p.journal with empty := v.toNat }
        (p.setJournal (j.restale size p.time l.staleTime)).lowMark l
      else p.writeRegion (fun y => y.pointers + 1) [word p.journal.empty]

/-! ### The slot watch and host writes (R175) -/

/-- One of the two spare words of the pointer block, while a snapshot is in force (R175). -/
def Part.spare (p : Part) (a : Nat) : Bool :=
  match p.run.layout with
  | some l => a == l.pointers + 6 || a == l.pointers + 7
  | none => false

/-- A stored host write to a watched word is passed to its owner (R175): a slot's w0, J_EMPTY, HEARTBEAT. -/
def Part.watch (p : Part) (a : Nat) (v : Word) : Part :=
  match p.run.layout with
  | none => p
  | some l =>
    if inRegion a l.orders (8 * l.slotCount) && (a - l.orders) % 8 == 0 then p.slotWatch ((a - l.orders) / 8) (lowByte v)
    else if a = l.pointers + 1 then p.jEmpty v
    else if a = l.pointers + 4 then p.heartbeat
    else p

/-- A host write of a word of exhibit memory (R175): discarded while a reset holds the part, in CLEARING, and to a spare word. -/
def Part.memWrite (p : Part) (a : Nat) (v : Word) : Part :=
  if p.free = false ∨ p.run.state = .clearing ∨ p.spare a = true then p else (p.storeFrom false a v).watch a v

/-- A host write to ZATN (R186, R196): a 1 in bits 0 to 3 clears a cause. -/
def Part.clearAttention (p : Part) (v : Word) : Part :=
  p.setRun { p.run with attention := p.run.attention.without (.ofWord v 0) }

/-- The even byte address of an access (00_scope.md 3.1: the port has no A0). -/
def evenAddress (a : Word) : Word := a &&& 0xFFFE

/-- A host write at a byte address of the window (R175): exhibit memory, a register, or nothing. -/
def Part.windowWrite (p : Part) (addr v : Word) : Part :=
  let a := evenAddress addr
  if a.toNat < Config.memBytes then p.memWrite (a.toNat / 2) v
  else if p.free = false then p
  else if a = 0xFFF2 then p.zctlWrite v
  else if a = 0xFFF6 then p.clearAttention v
  else if a = 0xFFFC then p.clearCounts
  else if a = 0xFFFE then p.writeInjection v
  else p

/-- A host write to a word of a region of the snapshot; without a snapshot the word has no address. -/
def Part.regionWrite (p : Part) (base : Layout → Nat) (v : Word) : Part :=
  match p.run.layout with
  | some l => p.memWrite (base l) v
  | none => p

/-- A host write of a state to w0 of a slot of the table (R150). -/
def Part.slotWrite (p : Part) (slot : Nat) (state : SlotState) (high : Byte) : Part :=
  match p.run.layout with
  | some l => if slot < l.slotCount then p.memWrite (l.orders + 8 * slot) (word (state.code + 256 * high.toNat)) else p
  | none => p

/-- HOST_WRITE (R175). -/
def execHostWrite (addr v : Word) (s : State) : Host.Outcome State Fault Refusal := done s (s.part.windowWrite addr v)

/-- DISCARDED_REGISTER_WRITE (R175): a write to unused space, ZID, ZSTAT, ZECA or ZEUA. -/
def execDiscardedRegisterWrite (addr v : Word) (s : State) : Host.Outcome State Fault Refusal :=
  done s (s.part.windowWrite addr v)

/-- CLEAR_ATTENTION_CAUSE (R186), discarded while a reset holds the part (R175). -/
def execClearAttentionCause (v : Word) (s : State) : Host.Outcome State Fault Refusal :=
  done s (if s.part.free then s.part.clearAttention v else s.part)

/-- SLOT_POSTED_WRITE (R150). -/
def execSlotPostedWrite (slot : BitVec 6) (high : Byte) (s : State) : Host.Outcome State Fault Refusal :=
  done s (s.part.slotWrite slot.toNat .posted high)

/-- SLOT_FREE_WRITE (R150, R152). -/
def execSlotFreeWrite (slot : BitVec 6) (high : Byte) (s : State) : Host.Outcome State Fault Refusal :=
  done s (s.part.slotWrite slot.toNat .free high)

/-- J_EMPTY_WRITE (R169). -/
def execJEmptyWrite (v : Word) (s : State) : Host.Outcome State Fault Refusal :=
  done s (s.part.regionWrite (fun l => l.pointers + 1) v)

/-- HEARTBEAT_WRITE (R146). -/
def execHeartbeatWrite (v : Word) (s : State) : Host.Outcome State Fault Refusal :=
  done s (s.part.regionWrite (fun l => l.pointers + 4) v)

/-! ### Host reads (R175) -/

/-- A host read of a word of exhibit memory (R175): 0x0000 in CLEARING and of a spare word, else the word, checked (R188). DESIGN CHOICE
(log entry 41): a spare word answered 0x0000 is not read from the array, so it is neither judged nor counted. -/
def Part.memRead (p : Part) (a : Nat) : Part :=
  if p.run.state = .clearing ∨ p.spare a = true then p.setHostData 0
  else
    let r := p.readWord .host a
    r.part.setHostData r.value

/-- A host read at a byte address of the window (R175); while a reset holds the part it returns 0x0000. -/
def Part.windowRead (p : Part) (addr : Word) : Part :=
  let a := evenAddress addr
  if p.free = false then p.setHostData 0
  else if a.toNat < Config.memBytes then p.memRead (a.toNat / 2)
  else p.setHostData (p.readRegister a)

/-- HOST_READ (R175). -/
def execHostRead (addr : Word) (s : State) : Host.Outcome State Fault Refusal := done s (s.part.windowRead addr)

end Sys2Proof.Machine
end

