-- ==== Sys2Proof/Machine/Dispatch.lean ====
section
/-! DEFINITION. What each command does: one arm for each row of spec/opcode_table.json, one direct call of its meaning. -/

namespace Sys2Proof.Machine

def exec (i : Instr) (s : State) : Host.Outcome State Fault Refusal :=
  match i with
  | .powerReset => Sys2Proof.Machine.execPowerReset s
  | .pinReset => Sys2Proof.Machine.execPinReset s
  | .resetHoldEnd => Sys2Proof.Machine.execResetHoldEnd s
  | .clearingDone => Sys2Proof.Machine.execClearingDone s
  | .setRun v => Sys2Proof.Machine.execSetRun v s
  | .clearRun v => Sys2Proof.Machine.execClearRun v s
  | .softReset v => Sys2Proof.Machine.execSoftReset v s
  | .setAttentionEnables v => Sys2Proof.Machine.execSetAttentionEnables v s
  | .setCaptureLast v => Sys2Proof.Machine.execSetCaptureLast v s
  | .clearAttentionCause v => Sys2Proof.Machine.execClearAttentionCause v s
  | .clearErrorCounts v => Sys2Proof.Machine.execClearErrorCounts v s
  | .armInjection v => Sys2Proof.Machine.execArmInjection v s
  | .disarmInjection v => Sys2Proof.Machine.execDisarmInjection v s
  | .discardedRegisterWrite addr v => Sys2Proof.Machine.execDiscardedRegisterWrite addr v s
  | .hostRead addr => Sys2Proof.Machine.execHostRead addr s
  | .hostWrite addr v => Sys2Proof.Machine.execHostWrite addr v s
  | .slotPostedWrite slot high => Sys2Proof.Machine.execSlotPostedWrite slot high s
  | .slotFreeWrite slot high => Sys2Proof.Machine.execSlotFreeWrite slot high s
  | .jEmptyWrite v => Sys2Proof.Machine.execJEmptyWrite v s
  | .heartbeatWrite v => Sys2Proof.Machine.execHeartbeatWrite v s
  | .checkingComplete => Sys2Proof.Machine.execCheckingComplete s
  | .stoppingEnd => Sys2Proof.Machine.execStoppingEnd s
  | .take => Sys2Proof.Machine.execTake s
  | .move => Sys2Proof.Machine.execMove s
  | .home => Sys2Proof.Machine.execHome s
  | .park => Sys2Proof.Machine.execPark s
  | .stopControlled => Sys2Proof.Machine.execStopControlled s
  | .stopCut => Sys2Proof.Machine.execStopCut s
  | .release => Sys2Proof.Machine.execRelease s
  | .applyInputs => Sys2Proof.Machine.execApplyInputs s
  | .applyGuards => Sys2Proof.Machine.execApplyGuards s
  | .applyBindings => Sys2Proof.Machine.execApplyBindings s
  | .applyChannel => Sys2Proof.Machine.execApplyChannel s
  | .setMode => Sys2Proof.Machine.execSetMode s
  | .ack => Sys2Proof.Machine.execAck s
  | .orderAlert => Sys2Proof.Machine.execOrderAlert s
  | .lamp => Sys2Proof.Machine.execLamp s
  | .lineTest => Sys2Proof.Machine.execLineTest s
  | .stopWaitEnd slot => Sys2Proof.Machine.execStopWaitEnd slot s
  | .lineTestBegin line => Sys2Proof.Machine.execLineTestBegin line s
  | .lineTestEnd line => Sys2Proof.Machine.execLineTestEnd line s
  | .replyWindowOpen line => Sys2Proof.Machine.execReplyWindowOpen line s
  | .characterReceived line data framing mark => Sys2Proof.Machine.execCharacterReceived line data framing mark s
  | .replyClose line => Sys2Proof.Machine.execReplyClose line s
  | .replyMiss line => Sys2Proof.Machine.execReplyMiss line s
  | .cycleWaitExpiry line => Sys2Proof.Machine.execCycleWaitExpiry line s
  | .lampExpiry input => Sys2Proof.Machine.execLampExpiry input s
  | .holdTimerExpiry input => Sys2Proof.Machine.execHoldTimerExpiry input s
  | .repeatTimerExpiry input => Sys2Proof.Machine.execRepeatTimerExpiry input s
  | .stuckTimerExpiry input => Sys2Proof.Machine.execStuckTimerExpiry input s
  | .suspensionExpiry input => Sys2Proof.Machine.execSuspensionExpiry input s
  | .lockoutExpiry entry => Sys2Proof.Machine.execLockoutExpiry entry s
  | .motionTick => Sys2Proof.Machine.execMotionTick s
  | .homeActive channel us => Sys2Proof.Machine.execHomeActive channel us s
  | .homeSearchExhausted channel => Sys2Proof.Machine.execHomeSearchExhausted channel s
  | .limitActive channel high us => Sys2Proof.Machine.execLimitActive channel high us s
  | .fltActive channel us => Sys2Proof.Machine.execFltActive channel us s
  | .channelInputChange channel pin level => Sys2Proof.Machine.execChannelInputChange channel pin level s
  | .statusRefresh channel => Sys2Proof.Machine.execStatusRefresh channel s
  | .guardPinChange guard level => Sys2Proof.Machine.execGuardPinChange guard level s
  | .guardFilterExpiry guard => Sys2Proof.Machine.execGuardFilterExpiry guard s
  | .clearTimerExpiry guard => Sys2Proof.Machine.execClearTimerExpiry guard s
  | .escalation index => Sys2Proof.Machine.execEscalation index s
  | .modeRequest => Sys2Proof.Machine.execModeRequest s
  | .restTimerExpiry => Sys2Proof.Machine.execRestTimerExpiry s
  | .hostWatchExpiry => Sys2Proof.Machine.execHostWatchExpiry s
  | .staleTimerExpiry => Sys2Proof.Machine.execStaleTimerExpiry s
  | .scrub => Sys2Proof.Machine.execScrub s
  | .startBitDetected line => Sys2Proof.Machine.execStartBitDetected line s

end Sys2Proof.Machine
end

