-- ==== Sys2Proof/Machine/Step.lean ====
section
/-! DEFINITION. One step: the command at the front of the queue is carried out whole. -/

namespace Sys2Proof.Machine

/-- With no command waiting, a microsecond of the present millisecond passes while the blocks work (log entry 4). -/
def Part.idle (p : Part) : Part := p.goTo (p.clock.us + 1)

/-- Take the command at the front of the queue and carry it out on the state with the queue's rest; with no command waiting a
microsecond of the present millisecond passes (DESIGN CHOICE, log entry 4). -/
def step (s : State) : Host.Outcome State Fault Refusal :=
  match s.pending with
  | c :: rest => exec c (s.setPending rest)
  | [] => .next (s.setPart s.part.idle)

/-- Put a command at the front of the queue. -/
def State.push (s : State) (c : Instr) : State := s.setPending (c :: s.pending)

/-- The state with the command a word spells put at the front of its queue; no word spells one (Decode.lean), so the state is
unchanged. -/
def State.withFetchWord (s : State) (nbits w : Nat) : State :=
  match decodeTableWord nbits w with
  | some c => s.push c
  | none => s

end Sys2Proof.Machine
end

