-- ==== Sys2Proof/Safety.lean ====
section
/-! DEFINITION. What statements about the part are phrased in: what a report and an operation on one channel may change, and the
invariant of a run. -/

namespace Sys2Proof.Machine

/-! ### The regions the part writes (13.1) -/

/-- A word that reports go to: J_FILL, J_GAP, J_STATE and MODE_NOW of the pointer block, the status records, the input state map, the
board, the journal. -/
def Layout.reportWord (l : Layout) (a : Nat) : Bool :=
  a == l.pointers || inRegion a (l.pointers + 2) 2 || a == l.pointers + 5 || inRegion a l.status 96
    || inRegion a l.stateMap (l.inputCount + 48) || inRegion a l.board 260 || inRegion a l.journal l.journalSize

/-- A word of a region that reports go to, under the snapshot. -/
def Part.reportWord (p : Part) (a : Nat) : Bool :=
  match p.run.layout with
  | some l => l.reportWord a
  | none => false

/-- A word of the order table, under the snapshot. -/
def Part.orderWord (p : Part) (a : Nat) : Bool :=
  match p.run.layout with
  | some l => inRegion a l.orders (8 * l.slotCount)
  | none => false

/-- A layout that the check of R177 lets through. -/
def Layout.valid (l : Layout) : Bool := l.countsOk && l.rangesOk (flag l.silentRest) && allApart l.regions && l.marksOk

/-! ### What may change -/

/-- Nothing but reports stands between `p` and `q`: only exhibit memory, an injection carried out, the journal, the board, the
attention causes JOURNAL and ALERT, SETTLING, the rest timer and the times of status writes may differ. J_EMPTY does not move,
memory keeps its canonical form, and every word outside the regions that reports go to is as before. -/
structure Part.Told (p q : Part) : Prop where
  run : q.run = { p.run with attention := q.run.attention }
  runstate : q.run.attention.runstate = p.run.attention.runstate
  memerr : q.run.attention.memerr = p.run.attention.memerr
  time : q.time = p.time
  clock : q.clock = p.clock
  hostData : q.hostData = p.hostData
  prot : q.prot = { p.prot with injection := { p.prot.injection with armed := q.prot.injection.armed } }
  orders : q.orders = p.orders
  lines : q.lines = p.lines
  inputs : q.inputs = p.inputs
  bindings : q.bindings = p.bindings
  channels : ∀ c, q.chan c = { p.chan c with lastWrite := (q.chan c).lastWrite }
  guards : q.guards = p.guards
  modes : q.modes = { p.modes with settling := q.modes.settling, restDue := q.modes.restDue }
  empty : q.journal.empty = p.journal.empty
  mem : Memory.wf p.mem → Memory.wf q.mem
  words : ∀ a, p.reportWord a = false → q.mem.cell a = p.mem.cell a

/-- Nothing but reports and channel `c` stands between `p` and `q`: besides what `Part.Told` names, channel `c` may differ (its
parameters and pins stay, and no move joins its queue), slots may have been reported (shadow REPORTED, words of the order table), and a
STOP CONTROLLED may have counted. -/
structure Part.Near (c : Fin 8) (p q : Part) : Prop where
  run : q.run = { p.run with attention := q.run.attention }
  runstate : q.run.attention.runstate = p.run.attention.runstate
  memerr : q.run.attention.memerr = p.run.attention.memerr
  time : q.time = p.time
  clock : q.clock = p.clock
  hostData : q.hostData = p.hostData
  prot : q.prot = { p.prot with injection := { p.prot.injection with armed := q.prot.injection.armed } }
  taking : q.orders.taking = p.orders.taking
  takeQueue : q.orders.takeQueue = p.orders.takeQueue
  lines : q.lines = p.lines
  inputs : q.inputs = p.inputs
  bindings : q.bindings = p.bindings
  others : ∀ d, d ≠ c → q.chan d = { p.chan d with lastWrite := (q.chan d).lastWrite }
  params : (q.chan c).params = (p.chan c).params
  pins : (q.chan c).pins = (p.chan c).pins
  queue : (q.chan c).queue.length ≤ (p.chan c).queue.length
  guards : q.guards = p.guards
  modes : q.modes = { p.modes with settling := q.modes.settling, restDue := q.modes.restDue }
  empty : q.journal.empty = p.journal.empty
  mem : Memory.wf p.mem → Memory.wf q.mem
  words : ∀ a, p.reportWord a = false → p.orderWord a = false → q.mem.cell a = p.mem.cell a

/-- Nothing but the ordinary work of the blocks stands between `p` and `q`: no configuration, no register of run control or of
protection, no pin, no time and no station record has changed; `f` of every input is as before, every entry of the binding store is,
and memory differs at most in the regions that reports go to and in the order table. -/
structure Part.Calm {β : Type} (f : Input → β) (p q : Part) : Prop where
  run : q.run = { p.run with attention := q.run.attention }
  runstate : q.run.attention.runstate = p.run.attention.runstate
  memerr : q.run.attention.memerr = p.run.attention.memerr
  time : q.time = p.time
  clock : q.clock = p.clock
  hostData : q.hostData = p.hostData
  prot : q.prot = { p.prot with injection := { p.prot.injection with armed := q.prot.injection.armed } }
  takeQueue : q.orders.takeQueue = p.orders.takeQueue
  lines : ∀ l, q.line l = { p.line l with fifo := (q.line l).fifo, overrun := (q.line l).overrun,
                                          exchange := (q.line l).exchange, cycleStart := (q.line l).cycleStart }
  inputs : q.inputs.map f = p.inputs.map f
  bindings : q.bindings.map Binding.entry = p.bindings.map Binding.entry
  params : ∀ c, (q.chan c).params = (p.chan c).params
  pins : ∀ c, (q.chan c).pins = (p.chan c).pins
  guards : ∀ g, q.guard g = { p.guard g with state := (q.guard g).state, filterDue := (q.guard g).filterDue,
                                             clearDue := (q.guard g).clearDue, acked := (q.guard g).acked, boarded := (q.guard g).boarded }
  empty : q.journal.empty = p.journal.empty
  mem : Memory.wf p.mem → Memory.wf q.mem
  words : ∀ a, p.reportWord a = false → p.orderWord a = false → q.mem.cell a = p.mem.cell a

/-- An input but for its commanded lamp: what the binding engine leaves of an input. -/
def Input.unlit (x : Input) : Input := { x with lamp := none }

/-- The applied configuration and run control stand as before: no run state, no register of run control but ZATN's causes, no
snapshot, no line record, no input definition, no binding entry, no channel parameters and no guard record differs. -/
structure Part.SameSetup (p q : Part) : Prop where
  run : q.run = { p.run with attention := q.run.attention }
  runstate : q.run.attention.runstate = p.run.attention.runstate
  records : ∀ l, (q.line l).record = (p.line l).record
  inputs : q.inputs.map Input.d = p.inputs.map Input.d
  bindings : q.bindings.map Binding.entry = p.bindings.map Binding.entry
  params : ∀ c, (q.chan c).params = (p.chan c).params
  guards : ∀ g, (q.guard g).record = (p.guard g).record

/-- Every block stands at its reset values (R183): queues, board, timers, counts, shadows and applied copies are gone. The levels at
the input pins and the word on the port are the outside's. -/
structure Part.Cleared (p q : Part) : Prop where
  time : q.time = 0
  clock : q.clock = .initial
  hostData : q.hostData = p.hostData
  orders : q.orders = .initial
  lines : ∀ l, q.line l = .initial
  inputs : q.inputs = []
  bindings : q.bindings = []
  channels : ∀ c, q.chan c = { Channel.initial with pins := (p.chan c).pins }
  guards : ∀ g, q.guard g = { Guard.initial with pin := (p.guard g).pin }
  board : q.board = .initial
  modes : q.modes = .initial
  journal : q.journal = .initial

/-- The level of RUN that a ZCTL write of `v` brings asks for a change of run state (R178). -/
def RunState.moves (st : RunState) (run : Bool) : Bool :=
  match st with
  | .halted => run
  | .checking | .running | .faulted => !run
  | .clearing | .stopping => false

/-! ### Orders and their slots -/

/-- Slot `i` is a slot of the table that snapshot `l` places, and the part keeps a shadow for it. -/
def Part.hasSlot (p : Part) (l : Layout) (i : Nat) : Prop :=
  p.run.layout = some l ∧ l.valid = true ∧ i < l.slotCount ∧ i < p.orders.slots.length

/-- Order `t`, of kind `k`, is the order being taken (R153), its slot a slot of snapshot `l`, and the blocks work. -/
def Part.serving (p : Part) (l : Layout) (k : OrderKind) (t : Taking) : Prop :=
  p.active = true ∧ p.orders.taking = some t ∧ t.kind = k ∧ p.hasSlot l t.slot

/-- Slot `i` stands as a report leaves it: w0 written with a state and a code, w6 and w7 with a result, the shadow REPORTED. -/
structure Part.SlotShows (p : Part) (l : Layout) (i : Nat) (st : SlotState) (code : Nat) (result : Int) : Prop where
  w0 : (p.mem.cell (l.orders + 8 * i)).written = word (st.code + 256 * code)
  w6 : (p.mem.cell (l.orders + 8 * i + 6)).written = wordAt (intWords result) 0
  w7 : (p.mem.cell (l.orders + 8 * i + 7)).written = wordAt (intWords result) 1
  shadow : (p.slot i).shadow = .reported

/-- `n` words from `a` on were written as `ws` and nothing has altered them. -/
def Part.clean (p : Part) (a : Nat) (ws : List Word) : Prop := ∀ k, k < ws.length → p.mem.cell (a + k) = .good (wordAt ws k)

/-- The part is CHECKING over a layout block that reads clean as snapshot `l` and passes, and over four kinds of groups that read clean
as the words given (R177, R179). -/
structure Part.Configured (p : Part) (l : Layout) (inputs guards bindings : List Word) (channels : Fin 8 → List Word) : Prop where
  checking : p.run.state = .checking
  layout : ∃ ws, ws.length = 32 ∧ p.clean 0 ws ∧ checkLayout ws false = .ok l
  inputs : inputs.length = 16 + 6 * l.inputCount ∧ p.clean l.inputs inputs
  guards : guards.length = 32 ∧ p.clean l.guards guards
  bindings : bindings.length = 8 * l.entryCount ∧ p.clean l.bindings bindings
  channels : ∀ c, (channels c).length = 16 ∧ p.clean (l.params + 16 * c.val) (channels c)

/-! ### Replies of stations -/

/-- A reply with gap pending on line `l` that is GOOD (R6): address `a` echoed, the key sample, and the check of both, untagged. -/
def Part.repliesGood (p : Part) (l : Fin 4) (a : Nat) (keys : Byte) : Prop :=
  (p.line l).exchange = .gap a
  ∧ (p.line l).fifo = [BitVec.ofNat 8 a, keys, 0xFF - (BitVec.ofNat 8 a + keys)].map
      (fun d => { data := d, framing := false, mark := false, overrun := false })

/-- Input `i` is the one that key `k` of station `a` of line `l` reaches (R24). -/
def Part.keyInput (p : Part) (l : Fin 4) (a : Nat) (k : Fin 8) (i : Nat) : Prop :=
  (∃ x, p.inputs[i]? = some x ∧ x.d.names l a k = true)
  ∧ ∀ j y, j < i → p.inputs[j]? = some y → y.d.names l a k = false

/-- The debounced level of an input (R25). -/
def Input.isDown (x : Input) : Bool := decide (x.state = .down ∨ x.state = .held ∨ x.state = .stuck)

/-- A GOOD reply of a station that is PRESENT and of a line that has not failed flips the debounced level of input `n`, and of no other
(R24, R25). -/
def Part.keyFlips (p : Part) (l : Fin 4) (i : Fin 12) (keys : Byte) (n : Nat) (x : Input) : Prop :=
  p.repliesGood l (i.val + 1) keys ∧ (p.line l).lineFail = false ∧ (p.line l).stations[i].presence = .present
  ∧ (p.line l).stations[i].lost = false
  ∧ ∃ k, p.keyInput l (i.val + 1) k n ∧ keys.getLsbD k.val ≠ x.isDown ∧ x.d.debounce ≤ x.agree + 1
    ∧ ∀ k' j y, k' ≠ k → p.keyInput l (i.val + 1) k' j → p.inputs[j]? = some y → keys.getLsbD k'.val = y.isDown

/-- Nothing but reports, inputs and lines stands between `p` and `q`. -/
def Part.Around (p q : Part) : Prop := ((p.setInputs q.inputs).setLines q.lines).Told q

/-! ### Frames, timers and the journal's room -/

/-- Between `p` and `q` only reports and the order taker's state changed: no channel but for the times of its status writes. -/
def Part.OnlyOrders (p q : Part) : Prop := ∀ c, (p.setOrders q.orders).Near c q

/-- Between `p` and `q` only reports, the order taker's state and channel `c` changed. -/
def Part.OnlyChannel (c : Fin 8) (p q : Part) : Prop := ((p.setOrders q.orders).setChan c (q.chan c)).Near c q

/-- Between `p` and `q` only reports and the order taker's state changed besides the lines, the inputs, the guards, the ordinary state
of the channels, the lockouts, the modes and the board: no configuration, register, pin or time. -/
def Part.OnlyWork (p q : Part) : Prop :=
  (((p.setOrders q.orders).setLines q.lines).setInputs q.inputs |>.setGuards q.guards).Calm (fun x : Input => x) q

/-- The part at the start of the next millisecond of gallery time, whose motion tick is still to come: every pulse of the latest tick
has been issued (log entries 1 and 4). -/
def Part.nextStart (p : Part) : Part :=
  { p with time := p.time + 1, clock := { tickOwed := true, us := 0, scrubbed := false }
           channels := p.channels.map (fun x => { x with unissued := 0 }) }

/-- An event due at `due` can be taken, and it is taken on `q`: the due time has come, or it is the next millisecond's, the present one
has had its tick and its scrub, and that millisecond's motion tick is owed (log entries 1 and 32). -/
def Part.comesDue (p : Part) (due : Time) (q : Part) : Prop :=
  p.active = true
  ∧ (reached p.time due = true ∧ q = p
    ∨ reached p.time due = false ∧ p.clock.tickOwed = false ∧ (p.run.state = .running → p.clock.scrubbed = true)
      ∧ due = p.time + 1 ∧ q = p.nextStart)

/-- While RUNNING, command `c` makes gesture `g` of input `i`, which stands as `x`, and delivers it to the binding engine (R26 to R29,
R34): a HOLD or a REPEAT at its timer's due time, not overtaken by the stuck timer; a PRESS or a RELEASE by a key sample, the PRESS with
no storm limit and no wake request. The timer's event is taken on `p`. -/
def Part.delivers (s p : Part) (c : Instr) (i : Byte) (x : Input) (g : Gesture) : Prop :=
  s.inputs[i.toNat]? = some x ∧ s.run.state = .running ∧ (x.d.attendant = true ∨ s.modes.mode ≠ .closed)
  ∧ match g with
    | .hold => c = .holdTimerExpiry i ∧ x.state = .down ∧ x.treatment = some .delivered ∧ x.stuckDue = none
        ∧ ∃ due, x.holdDue = some due ∧ s.comesDue due p
    | .repeat => c = .repeatTimerExpiry i ∧ x.state = .held ∧ x.treatment = some .delivered ∧ x.stuckDue = none
        ∧ ∃ due, x.repeatDue = some due ∧ s.comesDue due p
    | .press => p = s ∧ x.state = .up ∧ x.suspended = none ∧ x.d.stormLimit = 0
        ∧ (x.d.attendant = true ∨ x.d.wake = false ∨ s.modes.mode ≠ .rest)
        ∧ ∃ l a keys, c = .replyClose l ∧ s.keyFlips l a keys i.toNat x
    | .release => p = s ∧ (x.state = .down ∨ x.state = .held) ∧ x.treatment = some .delivered
        ∧ ∃ l a keys, c = .replyClose l ∧ s.keyFlips l a keys i.toNat x

/-- The blocks work under snapshot `l`, no gap is pending and no raise waits, and `n` words of the journal ring, whose pointers lie in
it, are free. -/
def Part.room (p : Part) (l : Layout) (n : Nat) : Prop :=
  p.active = true ∧ p.run.layout = some l ∧ p.journal.gap = 0 ∧ p.journal.gapRaises = 0 ∧ p.journal.fill < l.journalSize
    ∧ p.journal.empty < l.journalSize ∧ n ≤ p.journal.free l.journalSize

/-! ### The journal ring (10.2 to 10.4) -/

/-- The words of the ring that a placement of `n` words uses (R166): `n`, and on a wrap the words from the fill pointer to the end. -/
def Journal.used (j : Journal) (size n : Nat) : Nat := if j.fill + n ≤ size then n else size - j.fill + n

/-- The offset at which a record of `n` words starts (R166): the fill pointer, or on a wrap the ring's start. -/
def Journal.start (j : Journal) (size n : Nat) : Nat := if j.fill + n ≤ size then j.fill else 0

/-- A record of `n` words fits the ring of snapshot `l`, whose pointers lie in it (R166). -/
def Part.fits (p : Part) (l : Layout) (n : Nat) : Prop :=
  p.run.layout = some l ∧ l.valid = true ∧ p.journal.fill < l.journalSize ∧ p.journal.empty < l.journalSize
    ∧ p.journal.used l.journalSize n ≤ l.journalSize - 1 - (p.journal.fill + l.journalSize - p.journal.empty) % l.journalSize

/-- Between `p` and `q` the writer has placed the words `ws` of a record that is not of the immediate class (R166, R170 to R172): they
stand at the fill pointer, or after a PAD at the ring's start, and no other word of the ring has changed; J_FILL holds the new fill
pointer; a stopped stale timer started if the ring was empty; the trigger crossed sets the cause JOURNAL; at the high mark the writer is
THROTTLED. -/
structure Part.RingTakes (p : Part) (l : Layout) (ws : List Word) (q : Part) : Prop where
  words : ∀ k, k < ws.length → (q.mem.cell (l.journal + p.journal.start l.journalSize ws.length + k)).written = wordAt ws k
  pad : l.journalSize < p.journal.fill + ws.length → (q.mem.cell (l.journal + p.journal.fill)).written = 0x0011
  kept : ∀ k, k < l.journalSize →
    (k < p.journal.start l.journalSize ws.length ∨ p.journal.start l.journalSize ws.length + ws.length ≤ k) →
    (l.journalSize < p.journal.fill + ws.length → k ≠ p.journal.fill) → q.mem.cell (l.journal + k) = p.mem.cell (l.journal + k)
  shown : (q.mem.cell l.pointers).written = BitVec.ofNat 16 q.journal.fill
  journal : q.journal = { p.journal with
    fill := (p.journal.fill + p.journal.used l.journalSize ws.length) % l.journalSize
    throttled := p.journal.throttled || decide (l.highMark ≤
      (p.journal.fill + l.journalSize - p.journal.empty) % l.journalSize + p.journal.used l.journalSize ws.length)
    staleDue :=
      if p.journal.fill = p.journal.empty ∧ l.staleTime ≠ 0 ∧ p.journal.staleDue = none then some (after p.time l.staleTime)
      else p.journal.staleDue }
  attends : q.run.attention.journal = (p.run.attention.journal || decide (
    (p.journal.fill + l.journalSize - p.journal.empty) % l.journalSize < l.trigger ∧ l.trigger ≤
      (p.journal.fill + l.journalSize - p.journal.empty) % l.journalSize + p.journal.used l.journalSize ws.length))

/-- Between `p` and `q` the writer had no room for a record, nor for a GAP record (R166 to R168): the ring and its pointers are as
before, the gap count holds the record and the ALERT record of the JOURNAL_GAP raise that its drop called for, and J_GAP shows it. -/
structure Part.RingDrops (p : Part) (l : Layout) (q : Part) : Prop where
  kept : ∀ k, k < l.journalSize → q.mem.cell (l.journal + k) = p.mem.cell (l.journal + k)
  fill : q.mem.cell l.pointers = p.mem.cell l.pointers
  journal : q.journal = { p.journal with gap := q.journal.gap }
  gap : 2 ≤ q.journal.gap.toNat
  shown : (q.mem.cell (l.pointers + 2)).written = q.journal.gap
  attends : q.run.attention.journal = p.run.attention.journal

/-- What the writer makes of a record of the words `ws` handed to it at `p`, once a JOURNAL_GAP raise that its drop calls for is whole, is
`q` (R166 to R168): with room it is placed; with a gap pending the GAP record is placed, the gap count and J_GAP return to 0, and the
record follows where it fits; with fewer than four words free nothing is placed. -/
def Part.RingRecords (p : Part) (l : Layout) (ws : List Word) (q : Part) : Prop :=
  (p.journal.gap = 0 → p.fits l ws.length → p.RingTakes l ws q)
  ∧ (p.journal.gap ≠ 0 → p.fits l 4 → ∃ m n : Part,
      p.RingTakes l [0x004B, BitVec.ofNat 16 (p.time.toNat % 65536), BitVec.ofNat 16 (p.time.toNat / 65536), p.journal.gap] m
      ∧ n = { m with mem := n.mem, journal := { m.journal with gap := 0 }
                     prot := { m.prot with injection := { m.prot.injection with armed := n.prot.injection.armed } } }
      ∧ (n.mem.cell (l.pointers + 2)).written = 0 ∧ (∀ x, x ≠ l.pointers + 2 → n.mem.cell x = m.mem.cell x)
      ∧ (n.fits l ws.length → n.RingTakes l ws q))
  ∧ (p.run.layout = some l → l.valid = true → p.journal.fill < l.journalSize → p.journal.empty < l.journalSize →
      l.journalSize - 1 - (p.journal.fill + l.journalSize - p.journal.empty) % l.journalSize < 4 → p.RingDrops l q)

/-! ### The invariant of a run -/

/-- Guard `g` is enabled, not CLEAR, and covers channel `c` (R112). -/
def Part.covers (p : Part) (g c : Fin 8) : Bool :=
  (p.guard g).record.enable && (p.guard g).record.mask.getLsbD c.val && (p.guard g).state != .clear

/-- The states a channel may be in while a guard that covers it is not CLEAR (R106, R107): stopping, or not able to move. -/
def ChanState.stilled (st : ChanState) : Bool := st == .stopping || st == .held || st == .unhomed || st == .fault

/-- Every channel that an enabled guard other than CLEAR covers is stopping or unable to move. -/
def Part.GuardsHold (p : Part) : Prop := ∀ g c, p.covers g c = true → (p.chan c).state.stilled = true

/-- Every channel's pending queue holds at most four moves (R63). -/
def Part.QueuesOk (p : Part) : Prop := ∀ c, (p.chan c).queue.length ≤ Config.queueDepth

/-- Every receive FIFO holds at most 16 characters (R4). -/
def Part.FifosOk (p : Part) : Prop := ∀ l, (p.line l).fifo.length ≤ Config.fifoDepth

/-- The part's invariant: exhibit memory in canonical form, queues and FIFOs within their depth, a snapshot that passed its check,
and guards that hold. -/
structure Part.Inv (p : Part) : Prop where
  mem : Memory.wf p.mem
  queues : p.QueuesOk
  fifos : p.FifosOk
  layout : ∀ l, p.run.layout = some l → l.valid = true
  guards : p.GuardsHold

end Sys2Proof.Machine
end

