-- ==== Sys2Proof/Certificates/Slice0/Obligations.lean ====
section
/-! DEFINITION. The statements for the provers. Each docstring names the part of the spec it formalises; where a clause rests on a
choice of the model, the docstring names the log entry. -/

open Sys2Proof Sys2Proof.Machine

/-! ### The machine -/

/-- One step carries out the command at the front of the queue on the state with the queue's rest. With no command waiting the part
idles: in RUNNING and STOPPING a microsecond of the present millisecond passes, up to its last, and a pulse of the latest tick that
begins until then is issued (R85); nothing else changes. That the idle step counts microseconds is the model's choice (log entry 4). -/
def Obligations.StepRunsFrontCommand : Prop :=
  (∀ (c : Instr) (rest : List Instr) (p : Sys2Proof.Machine.Part),
    step { part := p, pending := c :: rest } = exec c { part := p, pending := rest })
  ∧ (∀ p : Sys2Proof.Machine.Part, p.active = false → step { part := p, pending := [] } = .next { part := p, pending := [] })
  ∧ ∀ p : Sys2Proof.Machine.Part, p.active = true → ∃ q, step { part := p, pending := [] } = .next { part := q, pending := [] }
      ∧ q = { p with clock := { p.clock with us := max p.clock.us (min (p.clock.us + 1) 999) }, channels := q.channels }
      ∧ ∀ c : Fin 8, let x := p.chan c
          let n := ((x.prof.p + 8388608) / 16777216 - x.tickS).natAbs
          q.chan c = { x with unissued := min x.unissued (n - q.clock.us / (1000 / (n + 1))) }

/-- No command faults and none is refused, whatever the state; the queue is left to the sender. That a command whose condition does not
hold changes nothing is the model's choice (log entry 6). -/
def Obligations.EveryCommandIsCarriedOut : Prop :=
  ∀ (c : Instr) (s : State), ∃ q : Sys2Proof.Machine.Part, exec c s = .next { part := q, pending := s.pending }

/-- The values the spec gives for reset (R183 with the chapters' own reset rules): registers as read, queues, records, channels,
guards, board, mode and journal writer. -/
def Obligations.PowerOnRegistersAndBlocks : Prop :=
  let p := State.reset.part
  State.reset.pending = [] ∧ p.run.state = .clearing ∧ p.run.layout = none ∧ p.time = 0
  ∧ p.readRegister 0xFFF0 = 0x2406 ∧ p.readRegister 0xFFF2 = 0 ∧ p.readRegister 0xFFF4 = 0x1010 ∧ p.readRegister 0xFFF6 = 0
  ∧ p.readRegister 0xFFF8 = 0 ∧ p.readRegister 0xFFFA = 0 ∧ p.readRegister 0xFFFC = 0 ∧ p.readRegister 0xFFFE = 0
  ∧ p.orders.takeQueue = [] ∧ p.orders.taking = none ∧ p.orders.hand = []
  ∧ (∀ l : Fin 4, (p.line l).record.enable = false ∧ (p.line l).record.stations = 0 ∧ (p.line l).fifo = []
      ∧ (p.line l).exchange = .idle ∧ (p.line l).test = .none ∧ (p.line l).lineFail = false
      ∧ ∀ a : Fin 12, (p.line l).stations[a] = .disabled)
  ∧ p.inputs = [] ∧ p.bindings = []
  ∧ (∀ c : Fin 8, (p.chan c).state = .unhomed ∧ (p.chan c).lost = true ∧ (p.chan c).current = none ∧ (p.chan c).queue = []
      ∧ (p.chan c).params = none ∧ (p.chan c).prof = .initial ∧ (p.chan c).en = false ∧ (p.chan c).dir = false
      ∧ (p.chan c).heldMove = none)
  ∧ (∀ g : Fin 8, (p.guard g).record.enable = false ∧ (p.guard g).state = .clear ∧ (p.guard g).filteredOpen = false
      ∧ (p.guard g).filterDue = none ∧ (p.guard g).clearDue = none ∧ (p.guard g).acked = false ∧ (p.guard g).boarded = false)
  ∧ (∀ i : Fin 32, p.board.entries[i] = none) ∧ p.board.overflow = false ∧ p.callPin = false ∧ (∀ z, p.beaconPin z = false)
  ∧ p.modes.mode = .closed ∧ p.modes.settling = false ∧ p.modes.restDue = none ∧ p.modes.silent = false ∧ p.modes.watchDue = none
  ∧ p.journal.fill = 0 ∧ p.journal.empty = 0 ∧ p.journal.throttled = false ∧ p.journal.gap = 0 ∧ p.journal.staleDue = none

/-! ### Resets and run control (11.4, 11.5) -/

/-- POWER and PIN resets (the table of R183): what each register holds after, memory cleared or kept, every block cleared. The hold is
a field of its own, which RESET_HOLD_END ends (log entry 17); the port's word and the pins' levels are kept (log entries 2 and 5). The
values of the rate and zone of an empty line record, of a cycle's start and of a channel's search count, move count and last write
(log entry 3), and of the step position at the latest tick's start and its pulses, of the place within the millisecond (log entries 1,
4 and 32) and of the raises that wait (log entry 11), are the model's choice. -/
def Obligations.PowerAndPinResetColumns : Prop :=
  (∀ s : State, ∃ q, exec .powerReset s = .next (s.setPart q) ∧ s.part.Cleared q ∧ q.prot = .initial
      ∧ (∀ a, q.mem.cell a = .good 0)
      ∧ q.run = { state := .clearing, hold := some .power, run := false, enables := .clear, captureLast := false,
                  attention := .clear, resetCause := .power, faultCode := .none, layout := none })
  ∧ ∀ s : State, ∃ q, exec .pinReset s = .next (s.setPart q) ∧ s.part.Cleared q ∧ q.prot = .initial ∧ q.mem = s.part.mem
      ∧ q.run = { state := if s.part.run.state = .clearing then .clearing else .halted, hold := some .pin, run := false,
                  enables := .clear, captureLast := false, attention := .clear, resetCause := .pin, faultCode := .none,
                  layout := none }

/-- A SOFT reset (the third column of R183, with R185): RUN cleared, the enables and CAPTURE_LAST just written kept, the error
registers kept, ZEINJ cleared, memory kept, every block cleared, ZATN RUNSTATE not set. The port's word and the pins' levels are kept
(log entries 2 and 5). The values that `Part.Cleared` gives where R183 gives none are the model's choice, as in the statement above (log
entries 1, 3, 4, 11 and 32), and so is which written words count as SOFT_RESET (log entry 19). -/
def Obligations.SoftResetColumn : Prop :=
  ∀ (v : Word) (s : State), s.part.run.hold = none →
    ∃ q, exec (.softReset v) s = .next (s.setPart q) ∧ s.part.Cleared q ∧ q.mem = s.part.mem
      ∧ q.prot = { s.part.prot with injection := .clear, scrubPos := 0 }
      ∧ q.run = { state := if s.part.run.state = .clearing then .clearing else .halted, hold := none, run := false,
                  enables := .ofWord v 4, captureLast := v.getLsbD 8, attention := .clear, resetCause := .soft,
                  faultCode := .none, layout := none }

/-- The end of a reset's hold; and the end of the clearing (R178, R183): every word 0x0000 with valid check bits, HALTED with
RUNSTATE set, and CHECKING at once when RUN is set. That the run state shows the state to come during the hold is the model's choice
(log entry 17). -/
def Obligations.HoldEndAndClearingDone : Prop :=
  (∀ s : State, exec .resetHoldEnd s = .next (s.setPart { s.part with run := { s.part.run with hold := none } }))
  ∧ ∀ s : State, s.part.run.hold = none → s.part.run.state = .clearing →
      ∃ q, exec .clearingDone s = .next (s.setPart q) ∧ (∀ a, q.mem.cell a = .good 0)
        ∧ q = { s.part with
            mem := q.mem
            run := if s.part.run.run then
                { s.part.run with state := .checking, faultCode := .none, layout := none,
                                  attention := { s.part.run.attention with runstate := true } }
              else { s.part.run with state := .halted, attention := { s.part.run.attention with runstate := true } } }

/-- SET_RUN (the column "RUN is or becomes 1" of R178): HALTED goes to CHECKING, which clears the fault code; in every other run state
RUN is remembered. CLEAR_RUN outside RUNNING (the column "RUN becomes 0"): CHECKING is abandoned and FAULTED left for HALTED, the fault
code kept; in CLEARING, HALTED and STOPPING RUN is only remembered. The enables and CAPTURE_LAST are replaced with it (R185). That the row's
own bit stands whatever the written word holds there (RUN, and SOFT_RESET 0) is the model's choice (log entry 19). -/
def Obligations.RunBitOutsideRunning : Prop :=
  (∀ (v : Word) (s : State), s.part.run.hold = none →
    exec (.setRun v) s = .next (s.setPart { s.part with
      run :=
        if s.part.run.state = .halted then
          { s.part.run with run := true, enables := .ofWord v 4, captureLast := v.getLsbD 8, state := .checking,
                            faultCode := .none, layout := none,
                            attention := { s.part.run.attention with runstate := true } }
        else { s.part.run with run := true, enables := .ofWord v 4, captureLast := v.getLsbD 8 } }))
  ∧ ∀ (v : Word) (s : State), s.part.run.hold = none → s.part.run.state ≠ .running →
    exec (.clearRun v) s = .next (s.setPart { s.part with
      run :=
        if s.part.run.state = .checking ∨ s.part.run.state = .faulted then
          { s.part.run with run := false, enables := .ofWord v 4, captureLast := v.getLsbD 8, state := .halted,
                            attention := { s.part.run.attention with runstate := true } }
        else { s.part.run with run := false, enables := .ofWord v 4, captureLast := v.getLsbD 8 } })

/-- CLEAR_RUN in RUNNING (R181): STOPPING with RUNSTATE set; every channel that has parameters is neither MOVING nor HOMING any more,
the hand table is empty, the take queue keeps its heads, and no applied group, parameter or pin changes. That RUN is taken as 0 and
SOFT_RESET as 0 whatever the written word holds there is the model's choice (log entry 19). -/
def Obligations.ClearRunStopsTheRun : Prop :=
  ∀ (v : Word) (s : State), s.part.run.hold = none → s.part.run.state = .running →
    ∃ q, exec (.clearRun v) s = .next (s.setPart q)
      ∧ q.run = { s.part.run with run := false, enables := .ofWord v 4, captureLast := v.getLsbD 8, state := .stopping,
                                  attention := q.run.attention }
      ∧ q.run.attention.runstate = true
      ∧ (∀ c, (s.part.chan c).params.isSome = true → (q.chan c).state ≠ .moving ∧ (q.chan c).state ≠ .homing)
      ∧ q.orders.hand = [] ∧ q.orders.takeQueue = s.part.orders.takeQueue
      ∧ (∀ c, (q.chan c).params = (s.part.chan c).params ∧ (q.chan c).pins = (s.part.chan c).pins)
      ∧ q.inputs.map Input.d = s.part.inputs.map Input.d ∧ q.bindings = s.part.bindings ∧ q.guards = s.part.guards
      ∧ (∀ l, (q.line l).record = (s.part.line l).record) ∧ q.modes.mode = s.part.modes.mode ∧ q.time = s.part.time

/-- A ZCTL write with SOFT_RESET 0, seen for the enables and for CAPTURE_LAST (R185): in every run state RUN, the enables and
CAPTURE_LAST are replaced, ATTN_N follows the new enables at once (R186), and where the level of RUN asks for no change of run state
nothing else changes. -/
def Obligations.ZctlWriteReplacesFields : Prop :=
  ∀ (c : Instr) (v : Word) (s : State), (c = .setAttentionEnables v ∨ c = .setCaptureLast v) → s.part.run.hold = none →
    v.getLsbD 1 = false →
    ∃ q, exec c s = .next (s.setPart q)
      ∧ q.run.run = v.getLsbD 0 ∧ q.run.enables = .ofWord v 4 ∧ q.run.captureLast = v.getLsbD 8
      ∧ q.attnAsserted = (v.getLsbD 4 && q.run.attention.journal || v.getLsbD 5 && q.run.attention.alert
          || v.getLsbD 6 && q.run.attention.memerr || v.getLsbD 7 && q.run.attention.runstate)
      ∧ (s.part.run.state.moves (v.getLsbD 0) = false →
          q = { s.part with run := { s.part.run with run := v.getLsbD 0, enables := .ofWord v 4, captureLast := v.getLsbD 8 } })

/-! ### Registers and the window (11.1, 11.6, Chapter 12) -/

/-- While a reset holds the part every host read returns 0x0000 and every host write is discarded, registers included (R175). -/
def Obligations.HeldPartServesNothing : Prop :=
  ∀ s : State, s.part.run.hold ≠ none →
    (∀ a, exec (.hostRead a) s = .next (s.setPart { s.part with hostData := 0 }))
    ∧ ∀ c, (∃ v : Word, c = .setRun v ∨ c = .clearRun v ∨ c = .softReset v ∨ c = .setAttentionEnables v ∨ c = .setCaptureLast v
          ∨ c = .clearAttentionCause v ∨ c = .clearErrorCounts v ∨ c = .armInjection v ∨ c = .disarmInjection v
          ∨ c = .jEmptyWrite v ∨ c = .heartbeatWrite v
          ∨ (∃ a, c = .hostWrite a v ∨ c = .discardedRegisterWrite a v)
          ∨ ∃ i b, c = .slotPostedWrite i b ∨ c = .slotFreeWrite i b) →
        exec c s = .next s

/-- A ZATN write clears the causes written 1 and no other (R186); a ZECNT write clears both counts and both valid flags, whatever its
data, and the captured addresses stay (R190). Nothing else changes. -/
def Obligations.AttentionAndCountsCleared : Prop :=
  (∀ (v : Word) (s : State), s.part.run.hold = none →
    exec (.clearAttentionCause v) s = .next (s.setPart { s.part with
      run := { s.part.run with attention :=
        { journal := s.part.run.attention.journal && !v.getLsbD 0, alert := s.part.run.attention.alert && !v.getLsbD 1,
          memerr := s.part.run.attention.memerr && !v.getLsbD 2, runstate := s.part.run.attention.runstate && !v.getLsbD 3 } } }))
  ∧ ∀ (v : Word) (s : State), s.part.run.hold = none →
    exec (.clearErrorCounts v) s = .next (s.setPart { s.part with
      prot := { s.part.prot with corrected := 0, uncorrected := 0, cv := false, uv := false } })

/-- R193: a ZEINJ write replaces ARM, MODE, BIT (modulo 22) and TARGET in any run state, arms or disarms, and changes nothing else;
any reset clears ZEINJ. -/
def Obligations.InjectionRegisterWrite : Prop :=
  (∀ (v : Word) (s : State), s.part.run.hold = none → v.getLsbD 0 = true →
    ∃ i : Injection, exec (.armInjection v) s = .next (s.setPart { s.part with prot := { s.part.prot with injection := i } })
      ∧ i.armed = true ∧ i.partTarget = v.getLsbD 8 ∧ i.bit.val = v.toNat / 8 % 32 % 22 ∧ i.mode.code = min (v.toNat / 2 % 4) 2)
  ∧ (∀ (v : Word) (s : State), s.part.run.hold = none → v.getLsbD 0 = false →
    ∃ i : Injection, exec (.disarmInjection v) s = .next (s.setPart { s.part with prot := { s.part.prot with injection := i } })
      ∧ i.armed = false ∧ i.partTarget = v.getLsbD 8 ∧ i.bit.val = v.toNat / 8 % 32 % 22 ∧ i.mode.code = min (v.toNat / 2 % 4) 2)
  ∧ (∀ s : State, ∃ q, exec .powerReset s = .next (s.setPart q) ∧ q.prot.injection = .clear)
  ∧ (∀ s : State, ∃ q, exec .pinReset s = .next (s.setPart q) ∧ q.prot.injection = .clear)
  ∧ ∀ (v : Word) (s : State), s.part.run.hold = none →
      ∃ q, exec (.softReset v) s = .next (s.setPart q) ∧ q.prot.injection = .clear

/-- R196: the bits that the register table does not assign read 0, and writes to them are discarded: two written words that agree on
the assigned bits have one effect. MODE code 3 is stored as ADDRESS and reads back as 2, BIT 22 to 31 modulo 22. -/
def Obligations.UnassignedRegisterBits : Prop :=
  (∀ p : Sys2Proof.Machine.Part, p.readRegister 0xFFF2 &&& 0xFE0E = 0 ∧ p.readRegister 0xFFF4 &&& 0x0080 = 0 ∧ p.readRegister 0xFFF6 &&& 0xFFF0 = 0
      ∧ p.readRegister 0xFFF8 &&& 0x8000 = 0 ∧ p.readRegister 0xFFFA &&& 0x8000 = 0 ∧ p.readRegister 0xFFFC &&& 0xC000 = 0
      ∧ p.readRegister 0xFFFE &&& 0xFE00 = 0)
  ∧ (∀ (v w : Word) (s : State), v &&& 0x01F3 = w &&& 0x01F3 →
      exec (.setRun v) s = exec (.setRun w) s ∧ exec (.clearRun v) s = exec (.clearRun w) s
      ∧ exec (.softReset v) s = exec (.softReset w) s ∧ exec (.setAttentionEnables v) s = exec (.setAttentionEnables w) s
      ∧ exec (.setCaptureLast v) s = exec (.setCaptureLast w) s)
  ∧ (∀ (v w : Word) (s : State), v &&& 0x000F = w &&& 0x000F → exec (.clearAttentionCause v) s = exec (.clearAttentionCause w) s)
  ∧ (∀ (v w : Word) (s : State), v &&& 0x01FF = w &&& 0x01FF →
      exec (.armInjection v) s = exec (.armInjection w) s ∧ exec (.disarmInjection v) s = exec (.disarmInjection w) s)
  ∧ (∀ (v w : Word) (s : State), exec (.clearErrorCounts v) s = exec (.clearErrorCounts w) s)
  ∧ ∀ (v : Word) (s : State), s.part.run.hold = none → v.getLsbD 0 = true →
      ∃ q, exec (.armInjection v) s = .next (s.setPart q) ∧ (v.toNat / 2 % 4 = 3 → q.prot.injection.mode = .address)
        ∧ q.readRegister 0xFFFE = BitVec.ofNat 16
            (1 + 2 * min (v.toNat / 2 % 4) 2 + 8 * (v.toNat / 8 % 32 % 22) + 256 * (v.toNat / 256 % 2))

/-- A host read of a register address, and of unused space (R175, the table of registers): each register shows its fields, unused
addresses read 0x0000, in every run state. A host read of exhibit memory (R175, R187): 0x0000 in CLEARING and of a spare word of the
pointer block; a word as written reads as written. The read changes nothing but the word returned; that this holds of a spare word whose
stored word is altered, with nothing judged, counted or captured, is the model's choice (log entry 41). -/
def Obligations.HostReadsRegistersAndCleanWords : Prop :=
  (∀ (a : Word) (s : State), s.part.run.hold = none → 0xC000 ≤ a.toNat → a.getLsbD 0 = false →
    ∃ d, exec (.hostRead a) s = .next (s.setPart { s.part with hostData := d })
      ∧ d = if a = 0xFFF0 then 0x2406
          else if a = 0xFFF2 then BitVec.ofNat 16 (flag s.part.run.run + 16 * flag s.part.run.enables.journal
            + 32 * flag s.part.run.enables.alert + 64 * flag s.part.run.enables.memerr + 128 * flag s.part.run.enables.runstate
            + 256 * flag s.part.run.captureLast)
          else if a = 0xFFF4 then BitVec.ofNat 16 (s.part.run.state.code + 8 * s.part.modes.mode.code
            + 32 * s.part.run.resetCause.code + 256 * s.part.run.faultCode.code + 4096)
          else if a = 0xFFF6 then BitVec.ofNat 16 (flag s.part.run.attention.journal + 2 * flag s.part.run.attention.alert
            + 4 * flag s.part.run.attention.memerr + 8 * flag s.part.run.attention.runstate)
          else if a = 0xFFF8 then s.part.prot.zeca.setWidth 16
          else if a = 0xFFFA then s.part.prot.zeua.setWidth 16
          else if a = 0xFFFC then BitVec.ofNat 16 (s.part.prot.corrected.toNat + 256 * s.part.prot.uncorrected.toNat
            + 4096 * flag s.part.prot.cv + 8192 * flag s.part.prot.uv)
          else if a = 0xFFFE then BitVec.ofNat 16 (flag s.part.prot.injection.armed + 2 * s.part.prot.injection.mode.code
            + 8 * s.part.prot.injection.bit.val + 256 * flag s.part.prot.injection.partTarget)
          else 0)
  ∧ ∀ (a : Word) (s : State), s.part.run.hold = none → a.toNat < 0xC000 → a.getLsbD 0 = false →
    ((s.part.run.state = .clearing ∨ s.part.spare (a.toNat / 2) = true) →
      exec (.hostRead a) s = .next (s.setPart { s.part with hostData := 0 }))
    ∧ (s.part.run.state ≠ .clearing → s.part.spare (a.toNat / 2) = false → ∀ w, s.part.mem.cell (a.toNat / 2) = .good w →
      exec (.hostRead a) s = .next (s.setPart { s.part with hostData := w }))

/-- A host read of a word with one bit inverted (R188, R190): the data as written is returned and written back, the corrected count and
the capture registers are kept, no cause MEMERR is set; all else that changes is reports (the MEMORY record, and MEMORY_WEAR at the
sixteenth). While the blocks work, and short of the sixteenth, the MEMORY record is placed in the journal ring, or dropped, as
`Part.RingRecords` says (R166 to R168, R170 to R172). The order of the record's words is the model's choice (log entry 47). -/
def Obligations.HostReadCorrectsOneBit : Prop :=
  ∀ (a : Word) (s : State) (w : Word) (b : Fin 22), s.part.run.hold = none → a.toNat < 0xC000 → a.getLsbD 0 = false →
    s.part.run.state ≠ .clearing → s.part.spare (a.toNat / 2) = false → Memory.wf s.part.mem →
    s.part.mem.cell (a.toNat / 2) = { written := w, upset := .one b } →
    ∃ base q, exec (.hostRead a) s = .next (s.setPart { q with hostData := w }) ∧ Part.Told base q
      ∧ base = { s.part with
          mem := base.mem
          prot := { s.part.prot with
            corrected := satInc s.part.prot.corrected, cv := true
            zeca := if s.part.prot.cv && !s.part.run.captureLast then s.part.prot.zeca else BitVec.ofNat 15 (a.toNat / 2) } }
      ∧ (∀ x, base.mem.cell x = if x = a.toNat / 2 then .good w else s.part.mem.cell x)
      ∧ ∀ l, s.part.active = true → s.part.journal.gapRaises = 0 → s.part.prot.corrected ≠ 15 →
          base.RingRecords l [0x005A, BitVec.ofNat 16 (s.part.time.toNat % 65536), BitVec.ofNat 16 (s.part.time.toNat / 65536),
            BitVec.ofNat 16 (a.toNat / 2), 0] q

/-- A host read of a word that cannot be corrected (R187, R188, R190, R191): the stored data is returned, the word stays as it stands,
the uncorrected count and the capture registers are kept and MEMERR is set; all else that changes is reports. -/
def Obligations.HostReadReportsUncorrected : Prop :=
  ∀ (a : Word) (s : State), s.part.run.hold = none → a.toNat < 0xC000 → a.getLsbD 0 = false →
    s.part.run.state ≠ .clearing → s.part.spare (a.toNat / 2) = false →
    ((s.part.mem.cell (a.toNat / 2)).upset = .address ∨ ∃ b, (s.part.mem.cell (a.toNat / 2)).upset = .two b) →
    ∃ q, exec (.hostRead a) s = .next (s.setPart { q with hostData := (s.part.mem.cell (a.toNat / 2)).stored })
      ∧ Part.Told { s.part with
          run := { s.part.run with attention := { s.part.run.attention with memerr := true } }
          prot := { s.part.prot with
            uncorrected := satInc s.part.prot.uncorrected, uv := true
            zeua := if s.part.prot.uv && !s.part.run.captureLast then s.part.prot.zeua else BitVec.ofNat 15 (a.toNat / 2) } } q

/-- A host write of a word that is neither watched nor spare, outside CLEARING (R175, R194): the word is stored, altered if an
injection is armed for HOST_WRITE, which it disarms; every other word, and all else, stays. Host writes that are discarded (R175): to
unused space and to the registers that are read-only, in every run state; to exhibit memory in CLEARING, and to a spare word of the
pointer block. -/
def Obligations.HostWritesStoreOrVanish : Prop :=
  (∀ (a v : Word) (s : State), s.part.run.hold = none → a.toNat < 0xC000 → a.getLsbD 0 = false → Memory.wf s.part.mem →
    s.part.run.state ≠ .clearing → s.part.spare (a.toNat / 2) = false →
    (∀ l, s.part.run.layout = some l → a.toNat / 2 ≠ l.pointers + 1 ∧ a.toNat / 2 ≠ l.pointers + 4
      ∧ ∀ i, i < l.slotCount → a.toNat / 2 ≠ l.orders + 8 * i) →
    ∃ q, exec (.hostWrite a v) s = .next (s.setPart q)
      ∧ q = { s.part with mem := q.mem, prot := q.prot } ∧ Memory.wf q.mem
      ∧ (∀ x, x ≠ a.toNat / 2 → q.mem.cell x = s.part.mem.cell x)
      ∧ (if s.part.prot.injection.armed = true ∧ s.part.prot.injection.partTarget = false then
          q.mem.cell (a.toNat / 2) = { written := v, upset := match s.part.prot.injection.mode with
            | .oneBit => .one s.part.prot.injection.bit | .twoBit => .two s.part.prot.injection.bit | .address => .address }
          ∧ q.prot = { s.part.prot with injection := { s.part.prot.injection with armed := false } }
        else q.mem.cell (a.toNat / 2) = .good v ∧ q.prot = s.part.prot))
  ∧ (∀ (a v : Word) (s : State), ((0xC000 ≤ a.toNat ∧ a.toNat < 0xFFF0) ∨ a = 0xFFF0 ∨ a = 0xFFF4 ∨ a = 0xFFF8 ∨ a = 0xFFFA) →
      a.getLsbD 0 = false → exec (.discardedRegisterWrite a v) s = .next s)
  ∧ ∀ (a v : Word) (s : State), a.toNat < 0xC000 → a.getLsbD 0 = false →
      (s.part.run.state = .clearing ∨ s.part.spare (a.toNat / 2) = true) → exec (.hostWrite a v) s = .next s

/-! ### The watched words and the scrubber (9.2, 10.5, 8.7, 12.4) -/

/-- Host writes to w0 of a slot (the table of R150): the word is stored in every case, the shadow and the take queue change as the table
says while the blocks work, and no other word and no other state changes. -/
def Obligations.SlotWritesMoveShadow : Prop :=
  ∀ (slot : BitVec 6) (high : Byte) (s : State) (l : Layout), s.part.run.hold = none → s.part.run.state ≠ .clearing →
    s.part.hasSlot l slot.toNat → Memory.wf s.part.mem →
    (∃ q, exec (.slotPostedWrite slot high) s = .next (s.setPart q)
      ∧ (q.mem.cell (l.orders + 8 * slot.toNat)).written = BitVec.ofNat 16 (1 + 256 * high.toNat)
      ∧ (∀ x, x ≠ l.orders + 8 * slot.toNat → q.mem.cell x = s.part.mem.cell x)
      ∧ q = { s.part with
          mem := q.mem, prot := { s.part.prot with injection := { s.part.prot.injection with armed := q.prot.injection.armed } }
          orders := if s.part.active = true ∧ (s.part.slot slot.toNat).shadow = .idle then
              { s.part.orders with
                slots := s.part.orders.slots.modify slot.toNat (fun x => { x with shadow := .queued })
                takeQueue := s.part.orders.takeQueue ++ [slot.toNat] }
            else s.part.orders })
    ∧ (∃ q, exec (.slotFreeWrite slot high) s = .next (s.setPart q)
      ∧ (q.mem.cell (l.orders + 8 * slot.toNat)).written = BitVec.ofNat 16 (256 * high.toNat)
      ∧ (∀ x, x ≠ l.orders + 8 * slot.toNat → q.mem.cell x = s.part.mem.cell x)
      ∧ q = { s.part with
          mem := q.mem, prot := { s.part.prot with injection := { s.part.prot.injection with armed := q.prot.injection.armed } }
          orders := if s.part.active = true ∧ (s.part.slot slot.toNat).shadow = .queued then
              { s.part.orders with
                slots := s.part.orders.slots.modify slot.toNat (fun x => { x with shadow := .idle })
                takeQueue := s.part.orders.takeQueue.filter (fun i => i ≠ slot.toNat) }
            else if s.part.active = true ∧ (s.part.slot slot.toNat).shadow = .reported then
              { s.part.orders with slots := s.part.orders.slots.modify slot.toNat (fun x => { x with shadow := .idle }) }
            else s.part.orders })
    ∧ ∀ v : Word, v.toNat % 256 ≠ 0 → v.toNat % 256 ≠ 1 →
        ∃ q, exec (.hostWrite (BitVec.ofNat 16 (2 * (l.orders + 8 * slot.toNat))) v) s = .next (s.setPart q)
          ∧ (q.mem.cell (l.orders + 8 * slot.toNat)).written = v ∧ q.orders = s.part.orders

/-- A J_EMPTY write (R169, R171, R173): the host's value is stored; a value in the occupied span becomes the empty pointer and the stale
timer restarts, or stops with nothing left; a value outside it is not taken and the part writes its own pointer back. When a taken
value brings a THROTTLED writer to the low mark, it becomes NORMAL and the coalesce counts are flushed, in ascending input number: those
reached are 0, and it stops short of the last only where it has become THROTTLED again. A single count's COALESCED record is placed in
the ring, or dropped, as `Part.RingRecords` says (R166 to R168, R170 to R172). Outside RUNNING and STOPPING the write is stored and no
more. That a raise called for in the flush waits for its end is the model's choice (log entry 11). -/
def Obligations.EmptyPointerWrite : Prop :=
  ∀ (v : Word) (s : State) (l : Layout), s.part.run.hold = none → s.part.run.state ≠ .clearing → s.part.run.layout = some l →
    l.valid = true → Memory.wf s.part.mem →
    ∃ q, exec (.jEmptyWrite v) s = .next (s.setPart q)
      ∧ (s.part.active = false → q.journal = s.part.journal ∧ (q.mem.cell (l.pointers + 1)).written = v)
      ∧ (s.part.active = true →
          (if v.toNat < l.journalSize ∧ (v.toNat + l.journalSize - s.part.journal.empty) % l.journalSize
              ≤ (s.part.journal.fill + l.journalSize - s.part.journal.empty) % l.journalSize then
            let stale : Option Time := match s.part.journal.staleDue with
              | some _ => if (s.part.journal.fill + l.journalSize - v.toNat) % l.journalSize = 0 then none
                  else some (after s.part.time l.staleTime)
              | none => none
            q.journal.empty = v.toNat ∧ (q.mem.cell (l.pointers + 1)).written = v
            ∧ (s.part.journal.coalesced = [] →
                q.journal = { s.part.journal with
                  empty := v.toNat
                  throttled := s.part.journal.throttled
                    && decide (l.lowMark < (s.part.journal.fill + l.journalSize - v.toNat) % l.journalSize)
                  staleDue := stale })
            ∧ (s.part.journal.throttled = true → (s.part.journal.fill + l.journalSize - v.toNat) % l.journalSize ≤ l.lowMark →
                s.part.journal.coalesced.Pairwise (fun x y => x.1 < y.1) → (∀ e ∈ s.part.journal.coalesced, e.2 ≠ 0) →
                (∃ k, k ≤ s.part.journal.coalesced.length ∧ q.journal.coalesced = s.part.journal.coalesced.drop k
                  ∧ (q.journal.throttled = false → k = s.part.journal.coalesced.length)
                  ∧ (s.part.journal.coalesced ≠ [] → 1 ≤ k))
                ∧ ∀ i n, s.part.journal.coalesced = [(i, n)] → s.part.journal.gapRaises = 0 →
                  ∃ base : Sys2Proof.Machine.Part, base = { s.part with
                      mem := base.mem
                      prot := { s.part.prot with injection := { s.part.prot.injection with armed := base.prot.injection.armed } }
                      journal := { s.part.journal with
                        empty := v.toNat, throttled := false, coalesced := [], staleDue := stale } }
                    ∧ (base.mem.cell (l.pointers + 3)).written = 0
                    ∧ (∀ x, x ≠ l.pointers + 1 → x ≠ l.pointers + 3 → base.mem.cell x = s.part.mem.cell x)
                    ∧ base.RingRecords l [0x0053, BitVec.ofNat 16 (s.part.time.toNat % 65536),
                        BitVec.ofNat 16 (s.part.time.toNat / 65536), BitVec.ofNat 16 i, n] q)
          else q.journal = s.part.journal
            ∧ (q.mem.cell (l.pointers + 1)).written = BitVec.ofNat 16 s.part.journal.empty))
      ∧ q.orders = s.part.orders ∧ q.lines = s.part.lines ∧ q.inputs = s.part.inputs ∧ q.bindings = s.part.bindings
      ∧ q.guards = s.part.guards ∧ (∀ c, q.chan c = { s.part.chan c with lastWrite := (q.chan c).lastWrite })
      ∧ q.time = s.part.time ∧ q.modes.mode = s.part.modes.mode
      ∧ ∀ x, x ≠ l.pointers + 1 → s.part.reportWord x = false → q.mem.cell x = s.part.mem.cell x

/-- A HEARTBEAT write (R146): the value is stored; with a nonzero window, while the blocks work, the window timer is due a window after
the present time and a SILENT watch reports ANSWERING, which ends HOST_SILENT; the mode is left as it is. With a window of 0, or in
another run state, the word is stored and nothing else changes. -/
def Obligations.HeartbeatWrite : Prop :=
  ∀ (v : Word) (s : State) (l : Layout), s.part.run.hold = none → s.part.run.state ≠ .clearing → s.part.run.layout = some l →
    l.valid = true → Memory.wf s.part.mem →
    ∃ base q, exec (.heartbeatWrite v) s = .next (s.setPart q)
      ∧ base = { s.part with
          mem := base.mem, prot := { s.part.prot with injection := { s.part.prot.injection with armed := base.prot.injection.armed } } }
      ∧ (base.mem.cell (l.pointers + 4)).written = v ∧ (∀ x, x ≠ l.pointers + 4 → base.mem.cell x = s.part.mem.cell x)
      ∧ (if s.part.active = true ∧ l.watchWindow ≠ 0 then
          q.modes.watchDue = some (after s.part.time l.watchWindow) ∧ q.modes.silent = false ∧ q.modes.mode = s.part.modes.mode
          ∧ (s.part.modes.silent = false → q = { base with modes := { s.part.modes with watchDue := q.modes.watchDue } })
          ∧ Part.Told { base with modes := { s.part.modes with silent := false, watchDue := q.modes.watchDue } } q
        else q = base)

/-- A scrub (R192): in RUNNING the word at the position is kept as it reads clean, repaired and counted with one bit inverted, and left
and counted where it cannot be corrected; the position moves on by one, wrapping. In every other run state nothing happens. Each
millisecond of gallery time has one: a second SCRUB in it does nothing, a new millisecond allows the next, and a MOTION_TICK that ends a
millisecond without its scrub makes it first. Where in the millisecond it falls is the sender's (log entry 32), and that a SCRUB outside
RUNNING, or a second one in a millisecond, changes nothing is the model's choice (log entries 26 and 6). -/
def Obligations.ScrubHandlesOneWord : Prop :=
  ∀ s : State, Memory.wf s.part.mem →
    (s.part.run.state ≠ .running ∨ s.part.clock.scrubbed = true → exec .scrub s = .next s)
    ∧ (s.part.run.state = .running → s.part.clock.scrubbed = false → s.part.clock.tickOwed = false →
        ∃ q t, exec .scrub s = .next (s.setPart q) ∧ exec .motionTick s = .next t ∧ exec .motionTick (s.setPart q) = .next t
          ∧ t.part.clock.scrubbed = false)
    ∧ (s.part.run.state = .running → s.part.clock.scrubbed = false → ∃ q, exec .scrub s = .next (s.setPart q)
        ∧ q.clock = { s.part.clock with scrubbed := true } ∧ q.time = s.part.time
        ∧ q.prot.scrubPos.val = (s.part.prot.scrubPos.val + 1) % 24576
        ∧ q.orders = s.part.orders ∧ q.modes.mode = s.part.modes.mode ∧ s.part.SameSetup q
        ∧ match (s.part.mem.cell s.part.prot.scrubPos.val).upset with
          | .none => q = { s.part with mem := q.mem, prot := { s.part.prot with scrubPos := q.prot.scrubPos }, clock := q.clock }
              ∧ ∀ x, q.mem.cell x = s.part.mem.cell x
          | .one _ => q.prot.corrected = satInc s.part.prot.corrected ∧ q.prot.uncorrected = s.part.prot.uncorrected ∧ q.prot.cv = true
              ∧ ∀ x, s.part.reportWord x = false → q.mem.cell x =
                  if x = s.part.prot.scrubPos.val then .good (s.part.mem.cell x).written else s.part.mem.cell x
          | _ => q.prot.uncorrected = satInc s.part.prot.uncorrected ∧ q.prot.corrected = s.part.prot.corrected ∧ q.prot.uv = true
              ∧ q.run.attention.memerr = true
              ∧ ∀ x, s.part.reportWord x = false → q.mem.cell x = s.part.mem.cell x)

/-! ### CHECKING, RUNNING and HALTED (11.3, 11.5, 9.5) -/

/-- CHECKING_COMPLETE over a layout block that fails (R177, R179): the first failing check gives the code, and nothing but run control
changes; a word of the block that cannot be corrected gives MEMORY, before every other check. That the reads fall at this command is the
model's choice (log entry 8), here and in the next two statements. -/
def Obligations.LayoutCheckFails : Prop :=
  (∀ (s : State) (ws : List Word) (code : FaultCode), s.part.run.state = .checking → ws.length = 32 → s.part.clean 0 ws →
    (let l := layoutOf ws
     let silentAction := (wordAt ws 23).toNat
     code ≠ .none ∧ code =
      if wordAt ws 0 ≠ 0x5A4C then .signature
      else if wordAt ws 1 ≠ 1 then .version
      else if ¬ (8 ≤ l.slotCount ∧ l.slotCount ≤ 64 ∧ 1 ≤ l.entryCount ∧ l.entryCount ≤ 256 ∧ 1 ≤ l.inputCount ∧ l.inputCount ≤ 256
          ∧ 256 ≤ l.journalSize ∧ l.journalSize ≤ 8192) then .count
      else if ¬ ((∀ r ∈ l.regions, 0x0020 ≤ r.1 ∧ r.1 + r.2 ≤ 0x6000)
          ∧ (l.staleTime = 0 ∨ 10 ≤ l.staleTime ∧ l.staleTime ≤ 10000) ∧ (l.restTime = 0 ∨ 10 ≤ l.restTime ∧ l.restTime ≤ 3600)
          ∧ (l.escalateTime = 0 ∨ 10 ≤ l.escalateTime ∧ l.escalateTime ≤ 3600)
          ∧ (l.watchWindow = 0 ∨ 100 ≤ l.watchWindow ∧ l.watchWindow ≤ 60000) ∧ silentAction ≤ 1) then .range
      else if ¬ l.regions.Pairwise (fun r q => r.1 + r.2 ≤ q.1 ∨ q.1 + q.2 ≤ r.1) then .overlap
      else if ¬ (1 ≤ l.trigger ∧ l.trigger ≤ l.journalSize - 1 ∧ 1 ≤ l.lowMark ∧ l.lowMark < l.highMark
          ∧ l.highMark ≤ l.journalSize - 1) then .marks
      else .none) →
    exec .checkingComplete s = .next (s.setPart { s.part with
      run := { s.part.run with state := .faulted, faultCode := code, layout := none,
                               attention := { s.part.run.attention with runstate := true } } }))
  ∧ ∀ s : State, s.part.run.state = .checking →
      (∃ a, a < 32 ∧ ((s.part.mem.cell a).upset = .address ∨ ∃ b, (s.part.mem.cell a).upset = .two b)) →
      ∃ q, exec .checkingComplete s = .next (s.setPart q) ∧ q.run.state = .faulted ∧ q.run.faultCode = .memory ∧ q.run.layout = none
        ∧ q.run.attention.runstate = true ∧ q.run.attention.memerr = true ∧ q.prot.uv = true
        ∧ q.inputs = s.part.inputs ∧ q.bindings = s.part.bindings ∧ q.channels = s.part.channels ∧ q.guards = s.part.guards
        ∧ q.lines = s.part.lines ∧ q.board = s.part.board ∧ q.journal = s.part.journal ∧ q.orders = s.part.orders

/-- CHECKING_COMPLETE over a sound layout block whose groups do not all pass (R179). Groups that read clean, one of which fails its
rule's checks: FAULTED with CONFIG, no group applied, and nothing but run control changes. A group with a word that cannot be
corrected, every group before it in the order of the check reading clean and passing: FAULTED with MEMORY; the read sets MEMERR, counts
and captures (R188), and no group is applied. -/
def Obligations.GroupCheckFails : Prop :=
  (∀ (s : State) (l : Layout) (wi wg wb : List Word) (wc : Fin 8 → List Word), s.part.Configured l wi wg wb wc →
    ((∃ i, inputsOf l.inputCount wi = .error i) ∨ (∃ g, guardsOf wg = .error g) ∨ (∃ e, bindingsOf l.entryCount wb = .error e)
      ∨ ∃ c k, channelParamsOf (wc c) = .error k) →
    exec .checkingComplete s = .next (s.setPart { s.part with
      run := { s.part.run with state := .faulted, faultCode := .config, layout := none,
                               attention := { s.part.run.attention with runstate := true } } }))
  ∧ ∀ (s : State) (l : Layout) (ws : List Word), s.part.run.state = .checking → ws.length = 32 → s.part.clean 0 ws →
    checkLayout ws false = .ok l →
    let spoilt (a n : Nat) : Prop := ∃ k, k < n ∧ ((s.part.mem.cell (a + k)).upset = .address ∨ ∃ b, (s.part.mem.cell (a + k)).upset = .two b)
    let passes (a n : Nat) (good : List Word → Prop) : Prop := ∃ ws, ws.length = n ∧ s.part.clean a ws ∧ good ws
    let inputsPass := passes l.inputs (16 + 6 * l.inputCount) (fun ws => ∃ g, inputsOf l.inputCount ws = .ok g)
    let guardsPass := passes l.guards 32 (fun ws => ∃ g, guardsOf ws = .ok g)
    let bindingsPass := passes l.bindings (8 * l.entryCount) (fun ws => ∃ g, bindingsOf l.entryCount ws = .ok g)
    (spoilt l.inputs (16 + 6 * l.inputCount) ∨ inputsPass ∧ spoilt l.guards 32
      ∨ inputsPass ∧ guardsPass ∧ spoilt l.bindings (8 * l.entryCount)
      ∨ inputsPass ∧ guardsPass ∧ bindingsPass ∧ ∃ c : Fin 8, spoilt (l.params + 16 * c.val) 16
        ∧ ∀ d : Fin 8, d < c → passes (l.params + 16 * d.val) 16 (fun ws => ∃ g, channelParamsOf ws = .ok g)) →
    ∃ q, exec .checkingComplete s = .next (s.setPart q) ∧ q.run.state = .faulted ∧ q.run.faultCode = .memory ∧ q.run.layout = none
      ∧ q.run.attention.runstate = true ∧ q.run.attention.memerr = true ∧ q.prot.uv = true
      ∧ q.inputs = s.part.inputs ∧ q.bindings = s.part.bindings ∧ q.channels = s.part.channels ∧ q.guards = s.part.guards
      ∧ q.lines = s.part.lines ∧ q.board = s.part.board ∧ q.journal = s.part.journal ∧ q.orders = s.part.orders

/-- CHECKING_COMPLETE over a configuration that passes (R180, with R1, R7, R23, R44, R75, R82, R114, R134, R146): the part is RUNNING
at gallery time 0 in CLOSED under the snapshot; every group is applied; every input is UP or INACTIVE; every channel is at rest with
its position lost, in FAULT where its FLT is active; every guard whose pin is open has tripped, and the lines with stations poll. That
the first millisecond has neither a tick nor a scrub behind it is the model's choice (log entries 1 and 32). -/
def Obligations.EntryToRunning : Prop :=
  ∀ (s : State) (l : Layout) (wi wg wb : List Word) (wc : Fin 8 → List Word) (gi : InputsGroup) (gg : Vector GuardRecord 8)
    (gb : List Binding) (gc : Fin 8 → Params), s.part.Configured l wi wg wb wc → Memory.wf s.part.mem →
    inputsOf l.inputCount wi = .ok gi → guardsOf wg = .ok gg → bindingsOf l.entryCount wb = .ok gb →
    (∀ c, channelParamsOf (wc c) = .ok (gc c)) →
    ∃ q, exec .checkingComplete s = .next (s.setPart q)
      ∧ q.run = { s.part.run with state := .running, layout := some l, attention := q.run.attention }
      ∧ q.run.attention.runstate = true ∧ q.time = 0 ∧ q.clock = { tickOwed := false, us := 0, scrubbed := false } ∧ q.prot.scrubPos = 0
      ∧ q.modes.mode = .closed ∧ q.modes.silent = false
      ∧ q.modes.watchDue = (if l.watchWindow = 0 then none else some (BitVec.ofNat 32 l.watchWindow))
      ∧ q.journal.empty = 0 ∧ q.orders.hand = [] ∧ q.orders.taking = none ∧ q.orders.slots.length = l.slotCount
      ∧ q.inputs = gi.defs.map Input.fresh ∧ q.bindings = gb
      ∧ (∀ n, (q.line n).record = gi.lines[n]
          ∧ (∀ a : Fin 12, (q.line n).stations[a].presence =
              if gi.lines[n].enable = true ∧ a.val + 1 ≤ gi.lines[n].stations then .unknown else .disabled)
          ∧ ((q.line n).de = (gi.lines[n].enable && decide (1 ≤ gi.lines[n].stations))))
      ∧ (∀ g, (q.guard g).record = gg[g] ∧ (q.guard g).pin = (s.part.guard g).pin
          ∧ (q.guard g).state = if gg[g].enable = true ∧ (s.part.guard g).pin = gg[g].activeHigh then .tripped else .clear)
      ∧ ∀ c, (q.chan c).params = some (gc c) ∧ (q.chan c).pins = (s.part.chan c).pins ∧ (q.chan c).lost = true
          ∧ (q.chan c).current = none ∧ (q.chan c).queue = [] ∧ (q.chan c).prof = .initial
          ∧ (q.chan c).en = ((gc c).enable && !(s.part.chan c).pins.flt)
          ∧ (q.chan c).state = (if (gc c).enable = true ∧ (s.part.chan c).pins.flt = true then .fault else .unhomed)

/-- The scan of the order table at entry to RUNNING (R163): every slot that can be read and shows POSTED is queued, in ascending index,
with its shadow QUEUED; a slot that shows TAKEN is written DONE RESET with result 0; every other slot is left as it is, IDLE. So the
step of R180 leaves any part, and so CHECKING_COMPLETE leaves a part whose configuration passes, by the words that the order table
held before it. That the check's reads fall at this command is the model's choice (log entry 8). -/
def Obligations.OrderTableScan : Prop :=
  let scanned (l : Layout) (m : Memory) (q : Sys2Proof.Machine.Part) : Prop :=
    let state := fun i => lowByte (m.cell (l.orders + 8 * i)).written
    let readable := fun i => (m.cell (l.orders + 8 * i)).upset = .none ∨ ∃ b, (m.cell (l.orders + 8 * i)).upset = .one b
    q.orders.hand = [] ∧ q.orders.taking = none ∧ q.orders.takeQueue.Pairwise (· < ·)
    ∧ (∀ i, i ∈ q.orders.takeQueue ↔ i < l.slotCount ∧ readable i ∧ state i = 1)
    ∧ ∀ i, i < l.slotCount →
        (readable i → state i = 1 → (q.slot i).shadow = .queued)
        ∧ (readable i → state i = 2 → q.SlotShows l i .finished 10 0)
        ∧ ((¬ readable i ∨ state i ≠ 1 ∧ state i ≠ 2) → (q.slot i).shadow = .idle
            ∧ (q.mem.cell (l.orders + 8 * i)).written = (m.cell (l.orders + 8 * i)).written)
  (∀ (p : Sys2Proof.Machine.Part) (l : Layout), p.run.layout = some l → l.valid = true → Memory.wf p.mem →
    scanned l p.mem (p.startOrders l))
  ∧ ∀ (s : State) (l : Layout) (wi wg wb : List Word) (wc : Fin 8 → List Word) (gi : InputsGroup) (gg : Vector GuardRecord 8)
      (gb : List Binding) (gc : Fin 8 → Params), s.part.Configured l wi wg wb wc → Memory.wf s.part.mem →
      inputsOf l.inputCount wi = .ok gi → guardsOf wg = .ok gg → bindingsOf l.entryCount wb = .ok gb →
      (∀ c, channelParamsOf (wc c) = .ok (gc c)) →
      ∃ q, exec .checkingComplete s = .next (s.setPart q) ∧ scanned l s.part.mem q

/-- STOPPING_END (R182): once every channel is at rest and no take is in progress, every block stops as its chapter says, and the run
state is HALTED, or CHECKING at once when RUN is set; before that the command changes nothing (log entry 6). Exhibit memory, the
applied groups and the error registers stay. -/
def Obligations.StoppingEnds : Prop :=
  ∀ s : State, s.part.run.state = .stopping →
    (((∃ c, (s.part.chan c).state = .moving ∨ (s.part.chan c).state = .stopping ∨ (s.part.chan c).state = .homing)
        ∨ s.part.orders.taking ≠ none) → exec .stoppingEnd s = .next s)
    ∧ ((∀ c, (s.part.chan c).state ≠ .moving ∧ (s.part.chan c).state ≠ .stopping ∧ (s.part.chan c).state ≠ .homing) →
        s.part.orders.taking = none →
        ∃ q, exec .stoppingEnd s = .next (s.setPart q)
          ∧ q.run = (if s.part.run.run then
              { s.part.run with state := .checking, faultCode := .none, layout := none,
                                attention := { s.part.run.attention with runstate := true } }
            else { s.part.run with state := .halted, attention := { s.part.run.attention with runstate := true } })
          ∧ (∀ c, q.chan c = { s.part.chan c with en := false, dir := false })
          ∧ (∀ g, q.guard g = { s.part.guard g with filterDue := none, clearDue := none })
          ∧ (∀ l, q.line l = { s.part.line l with exchange := .idle, test := .none, loop := [] } ∧ (q.line l).de = false)
          ∧ q.inputs = s.part.inputs.map (fun x => { x with holdDue := none, repeatDue := none, stuckDue := none })
          ∧ q.bindings = s.part.bindings
          ∧ q.orders.takeQueue = [] ∧ q.orders.hand = [] ∧ (∀ i, (q.slot i).shadow = .idle)
          ∧ (∀ i : Fin 32, q.board.entries[i] = none) ∧ q.callPin = false ∧ (∀ z, q.beaconPin z = false)
          ∧ q.modes.mode = s.part.modes.mode ∧ q.modes.restDue = none ∧ q.modes.watchDue = none
          ∧ q.journal = { s.part.journal with staleDue := none } ∧ q.time = s.part.time
          ∧ q.mem = s.part.mem ∧ q.prot = s.part.prot)

/-! ### The order taker and moves (9.3, 9.4, 4.4, 4.6) -/

/-- TAKE of an order whose words w1 to w5 read clean (R153, R154): a sound order is written TAKEN, its slot is in hand with its kind
and tag kept, and its owner's command acts on it next; a kind not listed is refused BAD_KIND, a target or stop kind out of range
BAD_OPERAND. The first word that cannot be corrected refuses it MEMORY with its number. -/
def Obligations.TakeReadsOrder : Prop :=
  (∀ (s : State) (l : Layout) (slot : Nat) (rest : List Nat) (ws : List Word), s.part.run.state = .running →
    s.part.orders.taking = none → s.part.orders.takeQueue = slot :: rest → s.part.hasSlot l slot → Memory.wf s.part.mem →
    ws.length = 5 → s.part.clean (l.orders + 8 * slot + 1) ws →
    let kind := (wordAt ws 0).toNat / 256
    let target := (wordAt ws 0).toNat % 256
    let sound := ((kind = 1 ∨ kind = 2 ∨ kind = 3 ∨ kind = 5) → target < 8)
      ∧ (kind = 4 → (target < 8 ∨ target = 15) ∧ (wordAt ws 2).toNat ≤ 1) ∧ (kind = 6 → target ≤ 2 ∨ 8 ≤ target ∧ target ≤ 15)
    ∃ q, exec .take s = .next (s.setPart q)
      ∧ (1 ≤ kind → kind ≤ 11 → sound → ∃ k, OrderKind.ofCode kind = some k
          ∧ q.orders = { s.part.orders with
              takeQueue := rest
              slots := s.part.orders.slots.modify slot (fun _ => { shadow := .inHand, kind := BitVec.ofNat 8 kind, tag := wordAt ws 1 })
              taking := some { slot := slot, kind := k, target := BitVec.ofNat 8 target, w3 := wordAt ws 2, w4 := wordAt ws 3,
                               w5 := wordAt ws 4, asked := false } }
          ∧ (q.mem.cell (l.orders + 8 * slot)).written = 2
          ∧ (∀ x, x ≠ l.orders + 8 * slot → q.mem.cell x = s.part.mem.cell x)
          ∧ q = { s.part with
              mem := q.mem, orders := q.orders
              prot := { s.part.prot with injection := { s.part.prot.injection with armed := q.prot.injection.armed } } })
      ∧ (kind = 0 ∨ 11 < kind → q.SlotShows l slot .refused 1 0 ∧ q.orders.taking = none ∧ q.orders.takeQueue = rest)
      ∧ (1 ≤ kind → kind ≤ 11 → ¬ sound → q.SlotShows l slot .refused 2 0 ∧ q.orders.taking = none ∧ q.orders.takeQueue = rest))
  ∧ ∀ (s : State) (l : Layout) (slot : Nat) (rest : List Nat) (i : Nat), s.part.run.state = .running →
      s.part.orders.taking = none → s.part.orders.takeQueue = slot :: rest → s.part.hasSlot l slot → Memory.wf s.part.mem → i < 5 →
      (∀ k, k < i → (s.part.mem.cell (l.orders + 8 * slot + 1 + k)).upset = .none
        ∨ ∃ b, (s.part.mem.cell (l.orders + 8 * slot + 1 + k)).upset = .one b) →
      ((s.part.mem.cell (l.orders + 8 * slot + 1 + i)).upset = .address
        ∨ ∃ b, (s.part.mem.cell (l.orders + 8 * slot + 1 + i)).upset = .two b) →
      ∃ q, exec .take s = .next (s.setPart q) ∧ q.SlotShows l slot .refused 9 (i + 1) ∧ q.orders.taking = none
        ∧ q.orders.takeQueue = rest

/-- MOVE, HOME and PARK orders that are not admitted (R66): the first check that fails gives the refusal code, and the channels are left
as they are. In STOPPING an order that passes ends DONE STOPPED with result 0 (R162). -/
def Obligations.MoveOrdersRefused : Prop :=
  ∀ (c : Instr) (k : OrderKind) (s : State) (l : Layout) (t : Taking),
    (c = .move ∧ k = .move ∨ c = .home ∧ k = .home ∨ c = .park ∧ k = .park) → s.part.serving l k t → Memory.wf s.part.mem →
    let x := s.part.chan t.chan
    let code : Option Nat :=
      if x.enabled = false then some 5
      else if k = .move ∧ s.part.modes.mode ≠ .opened ∧ s.part.modes.mode ≠ .service then some 4
      else if x.state = .held ∨ x.state = .fault ∨ ∃ g, s.part.covers g t.chan = true then some 5
      else if k = .move ∧ x.state = .parked ∧ x.parkCause = some .mode then some 5
      else if k ≠ .home ∧ (x.state = .unhomed ∨ x.state = .homing) then some 3
      else if 4 ≤ x.queue.length then some 6
      else none
    (∀ r, code = some r → ∃ q, exec c s = .next (s.setPart q) ∧ q.SlotShows l t.slot .refused r 0 ∧ q.orders.taking = none
      ∧ q.orders.hand = s.part.orders.hand ∧ s.part.OnlyOrders q)
    ∧ (code = none → s.part.run.state = .stopping → ∃ q, exec c s = .next (s.setPart q) ∧ q.SlotShows l t.slot .finished 4 0
      ∧ q.orders.taking = none ∧ s.part.OnlyOrders q)

/-- A MOVE or a PARK that becomes current at once (R64, R66, R88 to R90): a channel at rest with an empty queue, which no guard holds,
starts from rest toward the target clamped to the soft limits, at start speed, with the cap of its scale; already at that target the
order ends at once, a PARK leaving it PARKED by the host. No other channel changes. -/
def Obligations.MoveOrParkBegins : Prop :=
  ∀ (c : Instr) (k : OrderKind) (s : State) (l : Layout) (t : Taking) (pr : Params),
    (c = .move ∧ k = .move ∨ c = .park ∧ k = .park) → s.part.serving l k t → Memory.wf s.part.mem →
    let x := s.part.chan t.chan
    let asked : Int := if k = .park then pr.parkPosition
      else if t.w5.getLsbD 15 then x.s + long t.w3 t.w4 else long t.w3 t.w4
    let target := max pr.softMin (min pr.softMax asked)
    let used := min (max 1 (min 100 (t.w5.toNat % 256))) (if s.part.modes.mode = .service then 25 else 100)
    s.part.run.state = .running → x.params = some pr → pr.enable = true → x.queue = [] → x.lost = false →
    (∀ g, s.part.covers g t.chan = false) → (x.state = .idle ∨ x.state = .parked ∧ (k = .move → x.parkCause ≠ some .mode)) →
    (k = .move → s.part.modes.mode = .opened ∨ s.part.modes.mode = .service) →
    ∃ q, exec c s = .next (s.setPart q) ∧ q.orders.taking = none
      ∧ s.part.OnlyChannel t.chan q
      ∧ (target * 16777216 ≠ x.prof.p →
          q.orders = { s.part.orders with taking := none }
          ∧ q.chan t.chan = { x with
              state := .moving, parkCause := none, tickS := (x.prof.p + 8388608) / 16777216, unissued := 0, lastWrite := (q.chan t.chan).lastWrite
              current := some { kind := if k = .park then .park else .move, source := .order t.slot, target := .absolute asked,
                                scale := t.w5.toNat % 256 }
              prof := { p := x.prof.p, v := pr.startSpeed * 16777216 / 1000, tickV := 0, positive := decide (x.prof.p < target * 16777216),
                        phase := .accel, latch := false, target := some (target * 16777216), clamped := decide (target ≠ asked),
                        cap := some (max (pr.startSpeed * 16777216 / 1000) (pr.maxSpeed * 16777216 / 1000 * used / 100)),
                        stopRate := none, stopPoint := none, overrun := false } })
      ∧ (target * 16777216 = x.prof.p → (k = .park → target = asked) →
          q.SlotShows l t.slot .finished (if target = asked then 1 else 2) x.s
          ∧ (q.chan t.chan).current = none ∧ (q.chan t.chan).prof.v = 0 ∧ (q.chan t.chan).prof.p = x.prof.p
          ∧ (q.chan t.chan).state = (if k = .park then .parked else .idle)
          ∧ (q.chan t.chan).parkCause = (if k = .park then some .host else none))

/-- A HOME that becomes current at once (R67, R68): HOMING with the position lost, EN high unless FLT is active, and the search count 0;
with HOME active the position is home_offset and the order ends COMPLETE at once; with LIMIT_LO active the channel faults and the
order ends FAULTED. -/
def Obligations.HomeBegins : Prop :=
  ∀ (s : State) (l : Layout) (t : Taking) (pr : Params), s.part.serving l .home t → Memory.wf s.part.mem →
    let x := s.part.chan t.chan
    s.part.run.state = .running → x.params = some pr → pr.enable = true → x.queue = [] → (∀ g, s.part.covers g t.chan = false) →
    (x.state = .unhomed ∨ x.state = .idle ∨ x.state = .parked) →
    ∃ q, exec .home s = .next (s.setPart q) ∧ q.orders.taking = none
      ∧ s.part.OnlyChannel t.chan q
      ∧ (x.pins.home = false → x.pins.limitLo = false →
          q.chan t.chan = { x with
            state := .homing, parkCause := none, lost := true, en := !x.pins.flt, dir := false, search := 0
            tickS := (x.prof.p + 8388608) / 16777216, unissued := 0
            lastWrite := (q.chan t.chan).lastWrite
            current := some { kind := .home, source := .order t.slot, target := .absent, scale := 0 }
            prof := { p := x.prof.p, v := 0, tickV := 0, positive := false, phase := .none, latch := false, target := none, clamped := false,
                      cap := none, stopRate := none, stopPoint := none, overrun := false } })
      ∧ (x.pins.home = true → (s.part.modes.mode = .opened ∨ s.part.modes.mode = .service) →
          q.SlotShows l t.slot .finished 1 pr.homeOffset ∧ (q.chan t.chan).state = .idle ∧ (q.chan t.chan).lost = false
          ∧ (q.chan t.chan).s = pr.homeOffset ∧ (q.chan t.chan).current = none)
      ∧ (x.pins.home = false → x.pins.limitLo = true →
          q.SlotShows l t.slot .finished 7 ((x.prof.p + 8388608) / 16777216) ∧ (q.chan t.chan).state = .fault ∧ (q.chan t.chan).lost = true
          ∧ (q.chan t.chan).faultCode = some .homeFail ∧ (q.chan t.chan).current = none)

/-- A MOVE, HOME or PARK admitted by a channel in motion joins its pending queue, and its slot stays in hand (R63, R66). -/
def Obligations.MoveJoinsQueue : Prop :=
  ∀ (c : Instr) (k : OrderKind) (s : State) (l : Layout) (t : Taking),
    (c = .move ∧ k = .move ∨ c = .home ∧ k = .home ∨ c = .park ∧ k = .park) → s.part.serving l k t →
    let x := s.part.chan t.chan
    s.part.run.state = .running → x.enabled = true → (∀ g, s.part.covers g t.chan = false) → x.queue.length < 4 →
    (x.state = .moving ∨ x.state = .stopping ∨ x.state = .homing ∧ k = .home) →
    (k = .move → s.part.modes.mode = .opened ∨ s.part.modes.mode = .service) →
    ∃ q, exec c s = .next (s.setPart q) ∧ q.orders = { s.part.orders with taking := none }
      ∧ s.part.OnlyChannel t.chan q
      ∧ q.chan t.chan = { x with
          lastWrite := (q.chan t.chan).lastWrite
          queue := x.queue ++ [{ kind := match k with | .home => .home | .park => .park | _ => .move
                                 source := .order t.slot
                                 target := match k with
                                   | .home => .absent
                                   | .park => .absolute (match x.params with | some pr => pr.parkPosition | none => 0)
                                   | _ => if t.w5.getLsbD 15 then .relative (long t.w3 t.w4) else .absolute (long t.w3 t.w4)
                                 scale := if k = .home then 0 else t.w5.toNat % 256 }] }

/-- STOP CONTROLLED (R71, R73, R158, R162): a channel that is not in motion counts at once, and the order ends COMPLETE with its S; a
MOVING channel begins its controlled stop, its queue is superseded, and the order waits in the hand table; in STOPPING, with a named
channel in motion, the order ends STOPPED. STOP_WAIT_END (R158): the order ends once every named channel has counted; before that the
command changes nothing (log entry 6). -/
def Obligations.StopControlledWaits : Prop :=
  (∀ (s : State) (l : Layout) (t : Taking), s.part.serving l .stop t → Memory.wf s.part.mem → t.w3 = 0 → t.target.toNat < 8 →
    (∀ e ∈ s.part.orders.hand, e.slot ≠ t.slot) →
    let x := s.part.chan t.chan
    ∃ q, exec .stopControlled s = .next (s.setPart q) ∧ q.orders.taking = none ∧ s.part.OnlyChannel t.chan q
      ∧ (x.state ≠ .moving → x.state ≠ .stopping → x.state ≠ .homing →
          q.SlotShows l t.slot .finished 1 x.s ∧ q.orders.hand = s.part.orders.hand
          ∧ q.chan t.chan = { x with queue := [], moveCount := (q.chan t.chan).moveCount, lastWrite := (q.chan t.chan).lastWrite })
      ∧ (x.state = .moving → s.part.run.state = .running →
          q.orders.hand = s.part.orders.hand ++ [{ slot := t.slot, work := .stop (some t.chan) [t.chan] x.s }]
          ∧ q.chan t.chan = { x with
              state := .stopping, pendingTerm := some .stopped, queue := []
              prof := { x.prof with phase := .stoppingDecel, stopRate := some .b, stopPoint := none, latch := false, overrun := false }
              moveCount := (q.chan t.chan).moveCount, lastWrite := (q.chan t.chan).lastWrite })
      ∧ ((x.state = .moving ∨ x.state = .stopping ∨ x.state = .homing) → s.part.run.state = .stopping →
          q.SlotShows l t.slot .finished 4 0 ∧ q.orders.hand = s.part.orders.hand))
  ∧ ∀ (slot : BitVec 6) (s : State) (l : Layout) (one : Option (Fin 8)) (waiting : List (Fin 8)) (r : Int),
      s.part.hasSlot l slot.toNat → Memory.wf s.part.mem →
      s.part.handOf slot.toNat = some { slot := slot.toNat, work := .stop one waiting r } →
      (waiting ≠ [] → exec (.stopWaitEnd slot) s = .next s)
      ∧ (waiting = [] → ∃ q, exec (.stopWaitEnd slot) s = .next (s.setPart q) ∧ q.SlotShows l slot.toNat .finished 1 r
          ∧ q.orders.hand = s.part.orders.hand.filter (fun e => e.slot ≠ slot.toNat)
          ∧ s.part.OnlyOrders q)

/-- STOP CUT of one channel (R73, R74): the power is off at once and the queue superseded in every state; a channel in motion stands
where it is, its position lost, UNHOMED or HELD for a guard; IDLE and PARKED become UNHOMED; a HELD one loses its position; and the
order ends COMPLETE with S. In a state of motion S counts the pulses of the tick already issued, and no further one is issued (R84,
R85). -/
def Obligations.StopCutTakesPower : Prop :=
  ∀ (s : State) (l : Layout) (t : Taking), s.part.serving l .stop t → Memory.wf s.part.mem → t.w3 = 1 → t.target.toNat < 8 →
    let x := s.part.chan t.chan
    ((x.state = .moving ∨ x.state = .stopping ∨ x.state = .homing) → x.current.isSome = true) →
    ∃ q, exec .stopCut s = .next (s.setPart q) ∧ q.orders.taking = none ∧ q.SlotShows l t.slot .finished 1 x.s
      ∧ s.part.OnlyChannel t.chan q
      ∧ (q.chan t.chan).en = false ∧ (q.chan t.chan).queue = [] ∧ (q.chan t.chan).s = x.s
      ∧ (q.chan t.chan).params = x.params ∧ (q.chan t.chan).pins = x.pins
      ∧ ((x.state = .moving ∨ x.state = .stopping ∨ x.state = .homing) →
          (q.chan t.chan).current = none ∧ (q.chan t.chan).lost = true ∧ (q.chan t.chan).prof.v = 0
          ∧ (q.chan t.chan).prof.p = x.s * 16777216
          ∧ ((∃ g, s.part.covers g t.chan = true) → (q.chan t.chan).state = .held)
          ∧ ((∀ g, s.part.covers g t.chan = false) → (q.chan t.chan).state = .unhomed))
      ∧ (x.state = .idle ∨ x.state = .parked →
          (q.chan t.chan).state = .unhomed ∧ (q.chan t.chan).lost = true ∧ (q.chan t.chan).parkCause = none)
      ∧ (x.state = .held → (q.chan t.chan).state = .held ∧ (q.chan t.chan).lost = true)
      ∧ (x.state = .unhomed ∨ x.state = .fault → (q.chan t.chan).state = x.state ∧ (q.chan t.chan).lost = x.lost)

/-- RELEASE (R78): out of FAULT with FLT inactive to UNHOMED, no fault in force and EN high; out of PARKED by the host to IDLE, where
OPEN and SERVICE leave it; in every other case WRONG_STATE. -/
def Obligations.ReleaseOrder : Prop :=
  ∀ (s : State) (l : Layout) (t : Taking), s.part.serving l .release t → Memory.wf s.part.mem →
    let x := s.part.chan t.chan
    ∃ q, exec .release s = .next (s.setPart q) ∧ q.orders.taking = none
      ∧ s.part.OnlyChannel t.chan q
      ∧ (x.enabled = true → x.state = .fault → x.pins.flt = false →
          q.SlotShows l t.slot .finished 1 x.s
          ∧ q.chan t.chan = { x with
              state := .unhomed, faults := { driver := false, limit := false, homeFail := false }, faultCode := none, en := true
              lastWrite := (q.chan t.chan).lastWrite })
      ∧ (x.enabled = true → x.state = .parked → x.parkCause = some .host →
          (s.part.modes.mode = .opened ∨ s.part.modes.mode = .service) →
          q.SlotShows l t.slot .finished 1 x.s
          ∧ q.chan t.chan = { x with state := .idle, parkCause := none, lastWrite := (q.chan t.chan).lastWrite })
      ∧ (¬ (x.enabled = true ∧ (x.state = .fault ∧ x.pins.flt = false ∨ x.state = .parked ∧ x.parkCause = some .host)) →
          q.SlotShows l t.slot .refused 5 0 ∧ s.part.OnlyOrders q)

/-! ### Applications (9.6, R22, R23, R43, R44, R61, R62, R103, R104, R160) -/

/-- APPLY_INPUTS of a group that reads clean and passes (R1, R7, R13, R23, R160): with no line test in progress the set is replaced,
every input starts afresh, every line takes its record with its presence table rebuilt and begins a cycle at address 1 if it is
enabled with a station, and the order ends COMPLETE; with a test in progress it waits in the hand table. -/
def Obligations.ApplyInputsReplacesSet : Prop :=
  ∀ (s : State) (l : Layout) (t : Taking) (ws : List Word) (g : InputsGroup), s.part.serving l .apply t → Memory.wf s.part.mem →
    t.target = 0 → s.part.run.state = .running → ws.length = 16 + 6 * l.inputCount → s.part.clean l.inputs ws →
    inputsOf l.inputCount ws = .ok g →
    ∃ q, exec .applyInputs s = .next (s.setPart q) ∧ q.orders.taking = none
      ∧ ((∀ k, (s.part.line k).test = .none) →
          q.SlotShows l t.slot .finished 1 0 ∧ q.inputs = g.defs.map Input.fresh ∧ s.part.OnlyWork q
          ∧ (∀ k, (q.guard k).record = (s.part.guard k).record ∧ (q.guard k).pin = (s.part.guard k).pin)
          ∧ ∀ k : Fin 4, (q.line k).record = g.lines[k] ∧ (q.line k).fifo = [] ∧ (q.line k).overrun = false ∧ (q.line k).test = .none
              ∧ (q.line k).loop = [] ∧ (q.line k).lineFail = false
              ∧ (∀ a : Fin 12, (q.line k).stations[a] =
                  { presence := if g.lines[k].enable = true ∧ a.val < g.lines[k].stations then .unknown else .disabled
                    failures := 0, bad := 0, everPresent := false, lost := false })
              ∧ (q.line k).exchange =
                  (if g.lines[k].enable = true ∧ 1 ≤ g.lines[k].stations then .sending 1 (q.frame k 1) else .idle))
      ∧ ((∃ k, (s.part.line k).test ≠ .none) →
          q = { s.part with orders := { s.part.orders with
            taking := none, hand := s.part.orders.hand ++ [{ slot := t.slot, work := .applyInputs g.lines g.defs }] } })

/-- APPLY_GUARDS of a group that reads clean and passes (R104, R106, R108): every guard takes its record; a guard disabled is CLEAR
with its timers and flags clear; one that was CLEAR and is enabled follows its pin at once; one that was not CLEAR keeps its filtered
level as the pin level it stands for, trips again or settles as that level now reads. The order ends COMPLETE. -/
def Obligations.ApplyGuardsReplacesRecords : Prop :=
  ∀ (s : State) (l : Layout) (t : Taking) (ws : List Word) (v : Vector GuardRecord 8), s.part.serving l .apply t → Memory.wf s.part.mem →
    t.target = 1 → s.part.run.state = .running → ws.length = 32 → s.part.clean l.guards ws → guardsOf ws = .ok v →
    ∃ q, exec .applyGuards s = .next (s.setPart q) ∧ q.orders.taking = none ∧ q.SlotShows l t.slot .finished 1 0 ∧ s.part.OnlyWork q
      ∧ (∀ k, (q.line k) = (s.part.line k)) ∧ q.inputs = s.part.inputs
      ∧ ∀ g : Fin 8,
          let x := s.part.guard g
          let opens := (if x.filteredOpen then x.record.activeHigh else !x.record.activeHigh) == v[g].activeHigh
          (q.guard g).record = v[g] ∧ (q.guard g).pin = x.pin
          ∧ (v[g].enable = false → (q.guard g).state = .clear ∧ (q.guard g).filterDue = none ∧ (q.guard g).clearDue = none
              ∧ (q.guard g).acked = false ∧ (q.guard g).boarded = false)
          ∧ (v[g].enable = true → x.state = .clear →
              (q.guard g).filteredOpen = (x.pin == v[g].activeHigh) ∧ (q.guard g).filterDue = none
              ∧ (q.guard g).state = (if x.pin = v[g].activeHigh then .tripped else .clear))
          ∧ (v[g].enable = true → x.state ≠ .clear → (q.guard g).filteredOpen = opens)
          ∧ (v[g].enable = true → x.state ≠ .clear → opens = true → (q.guard g).state = .tripped ∧ (q.guard g).acked = x.acked
              ∧ (q.guard g).boarded = x.boarded)
          ∧ (v[g].enable = true → x.state = .tripped → opens = false → v[g].clearTime ≠ 0 →
              (q.guard g).state = .settling ∧ (q.guard g).clearDue = some (s.part.time + BitVec.ofNat 32 v[g].clearTime))
          ∧ (v[g].enable = true → x.state = .awaitAck → opens = false → (q.guard g).state = .awaitAck)

/-- APPLY_BINDINGS of a group that reads clean and passes (R44): the store is replaced with every lockout clear, every binding's move
loses its current-store mark, the order ends COMPLETE, and beyond that only reports change. -/
def Obligations.ApplyBindingsReplacesStore : Prop :=
  ∀ (s : State) (l : Layout) (t : Taking) (ws : List Word) (store : List Binding), s.part.serving l .apply t → Memory.wf s.part.mem →
    t.target = 2 → s.part.run.state = .running → ws.length = 8 * l.entryCount → s.part.clean l.bindings ws →
    bindingsOf l.entryCount ws = .ok store →
    ∃ q, exec .applyBindings s = .next (s.setPart q) ∧ q.orders.taking = none ∧ q.SlotShows l t.slot .finished 1 0
      ∧ q.bindings = store ∧ (∀ b ∈ q.bindings, b.lockout = none)
      ∧ (∀ c, q.chan c = { s.part.chan c with
          current := (s.part.chan c).current.map Move.unmark, queue := (s.part.chan c).queue.map Move.unmark
          lastWrite := (q.chan c).lastWrite })
      ∧ ((s.part.setBindings store).setChannels q.channels).OnlyOrders q

/-- APPLY_CHANNEL of a group that reads clean and passes its field checks (R61, R62): CHANNEL_BUSY where the channel cannot be
replaced now, BAD_CONFIG 6 or 7 where the position lies beyond a new soft limit; otherwise the parameters are replaced, the channel
changes with its enable, and the order ends COMPLETE. -/
def Obligations.ApplyChannelReplacesParameters : Prop :=
  ∀ (s : State) (l : Layout) (t : Taking) (c : Fin 8) (ws : List Word) (pr : Params), s.part.serving l .apply t → Memory.wf s.part.mem →
    t.target.toNat = 8 + c.val → s.part.run.state = .running → ws.length = 16 → s.part.clean (l.params + 16 * c.val) ws →
    channelParamsOf ws = .ok pr →
    let x := s.part.chan c
    let still := x.state = .unhomed ∨ x.state = .idle ∨ x.state = .parked ∨ x.state = .fault
    let known := pr.enable = true ∧ (x.state = .idle ∨ x.state = .parked) ∧ x.lost = false
    ∃ q, exec .applyChannel s = .next (s.setPart q) ∧ q.orders.taking = none
      ∧ (¬ still → q.SlotShows l t.slot .refused 7 0 ∧ s.part.OnlyOrders q)
      ∧ (known → x.s < pr.softMin → q.SlotShows l t.slot .refused 8 6 ∧ s.part.OnlyOrders q)
      ∧ (known → pr.softMin ≤ x.s → pr.softMax < x.s → q.SlotShows l t.slot .refused 8 7 ∧ s.part.OnlyOrders q)
      ∧ (still → (known → pr.softMin ≤ x.s ∧ x.s ≤ pr.softMax) →
          q.SlotShows l t.slot .finished 1 0
          ∧ ((s.part.setOrders q.orders).setChan c (q.chan c)).Near c q
          ∧ (x.enabled = pr.enable → q.chan c = { x with params := some pr, lastWrite := (q.chan c).lastWrite })
          ∧ (x.enabled = true → pr.enable = false → q.chan c = { x with
              params := some pr, state := .unhomed, lost := true, parkCause := none, faultCode := none
              faults := { driver := false, limit := false, homeFail := false }, en := false, dir := false
              lastWrite := (q.chan c).lastWrite })
          ∧ (x.enabled = false → pr.enable = true → x.pins.flt = false → q.chan c = { x with
              params := some pr, state := .unhomed, lost := true, en := true, lastWrite := (q.chan c).lastWrite })
          ∧ (x.enabled = false → pr.enable = true → x.pins.flt = true →
              (q.chan c).params = some pr ∧ (q.chan c).state = .fault ∧ (q.chan c).faultCode = some .driver ∧ (q.chan c).lost = true
              ∧ (q.chan c).en = false))

/-- An APPLY whose group does not pass (R22, R43, R61, R103, R160, R189): the first word that cannot be corrected refuses it MEMORY with
its index; a group that fails a check is refused BAD_CONFIG with the offender's number. In STOPPING a group that passes ends the order
STOPPED. The applied sets stay in every case. -/
def Obligations.ApplyRefused : Prop :=
  ∀ (c : Instr) (s : State) (l : Layout) (t : Taking) (base size : Nat) (err : List Word → Option Nat),
    s.part.serving l .apply t → Memory.wf s.part.mem →
    (c = .applyInputs ∧ t.target = 0 ∧ base = l.inputs ∧ size = 16 + 6 * l.inputCount
        ∧ (err = fun ws => match inputsOf l.inputCount ws with | .error e => some e | .ok _ => none)
      ∨ c = .applyGuards ∧ t.target = 1 ∧ base = l.guards ∧ size = 32
        ∧ (err = fun ws => match guardsOf ws with | .error e => some e | .ok _ => none)
      ∨ c = .applyBindings ∧ t.target = 2 ∧ base = l.bindings ∧ size = 8 * l.entryCount
        ∧ (err = fun ws => match bindingsOf l.entryCount ws with | .error e => some e | .ok _ => none)
      ∨ ∃ n : Fin 8, c = .applyChannel ∧ t.target.toNat = 8 + n.val ∧ base = l.params + 16 * n.val ∧ size = 16
        ∧ (err = fun ws => match channelParamsOf ws with | .error e => some e | .ok _ => none)) →
    (∀ ws e, ws.length = size → s.part.clean base ws → err ws = some e →
      ∃ q, exec c s = .next (s.setPart q) ∧ q.SlotShows l t.slot .refused 8 e ∧ q.orders.taking = none ∧ s.part.OnlyOrders q)
    ∧ (∀ i, i < size →
      (∀ k, k < i → (s.part.mem.cell (base + k)).upset = .none ∨ ∃ b, (s.part.mem.cell (base + k)).upset = .one b) →
      ((s.part.mem.cell (base + i)).upset = .address ∨ ∃ b, (s.part.mem.cell (base + i)).upset = .two b) →
      ∃ q, exec c s = .next (s.setPart q) ∧ q.SlotShows l t.slot .refused 9 i ∧ q.orders.taking = none ∧ s.part.SameSetup q)
    ∧ (∀ ws, ws.length = size → s.part.clean base ws → err ws = none → s.part.run.state = .stopping →
      ∃ q, exec c s = .next (s.setPart q) ∧ q.SlotShows l t.slot .finished 4 0 ∧ q.orders.taking = none ∧ s.part.OnlyOrders q)

/-! ### Orders of the other units (8.2, 7.4, 1.6, 1.8) -/

/-- SET_MODE (R136, R162): the order's request joins those that wait, and the take with it; an operand that names no mode is refused
BAD_OPERAND; in STOPPING the order ends STOPPED. That the request waits for a MODE_REQUEST is the model's choice (log entry 16). -/
def Obligations.SetModeOrder : Prop :=
  ∀ (s : State) (l : Layout) (t : Taking), s.part.serving l .setMode t → Memory.wf s.part.mem → t.asked = false →
    (∀ m : Mode, m.code = t.target.toNat → s.part.run.state = .running →
      exec .setMode s = .next (s.setPart { s.part with
        orders := { s.part.orders with taking := some { t with asked := true } }
        modes := { s.part.modes with requests := s.part.modes.requests ++ [{ mode := m, cause := .order t.slot }] } }))
    ∧ (t.target.toNat ≤ 3 → s.part.run.state = .stopping →
      ∃ q, exec .setMode s = .next (s.setPart q) ∧ q.SlotShows l t.slot .finished 4 0 ∧ q.orders.taking = none ∧ s.part.OnlyOrders q)
    ∧ (3 < t.target.toNat →
      ∃ q, exec .setMode s = .next (s.setPart q) ∧ q.SlotShows l t.slot .refused 2 0 ∧ q.orders.taking = none ∧ s.part.OnlyOrders q)

/-- LAMP orders (R15, R159): an input of the applied set and a pattern give the input its commanded pattern, with no expiry for a
duration of 0 and at most 255 s, and the order ends COMPLETE; otherwise BAD_OPERAND. LAMP_EXPIRY (R15) and LOCKOUT_EXPIRY (R42): at
the due time the commanded pattern becomes absent, and the lockout clear; nothing else changes. When a timer's command may be taken is
the model's choice (log entry 1). -/
def Obligations.LampsAndLockouts : Prop :=
  (∀ (s : State) (l : Layout) (t : Taking), s.part.serving l .lamp t → Memory.wf s.part.mem →
    ∃ q, exec .lamp s = .next (s.setPart q) ∧ q.orders.taking = none
      ∧ (t.target.toNat < s.part.inputs.length → ∀ p : Lamp, p.code = t.w3.toNat →
          q.SlotShows l t.slot .finished 1 0
          ∧ ({ s.part with
              inputs := s.part.inputs.modify t.target.toNat (fun x => { x with
                lamp := some { pattern := p
                               expiry := if t.w4 = 0 then none
                                 else some (s.part.time + BitVec.ofNat 32 (min t.w4.toNat 255 * 1000)) } }) } : Sys2Proof.Machine.Part).OnlyOrders q)
      ∧ (s.part.inputs.length ≤ t.target.toNat ∨ 3 < t.w3.toNat → q.SlotShows l t.slot .refused 2 0 ∧ s.part.OnlyOrders q))
  ∧ (∀ (input : Byte) (s : State) (x : Input) (c : LampCommand) (due : Time) (p : Sys2Proof.Machine.Part),
      s.part.inputs[input.toNat]? = some x → x.lamp = some c → c.expiry = some due → s.part.comesDue due p →
      exec (.lampExpiry input) s = .next (s.setPart { p with
        inputs := p.inputs.modify input.toNat (fun y => { y with lamp := none }) }))
  ∧ ∀ (entry : Byte) (s : State) (b : Binding) (due : Time) (p : Sys2Proof.Machine.Part),
      s.part.bindings[entry.toNat]? = some b → b.lockout = some due → s.part.comesDue due p →
      exec (.lockoutExpiry entry) s = .next (s.setPart { p with
        bindings := p.bindings.modify entry.toNat (fun y => { y with lockout := none }) })

/-- R17: a LINE_TEST order is refused at the first check that fails (line number, mode, enable, a test or an APPLY INPUTS in hand),
whatever the other lines are doing and whatever N is; one that passes marks the line as testing at once, ends a wait between cycles
and stays in hand, or ends STOPPED in STOPPING (R162). -/
def Obligations.LineTestOrder : Prop :=
  ∀ (s : State) (l : Layout) (t : Taking) (k : Fin 4), s.part.serving l .lineTest t → Memory.wf s.part.mem →
    k.val = t.target.toNat % 4 →
    let x := s.part.line k
    let code : Option Nat :=
      if 4 ≤ t.target.toNat then some 2
      else if s.part.modes.mode = .opened then some 4
      else if x.record.enable = false then some 5
      else if x.test ≠ .none ∨ s.part.orders.hand.any (fun e => match e.work with | .applyInputs _ _ => true | _ => false) = true
        then some 11
      else none
    (∀ r, code = some r → ∃ q, exec .lineTest s = .next (s.setPart q) ∧ q.SlotShows l t.slot .refused r 0
        ∧ q.orders.taking = none ∧ s.part.OnlyOrders q)
    ∧ (code = none → s.part.run.state = .running →
        exec .lineTest s = .next (s.setPart { s.part with
          orders := { s.part.orders with
            taking := none, hand := s.part.orders.hand ++ [{ slot := t.slot, work := .lineTest k }] }
          lines := s.part.lines.set k { x with
            test := .accepted t.slot, exchange := if x.exchange = .waiting then .idle else x.exchange } }))
    ∧ (code = none → s.part.run.state = .stopping → ∃ q, exec .lineTest s = .next (s.setPart q)
        ∧ q.SlotShows l t.slot .finished 4 0 ∧ q.orders.taking = none ∧ s.part.OnlyOrders q)

/-- LINE_TEST_BEGIN (R18): with no exchange in progress the test begins, with the FIFO empty, the five characters to be looped and the
agreement counts of the line's active inputs 0; with one in progress the command changes nothing (log entry 6). CHARACTER_RECEIVED in
the running test (R18, R4): the next of the five enters the FIFO, with FRAMING if its stop bit read low (log entry 38), and after the
fifth none. LINE_TEST_END (R19): with no APPLY INPUTS waiting, the order of a test whose five characters came back as sent ends
COMPLETE, and otherwise FAILED with the number of positions that differ; the FIFO is emptied, the line is no longer testing and begins
a cycle at address 1 where it polls. -/
def Obligations.LineTestRuns : Prop :=
  let sent : Nat → RxChar := fun i =>
    { data := if i = 0 then 0x55 else if i = 1 then 0xAA else if i = 2 then 0x0F else if i = 3 then 0xF0 else 0xA5
      framing := false, mark := decide (i = 4), overrun := false }
  (∀ (k : Fin 4) (s : State) (slot : Nat), (s.part.line k).test = .accepted slot →
      ((s.part.line k).exchange = .idle ∨ (s.part.line k).exchange = .waiting →
        exec (.lineTestBegin k) s = .next (s.setPart { s.part with
          inputs := s.part.inputs.map (fun x => { x with agree := if x.d.active = true ∧ x.d.line = k then 0 else x.agree })
          lines := s.part.lines.set k { s.part.line k with
            test := .running slot, exchange := .idle, fifo := [], overrun := false
            loop := (List.range 5).map sent } }))
      ∧ ((s.part.line k).exchange ≠ .idle → (s.part.line k).exchange ≠ .waiting → exec (.lineTestBegin k) s = .next s))
  ∧ (∀ (k : Fin 4) (s : State) (slot i : Nat) (data : Byte) (framing mark : Bool), (s.part.line k).test = .running slot →
      (s.part.line k).exchange = .idle → (s.part.line k).loop = (List.range' i (5 - i)).map sent →
      let x := s.part.line k
      exec (.characterReceived k data framing mark) s = .next (s.setPart (s.part.setLine k (if i < 5 then { x with
        fifo := if x.fifo.length < 16 then x.fifo ++ [{ sent i with framing := framing, overrun := x.overrun }] else x.fifo
        overrun := decide (16 ≤ x.fifo.length)
        loop := (List.range' (i + 1) (4 - i)).map sent } else x))))
  ∧ ∀ (k : Fin 4) (s : State) (l : Layout) (slot : Nat), (s.part.line k).test = .running slot → s.part.hasSlot l slot →
    Memory.wf s.part.mem → (∀ e ∈ s.part.orders.hand, ∀ r d, e.work ≠ .applyInputs r d) →
    let fifo := (s.part.line k).fifo
    let n := (List.range 5).countP (fun i => fifo[i]? ≠ some (sent i))
    ∃ q, exec (.lineTestEnd k) s = .next (s.setPart q) ∧ s.part.OnlyWork q
      ∧ q.SlotShows l slot .finished (if n = 0 then 1 else 9) n
      ∧ q.orders.hand = s.part.orders.hand.filter (fun e => e.slot ≠ slot) ∧ q.orders.taking = s.part.orders.taking
      ∧ q.inputs = s.part.inputs ∧ q.guards = s.part.guards ∧ (∀ j, j ≠ k → q.line j = s.part.line j)
      ∧ (q.line k).test = .none ∧ (q.line k).loop = [] ∧ (q.line k).fifo = [] ∧ (q.line k).overrun = false ∧ (q.line k).record = (s.part.line k).record
      ∧ (q.line k).stations = (s.part.line k).stations
      ∧ (q.line k).exchange = (if s.part.active = true ∧ (s.part.line k).record.enable = true ∧ 1 ≤ (s.part.line k).record.stations
          then .sending 1 (q.frame k 1) else .idle)

/-! ### The mode controller (8.2, 8.3) -/

/-- MODE_REQUEST (R135 to R141): the request that reached the controller first is taken whole. One that asks for the mode in force, or
whose conditions no longer hold, or that is taken in STOPPING, changes nothing; otherwise the mode changes, and each channel acts by
its state. Into REST or CLOSED an idle homed channel begins its MODE park, or is parked where it stands, a moving one stops SUPERSEDED
unless it runs a MODE park; into OPEN a channel the mode parked becomes IDLE and a MODE park is stopped; about SERVICE every moving
channel stops. The order that asked ends COMPLETE, with 1 if the mode changed. -/
def Obligations.ModeRequestTaken : Prop :=
  ∀ (s : State) (r : ModeRequest) (rest : List ModeRequest), s.part.active = true → s.part.modes.requests = r :: rest →
    Memory.wf s.part.mem →
    let m := s.part.modes.mode
    let parks := r.mode = .rest ∨ r.mode = .closed
    let acts := s.part.run.state = .running ∧ r.mode ≠ m ∧ (r.cause = .wake → m = .rest) ∧ (r.cause = .restTimer → s.part.restOk = true)
      ∧ (r.cause = .silent → s.part.silentRest = true ∧ m = .opened)
    ∃ q, exec .modeRequest s = .next (s.setPart q) ∧ s.part.OnlyWork q ∧ q.modes.requests = rest
      ∧ q.modes.mode = (if acts then r.mode else m) ∧ q.inputs = s.part.inputs ∧ q.guards = s.part.guards
      ∧ (∀ l t, r.cause = .order t.slot → s.part.orders.taking = some t → t.asked = true → s.part.hasSlot l t.slot →
          q.SlotShows l t.slot .finished 1 (if acts then 1 else 0) ∧ q.orders.taking = none)
      ∧ (¬ acts → (∀ c, q.chan c = { s.part.chan c with lastWrite := (q.chan c).lastWrite })
          ∧ ((∀ slot, r.cause ≠ .order slot) → q = { s.part with modes := { s.part.modes with requests := rest } }))
      ∧ (acts → ∀ c : Fin 8,
          let x := s.part.chan c
          let y := q.chan c
          let modePark := ∃ mv, x.current = some mv ∧ mv.kind = .park ∧ mv.source = .mode
          (parks → m ≠ .service → x.state = .idle → x.lost = false → x.queue = [] → (∀ g, s.part.covers g c = false) →
            ∀ pr, x.params = some pr → pr.softMin ≤ pr.parkPosition → pr.parkPosition ≤ pr.softMax →
              if pr.parkPosition * 16777216 = x.prof.p then y.state = .parked ∧ y.parkCause = some .mode ∧ y.current = none
              else y.state = .moving ∧ y.prof.target = some (pr.parkPosition * 16777216)
                ∧ y.current = some { kind := .park, source := .mode, target := .absolute pr.parkPosition, scale := 100 })
          ∧ (x.state = .moving → (m = .service ∨ r.mode = .service ∨ parks ∧ ¬ modePark ∨ r.mode = .opened ∧ modePark) →
              y = { x with state := .stopping, pendingTerm := some .superseded, queue := []
                           prof := { x.prof with
                             phase := .stoppingDecel, stopRate := some .b, stopPoint := none, latch := false, overrun := false }
                           moveCount := y.moveCount, lastWrite := y.lastWrite })
          ∧ (parks → m ≠ .service → (x.state = .moving ∧ modePark ∨ x.state = .homing ∨ x.state = .parked ∨ x.state = .unhomed
                ∨ x.state = .held ∨ x.state = .fault) →
              y = { x with queue := [], moveCount := y.moveCount, lastWrite := y.lastWrite })
          ∧ (r.mode = .opened → x.state = .parked → x.parkCause = some .mode → y.state = .idle ∧ y.parkCause = none)
          ∧ (r.mode = .opened → m ≠ .service → x.state ≠ .stopping → ¬ (x.state = .parked ∧ x.parkCause = some .mode) →
              ¬ (x.state = .moving ∧ modePark) → y = { x with lastWrite := y.lastWrite }))

/-! ### The alert board (7.3, 7.4) -/

/-- ACK orders (R109, R123, R124): an index past the board is BAD_OPERAND; no entry there, or one with another code, NO_ALERT; a HELD
entry gives result 0. An OPEN entry becomes HELD and a LAPSED one leaves the board, which clears OVERFLOW, with result 1; the guard of
a GUARD_TRIP takes the acknowledgement. The board is stated where the journal has room and no guard becomes CLEAR. That a filter timer
due at the very time its guard becomes CLEAR goes on is the model's choice (log entry 9). -/
def Obligations.AckOrder : Prop :=
  ∀ (s : State) (l : Layout) (t : Taking), s.part.serving l .ack t → Memory.wf s.part.mem →
    ∃ q, exec .ack s = .next (s.setPart q) ∧ q.orders.taking = none ∧ s.part.OnlyWork q ∧ q.lines = s.part.lines
      ∧ q.inputs = s.part.inputs
      ∧ (32 ≤ t.w3.toNat → q.SlotShows l t.slot .refused 2 0 ∧ s.part.OnlyOrders q)
      ∧ ∀ i : Fin 32, i.val = t.w3.toNat →
          ((∀ e, s.part.board.entries[i] = some e → e.code.code ≠ t.w4.toNat) →
            q.SlotShows l t.slot .refused 10 0 ∧ s.part.OnlyOrders q)
          ∧ ∀ e, s.part.board.entries[i] = some e → e.code.code = t.w4.toNat →
            (e.state = .held → q.SlotShows l t.slot .finished 1 0 ∧ s.part.OnlyOrders q)
            ∧ (e.state ≠ .held →
              q.SlotShows l t.slot .finished 1 1
              ∧ (∀ g, q.guard g =
                  if e.code = .guardTrip ∧ e.source = .guard g then
                    match (s.part.guard g).state with
                    | .clear => s.part.guard g
                    | .awaitAck => { s.part.guard g with
                        state := .clear, clearDue := none, acked := false, boarded := false
                        filterDue := (s.part.guard g).filterDue.filter (fun d => Machine.reached s.part.time d) }
                    | _ => { s.part.guard g with acked := true }
                  else s.part.guard g)
              ∧ ((∀ g, e.code = .guardTrip → e.source = .guard g → (s.part.guard g).state ≠ .awaitAck) →
                  (∀ c, q.chan c = { s.part.chan c with lastWrite := (q.chan c).lastWrite })
                  ∧ (s.part.room l 28 → q.board =
                      if e.state = .opened then
                        { s.part.board with
                          entries := s.part.board.entries.set i
                            (some { e with state := .held, escalated := false, last := s.part.time }) }
                      else { entries := s.part.board.entries.set i none
                             made := s.part.board.made.filter (fun j => j ≠ i), overflow := false })))

/-- ORDER_ALERT orders (R117, R118, R130): no zone or no severity is BAD_OPERAND. With room in the journal, a host code that no entry
has makes an entry at the free index with the lowest number, LAPSED, count 1, and one of ATTEND or URGENT sets the cause ALERT; a host
code that an entry has is merged into it at a severity no higher than its own. The order ends COMPLETE with the index. -/
def Obligations.OrderAlertOrder : Prop :=
  ∀ (s : State) (l : Layout) (t : Taking), s.part.serving l .orderAlert t → Memory.wf s.part.mem →
    let source : Source := .host (BitVec.ofNat 8 t.w4.toNat)
    ∃ q, exec .orderAlert s = .next (s.setPart q) ∧ q.orders.taking = none ∧ s.part.OnlyOrders q
      ∧ ((4 ≤ t.target.toNat ∧ t.target ≠ 15 ∨ 2 < t.w3.toNat) → q.SlotShows l t.slot .refused 2 0)
      ∧ ∀ (zone : Zone) (sev : Severity), t.target.toNat = (match zone with | .one z => z.val | .all => 15) → sev.code = t.w3.toNat →
          (∃ n : Int, 0 ≤ n ∧ n ≤ 32 ∧ q.SlotShows l t.slot .finished 1 n)
          ∧ (s.part.room l 28 → ∀ i : Fin 32,
            ((∀ (j : Fin 32) (e : Entry), s.part.board.entries[j] = some e → ¬ (e.code = .orderAlert ∧ e.source = source)) →
              s.part.board.entries[i] = none → (∀ j : Fin 32, j < i → s.part.board.entries[j] ≠ none) →
              q.SlotShows l t.slot .finished 1 i.val
              ∧ (sev ≠ .info → q.run.attention.alert = true)
              ∧ q.board = { s.part.board with
                  entries := s.part.board.entries.set i
                    (some { code := .orderAlert, source := source, zone := zone, severity := sev, state := .lapsed, escalated := false
                            count := 1, first := s.part.time, last := s.part.time })
                  made := s.part.board.made.filter (fun j => j ≠ i) ++ [i] })
            ∧ (∀ e, s.part.board.entries[i] = some e → e.code = .orderAlert → e.source = source →
              (∀ (j : Fin 32) (e' : Entry), s.part.board.entries[j] = some e' → e'.code = .orderAlert → e'.source = source → j = i) →
              sev.code ≤ e.severity.code →
              q.SlotShows l t.slot .finished 1 i.val
              ∧ q.board = { s.part.board with
                  entries := s.part.board.entries.set i
                    (some { e with count := if e.count = 255 then 255 else e.count + 1, last := s.part.time }) }))

/-! ### Station lines (1.2 to 1.6) -/

/-- Reception and the cycle's timer (R2, R4, R5, R14). The window opens when a poll has been sent; a start bit opens the reply or
continues it; a character through its stop bit is offered to the FIFO of 16, and while no reply is open and no test runs none is (log
entry 6; a test's characters are LINE_TEST's statement); once the 100 ms spacing has passed (log entry 1) a waiting line that is polled
begins its next cycle at address 1 with the frame formed at that moment. -/
def Obligations.LineEvents : Prop :=
  (∀ (l : Fin 4) (s : State) (a : Nat) (f : PollFrame), (s.part.line l).exchange = .sending a f →
    exec (.replyWindowOpen l) s = .next (s.setPart (s.part.setLine l { s.part.line l with exchange := .window a })))
  ∧ (∀ (l : Fin 4) (s : State) (a : Nat), ((s.part.line l).exchange = .window a ∨ (s.part.line l).exchange = .gap a) →
    exec (.startBitDetected l) s = .next (s.setPart (s.part.setLine l { s.part.line l with exchange := .receiving a })))
  ∧ (∀ (l : Fin 4) (data : Byte) (framing mark : Bool) (s : State) (a : Nat),
    let x := s.part.line l
    (x.exchange = .receiving a →
      exec (.characterReceived l data framing mark) s = .next (s.setPart (s.part.setLine l { x with
        exchange := .gap a
        fifo := if x.fifo.length < 16 then x.fifo ++ [{ data := data, framing := framing, mark := mark, overrun := x.overrun }]
                else x.fifo
        overrun := decide (16 ≤ x.fifo.length) })))
    ∧ ((∀ b, x.exchange ≠ .receiving b) → (∀ slot, x.test ≠ .running slot) →
      exec (.characterReceived l data framing mark) s = .next s))
  ∧ ∀ (l : Fin 4) (s : State) (p : Sys2Proof.Machine.Part),
    let x := s.part.line l
    x.exchange = .waiting → s.part.comesDue (x.cycleStart + 100) p → x.record.enable = true → 1 ≤ x.record.stations → x.test = .none →
    exec (.cycleWaitExpiry l) s = .next (s.setPart (p.setLine l { x with
      cycleStart := p.time, fifo := [], overrun := false, exchange := .sending 1 (p.frame l 1) }))

/-- A GOOD reply (R8, R11, R13, R14): the station is PRESENT with no failures and ever present, neither it nor its line is lost any
more; the stations that went ABSENT while the line had failed are reported lost; the next address is polled, or after the last one,
in OPEN and SERVICE, the next cycle begins. What the key sample does besides is the blocks' ordinary work. -/
def Obligations.GoodReply : Prop :=
  ∀ (l : Fin 4) (i : Fin 12) (keys : Byte) (s : State), s.part.active = true → s.part.repliesGood l (i.val + 1) keys →
    let x := s.part.line l
    ∃ q, exec (.replyClose l) s = .next (s.setPart q) ∧ s.part.OnlyWork q
      ∧ (q.line l).record = x.record ∧ (q.line l).lineFail = false ∧ (q.line l).test = x.test
      ∧ (q.line l).stations[i] = { x.stations[i] with presence := .present, failures := 0, everPresent := true, lost := false }
      ∧ (∀ j : Fin 12, j ≠ i → (q.line l).stations[j] =
          if x.lineFail = true ∧ x.stations[j].presence = .absent then { x.stations[j] with lost := true } else x.stations[j])
      ∧ (∀ k, k ≠ l → q.line k = { s.part.line k with
          fifo := (q.line k).fifo, overrun := (q.line k).overrun, exchange := (q.line k).exchange, cycleStart := (q.line k).cycleStart })
      ∧ (x.test = .none → i.val + 1 < x.record.stations →
          (q.line l).exchange = .sending (i.val + 2) (q.frame l (i.val + 2)) ∧ (q.line l).fifo = [] ∧ (q.line l).overrun = false)
      ∧ (x.test = .none → x.record.enable = true → i.val + 1 = x.record.stations → (q.modes.mode = .opened ∨ q.modes.mode = .service) →
          (q.line l).exchange = .sending 1 (q.frame l 1) ∧ (q.line l).fifo = [] ∧ (q.line l).overrun = false
          ∧ (q.line l).cycleStart = s.part.time)

/-- An exchange that ends BAD or MISS (R9, R10, R13, R14): the counts rise and saturate, the presence follows its table, and a station
that enters ABSENT fails the line when every other enabled one is ABSENT, or is lost itself. No key sample is taken: short of ABSENT
no input and no other line changes, and the polling goes on. -/
def Obligations.FailedExchange : Prop :=
  ∀ (l : Fin 4) (i : Fin 12) (bad : Bool) (s : State), s.part.active = true →
    (bad = false → (s.part.line l).exchange = .window (i.val + 1)) →
    (bad = true → (s.part.line l).exchange = .gap (i.val + 1) ∧ ∀ keys, ¬ s.part.repliesGood l (i.val + 1) keys) →
    let x := s.part.line l
    let st := x.stations[i]
    let failures : BitVec 2 := if st.failures = 3 then 3 else st.failures + 1
    let enters := (st.presence = .suspect ∨ st.presence = .unknown) ∧ failures = 3
    let others := ∀ j : Fin 12, j ≠ i → j.val < x.record.stations → x.stations[j].presence = .absent
    ∃ q, exec (if bad then .replyClose l else .replyMiss l) s = .next (s.setPart q) ∧ s.part.OnlyWork q
      ∧ (q.line l).record = x.record ∧ (q.line l).test = x.test
      ∧ (q.line l).stations[i] = { st with
          failures := failures
          bad := if bad = true ∧ st.bad ≠ 255 then st.bad + 1 else st.bad
          presence := if st.presence = .present then .suspect else if enters then .absent else st.presence
          lost := st.lost || decide (enters ∧ ¬ others ∧ x.lineFail = false) }
      ∧ (q.line l).lineFail = (x.lineFail || decide (enters ∧ others))
      ∧ (∀ j : Fin 12, j ≠ i → (q.line l).stations[j] = x.stations[j])
      ∧ (x.test = .none → i.val + 1 < x.record.stations →
          (q.line l).exchange = .sending (i.val + 2) (q.frame l (i.val + 2)) ∧ (q.line l).fifo = [] ∧ (q.line l).overrun = false)
      ∧ (¬ enters → q.inputs = s.part.inputs ∧ q.modes.mode = s.part.modes.mode ∧ (∀ k, k ≠ l → q.line k = s.part.line k)
          ∧ (x.test = .none → x.record.enable = true → i.val + 1 = x.record.stations →
            if s.part.modes.mode = .opened ∨ s.part.modes.mode = .service ∨ Machine.reached s.part.time (x.cycleStart + 100) = true then
              (q.line l).exchange = .sending 1 (q.frame l 1) ∧ (q.line l).cycleStart = s.part.time
            else (q.line l).exchange = .waiting ∧ (q.line l).cycleStart = x.cycleStart))

/-- The key sample of a GOOD reply (R24 to R27, R31). A key that agrees with its input's debounced level sets the agreement count to 0;
one that differs raises it, and at the debounce setting the level flips: a PRESS, a RELEASE, or the silent return from STUCK. An input
that no key of the station reaches stays, but for its commanded lamp. -/
def Obligations.KeySample : Prop :=
  ∀ (l : Fin 4) (i : Fin 12) (keys : Byte) (s : State), s.part.active = true → s.part.repliesGood l (i.val + 1) keys →
    ∃ q, exec (.replyClose l) s = .next (s.setPart q)
      ∧ ∀ (n : Nat) (x : Input), s.part.inputs[n]? = some x →
        ∃ y, q.inputs[n]? = some y ∧ y.d = x.d
          ∧ ((∀ k, ¬ s.part.keyInput l (i.val + 1) k n) → y.unlit = x.unlit)
          ∧ ∀ k, s.part.keyInput l (i.val + 1) k n →
            let isDown := decide (x.state = .down ∨ x.state = .held ∨ x.state = .stuck)
            (keys.getLsbD k.val = isDown → y.unlit = { x.unlit with agree := 0 })
            ∧ (keys.getLsbD k.val ≠ isDown → x.agree + 1 < x.d.debounce → y.unlit = { x.unlit with agree := x.agree + 1 })
            ∧ (keys.getLsbD k.val ≠ isDown → x.d.debounce ≤ x.agree + 1 → y.agree = 0
              ∧ (x.state = .up → y.state = .down ∧ y.pressTime = some s.part.time ∧ y.pressCount = x.pressCount + 1
                ∧ y.holdDue = some (s.part.time + BitVec.ofNat 32 x.d.holdTime)
                ∧ y.stuckDue = if x.d.stuckTime = 0 then none else some (s.part.time + BitVec.ofNat 32 (x.d.stuckTime * 1000)))
              ∧ (x.state = .down ∨ x.state = .held → y.unlit = { x.unlit with
                  agree := 0, state := .up, holdDue := none, repeatDue := none, stuckDue := none, treatment := none })
              ∧ (x.state = .stuck → y.unlit = { x.unlit with agree := 0, state := .up }))

/-! ### Key timers and bindings (2.4, 2.5, 3.2 to 3.6) -/

/-- The timers of a key (R28 to R30, R33). HOLD makes a DOWN input HELD and starts the repeat timer from its own due time; REPEAT
restarts it; a stuck expiry, which is also what a hold or repeat expiry becomes when it is due with it, stops the timers and leaves
the input STUCK; a suspension ends. No other input changes, but for its commanded lamp. When an expiry may be taken, and that its times
count from its due time, is the model's choice (log entries 1 and 27). -/
def Obligations.KeyTimers : Prop :=
  ∀ (input : Byte) (s : State) (x : Input) (due : Time) (p : Sys2Proof.Machine.Part),
    s.part.inputs[input.toNat]? = some x → s.part.comesDue due p →
    let becomes (q : Sys2Proof.Machine.Part) (u : Input) : Prop :=
      (p.setInputs q.inputs).Calm (fun y : Input => y) q ∧ q.inputs.map Input.unlit = (p.inputs.map Input.unlit).set input.toNat u.unlit
    let stuckNow := ∃ d, x.stuckDue = some d ∧ Machine.reached due d = true
    let stuck := { x with state := .stuck, holdDue := none, repeatDue := none, stuckDue := none, treatment := none }
    (x.state = .down → x.holdDue = some due →
      ∃ q, exec (.holdTimerExpiry input) s = .next (s.setPart q)
        ∧ (stuckNow → becomes q stuck)
        ∧ (¬ stuckNow → becomes q { x with
            state := .held, holdDue := none, repeatDue := some (due + BitVec.ofNat 32 x.d.repeatInterval) }))
    ∧ (x.state = .held → x.repeatDue = some due →
      ∃ q, exec (.repeatTimerExpiry input) s = .next (s.setPart q)
        ∧ (stuckNow → becomes q stuck)
        ∧ (¬ stuckNow → becomes q { x with repeatDue := some (due + BitVec.ofNat 32 x.d.repeatInterval) }))
    ∧ (x.state = .down ∨ x.state = .held → x.stuckDue = some due →
      ∃ q, exec (.stuckTimerExpiry input) s = .next (s.setPart q) ∧ becomes q stuck)
    ∧ (x.suspended = some due →
      ∃ q, exec (.suspensionExpiry input) s = .next (s.setPart q)
        ∧ (p.setInputs q.inputs).Told q ∧ q.inputs = p.inputs.set input.toNat { x with suspended := none })

/-- A turn of a binding entry (R45 to R57), on a PRESS, RELEASE, HOLD or REPEAT that one entry matches. While the entry is locked
nothing but reports and the key itself follows. Otherwise its lockout starts; with the host silent and needed, its fallback lamp is
commanded for the action. LAMP commands its pattern. MOVE_TO and STEP_BY start a move on an idle channel; on a moving one IGNORE does
nothing, QUEUE joins the queue while it has room, and REPLACE supersedes the queue and the current move, which is replanned (R97 to
R99); a STEP_BY extends its own move. RUN_HELD starts a move held by the input. A channel that does not admit the action is left. CALL,
with room in the journal, boards or merges its entry; ACK_ZONE, with room and no guard awaiting it, acknowledges every OPEN or LAPSED
entry that its zone takes, and the guards; SET_MODE is the mode request that waits, taken as MODE_REQUEST takes it. A RELEASE first
stops every channel that moves on a move held by the input (R55), here where no entry matches it. That a lockout whose expiry has been
reached counts as clear before its expiry command is the model's choice (log entry 12), when a timer's event may be taken (log entry 1),
that a replan which ends an overrun has no stop rate (log entry 33), and that a start shows speed 0 (log entry 49). -/
def Obligations.BindingTurn : Prop :=
  ∀ (c : Instr) (g : Gesture) (input : Byte) (s : State) (x : Input) (p : Sys2Proof.Machine.Part), s.part.delivers p c input x g →
    let mode := s.part.modes.mode
    let answers (b : BindingEntry) := b.input = input ∧ b.gesture = g ∧ b.modeMask.getLsbD mode.code = true
    let same (y z : Channel) := z = { y with lastWrite := z.lastWrite }
    let stays (q : Sys2Proof.Machine.Part) := ∀ d, same (p.chan d) (q.chan d)
    let limited (pr : Params) (asked : Int) := max pr.softMin (min pr.softMax asked)
    let cap (pr : Params) (scale : Nat) :=
      max (pr.startSpeed * 16777216 / 1000) (pr.maxSpeed * 16777216 / 1000 * max 1 (min 100 scale) / 100)
    let begins (y z : Channel) (m : Move) (asked : Int) (held : Option Byte) : Prop := ∀ pr, y.params = some pr →
      limited pr asked * 16777216 ≠ y.prof.p →
        z = { y with
          state := .moving, parkCause := none, tickS := (y.prof.p + 8388608) / 16777216, unissued := 0, heldMove := held
          lastWrite := z.lastWrite, current := some { m with target := .absolute asked }
          prof := { p := y.prof.p, v := pr.startSpeed * 16777216 / 1000, tickV := 0
                    positive := decide (y.prof.p < limited pr asked * 16777216), phase := .accel, latch := false
                    target := some (limited pr asked * 16777216), clamped := decide (limited pr asked ≠ asked), cap := some (cap pr m.scale)
                    stopRate := none, stopPoint := none, overrun := false } }
    let replanned (pr : Params) (f : Profile) (asked : Int) (scale : Nat) : Profile :=
      let target := limited pr asked * 16777216
      let ahead := if f.positive then target - f.p else f.p - target
      let b := (pr.decel * 16777216 + 500000) / 1000000
      let aimed := { f with target := some target, clamped := decide (limited pr asked ≠ asked), cap := some (cap pr scale) }
      if 0 < ahead ∧ (f.v * f.v / (2 * b) : Nat) < ahead then
        { aimed with latch := false, overrun := false, stopRate := none, stopPoint := none
                     phase := if f.v < cap pr scale then .accel else if f.v = cap pr scale then .cruise else .slow }
      else if f.overrun = true then aimed
      else { aimed with overrun := true, phase := .stoppingDecel, stopRate := some .b, stopPoint := none, latch := false }
    (∀ (e : Nat) (b : BindingEntry) (lock : Option Time), s.part.bindings[e]? = some { entry := some b, lockout := lock } →
      (∀ (k : Nat) (v : Binding) (b' : BindingEntry), s.part.bindings[k]? = some v → v.entry = some b' → (answers b' ↔ k = e)) →
      (g = .release → ∀ d, (s.part.chan d).heldMove ≠ some input) →
      ∃ q, exec c s = .next (s.setPart q)
        ∧ ((∃ d, lock = some d ∧ Machine.reached p.time d = false) →
            p.Around q ∧ q.inputs.map Input.lamp = p.inputs.map Input.lamp
            ∧ (g = .repeat → q.lines = p.lines ∧ ∀ due, x.repeatDue = some due →
                q.inputs = p.inputs.set input.toNat { x with repeatDue := some (due + BitVec.ofNat 32 x.d.repeatInterval) }))
        ∧ ((∀ d, lock = some d → Machine.reached p.time d = true) →
          let store := p.bindings.set e { entry := some b, lockout := some (p.time + BitVec.ofNat 32 b.lockout.toNat) }
          let p' := p.setBindings store
          let others (d : Fin 8) := q.bindings = store ∧ (∀ k, k ≠ d → same (p.chan k) (q.chan k)) ∧ q.modes.mode = mode
            ∧ q.guards = p.guards ∧ q.inputs.map Input.lamp = p.inputs.map Input.lamp
          let moves (d : Fin 8) (target : MoveTarget) (asked : Int) (scale : Nat) : Prop :=
            let y := p.chan d
            let z := q.chan d
            let m : Move := { kind := .move, source := .binding e true, target := target, scale := scale }
            (y.enabled = true → mode = .opened → y.state = .idle → y.queue = [] → begins y z m asked y.heldMove)
            ∧ (y.enabled = true → mode = .opened → y.state = .moving → (∃ n, y.current = some n ∧ n.kind = .move) →
                (b.busy = .ignore → same y z)
                ∧ (b.busy = .queue → z = { y with
                    queue := if y.queue.length < 4 then y.queue ++ [m] else y.queue, lastWrite := z.lastWrite })
                ∧ (b.busy = .replace → (∀ pr, y.params = some pr → z = { y with
                      current := some { m with target := .absolute asked }, heldMove := none, queue := [], moveCount := z.moveCount
                      prof := replanned pr y.prof asked scale, lastWrite := z.lastWrite })
                    ∧ ∀ n slot l, y.current = some n → n.source = .order slot → p.hasSlot l slot → Memory.wf p.mem →
                        q.SlotShows l slot .finished 6 y.s))
          (b.hostNeeded = true ∧ s.part.modes.silent = true → b.fallback ≠ .off →
              q.bindings = store ∧ p'.Around q
              ∧ ∃ y, q.inputs[input.toNat]? = some y ∧ y.lamp = some { pattern := b.fallback, expiry := some (p.time + 5000) })
          ∧ (b.hostNeeded = false ∨ s.part.modes.silent = false →
            (∀ j pattern secs, b.action = .lamp j pattern secs → ∀ y, p.inputs[j.toNat]? = some y →
              q.bindings = store ∧ p'.Around q
              ∧ ∃ y', q.inputs[j.toNat]? = some y' ∧ y'.lamp = some
                { pattern := pattern, expiry := if secs = 0 then none else some (p.time + BitVec.ofNat 32 (secs * 1000)) })
            ∧ (∀ d target scale, b.action = .moveTo d target scale → others d ∧ moves d (.absolute target) target scale
                ∧ (((p.chan d).enabled = false ∨ mode ≠ .opened ∨ ((p.chan d).state ≠ .idle ∧ (p.chan d).state ≠ .moving)) → stays q))
            ∧ (∀ d delta scale, b.action = .stepBy d delta scale → others d
                ∧ (¬ (∃ n, (p.chan d).current = some n ∧ n.source = .binding e true) → moves d (.relative delta) ((p.chan d).s + delta) scale)
                ∧ (∀ n pr t, (p.chan d).current = some n → n.source = .binding e true → n.kind = .move → (p.chan d).state = .moving →
                    mode = .opened → (p.chan d).params = some pr → pr.enable = true → (p.chan d).prof.target = some (t * 16777216) →
                      q.chan d = { p.chan d with
                        current := some { n with target := .absolute (t + delta) }, lastWrite := (q.chan d).lastWrite
                        prof := replanned pr (p.chan d).prof (t + delta) n.scale })
                ∧ (((p.chan d).enabled = false ∨ mode ≠ .opened ∨ ((p.chan d).state ≠ .idle ∧ (p.chan d).state ≠ .moving)) → stays q))
            ∧ (∀ d target scale, b.action = .runHeld d target scale → others d
                ∧ (if (p.chan d).enabled = true ∧ mode = .opened ∧ (p.chan d).state = .idle ∧ (p.chan d).queue = [] then
                    begins (p.chan d) (q.chan d) { kind := .move, source := .binding e true, target := .absolute target, scale := scale }
                      target (some input)
                  else stays q))
            ∧ (∀ zone, b.action = .call zone → q.bindings = store ∧ p'.Around q ∧ q.inputs.map Input.lamp = p.inputs.map Input.lamp
                ∧ ∀ (l : Layout) (i : Fin 32), p.room l 28 →
                  ((∀ (j : Fin 32) (w : Entry), p.board.entries[j] = some w → ¬ (w.code = .call ∧ w.source = .input input.toNat)) →
                    p.board.entries[i] = none → (∀ j : Fin 32, j < i → p.board.entries[j] ≠ none) →
                    q.run.attention.alert = true
                    ∧ q.board = { p.board with
                        entries := p.board.entries.set i
                          (some { code := .call, source := .input input.toNat, zone := zone, severity := .attend, state := .lapsed
                                  escalated := false, count := 1, first := p.time, last := p.time })
                        made := p.board.made.filter (fun j => j ≠ i) ++ [i] })
                  ∧ ∀ w, p.board.entries[i] = some w → w.code = .call → w.source = .input input.toNat → w.severity ≠ .info →
                    (∀ (j : Fin 32) (w' : Entry), p.board.entries[j] = some w' → w'.code = .call → w'.source = .input input.toNat → j = i) →
                    q.board = { p.board with
                      entries := p.board.entries.set i
                        (some { w with count := if w.count = 255 then 255 else w.count + 1, last := p.time }) })
            ∧ (∀ zone, b.action = .ackZone zone → ∀ l, p.room l 512 → (∀ k, (p.guard k).state ≠ .awaitAck) →
                let takes (z : Zone) := zone = .all ∨ z = .all ∨ z = zone
                let acks (w : Entry) := (w.state = .opened ∨ w.state = .lapsed) ∧ takes w.zone
                q.bindings = store ∧ (p'.setGuards q.guards).Around q ∧ q.inputs.map Input.lamp = p.inputs.map Input.lamp
                ∧ (∀ (i : Fin 32) (w : Entry), p.board.entries[i] = some w →
                    (¬ acks w → q.board.entries[i] = some w)
                    ∧ (acks w → w.state = .lapsed → q.board.entries[i] = none)
                    ∧ (acks w → w.state = .opened →
                        q.board.entries[i] = some { w with state := .held, escalated := false, last := p.time }))
                ∧ (∀ i : Fin 32, p.board.entries[i] = none → q.board.entries[i] = none)
                ∧ ∀ k : Fin 8,
                  let told := (∃ (i : Fin 32) (w : Entry), p.board.entries[i] = some w ∧ acks w ∧ w.code = .guardTrip ∧ w.source = .guard k)
                    ∨ (p.guard k).boarded = false ∧ takes (.one (p.guard k).record.zone)
                  (told → (p.guard k).state ≠ .clear → q.guard k = { p.guard k with acked := true })
                  ∧ (¬ told ∨ (p.guard k).state = .clear → q.guard k = p.guard k))
            ∧ ∀ n, b.action = .setMode n → s.part.modes.requests = [] →
                q.modes.mode = n ∧ ∃ a t, a.bindings = store ∧ p'.Around a
                  ∧ exec .modeRequest (s.setPart (a.setModes { a.modes with requests := [{ mode := n, cause := .binding }] }))
                    = .next (s.setPart t) ∧ t.Around q)))
    ∧ (g = .release → (∀ (k : Nat) (v : Binding) (b' : BindingEntry), s.part.bindings[k]? = some v → v.entry = some b' → ¬ answers b') →
        ∃ q, exec c s = .next (s.setPart q) ∧ q.bindings = p.bindings ∧ q.guards = p.guards ∧ q.modes.mode = mode
          ∧ ∀ d,
            ((p.chan d).heldMove = some input → (p.chan d).state = .moving → q.chan d = { p.chan d with
              state := .stopping, pendingTerm := some .stopped, queue := [], heldMove := none
              prof := { (p.chan d).prof with phase := .stoppingDecel, stopRate := some .b, stopPoint := none, latch := false, overrun := false }
              moveCount := (q.chan d).moveCount, lastWrite := (q.chan d).lastWrite })
            ∧ ((p.chan d).heldMove ≠ some input → same (p.chan d) (q.chan d)))

/-! ### Motion (4.4 to 4.7, Chapter 5) -/

/-- A motion tick (R83 to R87, R91 to R96, R100): gallery time counts a millisecond (unless an event of it has, log entry 1), and each
enabled channel in motion takes its tick, whose pulses are then issued as the millisecond goes on (R85, log entry 4). A homing channel
goes on at its home speed until its search is exhausted; a move gains, holds or loses speed, decelerates in time, arrives on its
target, or is clamped at a soft limit; a stop decelerates, fixes its stop point and halts there; a limit switch that is already active
ahead faults the channel with no pulse. That a tick which reaches home_search leaves the channel HOMING until a command of its own
faults it is the model's choice (log entry 25), and so is that a move which ends with the tick has issued its pulses (log entry 34).
The statement is for a millisecond that has had its scrub (R192; SCRUB's statement has the other). Where a move ends, the clause is
for a channel with an empty queue that no guard holds, in OPEN or SERVICE. A channel in overrun (R98) stops as a controlled stop does
at rate B; where it halts it starts afresh toward its target in the same tick, or ends there, and its speed shows 0 until the next tick
(log entry 49). -/
def Obligations.MotionTick : Prop :=
  ∀ s : State, s.part.active = true → (s.part.run.state = .running → s.part.clock.tickOwed = false → s.part.clock.scrubbed = true) →
    ∃ q, exec .motionTick s = .next (s.setPart q)
      ∧ (({ s.part with
            time := if s.part.clock.tickOwed then s.part.time else s.part.time + 1
            clock := { tickOwed := false, us := 0, scrubbed := s.part.clock.tickOwed && s.part.clock.scrubbed } } : Sys2Proof.Machine.Part).Calm (fun y : Input => y) q)
      ∧ ∀ c : Fin 8,
        let x := { s.part.chan c with unissued := 0 }
        let f := x.prof
        let at_ := (f.p + 8388608) / 16777216
        let pos (v : Nat) : Int := if f.positive then f.p + v else f.p - v
        let stays (y : Channel) := q.chan c = { y with lastWrite := (q.chan c).lastWrite }
        let driven (y : Profile) : Channel :=
          { x with tickS := at_, prof := y, unissued := ((y.p + 8388608) / 16777216 - at_).natAbs
                   dir := if (y.p + 8388608) / 16777216 = at_ then x.dir else f.positive }
        let plain := x.lost = false ∧ x.queue = [] ∧ (∀ g, s.part.covers g c = false)
          ∧ (s.part.modes.mode = .opened ∨ s.part.modes.mode = .service) ∧ ∃ m, x.current = some m ∧ m.kind = .move
        let rests (y : Int) := (q.chan c).state = .idle ∧ (q.chan c).current = none ∧ (q.chan c).parkCause = none
          ∧ (q.chan c).pendingTerm = none ∧ (q.chan c).prof =
            { p := y, v := 0, tickV := 0, positive := f.positive, phase := .none, latch := false, target := none, clamped := false
              cap := none, stopRate := none, stopPoint := none, overrun := false }
        (x.enabled = false ∨ (x.state ≠ .moving ∧ x.state ≠ .stopping ∧ x.state ≠ .homing) → stays x)
        ∧ ∀ pr, x.params = some pr → pr.enable = true →
          let vs := pr.startSpeed * 16777216 / 1000
          let a := (pr.accel * 16777216 + 500000) / 1000000
          let b := (pr.decel * 16777216 + 500000) / 1000000
          let g := (pr.guardDecel * 16777216 + 500000) / 1000000
          let low := pr.softMin * 16777216
          let high := pr.softMax * 16777216
          (x.state = .homing →
            let next := f.p - (min pr.homeSpeed pr.startSpeed * 16777216 / 1000 : Nat)
            let n := (at_ - (next + 8388608) / 16777216).toNat
            stays { x with
              tickS := at_
              unissued := if pr.homeSearch ≤ x.search then 0 else min (pr.homeSearch - x.search) n
              search := if pr.homeSearch ≤ x.search then x.search else min pr.homeSearch (x.search + n)
              prof := { f with p := if pr.homeSearch ≤ x.search then f.p
                else if pr.homeSearch ≤ x.search + n then (at_ - (pr.homeSearch - x.search : Nat)) * 16777216 else next } })
          ∧ (x.state = .moving ∨ x.state = .stopping → (if f.positive then x.pins.limitHi else x.pins.limitLo) = true →
            (q.chan c).state = .fault ∧ (q.chan c).faultCode = some .limit ∧ (q.chan c).lost = true ∧ (q.chan c).en = x.en
            ∧ (q.chan c).prof.p = at_ * 16777216)
          ∧ ((if f.positive then x.pins.limitHi else x.pins.limitLo) = false →
            (∀ t cap, x.state = .moving → f.overrun = false → f.target = some t → f.cap = some cap →
              let d := if f.positive then t - f.p else f.p - t
              let slows : Prop := f.latch = false ∧ (f.phase = .accel ∨ f.phase = .cruise ∨ f.phase = .slow) ∧ d ≤ (f.v * f.v / (2 * b) + f.v : Nat)
              let ph := if slows then .decel else f.phase
              let v : Nat := match ph with
                | .accel => min cap (f.v + a)
                | .slow => max cap (f.v - b)
                | .decel => max vs (f.v - b)
                | _ => f.v
              (v < d → low ≤ pos v → pos v ≤ high →
                stays (driven { f with
                  p := pos v, v := v, tickV := v, latch := f.latch || decide slows
                  phase := if (ph = .accel ∨ ph = .slow) ∧ v = cap then .cruise else ph }))
              ∧ (v < d → plain → (high < pos v → rests high) ∧ (low ≤ high → pos v < low → rests low))
              ∧ (d ≤ v → plain → rests t))
            ∧ let stops (rate : Nat) (halts : Int → Prop) : Prop :=
                let v := max vs (f.v - rate)
                (f.stopPoint = none → low ≤ pos v → pos v ≤ high →
                  (v ≠ vs → stays (driven { f with p := pos v, v := v, tickV := v }))
                  ∧ (v = vs → pos v % 16777216 ≠ 0 → ∃ sp, sp % 16777216 = 0
                    ∧ (if f.positive then pos v < sp ∧ sp < pos v + 16777216 else pos v - 16777216 < sp ∧ sp < pos v)
                    ∧ stays (driven { f with p := pos v, v := v, tickV := v, stopPoint := some sp }))
                  ∧ (v = vs → pos v % 16777216 = 0 → halts (pos v)))
                ∧ (f.stopPoint = none → plain → (high < pos v → rests high) ∧ (low ≤ high → pos v < low → rests low))
                ∧ ∀ sp, f.stopPoint = some sp →
                  let d := if f.positive then sp - f.p else f.p - sp
                  (d ≤ vs → halts sp)
                  ∧ (vs < d → low ≤ pos vs → pos vs ≤ high → stays (driven { f with p := pos vs, v := vs, tickV := vs }))
              (∀ term, x.state = .stopping → x.pendingTerm = some term →
                stops (if f.stopRate = some .g then g else b) (fun y => plain → rests y))
              ∧ ∀ t, x.state = .moving → f.overrun = true → f.stopRate = some .b → f.target = some t →
                stops b (fun y => (y = t → plain → rests y)
                  ∧ (y ≠ t → stays (driven { f with
                      p := y, v := vs, tickV := 0, positive := decide (y < t), phase := .accel, latch := false, stopRate := none
                      stopPoint := none, overrun := false }))))

/-! ### Channel inputs (4.2, 4.5, 4.6) -/

/-- The three inputs of an enabled channel that stop it (R68, R75, R76, with R77's entry to FAULT): FLT in any state with cause DRIVER
and EN low; a limit switch in the direction of travel of a moving or stopping channel with cause LIMIT, LIMIT_LO while HOMING with
cause HOME_FAIL, both with EN kept; the search count at home_search with cause HOME_FAIL. The pulses of the tick that begin in its
first `us` microseconds, or had been issued before, stand and no further one is issued (R84, R85), the position is lost, the queue is
gone, and the slot of a current order move shows DONE, FAULTED with S. While pulses of the latest tick are still to be issued, their
direction is the one travelled in (log entry 46). HOME while HOMING gives the position home_offset and ends the
home COMPLETE; the clause is for a channel with an empty queue that no guard holds, in OPEN or SERVICE. That a command names the
microsecond it falls on (log entry 4), and that the exhausted search ends by a command of its own, which changes nothing before (log
entries 6 and 25), is the model's choice. -/
def Obligations.HomingAndSwitches : Prop :=
  ∀ (s : State) (c : Fin 8) (us : Nat) (pr : Params),
    let p := s.part
    let x := p.chan c
    let now := max p.clock.us (min us 999)
    let last := (x.prof.p + 8388608) / 16777216
    let n := (last - x.tickS).natAbs
    let left := min x.unissued (n - now / (1000 / (n + 1)))
    let pos : Int := if x.tickS ≤ last then last - left else last + left
    let rising := if left = 0 then x.prof.positive else decide (x.tickS < last)
    let moved : Sys2Proof.Machine.Part := { p with
      clock := { p.clock with us := now }
      channels := p.channels.map (fun y =>
        let k := ((y.prof.p + 8388608) / 16777216 - y.tickS).natAbs
        { y with unissued := min y.unissued (k - now / (1000 / (k + 1))) }) }
    let faults (r q : Sys2Proof.Machine.Part) (pins : ChannelPins) (cause : ChanFault) (y : Int) :=
      ((r.setChan c { r.chan c with pins := pins }).Near c q)
      ∧ (q.chan c).state = .fault ∧ (q.chan c).faultCode = some cause ∧ (q.chan c).lost = true ∧ (q.chan c).parkCause = none
      ∧ (q.chan c).queue = [] ∧ (q.chan c).en = (x.en && cause != .driver)
      ∧ (q.chan c).prof.p = (if x.state.inMotion then y * 16777216 else x.prof.p)
      ∧ ∀ l i m, Memory.wf p.mem → p.hasSlot l i → x.queue = [] → x.current = some m → m.source = .order i →
        q.SlotShows l i .finished 7 y
    p.active = true → x.params = some pr → pr.enable = true →
    (x.pins.flt = false →
      ∃ q, exec (.fltActive c us) s = .next (s.setPart q) ∧ faults moved q { x.pins with flt := true } .driver pos)
    ∧ (x.pins.limitHi = false → (x.state = .moving ∨ x.state = .stopping) → rising = true →
      ∃ q, exec (.limitActive c true us) s = .next (s.setPart q) ∧ faults moved q { x.pins with limitHi := true } .limit pos)
    ∧ (x.pins.limitLo = false → (x.state = .moving ∨ x.state = .stopping) → rising = false →
      ∃ q, exec (.limitActive c false us) s = .next (s.setPart q) ∧ faults moved q { x.pins with limitLo := true } .limit pos)
    ∧ (x.pins.limitLo = false → x.state = .homing →
      ∃ q, exec (.limitActive c false us) s = .next (s.setPart q) ∧ faults moved q { x.pins with limitLo := true } .homeFail pos)
    ∧ (x.state = .homing → pr.homeSearch ≤ x.search →
      ∃ q, exec (.homeSearchExhausted c) s = .next (s.setPart q) ∧ faults p q x.pins .homeFail last)
    ∧ (x.state = .homing → x.search < pr.homeSearch → exec (.homeSearchExhausted c) s = .next s)
    ∧ ∀ m, x.pins.home = false → x.state = .homing → x.current = some m → m.kind = .home → x.queue = [] →
      (∀ g, p.covers g c = false) → p.modes.mode = .opened ∨ p.modes.mode = .service →
      ∃ q, exec (.homeActive c us) s = .next (s.setPart q)
        ∧ ((moved.setChan c { moved.chan c with pins := { x.pins with home := true } }).Near c q)
        ∧ (q.chan c).state = .idle ∧ (q.chan c).lost = false ∧ (q.chan c).current = none ∧ (q.chan c).prof.p = pr.homeOffset * 16777216
        ∧ (q.chan c).s = pr.homeOffset ∧ (q.chan c).en = x.en
        ∧ ∀ l i, Memory.wf p.mem → p.hasSlot l i → m.source = .order i → q.SlotShows l i .finished 1 pr.homeOffset

/-- Levels that act on nothing and the refresh of a record (R59, R68, R75, R76, R80). A counted level that is not an action's is only
published: an inactive level, any level of a disabled channel, HOME outside HOMING, a limit switch at rest or behind the channel (log
entry 46), LIMIT_HI while HOMING. Outside RUNNING and STOPPING the level is only kept. A command that names the microsecond it falls on issues
the pulses that have begun by then (R85, log entry 4). In motion the record is written 50 ms after the last write (log entry 1). A
level that the pin already had changes nothing (log entry 6). -/
def Obligations.ChannelInputsAndRefresh : Prop :=
  ∀ (s : State) (c : Fin 8) (level : Bool) (us : Nat),
    let p := s.part
    let x := p.chan c
    let rising (n : Nat) := if n = 0 then x.prof.positive else decide (x.tickS < (x.prof.p + 8388608) / 16777216)
    let with_ (r : Sys2Proof.Machine.Part) (pins : ChannelPins) := r.setChan c { r.chan c with pins := pins }
    let published (q : Sys2Proof.Machine.Part) (pins : ChannelPins) :=
      (p.active = true → (with_ p pins).Told q) ∧ (p.active = false → q = with_ p pins)
    let now := max p.clock.us (min us 999)
    let moved : Sys2Proof.Machine.Part := { p with
      clock := { p.clock with us := now }
      channels := p.channels.map (fun y =>
        let k := ((y.prof.p + 8388608) / 16777216 - y.tickS).natAbs
        { y with unissued := min y.unissued (k - now / (1000 / (k + 1))) }) }
    let showsAt (q : Sys2Proof.Machine.Part) (pins : ChannelPins) :=
      (p.active = true → (with_ moved pins).Told q) ∧ (p.active = false → q = with_ p pins)
    let inert : Prop := p.active = false ∨ level = false ∨ x.enabled = false
    let travels : Prop := x.state = .moving ∨ x.state = .stopping
    let left := (moved.chan c).unissued
    (x.pins.home ≠ level → inert ∨ x.state ≠ .homing →
      ∃ q, exec (.channelInputChange c .home level) s = .next (s.setPart q) ∧ published q { x.pins with home := level })
    ∧ (x.pins.limitLo ≠ level → inert ∨ (¬ (travels ∧ rising x.unissued = false) ∧ x.state ≠ .homing) →
      ∃ q, exec (.channelInputChange c .limitLo level) s = .next (s.setPart q) ∧ published q { x.pins with limitLo := level })
    ∧ (x.pins.limitHi ≠ level → inert ∨ ¬ (travels ∧ rising x.unissued = true) →
      ∃ q, exec (.channelInputChange c .limitHi level) s = .next (s.setPart q) ∧ published q { x.pins with limitHi := level })
    ∧ (x.pins.flt ≠ level → inert →
      ∃ q, exec (.channelInputChange c .flt level) s = .next (s.setPart q) ∧ published q { x.pins with flt := level })
    ∧ (∀ pin, x.pins.get pin = level → exec (.channelInputChange c pin level) s = .next s)
    ∧ (x.pins.home = false → x.state ≠ .homing →
      ∃ q, exec (.homeActive c us) s = .next (s.setPart q) ∧ showsAt q { x.pins with home := true })
    ∧ (x.pins.limitHi = false → ¬ (travels ∧ rising left = true) →
      ∃ q, exec (.limitActive c true us) s = .next (s.setPart q) ∧ showsAt q { x.pins with limitHi := true })
    ∧ (x.pins.limitLo = false → ¬ (travels ∧ rising left = false) → x.state ≠ .homing →
      ∃ q, exec (.limitActive c false us) s = .next (s.setPart q) ∧ showsAt q { x.pins with limitLo := true })
    ∧ ∀ p' l, p.comesDue (x.lastWrite + 50) p' → p.run.layout = some l → l.valid = true → Memory.wf p.mem →
      (x.state = .moving ∨ x.state = .stopping ∨ x.state = .homing) →
      ∃ q, exec (.statusRefresh c) s = .next (s.setPart q) ∧ p'.Told q ∧ (q.chan c).lastWrite = p'.time
        ∧ (∀ d, d ≠ c → q.chan d = p'.chan d)
        ∧ ∀ k, k < 12 → (q.mem.cell (l.status + 12 * c.val + k)).written = wordAt (p'.chan c).statusWords k

/-! ### Guards (Chapter 6) -/

/-- GUARD_PIN_CHANGE and GUARD_FILTER_EXPIRY (R105 to R108, R110): a pin level away from the filtered level starts the filter timer,
and one back at it stops it; at the due time the filtered level follows the pin. A CLEAR guard then trips; a TRIPPED one settles, and
with a clear time of 0 goes on at once; a SETTLING or AWAIT_ACK one returns to TRIPPED with its acknowledgement and boarding kept. A
trip or a return takes the action of R106 on each covered channel by its state, and on no other. CLEAR_TIMER_EXPIRY (R108, R111,
R112): an attended guard whose trip is not acknowledged awaits an acknowledgement; any other becomes CLEAR, and a HELD channel that no
guard holds any more leaves HELD by what it remembers, as it does in OPEN and SERVICE. A cut, and a home that a guard ends, leave P at
S as counted by the pulses issued so far (R84, R85). When an expiry may be taken (log entries 1 and 32), what instant of the tick it
falls on (log entry 4), and that a filter timer due at the very time its guard becomes CLEAR goes on (log entry 9), is the model's
choice. -/
def Obligations.GuardInputs : Prop :=
  ∀ (s : State) (g : Fin 8) (level : Bool) (p' : Sys2Proof.Machine.Part),
    let p := s.part
    let x := p.guard g
    let opens := x.pin == x.record.activeHigh
    let same (y z : Channel) := z = { y with lastWrite := z.lastWrite }
    let halted (y z : Channel) := z.state = .held ∧ z.current = none ∧ z.queue = [] ∧ z.heldPark = none ∧ z.prof.p = y.s * 16777216
      ∧ z.prof.v = 0
    let tripsOn (y z : Channel) : Prop :=
      match y.state, x.record.cut with
      | .moving, false => z.state = .stopping ∧ z.pendingTerm = some .guarded ∧ z.queue = [] ∧ z.en = y.en ∧ z.current = y.current
          ∧ z.prof = { y.prof with phase := .stoppingDecel, stopRate := some .g, stopPoint := none, latch := false, overrun := false }
      | .stopping, false => z.state = .stopping ∧ z.pendingTerm = some .guarded ∧ z.queue = [] ∧ z.en = y.en ∧ z.current = y.current
          ∧ z.prof = { y.prof with stopRate := some .g }
      | .homing, false => y.current ≠ none → halted y z ∧ z.en = y.en ∧ z.lost = y.lost
      | .moving, true | .stopping, true | .homing, true => y.current ≠ none → halted y z ∧ z.en = false ∧ z.lost = true
      | .idle, _ | .parked, _ => z.state = .held ∧ z.heldPark = y.parkCause ∧ z.parkCause = none ∧ z.queue = [] ∧ z.en = y.en
          ∧ z.lost = y.lost ∧ z.prof = y.prof ∧ z.current = y.current
      | .held, _ | .unhomed, _ | .fault, _ => same y z
    let trips (q : Sys2Proof.Machine.Part) := ∀ c : Fin 8,
      if x.record.mask.getLsbD c.val then tripsOn (p'.chan c) (q.chan c) else same (p'.chan c) (q.chan c)
    let keeps (q : Sys2Proof.Machine.Part) := ∀ c, same (p'.chan c) (q.chan c)
    let leaves (q : Sys2Proof.Machine.Part) := ∀ c : Fin 8,
      let y := p'.chan c
      let z := q.chan c
      if x.record.mask.getLsbD c.val = true ∧ y.state = .held ∧ (∀ k, k ≠ g → p.covers k c = false) then
        z.heldPark = none ∧ z.lost = y.lost ∧ z.en = y.en ∧ z.prof = y.prof
        ∧ z.state = (if y.lost then .unhomed else if y.heldPark = some .host then .parked else .idle)
        ∧ z.parkCause = (if y.lost = false ∧ y.heldPark = some .host then some .host else y.parkCause)
      else same y z
    let after (q : Sys2Proof.Machine.Part) := p'.OnlyWork q ∧ q.lines = p.lines ∧ q.inputs = p.inputs ∧ (∀ k, k ≠ g → q.guard k = p.guard k)
      ∧ (q.guard g).record = x.record ∧ (q.guard g).pin = x.pin ∧ (q.guard g).filteredOpen = opens ∧ (q.guard g).filterDue = none
    (x.pin ≠ level → exec (.guardPinChange g level) s = .next (s.setPart (p.setGuard g { x with
      pin := level
      filterDue := if p.active = true ∧ x.record.enable = true then
          (if (level == x.record.activeHigh) = x.filteredOpen then none else some (p.time + BitVec.ofNat 32 x.record.filter))
        else x.filterDue })))
    ∧ (∀ due, x.record.enable = true → x.filterDue = some due → p.comesDue due p' →
      ∃ q, exec (.guardFilterExpiry g) s = .next (s.setPart q) ∧ after q
        ∧ (x.state = .clear → opens = true → (q.guard g).state = .tripped ∧ (q.guard g).acked = false ∧ (q.guard g).clearDue = x.clearDue ∧ trips q)
        ∧ (x.state = .settling ∨ x.state = .awaitAck → opens = true → (q.guard g).state = .tripped ∧ (q.guard g).acked = x.acked
            ∧ (q.guard g).boarded = x.boarded ∧ (q.guard g).clearDue = none ∧ trips q)
        ∧ (x.state = .tripped → opens = false → x.record.clearTime ≠ 0 → (q.guard g).state = .settling
            ∧ (q.guard g).clearDue = some (p'.time + BitVec.ofNat 32 x.record.clearTime) ∧ (q.guard g).acked = x.acked ∧ keeps q)
        ∧ (x.state = .tripped → opens = false → x.record.clearTime = 0 → (q.guard g).clearDue = none
            ∧ (q.guard g).state = (if x.record.attended = true ∧ x.acked = false then .awaitAck else .clear))
        ∧ ((x.state = .tripped ∧ opens = true) ∨ (x.state ≠ .tripped ∧ opens = false) →
            q = p'.setGuard g { x with filterDue := none, filteredOpen := opens }))
    ∧ ∀ due, x.state = .settling → x.clearDue = some due → p.comesDue due p' →
      ∃ q, exec (.clearTimerExpiry g) s = .next (s.setPart q) ∧ p'.OnlyWork q ∧ q.lines = p.lines ∧ q.inputs = p.inputs
        ∧ (∀ k, k ≠ g → q.guard k = p.guard k)
        ∧ (x.record.attended = true → x.acked = false → q.guard g = { x with state := .awaitAck, clearDue := none } ∧ keeps q)
        ∧ (x.record.attended = false ∨ x.acked = true →
            q.guard g = { x with state := .clear, clearDue := none, acked := false, boarded := false
                                 filterDue := x.filterDue.filter (fun d => Machine.reached p'.time d) }
            ∧ (p.modes.mode = .opened ∨ p.modes.mode = .service → leaves q))

/-! ### Timers of the board, the modes and the journal (7.5, 8.4, 10.4) -/

/-- ESCALATION, REST_TIMER_EXPIRY, HOST_WATCH_EXPIRY and STALE_TIMER_EXPIRY at their due times (R127 to R129, R145, R147, R171). An
unacknowledged ATTEND or URGENT entry escalates: ESCALATED, the last-change time and the cause ALERT are set, its zone's pattern becomes
FAST and CALL is asserted; any other entry does not. The rest timer stops and asks for REST. The watch stops and reports SILENT,
HOST_SILENT is raised (stated where it is not on the board, an index is free and the journal has room) and REST is asked for if the
silent action, the mode and the run state say so. The stale timer sets the cause JOURNAL and restarts. When an expiry may be taken, and
that ESCALATION of an entry that does not escalate changes nothing, is the model's choice (log entries 1 and 6). -/
def Obligations.BoardAndModeTimers : Prop :=
  ∀ (s : State) (l : Layout) (due : Time) (p' : Sys2Proof.Machine.Part),
    let p := s.part
    p.run.layout = some l →
    (∀ (i : Fin 32) (e : Entry), p.board.entries[i] = some e →
      let e' : Entry := { e with escalated := true, last := p'.time }
      let mayNot : Prop := l.escalateTime = 0 ∨ e.severity = .info ∨ e.state = .held ∨ e.escalated = true
      (mayNot → exec (.escalation i) s = .next s)
      ∧ (¬ mayNot → p.comesDue (e.first + BitVec.ofNat 32 (l.escalateTime * 1000)) p' →
          ∃ q, exec (.escalation i) s = .next (s.setPart q) ∧ p'.Told q
            ∧ (p.room l 14 → q.board = { p.board with entries := p.board.entries.set i (some e') } ∧ q.run.attention.alert = true
                ∧ q.callPin = true ∧ ∀ z, (e.zone = .one z ∨ e.zone = .all) → q.board.pattern z = .fast)))
    ∧ (p.board.entries = Vector.replicate 32 none → ∀ i, exec (.escalation i) s = .next s)
    ∧ (p.modes.restDue = some due → p.comesDue due p' →
        exec .restTimerExpiry s = .next (s.setPart (p'.setModes { p.modes with
          restDue := none, requests := p.modes.requests ++ [{ mode := .rest, cause := .restTimer }] })))
    ∧ (p.modes.silent = false → p.modes.watchDue = some due → p.comesDue due p' →
        ∃ q, exec .hostWatchExpiry s = .next (s.setPart q)
          ∧ ((p'.setModes { p.modes with silent := true, watchDue := none, requests := q.modes.requests }).Told q)
          ∧ q.modes.requests = (if l.silentRest = true ∧ p.modes.mode = .opened ∧ p.run.state = .running then
              p.modes.requests ++ [{ mode := .rest, cause := .silent }] else p.modes.requests)
          ∧ ∀ i : Fin 32, p.room l 14 →
            (∀ (j : Fin 32) (e : Entry), p.board.entries[j] = some e → e.code ≠ .hostSilent) →
            p.board.entries[i] = none → (∀ j : Fin 32, j < i → p.board.entries[j] ≠ none) →
            q.run.attention.alert = true
            ∧ q.board = { p.board with
                entries := p.board.entries.set i (some { code := .hostSilent, source := .none, zone := .all, severity := .attend
                                                         state := .opened, escalated := false, count := 1, first := p'.time
                                                         last := p'.time })
                made := p.board.made.filter (fun j => j ≠ i) ++ [i] })
    ∧ (p.journal.staleDue = some due → p.comesDue due p' →
        exec .staleTimerExpiry s = .next (s.setPart { p' with
          run := { p.run with attention := { p.run.attention with journal := true } }
          journal := { p.journal with staleDue := some (p'.time + BitVec.ofNat 32 l.staleTime) } }))

/-! ### The whole machine -/

/-- The invariant of a run holds in the reset state: memory in canonical form, queues and FIFOs within their depth, a snapshot only if
it is valid, and no channel free to move under a guard. -/
def Obligations.ResetInv : Prop := State.reset.part.Inv

/-- Every step keeps the invariant, from every state that has it: exhibit memory's canonical form, at most four waiting moves (R63),
at most 16 characters in a FIFO (R4), a snapshot that passed its check (R177), and a channel that a guard other than CLEAR covers is
stopping or unable to move (R106, R107, R112, R114). -/
def Obligations.StepKeepsInv : Prop :=
  ∀ s t : State, s.part.Inv → step s = .next t → t.part.Inv

/-- What a command may do to the applied configuration and the run control. Outside the resets, the entries to run states, the writes to
the control and attention registers (however addressed), the four applications and the end of a line test an application may wait for
(R18), no command changes the run state, the snapshot, ZCTL, the reset cause, a station record, an input definition, a binding entry, a
channel's parameters or a guard's record (R23, R44, R61, R104, R177 to R183). -/
def Obligations.OnlyApplicationsAndRunControlChangeTheSetup : Prop :=
  ∀ (c : Instr) (s t : State), exec c s = .next t →
    match c with
    | .powerReset | .pinReset | .resetHoldEnd | .clearingDone | .setRun _ | .clearRun _ | .softReset _ | .setAttentionEnables _
    | .setCaptureLast _ | .clearAttentionCause _ | .discardedRegisterWrite _ _ | .hostWrite _ _ | .checkingComplete | .stoppingEnd
    | .applyInputs | .applyGuards | .applyBindings | .applyChannel | .lineTestEnd _ => True
    | _ => s.part.SameSetup t.part
end

