-- ==== Sys2Proof/Laws/Memory.lean ====
section
/-! SUPPORT. Sparse lists and exhibit memory: read after write, and the canonical form. -/

namespace Sys2Proof.Machine

variable {α : Type}

theorem sparseGet_of_lt (d : α) (m : List (Nat × α)) (a : Nat) (h : ∀ e ∈ m, a < e.1) : sparseGet d m a = d := by
  induction m with
  | nil => rfl
  | cons e t ih =>
    rw [sparseGet, if_neg (Nat.ne_of_gt (h e List.mem_cons_self))]
    exact ih (fun x hx => h x (List.mem_cons_of_mem e hx))

/-- The canonical form of a list with a first entry. -/
theorem sparseWf_cons {d : α} {k : Nat} {w : α} {t : List (Nat × α)} :
    SparseWf d ((k, w) :: t) ↔ (∀ e ∈ t, k < e.1) ∧ w ≠ d ∧ SparseWf d t := by
  simp only [SparseWf, List.pairwise_cons, List.forall_mem_cons]
  tauto

variable [DecidableEq α]

theorem sparseGet_sparseSet_ne (d : α) : ∀ (m : List (Nat × α)) (a b : Nat) (v : α),
    b ≠ a → sparseGet d (sparseSet d m a v) b = sparseGet d m b
  | [], a, b, v, h => by
    by_cases hv : v = d <;> simp [sparseSet, sparseGet, hv, Ne.symm h]
  | (k, w) :: t, a, b, v, h => by
    by_cases h1 : a < k
    · by_cases hv : v = d <;> simp [sparseSet, sparseGet, h1, hv, Ne.symm h]
    · by_cases h2 : a = k
      · subst h2
        by_cases hv : v = d <;> simp [sparseSet, sparseGet, hv, Ne.symm h]
      · simp only [sparseSet, h1, h2, if_false, sparseGet, sparseGet_sparseSet_ne d t a b v h]

theorem sparseGet_sparseSet_self (d : α) : ∀ (m : List (Nat × α)) (a : Nat) (v : α),
    SparseWf d m → sparseGet d (sparseSet d m a v) a = v
  | [], a, v, _ => by
    by_cases hv : v = d <;> simp [sparseSet, sparseGet, hv]
  | (k, w) :: t, a, v, h => by
    have hp := List.pairwise_cons.mp h.1
    by_cases h1 : a < k
    · by_cases hv : v = d
      · subst hv
        have hk : k ≠ a := Nat.ne_of_gt h1
        have : sparseGet v t a = v := sparseGet_of_lt v t a (fun e he => Nat.lt_trans h1 (hp.1 e he))
        simp [sparseSet, sparseGet, h1, hk, this]
      · simp [sparseSet, sparseGet, h1, hv]
    · by_cases h2 : a = k
      · subst h2
        by_cases hv : v = d
        · subst hv
          have : sparseGet v t a = v := sparseGet_of_lt v t a (fun e he => hp.1 e he)
          simp [sparseSet, this]
        · simp [sparseSet, sparseGet, hv]
      · have ht := (sparseWf_cons.mp h).2.2
        simp only [sparseSet, h1, h2, if_false, sparseGet, Ne.symm h2, sparseGet_sparseSet_self d t a v ht]

theorem sparseSet_key (d : α) : ∀ (m : List (Nat × α)) (a : Nat) (v : α) (e : Nat × α),
    e ∈ sparseSet d m a v → e = (a, v) ∧ v ≠ d ∨ e ∈ m
  | [], a, v, e, h => by
    by_cases hv : v = d <;> simp_all [sparseSet]
  | (k, w) :: t, a, v, e, h => by
    by_cases h1 : a < k
    · by_cases hv : v = d
      · simp only [sparseSet, h1, hv, if_true] at h
        exact .inr h
      · simp only [sparseSet, h1, hv, if_true, if_false, List.mem_cons] at h
        rcases h with h | h
        · exact .inl ⟨h, hv⟩
        · exact .inr (by simpa using h)
    · by_cases h2 : a = k
      · by_cases hv : v = d
        · simp only [sparseSet, h2, hv, if_true] at h
          simp only [Nat.lt_irrefl, if_false] at h
          exact .inr (by simp [h])
        · subst h2
          simp only [sparseSet, Nat.lt_irrefl, hv, if_true, if_false, List.mem_cons] at h
          rcases h with h | h
          · exact .inl ⟨h, hv⟩
          · exact .inr (by simp [h])
      · simp only [sparseSet, h1, h2, if_false, List.mem_cons] at h
        rcases h with h | h
        · exact .inr (by simp [h])
        · rcases sparseSet_key d t a v e h with h | h
          · exact .inl h
          · exact .inr (by simp [h])

theorem sparseSet_wf (d : α) (m : List (Nat × α)) (a : Nat) (v : α) (h : SparseWf d m) : SparseWf d (sparseSet d m a v) := by
  induction m with
  | nil => by_cases hv : v = d <;> simp [sparseSet, SparseWf, hv]
  | cons e t ih =>
    obtain ⟨k, w⟩ := e
    obtain ⟨hk, hw, ht⟩ := sparseWf_cons.mp h
    have first : ∀ {t' : List (Nat × α)}, (∀ e ∈ t', a < e.1) → SparseWf d t' → SparseWf d (if v = d then t' else (a, v) :: t') := by
      intro t' ha hw'
      split
      · exact hw'
      · exact sparseWf_cons.mpr ⟨ha, ‹_›, hw'⟩
    rw [sparseSet]
    split
    · exact first (List.forall_mem_cons.mpr ⟨‹_›, fun x hx => Nat.lt_trans ‹_› (hk x hx)⟩) h
    · split
      · exact first (‹a = k› ▸ hk) ht
      · refine sparseWf_cons.mpr ⟨fun x hx => ?_, hw, ih ht⟩
        rcases sparseSet_key d t a v x hx with ⟨rfl, -⟩ | hx
        · show k < a
          omega
        · exact hk x hx

/-! ### Exhibit memory -/

/-- A store keeps the canonical form. -/
theorem Memory.store_wf (m : Memory) (a : Nat) (c : Cell) (h : m.wf) : (m.store a c).wf := by
  unfold Memory.store
  split
  · rename_i ha
    refine ⟨sparseSet_wf _ _ _ _ h.1, fun e he => ?_⟩
    rcases sparseSet_key _ _ _ _ _ he with ⟨rfl, _⟩ | he
    · exact ha
    · exact h.2 e he
  · exact h

/-- A word stored reads back. -/
theorem Memory.cell_store_self (m : Memory) (a : Nat) (c : Cell) (h : m.wf) (ha : a < Config.memWords) :
    (m.store a c).cell a = c := by
  simp [Memory.store, Memory.cell, ha, sparseGet_sparseSet_self _ _ _ _ h.1]

/-- A store leaves every other word alone. -/
theorem Memory.cell_store_ne (m : Memory) (a b : Nat) (c : Cell) (h : b ≠ a) : (m.store a c).cell b = m.cell b := by
  unfold Memory.store
  split
  · exact sparseGet_sparseSet_ne _ _ _ _ _ h
  · rfl

theorem Memory.cell_nil (a : Nat) : Memory.cell [] a = Cell.clear := rfl

/-- A word beyond exhibit memory is not listed. -/
theorem Memory.cell_out (m : Memory) (a : Nat) (h : m.wf) (ha : Config.memWords ≤ a) : m.cell a = Cell.clear := by
  suffices h : ∀ l : List (Nat × Cell), (∀ e ∈ l, e.1 < Config.memWords) → sparseGet Cell.clear l a = Cell.clear from h m ‹m.wf›.2
  intro l hl
  induction l with
  | nil => rfl
  | cons e t ih =>
    rw [sparseGet, if_neg (Nat.ne_of_lt (Nat.lt_of_lt_of_le (hl e List.mem_cons_self) ha))]
    exact ih (fun x hx => hl x (List.mem_cons_of_mem e hx))

end Sys2Proof.Machine
end

