-- ==== Sys2Proof/Laws/State.lean ====
section
/-! SUPPORT. One lemma per field per update: a later proof unfolds no record update. -/

namespace Sys2Proof.Machine

@[simp] theorem Part.setRun_run (p : Part) (x) : (p.setRun x).run = x := rfl
@[simp] theorem Part.setRun_time (p : Part) (x) : (p.setRun x).time = p.time := rfl
@[simp] theorem Part.setRun_clock (p : Part) (x) : (p.setRun x).clock = p.clock := rfl
@[simp] theorem Part.setRun_hostData (p : Part) (x) : (p.setRun x).hostData = p.hostData := rfl
@[simp] theorem Part.setRun_mem (p : Part) (x) : (p.setRun x).mem = p.mem := rfl
@[simp] theorem Part.setRun_prot (p : Part) (x) : (p.setRun x).prot = p.prot := rfl
@[simp] theorem Part.setRun_orders (p : Part) (x) : (p.setRun x).orders = p.orders := rfl
@[simp] theorem Part.setRun_lines (p : Part) (x) : (p.setRun x).lines = p.lines := rfl
@[simp] theorem Part.setRun_inputs (p : Part) (x) : (p.setRun x).inputs = p.inputs := rfl
@[simp] theorem Part.setRun_bindings (p : Part) (x) : (p.setRun x).bindings = p.bindings := rfl
@[simp] theorem Part.setRun_channels (p : Part) (x) : (p.setRun x).channels = p.channels := rfl
@[simp] theorem Part.setRun_guards (p : Part) (x) : (p.setRun x).guards = p.guards := rfl
@[simp] theorem Part.setRun_board (p : Part) (x) : (p.setRun x).board = p.board := rfl
@[simp] theorem Part.setRun_modes (p : Part) (x) : (p.setRun x).modes = p.modes := rfl
@[simp] theorem Part.setRun_journal (p : Part) (x) : (p.setRun x).journal = p.journal := rfl

@[simp] theorem Part.setTime_run (p : Part) (x) : (p.setTime x).run = p.run := rfl
@[simp] theorem Part.setTime_time (p : Part) (x) : (p.setTime x).time = x := rfl
@[simp] theorem Part.setTime_clock (p : Part) (x) : (p.setTime x).clock = p.clock := rfl
@[simp] theorem Part.setTime_hostData (p : Part) (x) : (p.setTime x).hostData = p.hostData := rfl
@[simp] theorem Part.setTime_mem (p : Part) (x) : (p.setTime x).mem = p.mem := rfl
@[simp] theorem Part.setTime_prot (p : Part) (x) : (p.setTime x).prot = p.prot := rfl
@[simp] theorem Part.setTime_orders (p : Part) (x) : (p.setTime x).orders = p.orders := rfl
@[simp] theorem Part.setTime_lines (p : Part) (x) : (p.setTime x).lines = p.lines := rfl
@[simp] theorem Part.setTime_inputs (p : Part) (x) : (p.setTime x).inputs = p.inputs := rfl
@[simp] theorem Part.setTime_bindings (p : Part) (x) : (p.setTime x).bindings = p.bindings := rfl
@[simp] theorem Part.setTime_channels (p : Part) (x) : (p.setTime x).channels = p.channels := rfl
@[simp] theorem Part.setTime_guards (p : Part) (x) : (p.setTime x).guards = p.guards := rfl
@[simp] theorem Part.setTime_board (p : Part) (x) : (p.setTime x).board = p.board := rfl
@[simp] theorem Part.setTime_modes (p : Part) (x) : (p.setTime x).modes = p.modes := rfl
@[simp] theorem Part.setTime_journal (p : Part) (x) : (p.setTime x).journal = p.journal := rfl

@[simp] theorem Part.setClock_run (p : Part) (x) : (p.setClock x).run = p.run := rfl
@[simp] theorem Part.setClock_time (p : Part) (x) : (p.setClock x).time = p.time := rfl
@[simp] theorem Part.setClock_clock (p : Part) (x) : (p.setClock x).clock = x := rfl
@[simp] theorem Part.setClock_hostData (p : Part) (x) : (p.setClock x).hostData = p.hostData := rfl
@[simp] theorem Part.setClock_mem (p : Part) (x) : (p.setClock x).mem = p.mem := rfl
@[simp] theorem Part.setClock_prot (p : Part) (x) : (p.setClock x).prot = p.prot := rfl
@[simp] theorem Part.setClock_orders (p : Part) (x) : (p.setClock x).orders = p.orders := rfl
@[simp] theorem Part.setClock_lines (p : Part) (x) : (p.setClock x).lines = p.lines := rfl
@[simp] theorem Part.setClock_inputs (p : Part) (x) : (p.setClock x).inputs = p.inputs := rfl
@[simp] theorem Part.setClock_bindings (p : Part) (x) : (p.setClock x).bindings = p.bindings := rfl
@[simp] theorem Part.setClock_channels (p : Part) (x) : (p.setClock x).channels = p.channels := rfl
@[simp] theorem Part.setClock_guards (p : Part) (x) : (p.setClock x).guards = p.guards := rfl
@[simp] theorem Part.setClock_board (p : Part) (x) : (p.setClock x).board = p.board := rfl
@[simp] theorem Part.setClock_modes (p : Part) (x) : (p.setClock x).modes = p.modes := rfl
@[simp] theorem Part.setClock_journal (p : Part) (x) : (p.setClock x).journal = p.journal := rfl

@[simp] theorem Part.setHostData_run (p : Part) (x) : (p.setHostData x).run = p.run := rfl
@[simp] theorem Part.setHostData_time (p : Part) (x) : (p.setHostData x).time = p.time := rfl
@[simp] theorem Part.setHostData_clock (p : Part) (x) : (p.setHostData x).clock = p.clock := rfl
@[simp] theorem Part.setHostData_hostData (p : Part) (x) : (p.setHostData x).hostData = x := rfl
@[simp] theorem Part.setHostData_mem (p : Part) (x) : (p.setHostData x).mem = p.mem := rfl
@[simp] theorem Part.setHostData_prot (p : Part) (x) : (p.setHostData x).prot = p.prot := rfl
@[simp] theorem Part.setHostData_orders (p : Part) (x) : (p.setHostData x).orders = p.orders := rfl
@[simp] theorem Part.setHostData_lines (p : Part) (x) : (p.setHostData x).lines = p.lines := rfl
@[simp] theorem Part.setHostData_inputs (p : Part) (x) : (p.setHostData x).inputs = p.inputs := rfl
@[simp] theorem Part.setHostData_bindings (p : Part) (x) : (p.setHostData x).bindings = p.bindings := rfl
@[simp] theorem Part.setHostData_channels (p : Part) (x) : (p.setHostData x).channels = p.channels := rfl
@[simp] theorem Part.setHostData_guards (p : Part) (x) : (p.setHostData x).guards = p.guards := rfl
@[simp] theorem Part.setHostData_board (p : Part) (x) : (p.setHostData x).board = p.board := rfl
@[simp] theorem Part.setHostData_modes (p : Part) (x) : (p.setHostData x).modes = p.modes := rfl
@[simp] theorem Part.setHostData_journal (p : Part) (x) : (p.setHostData x).journal = p.journal := rfl

@[simp] theorem Part.setMem_run (p : Part) (x) : (p.setMem x).run = p.run := rfl
@[simp] theorem Part.setMem_time (p : Part) (x) : (p.setMem x).time = p.time := rfl
@[simp] theorem Part.setMem_clock (p : Part) (x) : (p.setMem x).clock = p.clock := rfl
@[simp] theorem Part.setMem_hostData (p : Part) (x) : (p.setMem x).hostData = p.hostData := rfl
@[simp] theorem Part.setMem_mem (p : Part) (x) : (p.setMem x).mem = x := rfl
@[simp] theorem Part.setMem_prot (p : Part) (x) : (p.setMem x).prot = p.prot := rfl
@[simp] theorem Part.setMem_orders (p : Part) (x) : (p.setMem x).orders = p.orders := rfl
@[simp] theorem Part.setMem_lines (p : Part) (x) : (p.setMem x).lines = p.lines := rfl
@[simp] theorem Part.setMem_inputs (p : Part) (x) : (p.setMem x).inputs = p.inputs := rfl
@[simp] theorem Part.setMem_bindings (p : Part) (x) : (p.setMem x).bindings = p.bindings := rfl
@[simp] theorem Part.setMem_channels (p : Part) (x) : (p.setMem x).channels = p.channels := rfl
@[simp] theorem Part.setMem_guards (p : Part) (x) : (p.setMem x).guards = p.guards := rfl
@[simp] theorem Part.setMem_board (p : Part) (x) : (p.setMem x).board = p.board := rfl
@[simp] theorem Part.setMem_modes (p : Part) (x) : (p.setMem x).modes = p.modes := rfl
@[simp] theorem Part.setMem_journal (p : Part) (x) : (p.setMem x).journal = p.journal := rfl

@[simp] theorem Part.setProt_run (p : Part) (x) : (p.setProt x).run = p.run := rfl
@[simp] theorem Part.setProt_time (p : Part) (x) : (p.setProt x).time = p.time := rfl
@[simp] theorem Part.setProt_clock (p : Part) (x) : (p.setProt x).clock = p.clock := rfl
@[simp] theorem Part.setProt_hostData (p : Part) (x) : (p.setProt x).hostData = p.hostData := rfl
@[simp] theorem Part.setProt_mem (p : Part) (x) : (p.setProt x).mem = p.mem := rfl
@[simp] theorem Part.setProt_prot (p : Part) (x) : (p.setProt x).prot = x := rfl
@[simp] theorem Part.setProt_orders (p : Part) (x) : (p.setProt x).orders = p.orders := rfl
@[simp] theorem Part.setProt_lines (p : Part) (x) : (p.setProt x).lines = p.lines := rfl
@[simp] theorem Part.setProt_inputs (p : Part) (x) : (p.setProt x).inputs = p.inputs := rfl
@[simp] theorem Part.setProt_bindings (p : Part) (x) : (p.setProt x).bindings = p.bindings := rfl
@[simp] theorem Part.setProt_channels (p : Part) (x) : (p.setProt x).channels = p.channels := rfl
@[simp] theorem Part.setProt_guards (p : Part) (x) : (p.setProt x).guards = p.guards := rfl
@[simp] theorem Part.setProt_board (p : Part) (x) : (p.setProt x).board = p.board := rfl
@[simp] theorem Part.setProt_modes (p : Part) (x) : (p.setProt x).modes = p.modes := rfl
@[simp] theorem Part.setProt_journal (p : Part) (x) : (p.setProt x).journal = p.journal := rfl

@[simp] theorem Part.setOrders_run (p : Part) (x) : (p.setOrders x).run = p.run := rfl
@[simp] theorem Part.setOrders_time (p : Part) (x) : (p.setOrders x).time = p.time := rfl
@[simp] theorem Part.setOrders_clock (p : Part) (x) : (p.setOrders x).clock = p.clock := rfl
@[simp] theorem Part.setOrders_hostData (p : Part) (x) : (p.setOrders x).hostData = p.hostData := rfl
@[simp] theorem Part.setOrders_mem (p : Part) (x) : (p.setOrders x).mem = p.mem := rfl
@[simp] theorem Part.setOrders_prot (p : Part) (x) : (p.setOrders x).prot = p.prot := rfl
@[simp] theorem Part.setOrders_orders (p : Part) (x) : (p.setOrders x).orders = x := rfl
@[simp] theorem Part.setOrders_lines (p : Part) (x) : (p.setOrders x).lines = p.lines := rfl
@[simp] theorem Part.setOrders_inputs (p : Part) (x) : (p.setOrders x).inputs = p.inputs := rfl
@[simp] theorem Part.setOrders_bindings (p : Part) (x) : (p.setOrders x).bindings = p.bindings := rfl
@[simp] theorem Part.setOrders_channels (p : Part) (x) : (p.setOrders x).channels = p.channels := rfl
@[simp] theorem Part.setOrders_guards (p : Part) (x) : (p.setOrders x).guards = p.guards := rfl
@[simp] theorem Part.setOrders_board (p : Part) (x) : (p.setOrders x).board = p.board := rfl
@[simp] theorem Part.setOrders_modes (p : Part) (x) : (p.setOrders x).modes = p.modes := rfl
@[simp] theorem Part.setOrders_journal (p : Part) (x) : (p.setOrders x).journal = p.journal := rfl

@[simp] theorem Part.setLines_run (p : Part) (x) : (p.setLines x).run = p.run := rfl
@[simp] theorem Part.setLines_time (p : Part) (x) : (p.setLines x).time = p.time := rfl
@[simp] theorem Part.setLines_clock (p : Part) (x) : (p.setLines x).clock = p.clock := rfl
@[simp] theorem Part.setLines_hostData (p : Part) (x) : (p.setLines x).hostData = p.hostData := rfl
@[simp] theorem Part.setLines_mem (p : Part) (x) : (p.setLines x).mem = p.mem := rfl
@[simp] theorem Part.setLines_prot (p : Part) (x) : (p.setLines x).prot = p.prot := rfl
@[simp] theorem Part.setLines_orders (p : Part) (x) : (p.setLines x).orders = p.orders := rfl
@[simp] theorem Part.setLines_lines (p : Part) (x) : (p.setLines x).lines = x := rfl
@[simp] theorem Part.setLines_inputs (p : Part) (x) : (p.setLines x).inputs = p.inputs := rfl
@[simp] theorem Part.setLines_bindings (p : Part) (x) : (p.setLines x).bindings = p.bindings := rfl
@[simp] theorem Part.setLines_channels (p : Part) (x) : (p.setLines x).channels = p.channels := rfl
@[simp] theorem Part.setLines_guards (p : Part) (x) : (p.setLines x).guards = p.guards := rfl
@[simp] theorem Part.setLines_board (p : Part) (x) : (p.setLines x).board = p.board := rfl
@[simp] theorem Part.setLines_modes (p : Part) (x) : (p.setLines x).modes = p.modes := rfl
@[simp] theorem Part.setLines_journal (p : Part) (x) : (p.setLines x).journal = p.journal := rfl

@[simp] theorem Part.setInputs_run (p : Part) (x) : (p.setInputs x).run = p.run := rfl
@[simp] theorem Part.setInputs_time (p : Part) (x) : (p.setInputs x).time = p.time := rfl
@[simp] theorem Part.setInputs_clock (p : Part) (x) : (p.setInputs x).clock = p.clock := rfl
@[simp] theorem Part.setInputs_hostData (p : Part) (x) : (p.setInputs x).hostData = p.hostData := rfl
@[simp] theorem Part.setInputs_mem (p : Part) (x) : (p.setInputs x).mem = p.mem := rfl
@[simp] theorem Part.setInputs_prot (p : Part) (x) : (p.setInputs x).prot = p.prot := rfl
@[simp] theorem Part.setInputs_orders (p : Part) (x) : (p.setInputs x).orders = p.orders := rfl
@[simp] theorem Part.setInputs_lines (p : Part) (x) : (p.setInputs x).lines = p.lines := rfl
@[simp] theorem Part.setInputs_inputs (p : Part) (x) : (p.setInputs x).inputs = x := rfl
@[simp] theorem Part.setInputs_bindings (p : Part) (x) : (p.setInputs x).bindings = p.bindings := rfl
@[simp] theorem Part.setInputs_channels (p : Part) (x) : (p.setInputs x).channels = p.channels := rfl
@[simp] theorem Part.setInputs_guards (p : Part) (x) : (p.setInputs x).guards = p.guards := rfl
@[simp] theorem Part.setInputs_board (p : Part) (x) : (p.setInputs x).board = p.board := rfl
@[simp] theorem Part.setInputs_modes (p : Part) (x) : (p.setInputs x).modes = p.modes := rfl
@[simp] theorem Part.setInputs_journal (p : Part) (x) : (p.setInputs x).journal = p.journal := rfl

@[simp] theorem Part.setBindings_run (p : Part) (x) : (p.setBindings x).run = p.run := rfl
@[simp] theorem Part.setBindings_time (p : Part) (x) : (p.setBindings x).time = p.time := rfl
@[simp] theorem Part.setBindings_clock (p : Part) (x) : (p.setBindings x).clock = p.clock := rfl
@[simp] theorem Part.setBindings_hostData (p : Part) (x) : (p.setBindings x).hostData = p.hostData := rfl
@[simp] theorem Part.setBindings_mem (p : Part) (x) : (p.setBindings x).mem = p.mem := rfl
@[simp] theorem Part.setBindings_prot (p : Part) (x) : (p.setBindings x).prot = p.prot := rfl
@[simp] theorem Part.setBindings_orders (p : Part) (x) : (p.setBindings x).orders = p.orders := rfl
@[simp] theorem Part.setBindings_lines (p : Part) (x) : (p.setBindings x).lines = p.lines := rfl
@[simp] theorem Part.setBindings_inputs (p : Part) (x) : (p.setBindings x).inputs = p.inputs := rfl
@[simp] theorem Part.setBindings_bindings (p : Part) (x) : (p.setBindings x).bindings = x := rfl
@[simp] theorem Part.setBindings_channels (p : Part) (x) : (p.setBindings x).channels = p.channels := rfl
@[simp] theorem Part.setBindings_guards (p : Part) (x) : (p.setBindings x).guards = p.guards := rfl
@[simp] theorem Part.setBindings_board (p : Part) (x) : (p.setBindings x).board = p.board := rfl
@[simp] theorem Part.setBindings_modes (p : Part) (x) : (p.setBindings x).modes = p.modes := rfl
@[simp] theorem Part.setBindings_journal (p : Part) (x) : (p.setBindings x).journal = p.journal := rfl

@[simp] theorem Part.setChannels_run (p : Part) (x) : (p.setChannels x).run = p.run := rfl
@[simp] theorem Part.setChannels_time (p : Part) (x) : (p.setChannels x).time = p.time := rfl
@[simp] theorem Part.setChannels_clock (p : Part) (x) : (p.setChannels x).clock = p.clock := rfl
@[simp] theorem Part.setChannels_hostData (p : Part) (x) : (p.setChannels x).hostData = p.hostData := rfl
@[simp] theorem Part.setChannels_mem (p : Part) (x) : (p.setChannels x).mem = p.mem := rfl
@[simp] theorem Part.setChannels_prot (p : Part) (x) : (p.setChannels x).prot = p.prot := rfl
@[simp] theorem Part.setChannels_orders (p : Part) (x) : (p.setChannels x).orders = p.orders := rfl
@[simp] theorem Part.setChannels_lines (p : Part) (x) : (p.setChannels x).lines = p.lines := rfl
@[simp] theorem Part.setChannels_inputs (p : Part) (x) : (p.setChannels x).inputs = p.inputs := rfl
@[simp] theorem Part.setChannels_bindings (p : Part) (x) : (p.setChannels x).bindings = p.bindings := rfl
@[simp] theorem Part.setChannels_channels (p : Part) (x) : (p.setChannels x).channels = x := rfl
@[simp] theorem Part.setChannels_guards (p : Part) (x) : (p.setChannels x).guards = p.guards := rfl
@[simp] theorem Part.setChannels_board (p : Part) (x) : (p.setChannels x).board = p.board := rfl
@[simp] theorem Part.setChannels_modes (p : Part) (x) : (p.setChannels x).modes = p.modes := rfl
@[simp] theorem Part.setChannels_journal (p : Part) (x) : (p.setChannels x).journal = p.journal := rfl

@[simp] theorem Part.setGuards_run (p : Part) (x) : (p.setGuards x).run = p.run := rfl
@[simp] theorem Part.setGuards_time (p : Part) (x) : (p.setGuards x).time = p.time := rfl
@[simp] theorem Part.setGuards_clock (p : Part) (x) : (p.setGuards x).clock = p.clock := rfl
@[simp] theorem Part.setGuards_hostData (p : Part) (x) : (p.setGuards x).hostData = p.hostData := rfl
@[simp] theorem Part.setGuards_mem (p : Part) (x) : (p.setGuards x).mem = p.mem := rfl
@[simp] theorem Part.setGuards_prot (p : Part) (x) : (p.setGuards x).prot = p.prot := rfl
@[simp] theorem Part.setGuards_orders (p : Part) (x) : (p.setGuards x).orders = p.orders := rfl
@[simp] theorem Part.setGuards_lines (p : Part) (x) : (p.setGuards x).lines = p.lines := rfl
@[simp] theorem Part.setGuards_inputs (p : Part) (x) : (p.setGuards x).inputs = p.inputs := rfl
@[simp] theorem Part.setGuards_bindings (p : Part) (x) : (p.setGuards x).bindings = p.bindings := rfl
@[simp] theorem Part.setGuards_channels (p : Part) (x) : (p.setGuards x).channels = p.channels := rfl
@[simp] theorem Part.setGuards_guards (p : Part) (x) : (p.setGuards x).guards = x := rfl
@[simp] theorem Part.setGuards_board (p : Part) (x) : (p.setGuards x).board = p.board := rfl
@[simp] theorem Part.setGuards_modes (p : Part) (x) : (p.setGuards x).modes = p.modes := rfl
@[simp] theorem Part.setGuards_journal (p : Part) (x) : (p.setGuards x).journal = p.journal := rfl

@[simp] theorem Part.setBoard_run (p : Part) (x) : (p.setBoard x).run = p.run := rfl
@[simp] theorem Part.setBoard_time (p : Part) (x) : (p.setBoard x).time = p.time := rfl
@[simp] theorem Part.setBoard_clock (p : Part) (x) : (p.setBoard x).clock = p.clock := rfl
@[simp] theorem Part.setBoard_hostData (p : Part) (x) : (p.setBoard x).hostData = p.hostData := rfl
@[simp] theorem Part.setBoard_mem (p : Part) (x) : (p.setBoard x).mem = p.mem := rfl
@[simp] theorem Part.setBoard_prot (p : Part) (x) : (p.setBoard x).prot = p.prot := rfl
@[simp] theorem Part.setBoard_orders (p : Part) (x) : (p.setBoard x).orders = p.orders := rfl
@[simp] theorem Part.setBoard_lines (p : Part) (x) : (p.setBoard x).lines = p.lines := rfl
@[simp] theorem Part.setBoard_inputs (p : Part) (x) : (p.setBoard x).inputs = p.inputs := rfl
@[simp] theorem Part.setBoard_bindings (p : Part) (x) : (p.setBoard x).bindings = p.bindings := rfl
@[simp] theorem Part.setBoard_channels (p : Part) (x) : (p.setBoard x).channels = p.channels := rfl
@[simp] theorem Part.setBoard_guards (p : Part) (x) : (p.setBoard x).guards = p.guards := rfl
@[simp] theorem Part.setBoard_board (p : Part) (x) : (p.setBoard x).board = x := rfl
@[simp] theorem Part.setBoard_modes (p : Part) (x) : (p.setBoard x).modes = p.modes := rfl
@[simp] theorem Part.setBoard_journal (p : Part) (x) : (p.setBoard x).journal = p.journal := rfl

@[simp] theorem Part.setModes_run (p : Part) (x) : (p.setModes x).run = p.run := rfl
@[simp] theorem Part.setModes_time (p : Part) (x) : (p.setModes x).time = p.time := rfl
@[simp] theorem Part.setModes_clock (p : Part) (x) : (p.setModes x).clock = p.clock := rfl
@[simp] theorem Part.setModes_hostData (p : Part) (x) : (p.setModes x).hostData = p.hostData := rfl
@[simp] theorem Part.setModes_mem (p : Part) (x) : (p.setModes x).mem = p.mem := rfl
@[simp] theorem Part.setModes_prot (p : Part) (x) : (p.setModes x).prot = p.prot := rfl
@[simp] theorem Part.setModes_orders (p : Part) (x) : (p.setModes x).orders = p.orders := rfl
@[simp] theorem Part.setModes_lines (p : Part) (x) : (p.setModes x).lines = p.lines := rfl
@[simp] theorem Part.setModes_inputs (p : Part) (x) : (p.setModes x).inputs = p.inputs := rfl
@[simp] theorem Part.setModes_bindings (p : Part) (x) : (p.setModes x).bindings = p.bindings := rfl
@[simp] theorem Part.setModes_channels (p : Part) (x) : (p.setModes x).channels = p.channels := rfl
@[simp] theorem Part.setModes_guards (p : Part) (x) : (p.setModes x).guards = p.guards := rfl
@[simp] theorem Part.setModes_board (p : Part) (x) : (p.setModes x).board = p.board := rfl
@[simp] theorem Part.setModes_modes (p : Part) (x) : (p.setModes x).modes = x := rfl
@[simp] theorem Part.setModes_journal (p : Part) (x) : (p.setModes x).journal = p.journal := rfl

@[simp] theorem Part.setJournal_run (p : Part) (x) : (p.setJournal x).run = p.run := rfl
@[simp] theorem Part.setJournal_time (p : Part) (x) : (p.setJournal x).time = p.time := rfl
@[simp] theorem Part.setJournal_clock (p : Part) (x) : (p.setJournal x).clock = p.clock := rfl
@[simp] theorem Part.setJournal_hostData (p : Part) (x) : (p.setJournal x).hostData = p.hostData := rfl
@[simp] theorem Part.setJournal_mem (p : Part) (x) : (p.setJournal x).mem = p.mem := rfl
@[simp] theorem Part.setJournal_prot (p : Part) (x) : (p.setJournal x).prot = p.prot := rfl
@[simp] theorem Part.setJournal_orders (p : Part) (x) : (p.setJournal x).orders = p.orders := rfl
@[simp] theorem Part.setJournal_lines (p : Part) (x) : (p.setJournal x).lines = p.lines := rfl
@[simp] theorem Part.setJournal_inputs (p : Part) (x) : (p.setJournal x).inputs = p.inputs := rfl
@[simp] theorem Part.setJournal_bindings (p : Part) (x) : (p.setJournal x).bindings = p.bindings := rfl
@[simp] theorem Part.setJournal_channels (p : Part) (x) : (p.setJournal x).channels = p.channels := rfl
@[simp] theorem Part.setJournal_guards (p : Part) (x) : (p.setJournal x).guards = p.guards := rfl
@[simp] theorem Part.setJournal_board (p : Part) (x) : (p.setJournal x).board = p.board := rfl
@[simp] theorem Part.setJournal_modes (p : Part) (x) : (p.setJournal x).modes = p.modes := rfl
@[simp] theorem Part.setJournal_journal (p : Part) (x) : (p.setJournal x).journal = x := rfl

@[simp] theorem State.setPart_part (s : State) (x) : (s.setPart x).part = x := rfl
@[simp] theorem State.setPart_pending (s : State) (x) : (s.setPart x).pending = s.pending := rfl
@[simp] theorem State.setPending_part (s : State) (x) : (s.setPending x).part = s.part := rfl
@[simp] theorem State.setPending_pending (s : State) (x) : (s.setPending x).pending = x := rfl

@[simp] theorem Part.setChan_run (p : Part) (c) (x) : (p.setChan c x).run = p.run := rfl
@[simp] theorem Part.setChan_time (p : Part) (c) (x) : (p.setChan c x).time = p.time := rfl
@[simp] theorem Part.setChan_clock (p : Part) (c) (x) : (p.setChan c x).clock = p.clock := rfl
@[simp] theorem Part.setChan_hostData (p : Part) (c) (x) : (p.setChan c x).hostData = p.hostData := rfl
@[simp] theorem Part.setChan_mem (p : Part) (c) (x) : (p.setChan c x).mem = p.mem := rfl
@[simp] theorem Part.setChan_prot (p : Part) (c) (x) : (p.setChan c x).prot = p.prot := rfl
@[simp] theorem Part.setChan_orders (p : Part) (c) (x) : (p.setChan c x).orders = p.orders := rfl
@[simp] theorem Part.setChan_lines (p : Part) (c) (x) : (p.setChan c x).lines = p.lines := rfl
@[simp] theorem Part.setChan_inputs (p : Part) (c) (x) : (p.setChan c x).inputs = p.inputs := rfl
@[simp] theorem Part.setChan_bindings (p : Part) (c) (x) : (p.setChan c x).bindings = p.bindings := rfl
@[simp] theorem Part.setChan_guards (p : Part) (c) (x) : (p.setChan c x).guards = p.guards := rfl
@[simp] theorem Part.setChan_board (p : Part) (c) (x) : (p.setChan c x).board = p.board := rfl
@[simp] theorem Part.setChan_modes (p : Part) (c) (x) : (p.setChan c x).modes = p.modes := rfl
@[simp] theorem Part.setChan_journal (p : Part) (c) (x) : (p.setChan c x).journal = p.journal := rfl

theorem Part.setChan_chan (p : Part) (c d : Fin 8) (x) : (p.setChan c x).chan d = if d = c then x else p.chan d := by
  simp only [Part.chan, Part.setChan, Part.setChannels_channels, Fin.getElem_fin, Vector.getElem_set, Fin.ext_iff, eq_comm]

@[simp] theorem Part.setChan_chan_self (p : Part) (c : Fin 8) (x) : (p.setChan c x).chan c = x := by
  simp [Part.setChan_chan]

theorem Part.setChan_chan_ne (p : Part) {c d : Fin 8} (h : d ≠ c) (x) : (p.setChan c x).chan d = p.chan d := by
  simp [Part.setChan_chan, h]

@[simp] theorem Part.setChan_guard (p : Part) (c) (x) (d) : (p.setChan c x).guard d = p.guard d := rfl
@[simp] theorem Part.setChan_line (p : Part) (c) (x) (d) : (p.setChan c x).line d = p.line d := rfl

/-- What every channel undergoes alike. -/
@[simp] theorem Part.chan_mapChannels (p : Part) (f : Channel → Channel) (d : Fin 8) :
    (p.setChannels (p.channels.map f)).chan d = f (p.chan d) := by
  simp [Part.chan]

/-- What every channel undergoes alike as the millisecond goes on to a microsecond. -/
theorem Part.goTo_chan (p : Part) (us : Nat) (d : Fin 8) :
    (p.goTo us).chan d = if p.active then (p.chan d).issueTo (max p.clock.us (min us lastUs)) else p.chan d := by
  unfold Part.goTo
  cases p.active
  · rfl
  · exact Part.chan_mapChannels p _ d

/-- A millisecond that goes on changes the clock and the channels' pulses. -/
theorem Part.goTo_eq (p : Part) (us : Nat) :
    p.goTo us = { p with clock := (p.goTo us).clock, channels := (p.goTo us).channels } := by
  unfold Part.goTo
  split <;> rfl

@[simp] theorem Part.issueAll_chan (p : Part) (d : Fin 8) : p.issueAll.chan d = (p.chan d).issueAll := Part.chan_mapChannels p _ d

@[simp] theorem Part.countMs_chan (p : Part) (owed : Bool) (d : Fin 8) : (p.countMs owed).chan d = (p.chan d).issueAll :=
  Part.issueAll_chan p d

/-- A millisecond counted changes the time, the clock and the channels' pulses. -/
theorem Part.countMs_eq (p : Part) (owed : Bool) :
    p.countMs owed = { p with time := p.time + 1, clock := { tickOwed := owed, us := 0, scrubbed := false },
                              channels := (p.countMs owed).channels } := rfl

@[simp] theorem Part.setGuard_run (p : Part) (c) (x) : (p.setGuard c x).run = p.run := rfl
@[simp] theorem Part.setGuard_time (p : Part) (c) (x) : (p.setGuard c x).time = p.time := rfl
@[simp] theorem Part.setGuard_clock (p : Part) (c) (x) : (p.setGuard c x).clock = p.clock := rfl
@[simp] theorem Part.setGuard_hostData (p : Part) (c) (x) : (p.setGuard c x).hostData = p.hostData := rfl
@[simp] theorem Part.setGuard_mem (p : Part) (c) (x) : (p.setGuard c x).mem = p.mem := rfl
@[simp] theorem Part.setGuard_prot (p : Part) (c) (x) : (p.setGuard c x).prot = p.prot := rfl
@[simp] theorem Part.setGuard_orders (p : Part) (c) (x) : (p.setGuard c x).orders = p.orders := rfl
@[simp] theorem Part.setGuard_lines (p : Part) (c) (x) : (p.setGuard c x).lines = p.lines := rfl
@[simp] theorem Part.setGuard_inputs (p : Part) (c) (x) : (p.setGuard c x).inputs = p.inputs := rfl
@[simp] theorem Part.setGuard_bindings (p : Part) (c) (x) : (p.setGuard c x).bindings = p.bindings := rfl
@[simp] theorem Part.setGuard_channels (p : Part) (c) (x) : (p.setGuard c x).channels = p.channels := rfl
@[simp] theorem Part.setGuard_board (p : Part) (c) (x) : (p.setGuard c x).board = p.board := rfl
@[simp] theorem Part.setGuard_modes (p : Part) (c) (x) : (p.setGuard c x).modes = p.modes := rfl
@[simp] theorem Part.setGuard_journal (p : Part) (c) (x) : (p.setGuard c x).journal = p.journal := rfl

theorem Part.setGuard_guard (p : Part) (c d : Fin 8) (x) : (p.setGuard c x).guard d = if d = c then x else p.guard d := by
  simp only [Part.guard, Part.setGuard, Part.setGuards_guards, Fin.getElem_fin, Vector.getElem_set, Fin.ext_iff, eq_comm]

@[simp] theorem Part.setGuard_guard_self (p : Part) (c : Fin 8) (x) : (p.setGuard c x).guard c = x := by
  simp [Part.setGuard_guard]

theorem Part.setGuard_guard_ne (p : Part) {c d : Fin 8} (h : d ≠ c) (x) : (p.setGuard c x).guard d = p.guard d := by
  simp [Part.setGuard_guard, h]

@[simp] theorem Part.setGuard_chan (p : Part) (c) (x) (d) : (p.setGuard c x).chan d = p.chan d := rfl
@[simp] theorem Part.setGuard_line (p : Part) (c) (x) (d) : (p.setGuard c x).line d = p.line d := rfl

@[simp] theorem Part.setLine_run (p : Part) (c) (x) : (p.setLine c x).run = p.run := rfl
@[simp] theorem Part.setLine_time (p : Part) (c) (x) : (p.setLine c x).time = p.time := rfl
@[simp] theorem Part.setLine_clock (p : Part) (c) (x) : (p.setLine c x).clock = p.clock := rfl
@[simp] theorem Part.setLine_hostData (p : Part) (c) (x) : (p.setLine c x).hostData = p.hostData := rfl
@[simp] theorem Part.setLine_mem (p : Part) (c) (x) : (p.setLine c x).mem = p.mem := rfl
@[simp] theorem Part.setLine_prot (p : Part) (c) (x) : (p.setLine c x).prot = p.prot := rfl
@[simp] theorem Part.setLine_orders (p : Part) (c) (x) : (p.setLine c x).orders = p.orders := rfl
@[simp] theorem Part.setLine_inputs (p : Part) (c) (x) : (p.setLine c x).inputs = p.inputs := rfl
@[simp] theorem Part.setLine_bindings (p : Part) (c) (x) : (p.setLine c x).bindings = p.bindings := rfl
@[simp] theorem Part.setLine_channels (p : Part) (c) (x) : (p.setLine c x).channels = p.channels := rfl
@[simp] theorem Part.setLine_guards (p : Part) (c) (x) : (p.setLine c x).guards = p.guards := rfl
@[simp] theorem Part.setLine_board (p : Part) (c) (x) : (p.setLine c x).board = p.board := rfl
@[simp] theorem Part.setLine_modes (p : Part) (c) (x) : (p.setLine c x).modes = p.modes := rfl
@[simp] theorem Part.setLine_journal (p : Part) (c) (x) : (p.setLine c x).journal = p.journal := rfl

theorem Part.setLine_line (p : Part) (c d : Fin 4) (x) : (p.setLine c x).line d = if d = c then x else p.line d := by
  simp only [Part.line, Part.setLine, Part.setLines_lines, Fin.getElem_fin, Vector.getElem_set, Fin.ext_iff, eq_comm]

@[simp] theorem Part.setLine_line_self (p : Part) (c : Fin 4) (x) : (p.setLine c x).line c = x := by
  simp [Part.setLine_line]

theorem Part.setLine_line_ne (p : Part) {c d : Fin 4} (h : d ≠ c) (x) : (p.setLine c x).line d = p.line d := by
  simp [Part.setLine_line, h]

@[simp] theorem Part.setLine_chan (p : Part) (c) (x) (d) : (p.setLine c x).chan d = p.chan d := rfl
@[simp] theorem Part.setLine_guard (p : Part) (c) (x) (d) : (p.setLine c x).guard d = p.guard d := rfl

@[simp] theorem Part.setRun_chan (p : Part) (x) (d) : (p.setRun x).chan d = p.chan d := rfl
@[simp] theorem Part.setRun_guard (p : Part) (x) (d) : (p.setRun x).guard d = p.guard d := rfl
@[simp] theorem Part.setRun_line (p : Part) (x) (d) : (p.setRun x).line d = p.line d := rfl
@[simp] theorem Part.setTime_chan (p : Part) (x) (d) : (p.setTime x).chan d = p.chan d := rfl
@[simp] theorem Part.setTime_guard (p : Part) (x) (d) : (p.setTime x).guard d = p.guard d := rfl
@[simp] theorem Part.setTime_line (p : Part) (x) (d) : (p.setTime x).line d = p.line d := rfl
@[simp] theorem Part.setClock_chan (p : Part) (x) (d) : (p.setClock x).chan d = p.chan d := rfl
@[simp] theorem Part.setClock_guard (p : Part) (x) (d) : (p.setClock x).guard d = p.guard d := rfl
@[simp] theorem Part.setClock_line (p : Part) (x) (d) : (p.setClock x).line d = p.line d := rfl
@[simp] theorem Part.setHostData_chan (p : Part) (x) (d) : (p.setHostData x).chan d = p.chan d := rfl
@[simp] theorem Part.setHostData_guard (p : Part) (x) (d) : (p.setHostData x).guard d = p.guard d := rfl
@[simp] theorem Part.setHostData_line (p : Part) (x) (d) : (p.setHostData x).line d = p.line d := rfl
@[simp] theorem Part.setMem_chan (p : Part) (x) (d) : (p.setMem x).chan d = p.chan d := rfl
@[simp] theorem Part.setMem_guard (p : Part) (x) (d) : (p.setMem x).guard d = p.guard d := rfl
@[simp] theorem Part.setMem_line (p : Part) (x) (d) : (p.setMem x).line d = p.line d := rfl
@[simp] theorem Part.setProt_chan (p : Part) (x) (d) : (p.setProt x).chan d = p.chan d := rfl
@[simp] theorem Part.setProt_guard (p : Part) (x) (d) : (p.setProt x).guard d = p.guard d := rfl
@[simp] theorem Part.setProt_line (p : Part) (x) (d) : (p.setProt x).line d = p.line d := rfl
@[simp] theorem Part.setOrders_chan (p : Part) (x) (d) : (p.setOrders x).chan d = p.chan d := rfl
@[simp] theorem Part.setOrders_guard (p : Part) (x) (d) : (p.setOrders x).guard d = p.guard d := rfl
@[simp] theorem Part.setOrders_line (p : Part) (x) (d) : (p.setOrders x).line d = p.line d := rfl
@[simp] theorem Part.setLines_chan (p : Part) (x) (d) : (p.setLines x).chan d = p.chan d := rfl
@[simp] theorem Part.setLines_guard (p : Part) (x) (d) : (p.setLines x).guard d = p.guard d := rfl
@[simp] theorem Part.setInputs_chan (p : Part) (x) (d) : (p.setInputs x).chan d = p.chan d := rfl
@[simp] theorem Part.setInputs_guard (p : Part) (x) (d) : (p.setInputs x).guard d = p.guard d := rfl
@[simp] theorem Part.setInputs_line (p : Part) (x) (d) : (p.setInputs x).line d = p.line d := rfl
@[simp] theorem Part.setBindings_chan (p : Part) (x) (d) : (p.setBindings x).chan d = p.chan d := rfl
@[simp] theorem Part.setBindings_guard (p : Part) (x) (d) : (p.setBindings x).guard d = p.guard d := rfl
@[simp] theorem Part.setBindings_line (p : Part) (x) (d) : (p.setBindings x).line d = p.line d := rfl
@[simp] theorem Part.setChannels_guard (p : Part) (x) (d) : (p.setChannels x).guard d = p.guard d := rfl
@[simp] theorem Part.setChannels_line (p : Part) (x) (d) : (p.setChannels x).line d = p.line d := rfl
@[simp] theorem Part.setGuards_chan (p : Part) (x) (d) : (p.setGuards x).chan d = p.chan d := rfl
@[simp] theorem Part.setGuards_line (p : Part) (x) (d) : (p.setGuards x).line d = p.line d := rfl
@[simp] theorem Part.setBoard_chan (p : Part) (x) (d) : (p.setBoard x).chan d = p.chan d := rfl
@[simp] theorem Part.setBoard_guard (p : Part) (x) (d) : (p.setBoard x).guard d = p.guard d := rfl
@[simp] theorem Part.setBoard_line (p : Part) (x) (d) : (p.setBoard x).line d = p.line d := rfl
@[simp] theorem Part.setModes_chan (p : Part) (x) (d) : (p.setModes x).chan d = p.chan d := rfl
@[simp] theorem Part.setModes_guard (p : Part) (x) (d) : (p.setModes x).guard d = p.guard d := rfl
@[simp] theorem Part.setModes_line (p : Part) (x) (d) : (p.setModes x).line d = p.line d := rfl
@[simp] theorem Part.setJournal_chan (p : Part) (x) (d) : (p.setJournal x).chan d = p.chan d := rfl
@[simp] theorem Part.setJournal_guard (p : Part) (x) (d) : (p.setJournal x).guard d = p.guard d := rfl
@[simp] theorem Part.setJournal_line (p : Part) (x) (d) : (p.setJournal x).line d = p.line d := rfl

end Sys2Proof.Machine
end

