-- ==== Sys2Proof/Laws/Told.lean ====
section
/-! SUPPORT. What the reporting operations can do, said once each: writes of the part, the journal writer, the board, SETTLING and
the rest timer change nothing but what `Part.Told` names. -/

namespace Sys2Proof.Machine

theorem Part.Told.refl (p : Part) : p.Told p where
  run := rfl
  runstate := rfl
  memerr := rfl
  time := rfl
  clock := rfl
  hostData := rfl
  prot := rfl
  orders := rfl
  lines := rfl
  inputs := rfl
  bindings := rfl
  channels := fun _ => rfl
  guards := rfl
  modes := rfl
  empty := rfl
  mem := id
  words := fun _ _ => rfl

/-- The regions of reports are the snapshot's, and a report leaves the snapshot. -/
theorem Part.reportWord_run {p q : Part} (h : q.run = { p.run with attention := q.run.attention }) (a : Nat) :
    q.reportWord a = p.reportWord a := by
  rw [Part.reportWord, h]; rfl

theorem Part.Told.trans {p q r : Part} (a : p.Told q) (b : q.Told r) : p.Told r where
  run := by rw [b.run, a.run]
  runstate := b.runstate.trans a.runstate
  memerr := b.memerr.trans a.memerr
  time := b.time.trans a.time
  clock := b.clock.trans a.clock
  hostData := b.hostData.trans a.hostData
  prot := by rw [b.prot, a.prot]
  orders := b.orders.trans a.orders
  lines := b.lines.trans a.lines
  inputs := b.inputs.trans a.inputs
  bindings := b.bindings.trans a.bindings
  channels := fun c => by rw [b.channels c, a.channels c]
  guards := b.guards.trans a.guards
  modes := by rw [b.modes, a.modes]
  empty := b.empty.trans a.empty
  mem := b.mem ∘ a.mem
  words := fun x hx => (b.words x (by rw [Part.reportWord_run a.run]; exact hx)).trans (a.words x hx)

theorem Part.Told.ite {p a b : Part} {c : Prop} [Decidable c] (ha : p.Told a) (hb : p.Told b) : p.Told (if c then a else b) := by
  split
  · exact ha
  · exact hb

/-! ### Field by field -/

/-- A store within the regions of reports. -/
theorem told_setMem (p : Part) (m : Memory) (h : Memory.wf p.mem → Memory.wf m)
    (hw : ∀ a, p.reportWord a = false → m.cell a = p.mem.cell a) : p.Told (p.setMem m) :=
  { Part.Told.refl p with mem := h, words := hw }

theorem told_disarm (p : Part) : p.Told (p.setProt p.prot.disarm) :=
  { Part.Told.refl p with prot := rfl }

theorem told_setBoard (p : Part) (b : Board) : p.Told (p.setBoard b) :=
  { Part.Told.refl p with }

/-- A change of the journal writer's state that keeps J_EMPTY. -/
theorem told_setJournal (p : Part) (j : Journal) (h : j.empty = p.journal.empty) : p.Told (p.setJournal j) :=
  { Part.Told.refl p with empty := h }

theorem told_setModes (p : Part) (m : Modes) (h : m = { p.modes with settling := m.settling, restDue := m.restDue }) :
    p.Told (p.setModes m) :=
  { Part.Told.refl p with modes := h }

theorem told_attendJournal (p : Part) : p.Told p.attendJournal :=
  { Part.Told.refl p with run := rfl }

theorem told_attendAlert (p : Part) : p.Told p.attendAlert :=
  { Part.Told.refl p with run := rfl }

theorem Part.setChan_lastWrite (p : Part) (c d : Fin 8) (t : Time) :
    (p.setChan c { p.chan c with lastWrite := t }).chan d
      = { p.chan d with lastWrite := ((p.setChan c { p.chan c with lastWrite := t }).chan d).lastWrite } := by
  by_cases h : d = c
  · subst h; simp
  · simp [Part.setChan_chan_ne _ h]

theorem told_lastWrite (p : Part) (c : Fin 8) (t : Time) : p.Told (p.setChan c { p.chan c with lastWrite := t }) where
  run := rfl
  runstate := rfl
  memerr := rfl
  time := rfl
  clock := rfl
  hostData := rfl
  prot := rfl
  orders := rfl
  lines := rfl
  inputs := rfl
  bindings := rfl
  channels := fun d => Part.setChan_lastWrite p c d t
  guards := rfl
  modes := rfl
  empty := rfl
  mem := id
  words := fun _ _ => rfl

/-! ### Writes of the part -/

theorem wf_storeFrom (p : Part) (b : Bool) (a : Nat) (w : Word) (h : Memory.wf p.mem) : Memory.wf (p.storeFrom b a w).mem := by
  unfold Part.storeFrom
  split <;> exact Memory.store_wf _ _ _ h

/-- A store leaves every other word alone. -/
theorem cell_storeFrom_ne (p : Part) (b : Bool) (a x : Nat) (w : Word) (h : x ≠ a) : (p.storeFrom b a w).mem.cell x = p.mem.cell x := by
  unfold Part.storeFrom
  split <;> exact Memory.cell_store_ne _ _ _ _ h

/-- A write into a region of reports. -/
theorem told_write (p : Part) (a : Nat) (w : Word) (h : p.reportWord a = true) : p.Told (p.write a w) := by
  have hw : ∀ c : Cell, ∀ x, p.reportWord x = false → (p.mem.store a c).cell x = p.mem.cell x := by
    intro c x hx
    refine Memory.cell_store_ne _ _ _ _ ?_
    rintro rfl
    rw [h] at hx; cases hx
  unfold Part.write Part.storeFrom
  split
  · exact (told_setMem p _ (Memory.store_wf _ _ _) (hw _)).trans (told_disarm (p.setMem _))
  · exact told_setMem p _ (Memory.store_wf _ _ _) (hw _)

theorem wf_writeAll (p : Part) (a : Nat) (ws : List Word) (h : Memory.wf p.mem) : Memory.wf (p.writeAll a ws).mem := by
  induction ws generalizing p a with
  | nil => exact h
  | cons w ws ih => exact ih _ _ (wf_storeFrom p true a w h)

/-- Consecutive writes leave every other word alone. -/
theorem cell_writeAll_out (p : Part) (a x : Nat) (ws : List Word) (h : ∀ k, k < ws.length → x ≠ a + k) :
    (p.writeAll a ws).mem.cell x = p.mem.cell x := by
  induction ws generalizing p a with
  | nil => rfl
  | cons w ws ih =>
    refine (ih _ _ (fun k hk => ?_)).trans (cell_storeFrom_ne p true a x w (h 0 (by simp)))
    have := h (k + 1) (Nat.succ_lt_succ hk)
    omega

/-- A store changes exhibit memory, and ARM. -/
theorem storeFrom_eq (p : Part) (b : Bool) (a : Nat) (w : Word) : ∃ m arm, p.storeFrom b a w
    = (p.setMem m).setProt { p.prot with injection := { p.prot.injection with armed := arm } } := by
  unfold Part.storeFrom
  split
  · exact ⟨p.mem.store a (p.prot.injection.cell w), false, rfl⟩
  · exact ⟨p.mem.store a (.good w), p.prot.injection.armed, rfl⟩

/-- Consecutive writes change exhibit memory, and ARM. -/
theorem writeAll_eq (p : Part) (a : Nat) (ws : List Word) : ∃ m arm, p.writeAll a ws
    = (p.setMem m).setProt { p.prot with injection := { p.prot.injection with armed := arm } } := by
  induction ws generalizing p a with
  | nil => exact ⟨p.mem, p.prot.injection.armed, rfl⟩
  | cons w ws ih =>
    obtain ⟨m1, b1, h1⟩ := storeFrom_eq p true a w
    obtain ⟨m2, b2, h2⟩ := ih (p.write a w) (a + 1)
    refine ⟨m2, b2, ?_⟩
    show (p.write a w).writeAll (a + 1) ws = _
    rw [h2, Part.write, h1]
    rfl

theorem told_writeAll (p : Part) (a : Nat) (ws : List Word) (h : ∀ k, k < ws.length → p.reportWord (a + k) = true) :
    p.Told (p.writeAll a ws) := by
  induction ws generalizing p a with
  | nil => exact .refl p
  | cons w ws ih =>
    have t := told_write p a w (h 0 (by simp))
    refine t.trans (ih _ _ (fun k hk => ?_))
    rw [Part.reportWord_run t.run]
    have := h (k + 1) (by simpa using hk)
    rwa [show a + 1 + k = a + (k + 1) by omega]

/-- A write into a region of reports, by its base. -/
theorem told_writeRegion (p : Part) (base : Layout → Nat) (ws : List Word)
    (h : ∀ l, p.run.layout = some l → ∀ k, k < ws.length → l.reportWord (base l + k) = true) :
    p.Told (p.writeRegion base ws) := by
  unfold Part.writeRegion
  split
  · rename_i l hl
    refine told_writeAll _ _ _ (fun k hk => ?_)
    rw [Part.reportWord, hl]
    exact h l hl k hk
  · exact .refl p

theorem inRegion_of {a base size : Nat} (h1 : base ≤ a) (h2 : a < base + size) : inRegion a base size = true := by
  simp [inRegion, h1, h2]

theorem Layout.reportWord_pointers (l : Layout) {i : Nat} (h : i = 0 ∨ i = 2 ∨ i = 3 ∨ i = 5) : l.reportWord (l.pointers + i) = true := by
  rcases h with rfl | rfl | rfl | rfl <;> simp [Layout.reportWord, inRegion]

theorem Layout.reportWord_status (l : Layout) {a : Nat} (h1 : l.status ≤ a) (h2 : a < l.status + 96) : l.reportWord a = true := by
  simp [Layout.reportWord, inRegion_of h1 h2]

theorem Layout.reportWord_stateMap (l : Layout) {a : Nat} (h1 : l.stateMap ≤ a) (h2 : a < l.stateMap + (l.inputCount + 48)) :
    l.reportWord a = true := by
  simp [Layout.reportWord, inRegion_of h1 h2]

theorem Layout.reportWord_board (l : Layout) {a : Nat} (h1 : l.board ≤ a) (h2 : a < l.board + 260) : l.reportWord a = true := by
  simp [Layout.reportWord, inRegion_of h1 h2]

theorem Layout.reportWord_journal (l : Layout) {a : Nat} (h1 : l.journal ≤ a) (h2 : a < l.journal + l.journalSize) :
    l.reportWord a = true := by
  simp [Layout.reportWord, inRegion_of h1 h2]

/-- A write of a word of the pointer block that the part owns. -/
theorem told_writePointers (p : Part) (i : Nat) (w : Word) (h : i = 0 ∨ i = 2 ∨ i = 3 ∨ i = 5) :
    p.Told (p.writeRegion (fun l => l.pointers + i) [w]) :=
  told_writeRegion p _ [w] (fun l _ k hk => by
    have : k = 0 := by simpa using hk
    subst this
    exact l.reportWord_pointers h)

/-! ### The rest timer, SETTLING and the pointer block -/

theorem told_writeModeNow (p : Part) : p.Told p.writeModeNow := told_writePointers p 5 _ (by simp)

theorem told_restEval (p : Part) : p.Told p.restEval := by
  unfold Part.restEval
  split
  · split
    · exact .refl p
    · exact told_setModes _ _ rfl
  · exact told_setModes _ _ rfl

theorem told_restNotice (p : Part) : p.Told p.restNotice := by
  unfold Part.restNotice
  split
  · exact told_setModes _ _ rfl
  · exact .refl p

theorem told_settleExam (p : Part) : p.Told p.settleExam := by
  unfold Part.settleExam
  split
  · exact (told_setModes p _ rfl).trans (told_writeModeNow _)
  · exact .refl p

/-! ### The journal writer -/

theorem Journal.startStale_empty (j : Journal) (t : Time) (n : Nat) : (j.startStale t n).empty = j.empty := by
  unfold Journal.startStale
  split
  · rfl
  · split <;> rfl

theorem told_writeJFill (p : Part) : p.Told p.writeJFill := told_writePointers p 0 _ (by simp)

theorem told_writeJGap (p : Part) : p.Told p.writeJGap := told_writePointers p 2 _ (by simp)

theorem told_writeJState (p : Part) : p.Told p.writeJState := told_writePointers p 3 _ (by simp)

theorem told_setThrottled (p : Part) (b : Bool) : p.Told (p.setJournal { p.journal with throttled := b }) :=
  told_setJournal p _ rfl

theorem told_setGap (p : Part) (n : Word) : p.Told (p.setJournal { p.journal with gap := n }) :=
  told_setJournal p _ rfl

theorem told_placed (p : Part) (l : Layout) (fill : Nat) (imm : Bool) : p.Told (p.placed l fill imm) := by
  unfold Part.placed
  dsimp only
  have h1 : ∀ (c : Prop) [Decidable c], p.Told (p.setJournal (if c
      then ({ p.journal with fill := fill } : Journal).startStale p.time l.staleTime else { p.journal with fill := fill })) := by
    intro c _
    refine told_setJournal p _ ?_
    split
    · exact Journal.startStale_empty _ _ _
    · rfl
  have h2 := fun (c : Prop) [Decidable c] => (h1 c).trans (told_writeJFill _)
  have h3 := fun (c d : Prop) [Decidable c] [Decidable d] =>
    Part.Told.ite (c := d) ((h2 c).trans (told_attendJournal _)) (h2 c)
  exact .ite (((h3 _ _).trans (told_setThrottled _ true)).trans (told_writeJState _)) (h3 _ _)

theorem Record.words_length (r : Record) : r.words.length = r.length := by
  simp [Record.words, Record.length, longWords]; omega

theorem Part.Told.layout {p q : Part} (t : p.Told q) : q.run.layout = p.run.layout := by rw [t.run]

theorem told_place {p q : Part} {r : Record} (h : p.place r = some q) : p.Told q := by
  unfold Part.place at h
  split at h
  · cases h
  · rename_i l hl
    dsimp only at h
    have h3 : 3 ≤ r.length := by unfold Record.length; omega
    have hr : ∀ x, l.journal ≤ x → x < l.journal + l.journalSize → p.reportWord x = true := fun x h1 h2 => by
      rw [Part.reportWord, hl]; exact l.reportWord_journal h1 h2
    split at h
    · rename_i hc
      cases h
      have t := told_writeAll p (l.journal + p.journal.fill) r.words (fun k hk => by
        rw [Record.words_length] at hk; exact hr _ (by omega) (by omega))
      exact t.trans (told_placed _ l _ _)
    · split at h
      · rename_i hc
        cases h
        have t1 := told_write p (l.journal + p.journal.fill) padWord (hr _ (by omega) (by omega))
        have t2 := t1.trans (told_writeAll _ l.journal r.words (fun k hk => by
          rw [Part.reportWord_run t1.run]
          rw [Record.words_length] at hk
          exact hr _ (by omega) (by unfold Journal.free at hc; omega)))
        exact t2.trans (told_placed _ l _ _)
      · cases h

/-- A dropped record is counted, and what it calls for waits: nothing but the writer's state and J_GAP changes (R167). -/
theorem told_dropRecord (p : Part) : p.Told p.dropRecord := by
  unfold Part.dropRecord
  dsimp only
  refine Part.Told.trans ?_ (told_writeJGap _)
  exact told_setJournal p _ rfl

theorem told_placeOrDrop (p : Part) (r : Record) : p.Told (p.placeOrDrop r) := by
  unfold Part.placeOrDrop
  cases h : p.place r with
  | some q => exact told_place h
  | none => exact told_dropRecord p

theorem told_writeRecord (p : Part) (r : Record) : p.Told (p.writeRecord r) := by
  unfold Part.writeRecord
  split
  · exact .refl p
  · split
    · exact told_placeOrDrop p r
    · split
      · exact ((told_place ‹_›).trans ((told_setGap _ 0).trans (told_writeJGap _))).trans (told_placeOrDrop _ r)
      · exact told_dropRecord p

/-! ### The board -/

theorem entryWords_length (e : Option Entry) : (entryWords e).length = 8 := by
  cases e <;> rfl

theorem told_writeEntry (p : Part) (i : Fin 32) : p.Told (p.writeEntry i) :=
  told_writeRegion _ _ _ (fun l _ k hk => by
    rw [entryWords_length] at hk
    exact l.reportWord_board (by omega) (by omega))

theorem told_writeHeader (p : Part) (before : List Word) (b : Bool) : p.Told (p.writeHeader before b) := by
  unfold Part.writeHeader
  split
  · exact told_writeRegion _ _ _ (fun l _ k hk => by
      simp only [Board.header, List.length_cons, List.length_nil] at hk
      exact l.reportWord_board (by omega) (by omega))
  · exact .refl p

theorem told_changeBoard (p : Part) (b : Board) (i : Fin 32) (always : Bool) : p.Told (p.changeBoard b i always) := by
  unfold Part.changeBoard
  have h : p.Told (((p.setBoard b).writeEntry i).writeHeader p.board.header always) :=
    ((told_setBoard p b).trans (told_writeEntry _ _)).trans (told_writeHeader _ _ _)
  dsimp only
  split
  · exact h
  · exact h.trans (told_restEval _)

theorem told_escalate (p : Part) (i : Fin 32) (e : Entry) : p.Told (p.escalate i e) :=
  ((told_changeBoard _ _ _ _).trans (told_attendAlert _)).trans (told_writeRecord _ _)

theorem told_merge (p : Part) (i : Fin 32) (e : Entry) (sev : Severity) : p.Told (p.merge i e sev) := by
  unfold Part.merge
  dsimp only
  have h1 := fun b => told_changeBoard p b i false
  have h2 : ∀ (b : Board) (c : Prop) [Decidable c],
      p.Told (if c then (p.changeBoard b i false).attendAlert else p.changeBoard b i false) :=
    fun b c _ => .ite ((h1 b).trans (told_attendAlert _)) (h1 b)
  split
  · exact .ite (((h2 _ _).trans (told_writeRecord _ _)).trans (told_escalate _ _ _)) ((h2 _ _).trans (told_writeRecord _ _))
  · exact (h2 _ _).trans (told_writeRecord _ _)

theorem told_makeEntry (p : Part) (i : Fin 32) (e : Entry) : p.Told (p.makeEntry i e) := by
  unfold Part.makeEntry
  dsimp only
  have h1 := told_changeBoard p (p.board.make i e) i true
  exact (Part.Told.ite (h1.trans (told_attendAlert _)) h1).trans (told_writeRecord _ _)

theorem told_evict (p : Part) (i : Fin 32) (e : Entry) : p.Told (p.evict i e) :=
  ((told_setBoard _ _).trans (told_writeEntry _ _)).trans (told_writeRecord _ _)

theorem told_notBoarded (p : Part) (e : Entry) : p.Told (p.notBoarded e) := by
  unfold Part.notBoarded
  dsimp only
  split
  · exact (((told_setBoard p _).trans (told_writeHeader _ _ _)).trans (told_attendAlert _)).trans (told_writeRecord _ _)
  · exact told_writeRecord _ _

theorem told_raiseOne (p : Part) (code : AlertCode) (src : Source) (zone : Zone) (sev : Severity) :
    p.Told (p.raiseOne code src zone sev).1 := by
  unfold Part.raiseOne
  split
  · exact .refl p
  · dsimp only
    split
    · split
      · exact told_merge _ _ _ _
      · exact .refl p
    · split
      · exact told_makeEntry _ _ _
      · split
        · split
          · exact (told_evict _ _ _).trans (told_makeEntry _ _ _)
          · exact told_makeEntry _ _ _
        · exact told_notBoarded _ _

/-! ### JOURNAL_GAP and whole operations -/

theorem told_raiseGap (p : Part) : p.Told p.raiseGap := by
  unfold Part.raiseGap
  have t := told_setJournal p { p.journal with gapRaises := p.journal.gapRaises - 1 } rfl
  exact t.trans (told_raiseOne _ .journalGap .none .all .info)

theorem told_raiseGaps (n : Nat) (p : Part) : p.Told (p.raiseGaps n) := by
  induction n generalizing p with
  | zero => exact .refl p
  | succ n ih =>
    unfold Part.raiseGaps
    exact .ite (.refl p) ((told_raiseGap p).trans (ih _))

theorem told_whole (p : Part) : p.Told p.whole := .ite (told_raiseGaps 5 p) (.refl p)

/-- Nothing waits: the part is whole already. -/
theorem Part.whole_of {p : Part} (h : p.journal.gapRaises = 0) : p.whole = p := by
  unfold Part.whole Part.raiseGaps
  rw [if_pos h, ite_self]

/-- Handing a record to the writer changes nothing but reports. -/
theorem told_hand (p : Part) (r : Record) : p.Told (p.hand r) := (told_writeRecord p r).trans (told_whole _)

/-- A raise changes nothing but reports. -/
theorem told_raiseFull (p : Part) (code : AlertCode) (src : Source) (zone : Zone) (sev : Severity) :
    p.Told (p.raiseFull code src zone sev).1 := (told_raiseOne p code src zone sev).trans (told_whole _)

theorem told_raiseAlert (p : Part) (code : AlertCode) (src : Source) (zone : Zone) (sev : Severity) :
    p.Told (p.raiseAlert code src zone sev) := told_raiseFull p code src zone sev

theorem told_handPress (p : Part) (i : Nat) (always : Bool) (r : Record) : p.Told (p.handPress i always r) := by
  unfold Part.handPress
  split
  · exact told_setJournal _ _ rfl
  · exact told_hand p r

/-- A flush of the coalesce counts changes nothing but reports. -/
theorem told_flush (p : Part) : p.Told p.flush := by
  have h : ∀ (is : List Nat) (q : Part), q.Told (is.foldl Part.flushInput q) := by
    intro is
    induction is with
    | nil => exact .refl
    | cons i is ih =>
      intro q
      refine Part.Told.trans ?_ (ih _)
      unfold Part.flushInput
      refine .ite (.refl q) ?_
      have h1 := told_setJournal q { q.journal with coalesced := sparseSet 0 q.journal.coalesced i 0 } rfl
      exact h1.trans (told_writeRecord _ _)
  unfold Part.flush
  split
  · exact .refl p
  · exact (h _ p).trans (told_whole _)

/-- The low-mark check changes nothing but reports. -/
theorem told_lowMark (p : Part) (l : Layout) : p.Told (p.lowMark l) := by
  unfold Part.lowMark
  refine .ite ?_ (.refl p)
  have h1 := told_setThrottled p false
  exact (h1.trans (told_writeJState _)).trans (told_flush _)

theorem told_condEnd (p : Part) (code : AlertCode) (src : Source) : p.Told (p.condEnd code src) := by
  unfold Part.condEnd
  split
  · exact .refl p
  · split
    · exact .refl p
    · split
      · exact .refl p
      · split
        · exact (told_changeBoard _ _ _ _).trans (told_hand _ _)
        · exact (told_changeBoard _ _ _ _).trans (told_hand _ _)
        · exact .refl p

theorem told_ackBoard (p : Part) (i : Fin 32) (e : Entry) : p.Told (p.ackBoard i e) := by
  unfold Part.ackBoard
  split
  · exact (told_changeBoard _ _ _ _).trans (told_hand _ _)
  · exact (told_changeBoard _ _ _ _).trans (told_hand _ _)
  · exact .refl p

/-! ### Channels' reports -/

theorem told_writeStatus (p : Part) (c : Fin 8) : p.Told (p.writeStatus c) := by
  unfold Part.writeStatus
  split
  · exact (told_lastWrite p c _).trans (told_writeRegion _ _ _ (fun l _ k hk => by
      simp only [Channel.statusWords, Channel.recordWords, intWords, longWords, List.length_append, List.length_cons,
        List.length_nil] at hk
      exact l.reportWord_status (by omega) (by omega)))
  · exact .refl p

theorem told_tellState (p : Part) (c : Fin 8) (before : ChanState) (cause : Nat) : p.Told (p.tellState c before cause) := by
  unfold Part.tellState
  dsimp only
  refine .ite (.refl p) ?_
  have h1 := told_hand p (channelRecord c before (p.chan c).state cause (p.chan c).lost (p.chan c).s p.time)
  have h2 := fun (b : Prop) [Decidable b] => Part.Told.ite (c := b) (h1.trans (told_restEval _)) h1
  exact (Part.Told.ite ((h2 _).trans (told_restNotice _)) (h2 _)).trans (told_settleExam _)

/-- Making a channel's change seen changes nothing but reports. -/
theorem told_commit (p : Part) (c : Fin 8) (before : Channel) (cause : Nat) (always : Bool) :
    p.Told (p.commit c before cause always) := by
  unfold Part.commit
  dsimp only
  refine (?_ : p.Told (if (always || (p.chan c).published != before.published) = true then p.writeStatus c else p)).trans
    (told_tellState _ _ _ _)
  split
  · exact told_writeStatus p c
  · exact .refl p

/-! ### The input state map -/

theorem told_writeMap (p : Part) (i : Nat) : p.Told (p.writeMap i) := by
  unfold Part.writeMap
  split
  · rename_i x l _ hl
    split
    · refine told_write p _ _ ?_
      rw [Part.reportWord, hl]
      exact l.reportWord_stateMap (Nat.le_add_right _ _) (by omega)
    · exact .refl p
  · exact .refl p

/-- A write of a station's word. -/
theorem told_writeStation (p : Part) (l : Fin 4) (a : Fin 12) : p.Told (p.writeStation l a) :=
  told_writeRegion _ _ _ (fun y hy k hk => by
    have h1 : p.mapInputs = y.inputCount := by rw [Part.mapInputs, hy]
    simp only [List.length_cons, List.length_nil] at hk
    exact y.reportWord_stateMap (by omega) (by omega))

end Sys2Proof.Machine
end

