-- ==== Sys2Proof/Laws/Near.lean ====
section
/-! SUPPORT. What the operations on one channel can do, said once each: they change that channel, report slots and count stops, and
beyond that only tell. -/

namespace Sys2Proof.Machine

variable {c : Fin 8}

theorem Part.Told.near {p q : Part} (h : p.Told q) : p.Near c q where
  run := h.run
  runstate := h.runstate
  memerr := h.memerr
  time := h.time
  clock := h.clock
  hostData := h.hostData
  prot := h.prot
  taking := by rw [h.orders]
  takeQueue := by rw [h.orders]
  lines := h.lines
  inputs := h.inputs
  bindings := h.bindings
  others := fun d _ => h.channels d
  params := by rw [h.channels c]
  pins := by rw [h.channels c]
  queue := by rw [h.channels c]
  guards := h.guards
  modes := h.modes
  empty := h.empty
  mem := h.mem
  words := fun a ha _ => h.words a ha

theorem Part.orderWord_run {p q : Part} (h : q.run = { p.run with attention := q.run.attention }) (a : Nat) :
    q.orderWord a = p.orderWord a := by
  rw [Part.orderWord, h]; rfl

theorem Part.Near.refl (p : Part) : p.Near c p := (Part.Told.refl p).near

theorem Part.Near.trans {p q r : Part} (a : p.Near c q) (b : q.Near c r) : p.Near c r where
  run := by rw [b.run, a.run]
  runstate := b.runstate.trans a.runstate
  memerr := b.memerr.trans a.memerr
  time := b.time.trans a.time
  clock := b.clock.trans a.clock
  hostData := b.hostData.trans a.hostData
  prot := by rw [b.prot, a.prot]
  taking := b.taking.trans a.taking
  takeQueue := b.takeQueue.trans a.takeQueue
  lines := b.lines.trans a.lines
  inputs := b.inputs.trans a.inputs
  bindings := b.bindings.trans a.bindings
  others := fun d h => by rw [b.others d h, a.others d h]
  params := b.params.trans a.params
  pins := b.pins.trans a.pins
  queue := b.queue.trans a.queue
  guards := b.guards.trans a.guards
  modes := by rw [b.modes, a.modes]
  empty := b.empty.trans a.empty
  mem := b.mem ∘ a.mem
  words := fun x hx ho => (b.words x (by rw [Part.reportWord_run a.run]; exact hx)
    (by rw [Part.orderWord_run a.run]; exact ho)).trans (a.words x hx ho)

theorem Part.Near.told {p q r : Part} (a : p.Near c q) (b : q.Told r) : p.Near c r := a.trans b.near

theorem Part.Near.ite {p a b : Part} {x : Prop} [Decidable x] (ha : p.Near c a) (hb : p.Near c b) :
    p.Near c (if x then a else b) := by
  split
  · exact ha
  · exact hb

theorem Part.Near.layout {p q : Part} (n : p.Near c q) : q.run.layout = p.run.layout := by rw [n.run]

theorem near_setChan (p : Part) (x : Channel) (h1 : x.params = (p.chan c).params) (h2 : x.pins = (p.chan c).pins)
    (h3 : x.queue.length ≤ (p.chan c).queue.length) : p.Near c (p.setChan c x) where
  run := rfl
  runstate := rfl
  memerr := rfl
  time := rfl
  clock := rfl
  hostData := rfl
  prot := rfl
  taking := rfl
  takeQueue := rfl
  lines := rfl
  inputs := rfl
  bindings := rfl
  others := fun d h => by rw [Part.setChan_chan_ne _ h]
  params := by simpa using h1
  pins := by simpa using h2
  queue := by simpa using h3
  guards := rfl
  modes := rfl
  empty := rfl
  mem := id
  words := fun _ _ _ => rfl

theorem near_setOrders (p : Part) (o : Orders) (h1 : o.taking = p.orders.taking) (h2 : o.takeQueue = p.orders.takeQueue) :
    p.Near c (p.setOrders o) :=
  ⟨rfl, rfl, rfl, rfl, rfl, rfl, rfl, h1, h2, rfl, rfl, rfl, fun _ _ => rfl, rfl, rfl, Nat.le_refl _, rfl, rfl, rfl, id, fun _ _ _ => rfl⟩

theorem near_modSlot (p : Part) (i : Nat) (f : Slot → Slot) : p.Near c (p.modSlot i f) := near_setOrders _ _ rfl rfl

theorem near_countStopped (p : Part) (s : Int) (d : Fin 8) : p.Near c (p.countStopped d s) := near_setOrders _ _ rfl rfl

theorem near_dropHand (p : Part) (i : Nat) : p.Near c (p.dropHand i) := near_setOrders _ _ rfl rfl

theorem near_addHand (p : Part) (e : HandEntry) : p.Near c (p.addHand e) := near_setOrders _ _ rfl rfl

theorem Part.orderWord_of {p : Part} {l : Layout} (hl : p.run.layout = some l) {i k : Nat} (hi : i < l.slotCount) (hk : k < 8) :
    p.orderWord (l.orders + 8 * i + k) = true := by
  rw [Part.orderWord, hl]
  exact inRegion_of (by omega) (by omega)

/-- A write of words of a slot changes words of the order table, and ARM. -/
theorem near_writeSlot (p : Part) (i k : Nat) (ws : List Word) (hk : k + ws.length ≤ 8) : p.Near c (p.writeSlot i k ws) := by
  unfold Part.writeSlot
  split
  · rename_i l hl
    split
    · rename_i hi
      have hm := wf_writeAll p (l.orders + 8 * i + k) ws
      have hc := fun x h => cell_writeAll_out p (l.orders + 8 * i + k) x ws h
      obtain ⟨m, arm, hq⟩ := writeAll_eq p (l.orders + 8 * i + k) ws
      rw [hq] at hm hc ⊢
      refine { Part.Near.refl (c := c) p with prot := rfl, mem := hm, words := fun x _ hx => hc x (fun j hj e => ?_) }
      rw [e, show l.orders + 8 * i + k + j = l.orders + 8 * i + (k + j) by omega, Part.orderWord_of hl hi (by omega)] at hx
      cases hx
    · exact .refl p
  · exact .refl p

theorem near_slotWords (p : Part) (i : Nat) (st : SlotState) (code : Nat) (r : Int) :
    p.Near c ((p.writeSlotResult i r).writeSlotState i st code) :=
  (near_writeSlot p i 6 _ (by simp [intWords, longWords])).trans (near_writeSlot _ i 0 _ (by simp))

theorem near_report (p : Part) (i : Nat) (st : SlotState) (code : Nat) (r : Int) : p.Near c (p.report i st code r) := by
  unfold Part.report
  dsimp only
  exact ((near_slotWords p i st code r).trans (near_modSlot _ _ _)).told (told_hand _ _)

theorem near_reportDone (p : Part) (i : Nat) (t : Termination) (r : Int) : p.Near c (p.reportDone i t r) := near_report _ _ _ _ _

theorem near_reportEnd (p : Part) (d : Fin 8) (m : Move) (t : Termination) : p.Near c (p.reportEnd d m t) := by
  unfold Part.reportEnd
  split
  · exact near_reportDone _ _ _ _
  · exact .refl p

theorem near_fold {α : Type} (f : Part → α → Part) (hf : ∀ (p : Part) a, p.Near c (f p a)) (l : List α) (p : Part) :
    p.Near c (l.foldl f p) := by
  induction l generalizing p with
  | nil => exact .refl p
  | cons a l ih => exact (hf p a).trans (ih _)

theorem near_supersedeQueue (p : Part) : p.Near c (p.supersedeQueue c) :=
  (near_setChan p _ (by rfl) (by rfl) (by exact Nat.zero_le _)).trans (near_fold _ (fun _ _ => near_reportEnd _ _ _ _) _ _)

theorem near_finishMove (p : Part) (t : Termination) : p.Near c (p.finishMove c t) := by
  unfold Part.finishMove
  split
  · exact .refl p
  · dsimp only
    exact ((near_reportEnd _ _ _ _).trans (near_countStopped _ _ _)).trans (near_setChan _ _ (by rfl) (by rfl) (by exact Nat.le_refl _))

theorem near_commit (p : Part) (d : Fin 8) (before : Channel) (cause : Nat) (always : Bool) :
    p.Near c (p.commit d before cause always) := (told_commit _ _ _ _ _).near

/-- A change of channel c's registers alone. -/
theorem near_mod (p q : Part) (h : p.Near c q) (x : Channel) (h1 : x.params = (q.chan c).params) (h2 : x.pins = (q.chan c).pins)
    (h3 : x.queue.length ≤ (q.chan c).queue.length) : p.Near c (q.setChan c x) := h.trans (near_setChan q x h1 h2 h3)

/-- Entry to FAULT changes the channel, and tells. -/
theorem near_faultEntry (p : Part) (cause : ChanFault) : p.Near c (p.faultEntry c cause) := by
  unfold Part.faultEntry
  dsimp only
  have h1 := near_setChan p ((p.chan c).losePosition cause) (by rfl) (by rfl) (by exact Nat.le_refl _)
  have h2 := (h1.trans (near_finishMove _ .faulted)).trans (near_supersedeQueue _)
  have h3 := near_mod _ _ h2 ((Part.chan _ c).inFault cause) (by rfl) (by rfl) (by exact Nat.le_refl _)
  exact (h3.told (told_raiseAlert _ _ _ _ _)).told (told_commit _ _ _ _ _)

/-- The chain of ends and starts of moves changes the channel, and tells. -/
theorem near_moveEvent (n : Nat) (before : Channel) (p : Part) (e : MoveEvent) : p.Near c (p.moveEvent n c before e) := by
  induction n generalizing before p e with
  | zero => exact .refl p
  | succ n ih =>
    cases e with
    | ends t =>
      simp only [Part.moveEvent]
      have h0 := near_finishMove (c := c) p t
      split
      · exact ((near_mod _ _ h0 _ (by rfl) (by rfl) (by exact Nat.le_refl _)).trans (near_supersedeQueue _)).trans (near_commit _ _ _ _ _)
      · split
        · exact (near_mod _ _ h0 _ (by rfl) (by rfl) (by exact Nat.le_refl _)).trans (near_commit _ _ _ _ _)
        · split
          · exact h0
          · split
            · exact h0.trans (ih _ _ _)
            · split
              · rename_i hq _
                exact (near_mod _ _ h0 _ (by rfl) (by rfl) (by simp [hq])).trans (ih _ _ _)
              · have h1 := (near_mod _ _ h0 { (p.finishMove c t).chan c with
                    state := (restChoice (p.chan c).current t).1, parkCause := (restChoice (p.chan c).current t).2 } rfl rfl
                    (Nat.le_refl _)).trans (near_commit _ c before t.code true)
                exact .ite (h1.trans (ih _ _ _)) h1
    | starts m cause =>
      simp only [Part.moveEvent]
      split
      · exact .refl p
      · split
        · split
          · exact (near_setChan _ _ (by rfl) (by rfl) (by exact Nat.le_refl _)).trans (ih _ _ _)
          · have h1 := (near_setChan (c := c) p { (p.chan c).homeBegun m with
                state := .homing, dir := false, tickS := ((p.chan c).homeBegun m).endS, unissued := 0 } (by rfl) (by rfl) (by exact Nat.le_refl _)).trans
                (near_commit _ c before cause true)
            exact .ite (h1.trans (near_faultEntry _ _)) h1
        · split
          · exact (near_setChan _ _ (by rfl) (by rfl) (by exact Nat.le_refl _)).trans (ih _ _ _)
          · exact (near_setChan _ _ (by rfl) (by rfl) (by exact Nat.le_refl _)).trans (near_commit _ _ _ _ _)

theorem near_endMove (p : Part) (before : Channel) (t : Termination) : p.Near c (p.endMove c before t) := near_moveEvent _ _ _ _

theorem near_giveMove (p : Part) (m : Move) : p.Near c (p.giveMove c m) := near_moveEvent _ _ _ _

theorem near_modePark (p : Part) : p.Near c (p.modePark c) := by
  unfold Part.modePark
  split
  · exact .ite (near_giveMove _ _) (.refl p)
  · exact .refl p

/-- A controlled stop changes the channel, and tells. -/
theorem near_controlledStop (p : Part) (t : Termination) : p.Near c (p.controlledStop c t) := by
  unfold Part.controlledStop
  have h0 := near_supersedeQueue (c := c) p
  dsimp only
  split
  · exact (near_mod _ _ h0 _ (by rfl) (by rfl) (by exact Nat.le_refl _)).trans (near_commit _ _ _ _ _)
  · exact (near_mod _ _ h0 _ (by rfl) (by rfl) (by exact Nat.le_refl _)).trans (near_endMove _ _ _)
  · have h : ∀ x : Channel, (x.stopAgain t).params = x.params ∧ (x.stopAgain t).pins = x.pins ∧ (x.stopAgain t).queue = x.queue := by
      intro x
      unfold Channel.stopAgain
      split <;> exact ⟨rfl, rfl, rfl⟩
    exact (near_mod _ _ h0 _ (h _).1 (h _).2.1 (by rw [(h _).2.2])).trans (near_commit _ _ _ _ _)
  · exact h0.trans (near_commit _ _ _ _ _)

/-- A cut changes the channel, and tells. -/
theorem near_cut (p : Part) (t : Termination) : p.Near c (p.cut c t) := by
  unfold Part.cut
  have h0 := (near_setChan (c := c) p { p.chan c with en := false } (by rfl) (by rfl) (by exact Nat.le_refl _)).trans (near_supersedeQueue _)
  dsimp only
  generalize (p.setChan c { p.chan c with en := false }).supersedeQueue c = q at h0 ⊢
  have h1 : p.Near c ((q.setChan c { (q.chan c).halt with lost := true }).endMove c (p.chan c) t) :=
    (near_mod _ _ h0 _ (by rfl) (by rfl) (by exact Nat.le_refl _)).trans (near_endMove _ _ _)
  have h2 : p.Near c ((q.setChan c { q.chan c with lost := true, parkCause := none, state := .unhomed }).commit c (p.chan c) 0 true) :=
    (near_mod _ _ h0 _ (by rfl) (by rfl) (by exact Nat.le_refl _)).trans (near_commit _ _ _ _ _)
  have h3 : p.Near c ((q.setChan c { q.chan c with lost := true }).commit c (p.chan c) 0 true) :=
    (near_mod _ _ h0 _ (by rfl) (by rfl) (by exact Nat.le_refl _)).trans (near_commit _ _ _ _ _)
  have h4 := h0.trans (near_commit q c (p.chan c) 0 true)
  cases (p.chan c).state with
  | moving => exact h1
  | stopping => exact h1
  | homing => exact h1
  | idle => exact h2
  | parked => exact h2
  | held => exact h3
  | unhomed => exact h4
  | fault => exact h4

theorem near_holdAtRest (p : Part) : p.Near c (p.holdAtRest c) := by
  unfold Part.holdAtRest
  dsimp only
  exact ((near_setChan _ _ (by rfl) (by rfl) (by exact Nat.le_refl _)).trans (near_supersedeQueue _)).trans (near_commit _ _ _ _ _)

theorem near_tripAction (b : Bool) (p : Part) : p.Near c (p.tripAction b c) := by
  unfold Part.tripAction
  split
  all_goals first
    | exact .ite (near_cut _ _) (near_controlledStop _ _)
    | exact near_holdAtRest _
    | exact .refl p

theorem Channel.released_keeps (x : Channel) (b : Bool) :
    (x.released b).params = x.params ∧ (x.released b).pins = x.pins ∧ (x.released b).queue = x.queue := by
  unfold Channel.released
  dsimp only
  cases x.lost with
  | true => exact ⟨rfl, rfl, rfl⟩
  | false =>
    rcases x.heldPark with _ | _ | _
    · exact ⟨rfl, rfl, rfl⟩
    · exact ⟨rfl, rfl, rfl⟩
    · cases b <;> exact ⟨rfl, rfl, rfl⟩

theorem near_leaveHeld (p : Part) : p.Near c (p.leaveHeld c) := by
  unfold Part.leaveHeld
  have h := Channel.released_keeps (p.chan c) p.wantsPark
  exact .ite (((near_setChan _ _ h.1 h.2.1 (by rw [h.2.2])).trans (near_commit _ _ _ _ _)).trans (near_modePark _)) (.refl p)

theorem near_faultNow (p : Part) (cause : ChanFault) : p.Near c (p.faultNow c cause) := by
  unfold Part.faultNow
  exact .ite ((near_setChan _ _ (by rfl) (by rfl) (by exact Nat.le_refl _)).trans (near_faultEntry _ _)) (near_faultEntry _ _)

theorem near_homeFound (p : Part) : p.Near c (p.homeFound c) := by
  unfold Part.homeFound
  split
  · exact (near_setChan _ _ (by rfl) (by rfl) (by exact Nat.le_refl _)).trans (near_endMove _ _ _)
  · exact .refl p

theorem near_inputActs (p : Part) (pin : ChannelPin) : p.Near c (p.inputActs c pin) := by
  unfold Part.inputActs
  dsimp only
  split
  all_goals first
    | exact near_faultNow _ _
    | exact .ite (near_faultNow _ _) (.refl p)
    | exact .ite (.refl p) (near_faultNow _ _)
    | exact near_homeFound _
    | exact .refl p

theorem near_tickChannel (p : Part) : p.Near c (p.tickChannel c) := by
  unfold Part.tickChannel
  dsimp only
  split
  · exact .refl p
  · refine .ite (.refl p) ?_
    split
    · exact (near_setChan _ _ (by rfl) (by rfl) (by exact Nat.le_refl _)).trans (near_commit _ _ _ _ _)
    all_goals first
      | exact .refl p
      | refine .ite ((near_setChan _ _ (by rfl) (by rfl) (by exact Nat.le_refl _)).trans (near_faultNow _ _)) ?_
        split
        · exact (near_setChan _ _ (by rfl) (by rfl) (by exact Nat.le_refl _)).trans (near_endMove _ _ _)
        · exact (near_setChan _ _ (by rfl) (by rfl) (by exact Nat.le_refl _)).trans (near_commit _ _ _ _ _)

end Sys2Proof.Machine
end

