-- ==== Sys2Proof/Laws/Calm.lean ====
section
/-! SUPPORT. What the larger operations can do, said once each: acknowledgements, guards, changes of mode, the binding engine and the
conditioner work within `Part.Calm`. -/

namespace Sys2Proof.Machine

variable {β : Type} {f : Input → β} {p q r : Part}

theorem Part.Calm.refl (p : Part) : p.Calm f p where
  run := rfl
  runstate := rfl
  memerr := rfl
  time := rfl
  clock := rfl
  hostData := rfl
  prot := rfl
  takeQueue := rfl
  lines := fun _ => rfl
  inputs := rfl
  bindings := rfl
  params := fun _ => rfl
  pins := fun _ => rfl
  guards := fun _ => rfl
  empty := rfl
  mem := id
  words := fun _ _ _ => rfl

theorem Part.Calm.trans (a : p.Calm f q) (b : q.Calm f r) : p.Calm f r where
  run := by rw [b.run, a.run]
  runstate := b.runstate.trans a.runstate
  memerr := b.memerr.trans a.memerr
  time := b.time.trans a.time
  clock := b.clock.trans a.clock
  hostData := b.hostData.trans a.hostData
  prot := by rw [b.prot, a.prot]
  takeQueue := b.takeQueue.trans a.takeQueue
  lines := fun l => by rw [b.lines l, a.lines l]
  inputs := b.inputs.trans a.inputs
  bindings := b.bindings.trans a.bindings
  params := fun c => (b.params c).trans (a.params c)
  pins := fun c => (b.pins c).trans (a.pins c)
  guards := fun g => by rw [b.guards g, a.guards g]
  empty := b.empty.trans a.empty
  mem := b.mem ∘ a.mem
  words := fun x hx ho => (b.words x (by rw [Part.reportWord_run a.run]; exact hx)
    (by rw [Part.orderWord_run a.run]; exact ho)).trans (a.words x hx ho)

theorem Part.Calm.ite {a b : Part} {x : Prop} [Decidable x] (ha : p.Calm f a) (hb : p.Calm f b) : p.Calm f (if x then a else b) := by
  split
  · exact ha
  · exact hb

theorem Part.Near.calm {c : Fin 8} (h : p.Near c q) : p.Calm f q where
  run := h.run
  runstate := h.runstate
  memerr := h.memerr
  time := h.time
  clock := h.clock
  hostData := h.hostData
  prot := h.prot
  takeQueue := h.takeQueue
  lines := fun l => by simp only [Part.line, h.lines]
  inputs := by rw [h.inputs]
  bindings := by rw [h.bindings]
  params := fun d => by
    by_cases e : d = c
    · subst e; exact h.params
    · rw [h.others d e]
  pins := fun d => by
    by_cases e : d = c
    · subst e; exact h.pins
    · rw [h.others d e]
  guards := fun g => by simp only [Part.guard, h.guards]
  empty := h.empty
  mem := h.mem
  words := h.words

theorem Part.Told.calm (h : p.Told q) : p.Calm f q := (h.near (c := 0)).calm

theorem Part.Calm.told (a : p.Calm f q) (b : q.Told r) : p.Calm f r := a.trans b.calm

theorem calm_fold {α : Type} (g : Part → α → Part) (hg : ∀ (p : Part) a, p.Calm f (g p a)) (l : List α) (p : Part) :
    p.Calm f (l.foldl g p) := by
  induction l generalizing p with
  | nil => exact .refl p
  | cons a l ih => exact (hg p a).trans (ih _)

theorem calm_eachChannel (p : Part) (g : Fin 8 → Part → Part) (hg : ∀ c (p : Part), p.Calm f (g c p)) : p.Calm f (p.eachChannel g) :=
  calm_fold _ (fun p a => hg a p) _ _

theorem calm_eachGuard (p : Part) (g : Fin 8 → Part → Part) (hg : ∀ c (p : Part), p.Calm f (g c p)) : p.Calm f (p.eachGuard g) :=
  calm_fold _ (fun p a => hg a p) _ _

theorem calm_eachLine (p : Part) (g : Fin 4 → Part → Part) (hg : ∀ c (p : Part), p.Calm f (g c p)) : p.Calm f (p.eachLine g) :=
  calm_fold _ (fun p a => hg a p) _ _

/-! ### Field by field -/

/-- A change of the mode controller's state. -/
theorem calm_setModes (p : Part) (m : Modes) : p.Calm f (p.setModes m) :=
  { Part.Calm.refl p with }

/-- A change of the order taker's state that keeps the take queue. -/
theorem calm_setOrders (p : Part) (o : Orders) (h : o.takeQueue = p.orders.takeQueue) : p.Calm f (p.setOrders o) :=
  { Part.Calm.refl p with takeQueue := h }

/-- A change of an input that `f` does not see. -/
theorem calm_modInput (p : Part) (i : Nat) (g : Input → Input) (hg : ∀ x, p.inputs[i]? = some x → f (g x) = f x) :
    p.Calm f (p.modInput i g) := by
  refine { Part.Calm.refl (f := f) p with inputs := ?_ }
  apply List.ext_getElem?
  intro n
  simp only [Part.modInput, Part.setInputs_inputs, List.getElem?_map, List.getElem?_modify]
  by_cases h : i = n
  · subst h
    cases hx : p.inputs[i]? with
    | none => simp
    | some x => simp [hg x hx]
  · simp [h]

/-- A change of a lockout. -/
theorem calm_modBinding (p : Part) (i : Nat) (g : Binding → Binding) (hg : ∀ b, (g b).entry = b.entry) : p.Calm f (p.modBinding i g) := by
  refine { Part.Calm.refl (f := f) p with bindings := ?_ }
  apply List.ext_getElem?
  intro n
  simp only [Part.modBinding, Part.setBindings_bindings, List.getElem?_map, List.getElem?_modify]
  by_cases h : i = n
  · subst h
    cases p.bindings[i]? with
    | none => simp
    | some x => simp [hg x]
  · simp [h]

/-- A change of a channel that keeps its parameters and pins. -/
theorem calm_setChan (p : Part) (c : Fin 8) (x : Channel) (h1 : x.params = (p.chan c).params) (h2 : x.pins = (p.chan c).pins) :
    p.Calm f (p.setChan c x) := by
  refine { Part.Calm.refl (f := f) p with params := fun d => ?_, pins := fun d => ?_ }
  · by_cases e : d = c
    · subst e; simpa using h1
    · rw [Part.setChan_chan_ne _ e]
  · by_cases e : d = c
    · subst e; simpa using h2
    · rw [Part.setChan_chan_ne _ e]

/-- A change of a guard's state, timers and flags. -/
theorem calm_setGuard (p : Part) (g : Fin 8) (x : Guard)
    (h : x = { p.guard g with state := x.state, filterDue := x.filterDue, clearDue := x.clearDue, acked := x.acked, boarded := x.boarded }) :
    p.Calm f (p.setGuard g x) := by
  refine { Part.Calm.refl (f := f) p with guards := fun d => ?_ }
  by_cases e : d = g
  · subst e; simpa using h
  · rw [Part.setGuard_guard_ne _ e]

/-- A change of a line's polling position and FIFO. -/
theorem calm_setLine (p : Part) (l : Fin 4) (x : Line)
    (h : x = { p.line l with fifo := x.fifo, overrun := x.overrun, exchange := x.exchange, cycleStart := x.cycleStart }) :
    p.Calm f (p.setLine l x) := by
  refine { Part.Calm.refl (f := f) p with lines := fun d => ?_ }
  by_cases e : d = l
  · subst e; simpa using h
  · rw [Part.setLine_line_ne _ e]

/-! ### Slots and channels -/

theorem calm_report (p : Part) (i : Nat) (st : SlotState) (code : Nat) (r : Int) : p.Calm f (p.report i st code r) :=
  (near_report (c := 0) p i st code r).calm

theorem calm_reportDone (p : Part) (i : Nat) (t : Termination) (r : Int) : p.Calm f (p.reportDone i t r) := calm_report _ _ _ _ _

theorem calm_endTake (p : Part) (i : Nat) (t : Termination) (r : Int) : p.Calm f (p.endTake i t r) :=
  (calm_setOrders p { p.orders with taking := none } (by rfl)).trans (calm_reportDone _ _ _ _)

theorem calm_refuse (p : Part) (i : Nat) (t : RefusalCode) (r : Int) : p.Calm f (p.refuse i t r) :=
  (calm_setOrders p { p.orders with taking := none } (by rfl)).trans (calm_report _ _ _ _ _)

theorem calm_controlledStop (p : Part) (c : Fin 8) (t : Termination) : p.Calm f (p.controlledStop c t) := (near_controlledStop p t).calm

theorem calm_modePark (p : Part) (c : Fin 8) : p.Calm f (p.modePark c) := (near_modePark p).calm

theorem calm_leaveHeld (p : Part) (c : Fin 8) : p.Calm f (p.leaveHeld c) := (near_leaveHeld p).calm

theorem calm_commit (p : Part) (c : Fin 8) (b : Channel) (n : Nat) (a : Bool) : p.Calm f (p.commit c b n a) := (told_commit p c b n a).calm

theorem calm_tickChannel (p : Part) (c : Fin 8) : p.Calm f (p.tickChannel c) := (near_tickChannel p).calm

theorem calm_supersedeQueue (p : Part) (c : Fin 8) : p.Calm f (p.supersedeQueue c) := (near_supersedeQueue p).calm

/-! ### Guards -/

theorem calm_modGuard (p : Part) (g : Fin 8) (x : Guard → Guard)
    (h : ∀ y : Guard, x y = { y with state := (x y).state, filterDue := (x y).filterDue, clearDue := (x y).clearDue, acked := (x y).acked, boarded := (x y).boarded }) :
    p.Calm f (p.modGuard g x) := calm_setGuard p g _ (h _)

theorem calm_enterGuard (p : Part) (g : Fin 8) (st : GuardState) (cause : GuardCause) : p.Calm f (p.enterGuard g st cause) :=
  (calm_modGuard p g _ (fun _ => rfl)).told (told_hand _ _)

theorem calm_tripActions (p : Part) (g : Fin 8) : p.Calm f (p.tripActions g) :=
  calm_fold _ (fun q _ => (near_tripAction _ q).calm) _ _

theorem calm_guardTrip (p : Part) (g : Fin 8) (cause : GuardCause) : p.Calm f (p.guardTrip g cause) := by
  unfold Part.guardTrip
  dsimp only
  exact ((((calm_modGuard p g (fun x => { x with acked := false }) (fun _ => rfl)).trans (calm_enterGuard _ _ _ _)).told
    (told_raiseFull _ _ _ _ _)).trans (calm_modGuard _ _ _ (fun _ => rfl))).trans (calm_tripActions _ _)

theorem calm_guardClear (p : Part) (g : Fin 8) (cause : GuardCause) : p.Calm f (p.guardClear g cause) := by
  unfold Part.guardClear
  dsimp only
  have h := calm_modGuard (f := f) p g (fun x => { x with clearDue := none, filterDue := x.filterAtClear p.time }) (fun _ => rfl)
  exact (((h.trans (calm_enterGuard _ _ _ _)).told
    (told_condEnd _ _ _)).trans (calm_fold _ (fun q c => calm_leaveHeld q c) _ _)).trans (calm_modGuard _ _ _ (fun _ => rfl))

theorem calm_clearExpire (p : Part) (g : Fin 8) : p.Calm f (p.clearExpire g) := by
  unfold Part.clearExpire
  dsimp only
  have h := calm_modGuard (f := f) p g (fun x => { x with clearDue := none }) (fun _ => rfl)
  exact .ite (h.trans (calm_guardClear _ _ _)) (h.trans (calm_enterGuard _ _ _ _))

theorem calm_settleGuard (p : Part) (g : Fin 8) (cause : GuardCause) : p.Calm f (p.settleGuard g cause) := by
  unfold Part.settleGuard
  dsimp only
  have h := (calm_modGuard (f := f) p g (fun x => { x with clearDue := some (after p.time (p.guard g).record.clearTime) })
    (fun _ => rfl)).trans (calm_enterGuard _ g .settling cause)
  exact .ite (h.trans (calm_clearExpire _ _)) h

theorem calm_returnToTripped (p : Part) (g : Fin 8) (cause : GuardCause) : p.Calm f (p.returnToTripped g cause) :=
  ((calm_modGuard p g _ (fun _ => rfl)).trans (calm_enterGuard _ _ _ _)).trans (calm_tripActions _ _)

theorem calm_guardTakes (p : Part) (g : Fin 8) (cause : GuardCause) : p.Calm f (p.guardTakes g cause) := by
  unfold Part.guardTakes
  split
  · exact calm_guardTrip _ _ _
  · exact calm_settleGuard _ _ _
  · exact calm_returnToTripped _ _ _
  · exact calm_returnToTripped _ _ _
  · exact .refl p

theorem calm_ackGuard (p : Part) (g : Fin 8) : p.Calm f (p.ackGuard g) := by
  unfold Part.ackGuard
  have h := calm_modGuard (f := f) p g (fun x => { x with acked := true }) (fun _ => rfl)
  split
  · exact .refl p
  · exact h.trans (calm_guardClear _ _ _)
  · exact h

theorem calm_ackEntry (p : Part) (i : Fin 32) (e : Entry) : p.Calm f (p.ackEntry i e) := by
  unfold Part.ackEntry
  dsimp only
  have h := (told_ackBoard p i e).calm (f := f)
  split
  · exact h.trans (calm_ackGuard _ _)
  · exact h

theorem calm_ackIndexes (z : Zone) (l : List (Fin 32)) (b : Bool × Part) : b.2.Calm f (l.foldl (Part.ackIndex z) b).2 := by
  induction l generalizing b with
  | nil => exact .refl _
  | cons i l ih =>
    refine Part.Calm.trans ?_ (ih _)
    unfold Part.ackIndex
    split
    · split
      · exact calm_ackEntry _ _ _
      · exact .refl _
    · exact .refl _

theorem calm_ackZone (p : Part) (z : Zone) : p.Calm f (p.ackZone z) := by
  unfold Part.ackZone
  refine .ite (.refl p) ?_
  dsimp only
  have h := (calm_ackIndexes (f := f) z (List.finRange 32) (false, p)).trans (calm_eachGuard _ (Part.zoneReport z) (fun g q => by
    unfold Part.zoneReport
    exact .ite (calm_ackGuard _ _) (.refl q)))
  exact .ite (h.told (told_restNotice _)) h

/-! ### Polling and modes -/

theorem calm_pollStart (p : Part) (l : Fin 4) (a : Nat) : p.Calm f (p.pollStart l a) := calm_setLine _ _ _ rfl

theorem calm_beginCycle (p : Part) (l : Fin 4) : p.Calm f (p.beginCycle l) := by
  unfold Part.beginCycle
  exact .ite (Part.Calm.trans (calm_setLine _ _ _ (by rfl)) (calm_pollStart _ _ _)) (calm_setLine _ _ _ (by rfl))

theorem calm_endWait (l : Fin 4) (p : Part) : p.Calm f (Part.endWait l p) := by
  unfold Part.endWait
  split
  · exact .ite (calm_beginCycle _ _) (.refl p)
  · exact .refl p

theorem calm_emptyQueue (p : Part) (c : Fin 8) : p.Calm f (p.emptyQueue c) := (calm_supersedeQueue p c).trans (calm_commit _ _ _ _ _)

theorem calm_unpark (p : Part) (c : Fin 8) : p.Calm f (p.unpark c) := by
  unfold Part.unpark
  dsimp only
  exact .ite ((calm_setChan _ _ _ (by rfl) (by rfl)).trans (calm_commit _ _ _ _ _)) (.refl p)

theorem calm_intoRest (p : Part) (c : Fin 8) : p.Calm f (p.intoRest c) := by
  unfold Part.intoRest
  split
  · exact .ite (calm_emptyQueue _ _) (calm_controlledStop _ _ _)
  · exact calm_emptyQueue _ _
  · exact calm_controlledStop _ _ _
  · exact calm_modePark _ _
  all_goals exact calm_emptyQueue _ _

theorem calm_intoOpen (p : Part) (c : Fin 8) : p.Calm f (p.intoOpen c) := by
  unfold Part.intoOpen
  split
  · exact calm_unpark _ _
  · exact .ite (calm_controlledStop _ _ _) (.refl p)
  · exact .ite (calm_controlledStop _ _ _) (.refl p)
  · exact .refl p

theorem calm_aboutService (p : Part) (n : Mode) (c : Fin 8) : p.Calm f (p.aboutService n c) := by
  have h := calm_controlledStop (f := f) p c .superseded
  unfold Part.aboutService
  dsimp only
  split
  · exact h.trans (calm_unpark _ _)
  · exact h.trans (calm_modePark _ _)
  · exact h.trans (calm_modePark _ _)
  · exact h

theorem calm_channelChange (p : Part) (m n : Mode) (c : Fin 8) : p.Calm f (p.channelChange m n c) := by
  unfold Part.channelChange
  split
  · exact calm_aboutService _ _ _
  · exact calm_aboutService _ _ _
  · exact calm_intoOpen _ _
  · exact calm_intoRest _ _
  · exact calm_intoRest _ _

theorem calm_changeMode (p : Part) (n : Mode) (cause : ModeCause) : p.Calm f (p.changeMode n cause) := by
  unfold Part.changeMode
  dsimp only
  have h := ((calm_setModes (f := f) p { p.modes with mode := n, settling := n == .rest || n == .closed }).told
    (told_writeModeNow _)).told (told_hand _ (modeRecord p.modes.mode n cause (n == .rest || n == .closed)
      ((p.setModes { p.modes with mode := n, settling := n == .rest || n == .closed }).writeModeNow).time))
  exact (((h.trans (calm_eachChannel _ _ (fun c q => calm_channelChange q _ _ c))).told (told_settleExam _)).told
    (told_restEval _)).trans (calm_eachLine _ _ (fun l q => calm_endWait l q))

theorem calm_requestDone (p : Part) (r : ModeRequest) (b : Bool) : p.Calm f (p.requestDone r b) := by
  unfold Part.requestDone
  split
  · exact .ite (calm_endTake _ _ _ _) (.refl p)
  · exact .refl p

theorem calm_takeRequest (p : Part) (r : ModeRequest) : p.Calm f (p.takeRequest r) := by
  unfold Part.takeRequest
  exact .ite ((calm_changeMode _ _ _).trans (calm_requestDone _ _ _)) (calm_requestDone _ _ _)

theorem calm_requestNow (p : Part) (r : ModeRequest) : p.Calm f (p.requestNow r) :=
  ((calm_setModes p _).trans (calm_fold _ (fun q r => calm_takeRequest q r) _ _)).trans (calm_takeRequest _ _)

theorem calm_fallSilent (p : Part) : p.Calm f p.fallSilent := by
  unfold Part.fallSilent
  dsimp only
  have h := (calm_setModes (f := f) p { p.modes with silent := true, watchDue := none }).told
    (told_raiseAlert _ .hostSilent .none .all .attend)
  exact .ite (h.trans (calm_setModes _ _)) h

theorem calm_heartbeat (p : Part) : p.Calm f p.heartbeat := by
  unfold Part.heartbeat
  refine .ite (Part.Calm.trans ?_ (calm_setModes _ _)) (.refl p)
  exact .ite ((calm_setModes p { p.modes with silent := false }).told (told_condEnd _ _ _)) (.refl p)

/-! ### The binding engine: `f` does not see the lamp -/

theorem calm_commandLamp (hf : ∀ x lamp, f { x with lamp := lamp } = f x) (p : Part) (i : Nat) (pat : Lamp) (e : Option Time) :
    p.Calm f (p.commandLamp i pat e) := calm_modInput _ _ _ (fun x _ => hf x _)

theorem Channel.retarget_pins (x : Channel) (m : Move) (asked : Int) (b : Bool) :
    (x.retarget m asked b).params = x.params ∧ (x.retarget m asked b).pins = x.pins := by
  unfold Channel.retarget
  split
  · rename_i h
    exact ⟨h.symm ▸ rfl, rfl⟩
  · exact ⟨rfl, rfl⟩

theorem calm_replaceMove (p : Part) (c : Fin 8) (m : Move) : p.Calm f (p.replaceMove c m) := by
  unfold Part.replaceMove
  dsimp only
  have h := calm_supersedeQueue (f := f) p c
  split
  · have h2 : p.Calm f ((p.supersedeQueue c).replaced c) := by
      unfold Part.replaced
      split
      · exact h.trans (near_reportEnd (c := c) _ _ _ _).calm
      · exact h
    have hk := Channel.retarget_pins { ((p.supersedeQueue c).replaced c).chan c with heldMove := none } m
      (m.asked ((p.supersedeQueue c).chan c).s) (((p.supersedeQueue c).replaced c).modes.mode == .service)
    exact (h2.trans (calm_setChan _ _ _ hk.1 hk.2)).trans (calm_commit _ _ _ _ _)
  · exact h.trans (near_giveMove (c := c) _ _).calm

theorem calm_busy (p : Part) (c : Fin 8) (pol : BusyPolicy) (m : Move) : p.Calm f (p.busy c pol m).part := by
  unfold Part.busy
  split
  · exact .refl p
  · dsimp only; exact calm_replaceMove _ _ _
  · dsimp only
    split
    · dsimp only
      exact (calm_setChan _ _ _ (by rfl) (by rfl)).trans (calm_commit _ _ _ _ _)
    · exact .refl p

theorem calm_giveMove (p : Part) (c : Fin 8) (m : Move) : p.Calm f (p.giveMove c m) := (near_giveMove p m).calm

theorem calm_moveTo (p : Part) (e : Nat) (pol : BusyPolicy) (c : Fin 8) (t : Int) (s : Nat) : p.Calm f (p.moveTo e pol c t s).part := by
  unfold Part.moveTo
  dsimp only
  split
  · exact .refl p
  · split
    · dsimp only; exact calm_giveMove _ _ _
    · exact calm_busy _ _ _ _

theorem calm_extend (p : Part) (c : Fin 8) (m : Move) (d : Int) : p.Calm f (p.extend c m d) := by
  unfold Part.extend
  dsimp only
  have hk := Channel.retarget_pins (p.chan c) m ((p.chan c).effective + d) (p.modes.mode == .service)
  exact (calm_setChan _ _ _ hk.1 hk.2).trans (calm_commit _ _ _ _ _)

theorem calm_stepBy (p : Part) (e : Nat) (pol : BusyPolicy) (c : Fin 8) (d : Int) (s : Nat) : p.Calm f (p.stepBy e pol c d s).part := by
  unfold Part.stepBy
  split
  · exact .refl p
  · split
    · dsimp only; exact calm_extend _ _ _ _
    · split
      · dsimp only; exact calm_giveMove _ _ _
      · exact calm_busy _ _ _ _

theorem calm_runHeld (p : Part) (e : Nat) (i : Byte) (c : Fin 8) (t : Int) (s : Nat) : p.Calm f (p.runHeld e i c t s).part := by
  unfold Part.runHeld
  split
  · dsimp only
    exact (calm_setChan _ _ _ (by rfl) (by rfl)).trans (calm_giveMove _ _ _)
  · exact .refl p

theorem calm_act (hf : ∀ x lamp, f { x with lamp := lamp } = f x) (p : Part) (e : Nat) (i : Byte) (b : BindingEntry) :
    p.Calm f (p.act e i b).part := by
  unfold Part.act
  split
  · exact calm_moveTo _ _ _ _ _ _
  · exact calm_runHeld _ _ _ _ _ _
  · exact calm_stepBy _ _ _ _ _ _
  · dsimp only; exact calm_commandLamp hf _ _ _ _
  · dsimp only; exact (told_raiseAlert _ _ _ _ _).calm
  · dsimp only; exact calm_ackZone _ _
  · dsimp only; exact calm_requestNow _ _

theorem calm_turn (hf : ∀ x lamp, f { x with lamp := lamp } = f x) (p : Part) (e : Nat) (i : Byte) (b : BindingEntry)
    (r : EngineReturn) : p.Calm f (p.turn e i b r).part := by
  unfold Part.turn
  have h := calm_modBinding (f := f) p e (fun x => { x with lockout := some (after p.time b.lockout.toNat) }) (fun _ => rfl)
  dsimp only
  split
  · dsimp only
    unfold Part.fallback
    exact .ite h (h.trans (calm_commandLamp hf _ _ _ _))
  · exact h.trans (calm_act hf _ _ _ _)

theorem calm_examine (hf : ∀ x lamp, f { x with lamp := lamp } = f x) (i : Byte) (g : Gesture) (m : Mode) (r : EventResult) (e : Nat) :
    r.part.Calm f (r.examine i g m e).part := by
  unfold EventResult.examine
  split
  · split
    · exact .refl _
    · split
      · exact .refl _
      · exact calm_turn hf _ _ _ _ _
  · exact .refl _

/-- A gesture event works within `Part.Calm`: of the inputs it changes lamps alone. -/
theorem calm_engine (hf : ∀ x lamp, f { x with lamp := lamp } = f x) (p : Part) (i : Byte) (g : Gesture) :
    p.Calm f (p.engine i g).part := by
  unfold Part.engine
  dsimp only
  have h : p.Calm f (if g = .release then p.eachChannel (Part.releaseHeld i) else p) :=
    .ite (calm_eachChannel _ _ (fun c q => by
      unfold Part.releaseHeld
      exact .ite ((calm_setChan _ _ _ (by rfl) (by rfl)).trans (calm_controlledStop _ _ _)) (.refl q))) (.refl p)
  generalize (if g = .release then p.eachChannel (Part.releaseHeld i) else p) = q at h ⊢
  split
  · have : ∀ (l : List Nat) (r : EventResult), r.part.Calm f (l.foldl (EventResult.examine i g p.modes.mode) r).part := by
      intro l
      induction l with
      | nil => exact fun _ => .refl _
      | cons e l ih => exact fun r => (calm_examine hf i g _ r e).trans (ih _)
    exact h.trans (this _ { part := q, ret := .nothing })
  · exact h

/-! ### Inputs -/

theorem calm_deliver (hf : ∀ x lamp, f { x with lamp := lamp } = f x) (p : Part) (i : Nat) (g : Gesture) (b : Bool) (t : Time)
    (tr : Treatment) : p.Calm f (p.deliver i g b t tr) := by
  unfold Part.deliver
  split
  · exact .refl p
  · split
    · exact .refl p
    · exact (told_handPress _ _ _ _).calm
    · exact (calm_engine hf _ _ _).told (told_handPress _ _ _ _)

theorem calm_deliverLater (hf : ∀ x lamp, f { x with lamp := lamp } = f x) (p : Part) (i : Nat) (g : Gesture) (b : Bool) (t : Time) :
    p.Calm f (p.deliverLater i g b t) := by
  unfold Part.deliverLater
  split
  · exact calm_deliver hf _ _ _ _ _ _
  · exact .refl p

theorem Input.storm_d (x : Input) (t : Time) : (x.storm t).d = x.d := by
  simp only [Input.storm]
  repeat' split
  all_goals rfl

/-- A PRESS keeps every input's definition. -/
theorem calm_press (p : Part) (i : Nat) : p.Calm Input.d (p.press i) := by
  unfold Part.press
  split
  · exact .refl p
  · rename_i x0 hx
    dsimp only
    refine Part.Calm.trans ?_ (calm_deliver (fun _ _ => rfl) _ _ _ _ _ _)
    refine Part.Calm.trans ?_ (calm_modInput _ _ _ (by intro _ _; rfl))
    refine Part.Calm.told ?_ (told_writeMap _ _)
    have h1 : p.Calm Input.d (p.modInput i (fun _ => (x0.pressed p.time).storm p.time)) :=
      calm_modInput _ _ _ (fun x h => by
        rw [hx] at h; cases h
        rw [Input.storm_d]; rfl)
    generalize p.modInput i (fun _ => (x0.pressed p.time).storm p.time) = q at h1 ⊢
    generalize (x0.pressed p.time).storm p.time = x
    have h2 : p.Calm Input.d (if x0.suspended.isNone && x.suspended.isSome then
        q.raiseAlert .pressStorm (.input i) (.one x.d.zone) .info else q) := .ite (h1.told (told_raiseAlert _ _ _ _ _)) h1
    generalize (if x0.suspended.isNone && x.suspended.isSome then
        q.raiseAlert .pressStorm (.input i) (.one x.d.zone) .info else q) = r at h2 ⊢
    have h3 : p.Calm Input.d (if x.d.attendant then r else r.restNotice) := .ite h2 (h2.told (told_restNotice _))
    generalize (if x.d.attendant then r else r.restNotice) = t at h3 ⊢
    exact .ite (h3.trans (calm_requestNow _ _)) h3

theorem calm_releaseInput (p : Part) (i : Nat) (b : Bool) : p.Calm Input.d (p.releaseInput i b) :=
  (((calm_modInput p i _ (by intro _ _; rfl)).told (told_writeMap _ _)).trans (calm_deliverLater (fun _ _ => rfl) _ _ _ _ _)).trans
    (calm_modInput _ _ _ (by intro _ _; rfl))

theorem calm_stuckReturn (p : Part) (i : Nat) : p.Calm Input.d (p.stuckReturn i) :=
  ((calm_modInput p i _ (by intro _ _; rfl)).told (told_writeMap _ _)).told (told_condEnd _ _ _)

theorem calm_flip (p : Part) (i : Nat) (s : KeyState) : p.Calm Input.d (p.flip i s) := by
  unfold Part.flip
  split
  · exact calm_press _ _
  · exact calm_releaseInput _ _ _
  · exact calm_releaseInput _ _ _
  · exact calm_stuckReturn _ _
  · exact .refl p

theorem calm_debounce (p : Part) (i : Nat) (b : Bool) : p.Calm Input.d (p.debounce i b) := by
  unfold Part.debounce
  split
  · exact .refl p
  · exact .ite (calm_modInput _ _ _ (by intro _ _; rfl)) (.ite
      ((calm_modInput _ _ _ (by intro _ _; rfl)).trans (calm_flip _ _ _)) (calm_modInput _ _ _ (by intro _ _; rfl)))

/-- A key sample keeps every input's definition, and of the lines nothing but their polling position. -/
theorem calm_sample (p : Part) (l : Fin 4) (a : Nat) (keys : Byte) : p.Calm Input.d (p.sample l a keys) :=
  calm_fold _ (fun q k => by
    unfold Part.sampleKey
    split
    · exact calm_debounce _ _ _
    · exact .refl q) _ _

theorem calm_stuckExpire (p : Part) (i : Nat) (t : Time) : p.Calm Input.d (p.stuckExpire i t) := by
  unfold Part.stuckExpire
  dsimp only
  have h := (((calm_modInput (f := Input.d) p i Input.stopTimers (by intro _ _; rfl)).trans
    (calm_deliverLater (fun _ _ => rfl) _ i .release true t)).trans
    (calm_modInput _ i (fun x => { x with treatment := none, state := .stuck }) (by intro _ _; rfl))).told (told_writeMap _ i)
  split
  · exact h.told (told_raiseAlert _ _ _ _ _)
  · exact h

theorem calm_holdExpire (p : Part) (i : Nat) (x : Input) (d : Time) : p.Calm Input.d (p.holdExpire i x d) := by
  unfold Part.holdExpire
  split
  · exact calm_stuckExpire _ _ _
  · exact ((calm_modInput _ _ _ (by intro _ _; rfl)).told (told_writeMap _ _)).trans (calm_deliverLater (fun _ _ => rfl) _ _ _ _ _)

theorem calm_repeatExpire (p : Part) (i : Nat) (x : Input) (d : Time) : p.Calm Input.d (p.repeatExpire i x d) := by
  unfold Part.repeatExpire
  split
  · exact calm_stuckExpire _ _ _
  · exact (calm_modInput _ _ _ (by intro _ _; rfl)).trans (calm_deliverLater (fun _ _ => rfl) _ _ _ _ _)

theorem calm_stationGone (p : Part) (l : Fin 4) (a : Nat) : p.Calm Input.d (p.stationGone l a) :=
  calm_fold _ (fun q i => by
    unfold Part.inputGone
    split
    · exact .refl q
    · split
      · have h := calm_modInput (f := Input.d) q i (fun y => { y with agree := 0 }) (by intro _ _; rfl)
        dsimp only
        split
        · exact h.trans (calm_releaseInput _ _ _)
        · exact h.trans (calm_releaseInput _ _ _)
        · exact h.trans (calm_stuckReturn _ _)
        · exact h
        · exact h
      · exact .refl q) _ _

end Sys2Proof.Machine
end

