-- ==== Sys2Proof/Laws/Keeps.lean ====
section
/-! SUPPORT. Each operation keeps the part's invariant. `Part.Good K` is the invariant with the guard clause asked only of the pairs
of guard and channel in `K`: within a trip, an application of records or the end of a move the clause is open for some pairs, and the
operation that closes it is the one whose lemma speaks of `Except`. -/

namespace Sys2Proof.Machine

/-- Pairs of a guard and a channel. -/
abbrev Pairs := Fin 8 → Fin 8 → Prop

/-- The pairs whose channel is another than `c`. -/
def Pairs.except (K : Pairs) (c : Fin 8) : Pairs := fun g d => K g d ∧ d ≠ c

/-- The invariant, with its guard clause for the pairs in `K`. -/
structure Part.Good (K : Pairs) (p : Part) : Prop where
  mem : Memory.wf p.mem
  queues : p.QueuesOk
  fifos : p.FifosOk
  layout : ∀ l, p.run.layout = some l → l.valid = true
  guards : ∀ g c, K g c → p.covers g c = true → (p.chan c).state.stilled = true

/-- No guard paired with `c` covers it and is other than CLEAR. -/
def Part.Free (K : Pairs) (p : Part) (c : Fin 8) : Prop := ∀ g, K g c → p.covers g c = false

/-- All pairs. -/
def Pairs.all : Pairs := fun _ _ => True

theorem Part.good_iff (p : Part) : p.Good .all ↔ p.Inv :=
  ⟨fun h => ⟨h.mem, h.queues, h.fifos, h.layout, fun g c => h.guards g c trivial⟩,
   fun h => ⟨h.mem, h.queues, h.fifos, h.layout, fun g c _ => h.guards g c⟩⟩

variable {K : Pairs} {p q : Part} {c : Fin 8}

/-! ### What does not touch the invariant -/

theorem Part.Good.congr (h : p.Good K) (hm : q.mem = p.mem) (hc : q.channels = p.channels) (hl : q.lines = p.lines)
    (hg : q.guards = p.guards) (hr : ∀ l, q.run.layout = some l → p.run.layout = some l) : q.Good K := by
  have chan : ∀ d, q.chan d = p.chan d := fun d => by simp [Part.chan, hc]
  have line : ∀ l, q.line l = p.line l := fun l => by simp [Part.line, hl]
  have covers : ∀ g d, q.covers g d = p.covers g d := fun g d => by simp [Part.covers, Part.guard, hg]
  exact ⟨hm ▸ h.mem, fun d => chan d ▸ h.queues d, fun l => line l ▸ h.fifos l, fun l e => h.layout l (hr l e),
    fun g d k e => chan d ▸ h.guards g d k ((covers g d).symm.trans e)⟩

theorem Part.Good.mono {K' : Pairs} (h : p.Good K) (hk : ∀ g c, K' g c → K g c) : p.Good K' :=
  ⟨h.mem, h.queues, h.fifos, h.layout, fun g c k => h.guards g c (hk g c k)⟩

theorem Part.Good.except (h : p.Good K) (c : Fin 8) : p.Good (K.except c) := h.mono (fun _ _ k => k.1)

theorem Part.covers_guards (h : q.guards = p.guards) (g c : Fin 8) : q.covers g c = p.covers g c := by
  simp only [Part.covers, Part.guard, h]

theorem Part.guarded_guards (h : q.guards = p.guards) (c : Fin 8) : q.guarded c = p.guarded c := by
  simp only [Part.guarded, h]

theorem Part.covers_of_not_guarded (h : p.guarded c = false) (g : Fin 8) : p.covers g c = false := by
  rw [Part.guarded, List.any_eq_false] at h
  have := h (p.guard g) (by simp [Part.guard])
  simpa [Part.covers] using this

theorem Part.free_of_not_guarded (h : p.guarded c = false) : p.Free K c := fun g _ => Part.covers_of_not_guarded h g

theorem Part.Good.told (h : p.Good K) (t : p.Told q) : q.Good K where
  mem := t.mem h.mem
  queues := fun d => by rw [t.channels d]; exact h.queues d
  fifos := fun l => by simp only [Part.line, t.lines]; exact h.fifos l
  layout := by rw [t.run]; exact h.layout
  guards := fun g d k v => by
    rw [t.channels d]
    exact h.guards g d k (by rwa [Part.covers_guards t.guards] at v)

/-- An operation on channel c that leaves it in a state fit for its guards. -/
theorem Part.Good.near (h : p.Good (K.except c)) (n : p.Near c q)
    (hs : ∀ g, K g c → p.covers g c = true → (q.chan c).state.stilled = true) : q.Good K where
  mem := n.mem h.mem
  queues := fun d => by
    by_cases hd : d = c
    · subst hd; exact n.queue.trans (h.queues d)
    · rw [n.others d hd]; exact h.queues d
  fifos := fun l => by simp only [Part.line, n.lines]; exact h.fifos l
  layout := by rw [n.run]; exact h.layout
  guards := fun g d k v => by
    rw [Part.covers_guards n.guards] at v
    by_cases hd : d = c
    · subst hd; exact hs g k v
    · rw [n.others d hd]; exact h.guards g d ⟨k, hd⟩ v

theorem Part.Good.nearStilled (h : p.Good (K.except c)) (n : p.Near c q) (hs : (q.chan c).state.stilled = true) : q.Good K :=
  h.near n (fun _ _ _ => hs)

theorem Part.Good.nearFree (h : p.Good (K.except c)) (n : p.Near c q) (hf : p.Free K c) : q.Good K :=
  h.near n (fun g k v => by rw [hf g k] at v; cases v)

theorem Part.Good.nearSame (h : p.Good K) (n : p.Near c q) (hs : (q.chan c).state = (p.chan c).state) : q.Good K :=
  (h.except c).near n (fun g k v => by rw [hs]; exact h.guards g c k v)

/-- A channel that is not stilled is free. -/
theorem Part.Good.free (h : p.Good K) (hs : (p.chan c).state.stilled = false) : p.Free K c := by
  intro g k
  cases hv : p.covers g c
  · rfl
  · have := h.guards g c k hv
    rw [hs] at this; cases this

theorem Part.Good.setChanExcept (h : p.Good (K.except c)) (x : Channel) (hq : x.queue.length ≤ Config.queueDepth) :
    (p.setChan c x).Good (K.except c) where
  mem := h.mem
  queues := fun d => by
    by_cases hd : d = c
    · subst hd; simpa using hq
    · rw [Part.setChan_chan_ne _ hd]; exact h.queues d
  fifos := h.fifos
  layout := h.layout
  guards := fun g d k v => by
    rw [Part.setChan_chan_ne _ k.2]; exact h.guards g d k v

/-- A change of a channel's registers that keeps its state. -/
theorem Part.Good.setChanSame (h : p.Good K) (x : Channel) (hq : x.queue.length ≤ Config.queueDepth)
    (hs : x.state = (p.chan c).state) : (p.setChan c x).Good K where
  mem := h.mem
  queues := ((h.except c).setChanExcept x hq).queues
  fifos := h.fifos
  layout := h.layout
  guards := fun g d k v => by
    by_cases hd : d = c
    · subst hd; simp only [Part.setChan_chan_self, hs]; exact h.guards g d k v
    · rw [Part.setChan_chan_ne _ hd]; exact h.guards g d k v

theorem Part.Good.ite {a b : Part} {x : Prop} [Decidable x] (ha : a.Good K) (hb : b.Good K) : (if x then a else b).Good K := by
  split
  · exact ha
  · exact hb

theorem Part.Good.fold {α : Type} (f : Part → α → Part) (hf : ∀ (p : Part) a, p.Good K → (f p a).Good K) (l : List α)
    (h : p.Good K) : (l.foldl f p).Good K := by
  induction l generalizing p with
  | nil => exact h
  | cons a l ih => exact ih (hf p a h)

theorem good_eachChannel (f : Fin 8 → Part → Part) (hf : ∀ c (p : Part), p.Good K → (f c p).Good K) (h : p.Good K) :
    (p.eachChannel f).Good K := h.fold _ (fun p a => hf a p) _

theorem good_eachGuard (f : Fin 8 → Part → Part) (hf : ∀ c (p : Part), p.Good K → (f c p).Good K) (h : p.Good K) :
    (p.eachGuard f).Good K := h.fold _ (fun p a => hf a p) _

theorem good_eachLine (f : Fin 4 → Part → Part) (hf : ∀ c (p : Part), p.Good K → (f c p).Good K) (h : p.Good K) :
    (p.eachLine f).Good K := h.fold _ (fun p a => hf a p) _

/-! ### Slots -/

theorem good_setOrders (h : p.Good K) (o : Orders) : (p.setOrders o).Good K := h.congr rfl rfl rfl rfl (fun _ hl => hl)

theorem good_setRun (h : p.Good K) (o : RunControl) (ho : ∀ l, o.layout = some l → p.run.layout = some l) :
    (p.setRun o).Good K := h.congr rfl rfl rfl rfl ho

theorem good_setModes (h : p.Good K) (o : Modes) : (p.setModes o).Good K := h.congr rfl rfl rfl rfl (fun _ hl => hl)

theorem good_setJournal (h : p.Good K) (o : Journal) : (p.setJournal o).Good K := h.congr rfl rfl rfl rfl (fun _ hl => hl)

theorem good_setBoard (h : p.Good K) (o : Board) : (p.setBoard o).Good K := h.congr rfl rfl rfl rfl (fun _ hl => hl)

theorem good_setProt (h : p.Good K) (o : Protection) : (p.setProt o).Good K := h.congr rfl rfl rfl rfl (fun _ hl => hl)

theorem good_setInputs (h : p.Good K) (o : List Input) : (p.setInputs o).Good K := h.congr rfl rfl rfl rfl (fun _ hl => hl)

theorem good_setBindings (h : p.Good K) (o : List Binding) : (p.setBindings o).Good K := h.congr rfl rfl rfl rfl (fun _ hl => hl)

theorem good_setTime (h : p.Good K) (o : Time) : (p.setTime o).Good K := h.congr rfl rfl rfl rfl (fun _ hl => hl)

theorem good_setClock (h : p.Good K) (o : Clock) : (p.setClock o).Good K := h.congr rfl rfl rfl rfl (fun _ hl => hl)

theorem good_setHostData (h : p.Good K) (o : Word) : (p.setHostData o).Good K := h.congr rfl rfl rfl rfl (fun _ hl => hl)

theorem good_modInput (h : p.Good K) (i : Nat) (f : Input → Input) : (p.modInput i f).Good K := good_setInputs h _

theorem good_modBinding (h : p.Good K) (i : Nat) (f : Binding → Binding) : (p.modBinding i f).Good K := good_setBindings h _

/-- A change of every channel that keeps their states and adds no move. -/
theorem good_mapChannels (h : p.Good K) (f : Channel → Channel) (hf : ∀ x, (f x).state = x.state ∧ (f x).queue = x.queue) :
    (p.setChannels (p.channels.map f)).Good K where
  mem := h.mem
  queues := fun d => by rw [Part.chan_mapChannels, (hf _).2]; exact h.queues d
  fifos := h.fifos
  layout := h.layout
  guards := fun g d k v => by rw [Part.chan_mapChannels, (hf _).1]; exact h.guards g d k v

theorem good_issueAll (h : p.Good K) : p.issueAll.Good K := good_mapChannels h _ (fun _ => ⟨rfl, rfl⟩)

theorem good_goTo (h : p.Good K) (us : Nat) : (p.goTo us).Good K :=
  .ite (good_mapChannels (good_setClock h _) _ (fun _ => ⟨rfl, rfl⟩)) h

theorem good_countMs (h : p.Good K) (owed : Bool) : (p.countMs owed).Good K :=
  good_setClock (good_setTime (good_issueAll h) _) _

theorem good_atDue {due : Time} (h : p.Good K) (hd : p.atDue due = some q) : q.Good K := by
  unfold Part.atDue at hd
  split at hd
  · cases hd
  · split at hd
    · cases hd; exact h
    · split at hd
      · cases hd; exact good_countMs h _
      · cases hd

theorem good_atTimer {due : Option Time} (h : p.Good K) (hd : p.atTimer due = some q) : q.Good K := by
  unfold Part.atTimer at hd
  split at hd
  · exact good_atDue h hd
  · cases hd

theorem writeSlot_eq (p : Part) (i k : Nat) (ws : List Word) : ∃ m arm, p.writeSlot i k ws
    = (p.setMem m).setProt { p.prot with injection := { p.prot.injection with armed := arm } } := by
  unfold Part.writeSlot
  split
  · split
    · exact writeAll_eq _ _ _
    · exact ⟨p.mem, p.prot.injection.armed, rfl⟩
  · exact ⟨p.mem, p.prot.injection.armed, rfl⟩

theorem chan_writeSlot (p : Part) (i k : Nat) (ws : List Word) (d : Fin 8) : (p.writeSlot i k ws).chan d = p.chan d := by
  obtain ⟨m, arm, h⟩ := writeSlot_eq p i k ws
  rw [h]; rfl

theorem good_writeSlot (h : p.Good K) (i k : Nat) (ws : List Word) : (p.writeSlot i k ws).Good K := by
  have hm : Memory.wf (p.writeSlot i k ws).mem := by
    unfold Part.writeSlot
    split
    · split
      · exact wf_writeAll _ _ _ h.mem
      · exact h.mem
    · exact h.mem
  obtain ⟨m, arm, he⟩ := writeSlot_eq p i k ws
  rw [he] at hm ⊢
  exact ⟨hm, h.queues, h.fifos, h.layout, h.guards⟩

theorem good_report (h : p.Good K) (i : Nat) (st : SlotState) (code : Nat) (r : Int) : (p.report i st code r).Good K :=
  (good_setOrders (good_writeSlot (good_writeSlot h i 6 _) i 0 _) _).told (told_hand _ _)

theorem good_reportDone (h : p.Good K) (i : Nat) (t : Termination) (r : Int) : (p.reportDone i t r).Good K := good_report h _ _ _ _

theorem good_endTake (h : p.Good K) (i : Nat) (t : Termination) (r : Int) : (p.endTake i t r).Good K :=
  good_reportDone (good_setOrders h _) _ _ _

theorem good_refuse (h : p.Good K) (i : Nat) (t : RefusalCode) (r : Int) : (p.refuse i t r).Good K :=
  good_report (good_setOrders h _) _ _ _ _

theorem good_reportEnd (h : p.Good K) (c : Fin 8) (m : Move) (t : Termination) : (p.reportEnd c m t).Good K := by
  unfold Part.reportEnd
  split
  · exact good_reportDone h _ _ _
  · exact h

/-! ### The state of a channel through its operations -/

theorem state_told (t : p.Told q) : (q.chan c).state = (p.chan c).state := by rw [t.channels c]

theorem state_report (i : Nat) (st : SlotState) (code : Nat) (r : Int) : ((p.report i st code r).chan c).state = (p.chan c).state := by
  refine (state_told (told_hand _ _)).trans ?_
  show (((p.writeSlot i 6 _).writeSlot i 0 _).chan c).state = _
  rw [chan_writeSlot, chan_writeSlot]

theorem state_reportEnd (d : Fin 8) (m : Move) (t : Termination) : ((p.reportEnd d m t).chan c).state = (p.chan c).state := by
  unfold Part.reportEnd
  split
  · exact state_report _ _ _ _
  · rfl

theorem state_reports (l : List Move) (d : Fin 8) (t : Termination) :
    ((l.foldl (fun q m => Part.reportEnd q d m t) p).chan c).state = (p.chan c).state := by
  induction l generalizing p with
  | nil => rfl
  | cons m l ih => exact ih.trans (state_reportEnd _ _ _)

theorem state_supersedeQueue (c : Fin 8) : ((p.supersedeQueue c).chan c).state = (p.chan c).state := by
  unfold Part.supersedeQueue
  dsimp only
  rw [state_reports]
  simp

theorem state_commit (d : Fin 8) (b : Channel) (n : Nat) (a : Bool) : ((p.commit d b n a).chan c).state = (p.chan c).state :=
  state_told (told_commit _ _ _ _ _)

theorem state_faultEntry (p : Part) (c : Fin 8) (cause : ChanFault) : ((p.faultEntry c cause).chan c).state = .fault := by
  unfold Part.faultEntry
  dsimp only
  rw [state_commit, state_told (told_raiseAlert _ _ _ _ _), Part.setChan_chan_self]
  rfl

/-! ### Moves -/

theorem good_supersedeQueue (h : p.Good K) (c : Fin 8) : (p.supersedeQueue c).Good K :=
  h.nearSame (near_supersedeQueue p) (state_supersedeQueue c)

theorem good_commit (h : p.Good K) (d : Fin 8) (b : Channel) (n : Nat) (a : Bool) : (p.commit d b n a).Good K :=
  h.told (told_commit _ _ _ _ _)

theorem good_faultEntry (h : p.Good (K.except c)) (cause : ChanFault) : (p.faultEntry c cause).Good K :=
  h.nearStilled (near_faultEntry p cause) (by rw [state_faultEntry]; rfl)

theorem good_faultNow (h : p.Good (K.except c)) (cause : ChanFault) : (p.faultNow c cause).Good K := by
  unfold Part.faultNow
  split
  · exact good_faultEntry (h.setChanExcept _ (by exact h.queues c)) _
  · exact good_faultEntry h _

theorem state_ends_guarded (hg : p.guarded c = true) (n : Nat) (before : Channel) (t : Termination) :
    ((p.moveEvent (n + 1) c before (.ends t)).chan c).state = .held := by
  simp only [Part.moveEvent]
  rw [if_pos (by rw [Part.guarded_guards (near_finishMove (c := c) p t).guards]; exact hg)]
  rw [state_commit, state_supersedeQueue, Part.setChan_chan_self]

/-- With a guard on the channel, a move's end leaves it HELD. -/
theorem state_endMove_guarded (hg : p.guarded c = true) (before : Channel) (t : Termination) :
    ((p.endMove c before t).chan c).state = .held := state_ends_guarded hg _ before t

/-- A move's end leaves the channel fit for its guards. -/
theorem good_endMove (h : p.Good (K.except c)) (before : Channel) (t : Termination) : (p.endMove c before t).Good K := by
  cases hg : p.guarded c
  · exact h.nearFree (near_endMove _ _ _) (Part.free_of_not_guarded hg)
  · exact h.nearStilled (near_endMove _ _ _) (by rw [state_endMove_guarded hg]; rfl)

theorem good_giveMove (h : p.Good (K.except c)) (hf : p.Free K c) (m : Move) : (p.giveMove c m).Good K :=
  h.nearFree (near_giveMove _ _) hf

theorem good_modePark (h : p.Good K) (c : Fin 8) : (p.modePark c).Good K := by
  unfold Part.modePark
  split
  · split
    · rename_i hs
      exact good_giveMove (h.except c) (h.free (by rw [hs.1]; rfl)) _
    · exact h
  · exact h

/-- A controlled stop of a channel in motion closes the guard clause for it. -/
theorem good_controlledStop_motion (h : p.Good (K.except c)) (hm : (p.chan c).state.inMotion = true) (t : Termination) :
    (p.controlledStop c t).Good K := by
  unfold Part.controlledStop
  have hq : (p.supersedeQueue c).Good (K.except c) := good_supersedeQueue h c
  have hss := state_supersedeQueue (p := p) c
  generalize p.supersedeQueue c = q at hq hss ⊢
  dsimp only
  cases hs : (p.chan c).state with
  | moving =>
    exact ((hq.setChanExcept _ (by exact hq.queues c)).nearStilled (.refl _) (by simp [Channel.stopBegun]; rfl)).told (told_commit _ _ _ _ _)
  | homing => exact good_endMove (hq.setChanExcept _ (by exact hq.queues c)) _ _
  | stopping =>
    have hx : ((q.chan c).stopAgain t).state = .stopping ∧ ((q.chan c).stopAgain t).queue = (q.chan c).queue := by
      unfold Channel.stopAgain
      split
      · exact ⟨by rw [← hs, ← hss], rfl⟩
      · exact ⟨by rw [← hs, ← hss], rfl⟩
    exact ((hq.setChanExcept _ (by rw [hx.2]; exact hq.queues c)).nearStilled (.refl _) (by simp [hx.1]; rfl)).told
      (told_commit _ _ _ _ _)
  | idle => rw [hs] at hm; cases hm
  | parked => rw [hs] at hm; cases hm
  | unhomed => rw [hs] at hm; cases hm
  | held => rw [hs] at hm; cases hm
  | fault => rw [hs] at hm; cases hm

theorem good_controlledStop (h : p.Good K) (c : Fin 8) (t : Termination) : (p.controlledStop c t).Good K := by
  cases hm : (p.chan c).state.inMotion
  · unfold Part.controlledStop
    have hq : ((p.supersedeQueue c).commit c (p.chan c) 0 false).Good K := good_commit (good_supersedeQueue h c) _ _ _ _
    dsimp only
    cases hs : (p.chan c).state with
    | moving => rw [hs] at hm; cases hm
    | homing => rw [hs] at hm; cases hm
    | stopping => rw [hs] at hm; cases hm
    | idle => exact hq
    | parked => exact hq
    | unhomed => exact hq
    | held => exact hq
    | fault => exact hq
  · exact good_controlledStop_motion (h.except c) hm t

/-- A cut closes the guard clause for its channel. -/
theorem good_cut (h : p.Good (K.except c)) (t : Termination) : (p.cut c t).Good K := by
  unfold Part.cut
  have hq : ((p.setChan c { p.chan c with en := false }).supersedeQueue c).Good (K.except c) :=
    good_supersedeQueue (h.setChanExcept _ (by exact h.queues c)) c
  have hss : (((p.setChan c { p.chan c with en := false }).supersedeQueue c).chan c).state = (p.chan c).state := by
    rw [state_supersedeQueue]; simp
  dsimp only
  generalize (p.setChan c { p.chan c with en := false }).supersedeQueue c = q at hq hss ⊢
  have h1 := good_endMove (hq.setChanExcept { (q.chan c).halt with lost := true } (by exact hq.queues c)) (p.chan c) t
  have h2 := ((hq.setChanExcept { q.chan c with lost := true, parkCause := none, state := .unhomed } (by exact hq.queues c)).nearStilled
    (.refl _) (by simp; rfl)).told (told_commit _ c (p.chan c) 0 true)
  have h3 : ∀ (x : Part), x.Good (K.except c) → (x.chan c).state.stilled = true → (x.commit c (p.chan c) 0 true).Good K :=
    fun x hx hst => (hx.nearStilled (.refl _) hst).told (told_commit _ _ _ _ _)
  cases hs : (p.chan c).state with
  | moving => exact h1
  | homing => exact h1
  | stopping => exact h1
  | idle => exact h2
  | parked => exact h2
  | held => exact h3 _ (hq.setChanExcept _ (by exact hq.queues c)) (by simp [hss, hs]; rfl)
  | unhomed => exact h3 _ hq (by rw [hss, hs]; rfl)
  | fault => exact h3 _ hq (by rw [hss, hs]; rfl)

theorem good_holdAtRest (h : p.Good (K.except c)) : (p.holdAtRest c).Good K := by
  unfold Part.holdAtRest
  dsimp only
  have h1 := (h.setChanExcept { p.chan c with state := .held, heldPark := (p.chan c).parkCause, parkCause := none }
    (h.queues c)).nearStilled (.refl _) (by simp; rfl)
  exact good_commit (good_supersedeQueue h1 c) _ _ _ _

/-- The trip action closes the guard clause for its channel. -/
theorem good_tripAction (h : p.Good (K.except c)) (b : Bool) : (p.tripAction b c).Good K := by
  unfold Part.tripAction
  have hm : (p.chan c).state.inMotion = true → (if b = true then p.cut c .guarded else p.controlledStop c .guarded).Good K := by
    intro hm
    split
    · exact good_cut h _
    · exact good_controlledStop_motion h hm _
  cases hs : (p.chan c).state with
  | moving => exact hm (by rw [hs]; rfl)
  | homing => exact hm (by rw [hs]; rfl)
  | stopping => exact hm (by rw [hs]; rfl)
  | idle => exact good_holdAtRest h
  | parked => exact good_holdAtRest h
  | held => exact h.nearStilled (.refl _) (by rw [hs]; rfl)
  | unhomed => exact h.nearStilled (.refl _) (by rw [hs]; rfl)
  | fault => exact h.nearStilled (.refl _) (by rw [hs]; rfl)

theorem good_tripFold (l : List (Fin 8)) (b : Bool) {p : Part} (h : p.Good (fun g d => K g d ∧ d ∉ l)) :
    (l.foldl (Part.tripAction b) p).Good K := by
  induction l generalizing p with
  | nil => exact h.mono (fun g d k => ⟨k, by simp⟩)
  | cons c l ih =>
    refine ih (good_tripAction (c := c) (h.mono ?_) b)
    rintro g d ⟨⟨k, hl⟩, hd⟩
    exact ⟨k, by simp [hd, hl]⟩

/-- The trip actions of a guard close the guard clause for every channel it covers. -/
theorem good_tripActions (g : Fin 8) (h : p.Good (fun g' d => K g' d ∧ g' ≠ g)) : (p.tripActions g).Good K := by
  unfold Part.tripActions
  refine good_tripFold _ _ ⟨h.mem, h.queues, h.fifos, h.layout, ?_⟩
  rintro g' d ⟨k, hd⟩ v
  by_cases hg : g' = g
  · subst hg
    refine absurd ?_ hd
    simp only [Part.covers, Bool.and_eq_true] at v
    simp [maskChannels, v.1.2]
  · exact h.guards g' d ⟨k, hg⟩ v

theorem good_leaveHeld (h : p.Good K) (c : Fin 8) : (p.leaveHeld c).Good K := by
  unfold Part.leaveHeld
  dsimp only
  split
  · rename_i hs
    have hk := Channel.released_keeps (p.chan c) p.wantsPark
    have hf : p.Free K c := Part.free_of_not_guarded hs.2
    refine good_modePark (good_commit ?_ _ _ _ _) _
    exact (h.except c).nearFree (near_setChan _ _ hk.1 hk.2.1 (by rw [hk.2.2])) hf
  · exact h

theorem good_homeFound (h : p.Good K) (c : Fin 8) : (p.homeFound c).Good K := by
  unfold Part.homeFound
  split
  · exact good_endMove ((h.except c).setChanExcept _ (by exact h.queues c)) _ _
  · exact h

theorem good_inputActs (h : p.Good K) (c : Fin 8) (pin : ChannelPin) : (p.inputActs c pin).Good K := by
  unfold Part.inputActs
  have faults := fun cause => good_faultNow (h.except c) cause
  dsimp only
  split
  all_goals first
    | exact faults _
    | exact .ite (faults _) h
    | exact .ite h (faults _)
    | exact good_homeFound h c
    | exact h

theorem good_inputChange (h : p.Good K) (c : Fin 8) (pin : ChannelPin) (level : Bool) :
    (p.inputChange c pin level).Good K := by
  unfold Part.inputChange
  dsimp only
  refine .ite h ?_
  have h1 := h.setChanSame (c := c) { p.chan c with pins := (p.chan c).pins.put pin level } (h.queues c) rfl
  exact .ite (.ite (good_inputActs (good_commit h1 _ _ _ _) _ _) (good_commit h1 _ _ _ _)) h1

theorem good_tickChannel (h : p.Good K) (c : Fin 8) : (p.tickChannel c).Good K := by
  unfold Part.tickChannel
  dsimp only
  split
  · exact h
  · rename_i pr _
    refine .ite h ?_
    have hm : (if (p.chan c).limitAhead = true then (p.setChan c ((p.chan c).pulsed (p.chan c).prof)).faultNow c .limit
        else match ((p.chan c).profileTick pr).ended with
          | some t => (p.setChan c ((p.chan c).ticked ((p.chan c).profileTick pr).prof).issueAll).endMove c (p.chan c) t
          | none => (p.setChan c ((p.chan c).ticked ((p.chan c).profileTick pr).prof)).commit c (p.chan c) 0 false).Good K := by
      refine .ite (good_faultNow ((h.except c).setChanExcept _ (by exact h.queues c)) _) ?_
      split
      · exact good_endMove ((h.except c).setChanExcept _ (by exact h.queues c)) _ _
      · exact good_commit (h.setChanSame _ (by exact h.queues c) (by rfl)) _ _ _ _
    split
    · exact good_commit (h.setChanSame _ (by exact h.queues c) (by rfl)) _ _ _ _
    · exact hm
    · exact hm
    · exact h

/-! ### Guards -/

theorem good_setGuardExcept (h : p.Good (fun g' d => K g' d ∧ g' ≠ g)) (x : Guard) :
    (p.setGuard g x).Good (fun g' d => K g' d ∧ g' ≠ g) where
  mem := h.mem
  queues := h.queues
  fifos := h.fifos
  layout := h.layout
  guards := fun g' d k v => by
    refine h.guards g' d k ?_
    simpa only [Part.covers, Part.setGuard_guard_ne p k.2] using v

/-- A change of a guard that makes it cover no more than before. -/
theorem good_setGuard (h : p.Good K) (g : Fin 8) (x : Guard) (hr : x.record = (p.guard g).record)
    (hs : x.state = .clear ∨ (p.guard g).state ≠ .clear) : (p.setGuard g x).Good K where
  mem := h.mem
  queues := h.queues
  fifos := h.fifos
  layout := h.layout
  guards := fun g' d k v => by
    refine h.guards g' d k ?_
    by_cases hg : g' = g
    · subst hg
      simp only [Part.covers, Part.setGuard_guard_self, hr, Bool.and_eq_true, bne_iff_ne, ne_eq] at v ⊢
      rcases hs with hs | hs
      · exact absurd hs v.2
      · exact ⟨v.1, hs⟩
    · simpa only [Part.covers, Part.setGuard_guard_ne p hg] using v

/-- A change of a guard that keeps its record and state. -/
theorem good_setGuardSame (h : p.Good K) (g : Fin 8) (x : Guard) (hr : x.record = (p.guard g).record)
    (hs : x.state = (p.guard g).state) : (p.setGuard g x).Good K :=
  good_setGuard h g x hr (by rw [hs]; exact em _)

theorem good_enterGuard (h : p.Good K) (g : Fin 8) (st : GuardState) (cause : GuardCause)
    (hs : st = .clear ∨ (p.guard g).state ≠ .clear) : (p.enterGuard g st cause).Good K :=
  (good_setGuard h g _ (by rfl) hs).told (told_hand _ _)

theorem guard_told (t : p.Told q) (g : Fin 8) : q.guard g = p.guard g := by simp only [Part.guard, t.guards]

/-- A trip closes the guard clause for its guard. -/
theorem good_guardTrip_closes (g : Fin 8) (h : p.Good (fun g' d => K g' d ∧ g' ≠ g)) (cause : GuardCause) :
    (p.guardTrip g cause).Good K := by
  unfold Part.guardTrip
  dsimp only
  refine good_tripActions g ?_
  refine good_setGuardExcept (g := g) ?_ _
  refine Part.Good.told ?_ (told_raiseFull _ _ _ _ _)
  refine Part.Good.told ?_ (told_hand _ _)
  exact good_setGuardExcept (good_setGuardExcept h _) _

theorem good_guardTrip (h : p.Good K) (g : Fin 8) (cause : GuardCause) : (p.guardTrip g cause).Good K :=
  good_guardTrip_closes g (h.mono (fun _ _ k => k.1)) cause

theorem good_guardClear (h : p.Good K) (g : Fin 8) (cause : GuardCause) : (p.guardClear g cause).Good K := by
  unfold Part.guardClear
  dsimp only
  refine good_setGuardSame (Part.Good.fold _ (fun p c hp => good_leaveHeld hp c) _ (Part.Good.told ?_ (told_condEnd _ _ _))) g _ (by rfl) (by rfl)
  exact good_enterGuard (good_setGuardSame h g _ (by rfl) (by rfl)) g _ _ (.inl rfl)

theorem good_clearExpire (h : p.Good K) (g : Fin 8) (hs : (p.guard g).state ≠ .clear) : (p.clearExpire g).Good K := by
  unfold Part.clearExpire
  dsimp only
  refine .ite (good_guardClear (good_setGuardSame h g _ (by rfl) (by rfl)) _ _) ?_
  exact good_enterGuard (good_setGuardSame h g _ (by rfl) (by rfl)) g _ _ (.inr (by simpa [Part.modGuard] using hs))

theorem good_settleGuard (h : p.Good K) (g : Fin 8) (cause : GuardCause) (hs : (p.guard g).state ≠ .clear) :
    (p.settleGuard g cause).Good K := by
  unfold Part.settleGuard
  dsimp only
  have h1 := good_enterGuard (good_setGuardSame h g { p.guard g with clearDue := some (after p.time (p.guard g).record.clearTime) }
    rfl rfl) g .settling cause (.inr (by simp [hs]))
  refine .ite (good_clearExpire h1 g ?_) h1
  unfold Part.enterGuard
  rw [guard_told (told_hand _ _)]
  simp [Part.modGuard]

theorem good_returnToTripped (h : p.Good K) (g : Fin 8) (cause : GuardCause) : (p.returnToTripped g cause).Good K := by
  unfold Part.returnToTripped
  refine good_tripActions g ?_
  refine Part.Good.told ?_ (told_hand _ _)
  exact good_setGuardExcept (good_setGuardExcept (h.mono (fun _ _ k => k.1)) _) _

theorem good_guardTakes (h : p.Good K) (g : Fin 8) (cause : GuardCause) : (p.guardTakes g cause).Good K := by
  unfold Part.guardTakes
  split
  · exact good_guardTrip h _ _
  · exact good_settleGuard h _ _ (by simp_all)
  · exact good_returnToTripped h _ _
  · exact good_returnToTripped h _ _
  · exact h

theorem good_ackGuard (h : p.Good K) (g : Fin 8) : (p.ackGuard g).Good K := by
  unfold Part.ackGuard
  split
  · exact h
  · exact good_guardClear (good_setGuardSame h g _ (by rfl) (by rfl)) _ _
  · exact good_setGuardSame h g _ (by rfl) (by rfl)

theorem good_ackEntry (h : p.Good K) (i : Fin 32) (e : Entry) : (p.ackEntry i e).Good K := by
  unfold Part.ackEntry
  dsimp only
  split
  · exact good_ackGuard (h.told (told_ackBoard _ _ _)) _
  · exact h.told (told_ackBoard _ _ _)

theorem good_ackIndexes (z : Zone) (l : List (Fin 32)) (r : Bool × Part) (h : r.2.Good K) :
    (l.foldl (Part.ackIndex z) r).2.Good K := by
  induction l generalizing r with
  | nil => exact h
  | cons i l ih =>
    refine ih _ ?_
    unfold Part.ackIndex
    split
    · split
      · exact good_ackEntry h _ _
      · exact h
    · exact h

theorem good_ackZone (h : p.Good K) (z : Zone) : (p.ackZone z).Good K := by
  unfold Part.ackZone
  refine .ite h ?_
  dsimp only
  have h1 := good_ackIndexes z (List.finRange 32) (false, p) h
  have h2 := good_eachGuard (K := K) (Part.zoneReport z) (fun g q hq => by
    unfold Part.zoneReport
    exact .ite (good_ackGuard hq _) hq) h1
  exact .ite (h2.told (told_restNotice _)) h2

/-! ### Lines -/

theorem good_setLines (h : p.Good K) (v : Vector Line 4) (hv : ∀ l : Fin 4, v[l].fifo.length ≤ Config.fifoDepth) :
    (p.setLines v).Good K := ⟨h.mem, h.queues, hv, h.layout, h.guards⟩

theorem good_modLine (h : p.Good K) (l : Fin 4) (f : Line → Line)
    (hf : (f (p.line l)).fifo.length ≤ Config.fifoDepth) : (p.modLine l f).Good K where
  mem := h.mem
  queues := h.queues
  fifos := fun d => by
    unfold Part.modLine
    by_cases hd : d = l
    · subst hd; simpa using hf
    · rw [Part.setLine_line_ne _ hd]; exact h.fifos d
  layout := h.layout
  guards := h.guards

theorem good_pollStart (h : p.Good K) (l : Fin 4) (a : Nat) : (p.pollStart l a).Good K := good_modLine h _ _ (Nat.zero_le _)

theorem good_beginCycle (h : p.Good K) (l : Fin 4) : (p.beginCycle l).Good K := by
  unfold Part.beginCycle
  exact .ite (good_pollStart (good_modLine h _ _ (h.fifos l)) _ _) (good_modLine h _ _ (h.fifos l))

theorem good_endWait (h : p.Good K) (l : Fin 4) : (Part.endWait l p).Good K := by
  unfold Part.endWait
  split
  · exact .ite (good_beginCycle h _) h
  · exact h

/-! ### Modes -/

theorem good_emptyQueue (h : p.Good K) (c : Fin 8) : (p.emptyQueue c).Good K := good_commit (good_supersedeQueue h c) _ _ _ _

theorem good_unpark (h : p.Good K) (c : Fin 8) : (p.unpark c).Good K := by
  unfold Part.unpark
  dsimp only
  split
  · rename_i hs
    exact good_commit ((h.except c).nearFree (near_setChan _ _ (by rfl) (by rfl) (by exact Nat.le_refl _)) (h.free (by rw [hs.1]; rfl)))
      _ _ _ _
  · exact h

theorem good_intoRest (h : p.Good K) (c : Fin 8) : (p.intoRest c).Good K := by
  unfold Part.intoRest
  split
  · exact .ite (good_emptyQueue h _) (good_controlledStop h _ _)
  · exact good_emptyQueue h _
  · exact good_controlledStop h _ _
  · exact good_modePark h _
  all_goals exact good_emptyQueue h _

theorem good_intoOpen (h : p.Good K) (c : Fin 8) : (p.intoOpen c).Good K := by
  unfold Part.intoOpen
  split
  · exact good_unpark h _
  · exact .ite (good_controlledStop h _ _) h
  · exact .ite (good_controlledStop h _ _) h
  · exact h

theorem good_aboutService (h : p.Good K) (n : Mode) (c : Fin 8) : (p.aboutService n c).Good K := by
  have h1 := good_controlledStop h c .superseded
  unfold Part.aboutService
  dsimp only
  split
  · exact good_unpark h1 _
  · exact good_modePark h1 _
  · exact good_modePark h1 _
  · exact h1

theorem good_channelChange (h : p.Good K) (m n : Mode) (c : Fin 8) : (p.channelChange m n c).Good K := by
  unfold Part.channelChange
  split
  · exact good_aboutService h _ _
  · exact good_aboutService h _ _
  · exact good_intoOpen h _
  · exact good_intoRest h _
  · exact good_intoRest h _

theorem good_changeMode (h : p.Good K) (n : Mode) (cause : ModeCause) : (p.changeMode n cause).Good K := by
  unfold Part.changeMode
  dsimp only
  refine good_eachLine _ (fun l q hq => good_endWait hq l) (Part.Good.told (Part.Good.told ?_ (told_settleExam _)) (told_restEval _))
  refine good_eachChannel _ (fun c q hq => good_channelChange hq _ _ c) (Part.Good.told (Part.Good.told ?_ (told_writeModeNow _)) (told_hand _ _))
  exact good_setModes h _

theorem good_requestDone (h : p.Good K) (r : ModeRequest) (b : Bool) : (p.requestDone r b).Good K := by
  unfold Part.requestDone
  split
  · exact .ite (good_endTake h _ _ _) h
  · exact h

theorem good_takeRequest (h : p.Good K) (r : ModeRequest) : (p.takeRequest r).Good K := by
  unfold Part.takeRequest
  exact .ite (good_requestDone (good_changeMode h _ _) _ _) (good_requestDone h _ _)

theorem good_requestNow (h : p.Good K) (r : ModeRequest) : (p.requestNow r).Good K :=
  good_takeRequest (Part.Good.fold _ (fun _ r hq => good_takeRequest hq r) _ (good_setModes h _)) _

theorem good_fallSilent (h : p.Good K) : p.fallSilent.Good K := by
  unfold Part.fallSilent
  dsimp only
  have h1 := (good_setModes h { p.modes with silent := true, watchDue := none }).told (told_raiseAlert _ .hostSilent .none .all .attend)
  exact .ite (good_setModes h1 _) h1

theorem good_heartbeat (h : p.Good K) : p.heartbeat.Good K := by
  unfold Part.heartbeat
  refine .ite (good_setModes ?_ _) h
  exact .ite ((good_setModes h _).told (told_condEnd _ _ _)) h

/-! ### Bindings -/

theorem stilled_of_admits (ha : p.admits c = true) : (p.chan c).state.stilled = false := by
  simp only [Part.admits, Bool.and_eq_true, Bool.or_eq_true, beq_iff_eq] at ha
  rcases ha.2 with h | h
  · rw [h]; rfl
  · rw [h.1]; rfl

theorem Channel.retarget_keeps (x : Channel) (m : Move) (asked : Int) (b : Bool) :
    (x.retarget m asked b).state = x.state ∧ (x.retarget m asked b).queue = x.queue := by
  unfold Channel.retarget
  split <;> exact ⟨rfl, rfl⟩

theorem free_guards (hf : p.Free K c) (hg : q.guards = p.guards) : q.Free K c := fun g k => by
  rw [Part.covers_guards hg]; exact hf g k

theorem good_replaceMove (h : p.Good K) (hf : p.Free K c) (m : Move) : (p.replaceMove c m).Good K := by
  unfold Part.replaceMove
  dsimp only
  have h1 := good_supersedeQueue h c
  have n1 := near_supersedeQueue (c := c) p
  split
  · rename_i hs
    have n2 : p.Near c ((p.supersedeQueue c).replaced c) := by
      unfold Part.replaced
      split
      · exact n1.trans (near_reportEnd _ _ _ _)
      · exact n1
    refine good_commit ?_ _ _ _ _
    have h2 : ((p.supersedeQueue c).replaced c).Good K := by
      unfold Part.replaced
      split
      · exact good_reportEnd h1 _ _ _
      · exact h1
    have hk := Channel.retarget_keeps { ((p.supersedeQueue c).replaced c).chan c with heldMove := none } m
      (m.asked ((p.supersedeQueue c).chan c).s) (((p.supersedeQueue c).replaced c).modes.mode == .service)
    exact h2.setChanSame _ (by rw [hk.2]; exact h2.queues c) hk.1
  · exact good_giveMove (h1.except c) (free_guards hf n1.guards) _

theorem good_busy (h : p.Good K) (hf : p.Free K c) (pol : BusyPolicy) (m : Move) : (p.busy c pol m).part.Good K := by
  unfold Part.busy
  split
  · exact h
  · exact good_replaceMove h hf m
  · dsimp only
    split
    · rename_i hq
      dsimp only
      exact good_commit (h.setChanSame _ (by simp only [List.length_append, List.length_singleton]; exact hq) (by rfl)) _ _ _ _
    · exact h

theorem good_moveTo (h : p.Good K) (e : Nat) (pol : BusyPolicy) (c : Fin 8) (t : Int) (s : Nat) :
    (p.moveTo e pol c t s).part.Good K := by
  unfold Part.moveTo
  dsimp only
  split
  · exact h
  · rename_i ha
    have hf : p.Free K c := h.free (stilled_of_admits (by simpa using ha))
    split
    · dsimp only
      exact good_giveMove (h.except c) hf _
    · exact good_busy h hf _ _

theorem good_extend (h : p.Good K) (c : Fin 8) (m : Move) (d : Int) : (p.extend c m d).Good K := by
  unfold Part.extend
  dsimp only
  have hk := Channel.retarget_keeps (p.chan c) m ((p.chan c).effective + d) (p.modes.mode == .service)
  exact good_commit (h.setChanSame _ (by rw [hk.2]; exact h.queues c) hk.1) _ _ _ _

theorem good_stepBy (h : p.Good K) (e : Nat) (pol : BusyPolicy) (c : Fin 8) (d : Int) (s : Nat) :
    (p.stepBy e pol c d s).part.Good K := by
  unfold Part.stepBy
  split
  · exact h
  · rename_i ha
    have hf : p.Free K c := h.free (stilled_of_admits (by simpa using ha))
    split
    · exact good_extend h _ _ _
    · split
      · dsimp only
        exact good_giveMove (h.except c) hf _
      · exact good_busy h hf _ _

theorem good_runHeld (h : p.Good K) (e : Nat) (i : Byte) (c : Fin 8) (t : Int) (s : Nat) : (p.runHeld e i c t s).part.Good K := by
  unfold Part.runHeld
  split
  · rename_i ha
    simp only [Bool.and_eq_true] at ha
    have hf : p.Free K c := h.free (stilled_of_admits ha.1)
    dsimp only
    exact good_giveMove ((h.except c).setChanExcept _ (by exact h.queues c)) (free_guards hf (by rfl)) _
  · exact h

theorem good_act (h : p.Good K) (e : Nat) (i : Byte) (b : BindingEntry) : (p.act e i b).part.Good K := by
  unfold Part.act
  split
  · exact good_moveTo h _ _ _ _ _
  · exact good_runHeld h _ _ _ _ _
  · exact good_stepBy h _ _ _ _ _
  · dsimp only
    exact good_modInput h _ _
  · dsimp only
    exact h.told (told_raiseAlert _ _ _ _ _)
  · dsimp only
    exact good_ackZone h _
  · dsimp only
    exact good_requestNow h _

theorem good_turn (h : p.Good K) (e : Nat) (i : Byte) (b : BindingEntry) (r : EngineReturn) : (p.turn e i b r).part.Good K := by
  unfold Part.turn
  have h1 := good_modBinding h e (fun x => { x with lockout := some (after p.time b.lockout.toNat) })
  dsimp only
  split
  · dsimp only
    unfold Part.fallback
    exact .ite h1 (good_modInput h1 _ _)
  · exact good_act h1 _ _ _

theorem good_examine (i : Byte) (g : Gesture) (m : Mode) (r : EventResult) (e : Nat) (h : r.part.Good K) :
    (r.examine i g m e).part.Good K := by
  unfold EventResult.examine
  split
  · split
    · exact h
    · split
      · exact h
      · exact good_turn h _ _ _ _
  · exact h

theorem good_releaseHeld (i : Byte) (c : Fin 8) (p : Part) (h : p.Good K) : (p.releaseHeld i c).Good K := by
  unfold Part.releaseHeld
  exact .ite (good_controlledStop (h.setChanSame _ (by exact h.queues c) (by rfl)) _ _) h

theorem good_engine (h : p.Good K) (i : Byte) (g : Gesture) : (p.engine i g).part.Good K := by
  unfold Part.engine
  dsimp only
  have h1 : (if g = .release then p.eachChannel (Part.releaseHeld i) else p).Good K :=
    .ite (good_eachChannel _ (good_releaseHeld i) h) h
  generalize (if g = .release then p.eachChannel (Part.releaseHeld i) else p) = q at h1 ⊢
  split
  · have : ∀ (l : List Nat) (r : EventResult), r.part.Good K → (l.foldl (EventResult.examine i g p.modes.mode) r).part.Good K := by
      intro l
      induction l with
      | nil => exact fun _ h => h
      | cons e l ih => exact fun r h => ih _ (good_examine i g _ r e h)
    exact this _ _ h1
  · exact h1

/-! ### Inputs -/

theorem good_writeMap (h : p.Good K) (i : Nat) : (p.writeMap i).Good K := h.told (told_writeMap _ _)

theorem good_handPress (h : p.Good K) (i : Nat) (b : Bool) (r : Record) : (p.handPress i b r).Good K := h.told (told_handPress _ _ _ _)

theorem good_deliver (h : p.Good K) (i : Nat) (g : Gesture) (f : Bool) (t : Time) (tr : Treatment) : (p.deliver i g f t tr).Good K := by
  unfold Part.deliver
  split
  · exact h
  · split
    · exact h
    · exact good_handPress h _ _ _
    · exact good_handPress (good_engine h _ _) _ _ _

theorem good_deliverLater (h : p.Good K) (i : Nat) (g : Gesture) (f : Bool) (t : Time) : (p.deliverLater i g f t).Good K := by
  unfold Part.deliverLater
  split
  · exact good_deliver h _ _ _ _ _
  · exact h

theorem good_press (h : p.Good K) (i : Nat) : (p.press i).Good K := by
  unfold Part.press
  split
  · exact h
  · rename_i x0 _
    dsimp only
    have h1 := good_modInput h i (fun _ => (x0.pressed p.time).storm p.time)
    refine good_deliver (good_modInput (good_writeMap ?_ _) _ _) _ _ _ _ _
    have h2 := fun (b : Prop) [Decidable b] => Part.Good.ite (x := b) (h1.told (told_raiseAlert _ .pressStorm (.input i)
      (.one ((x0.pressed p.time).storm p.time).d.zone) .info)) h1
    have h3 := fun (b d : Prop) [Decidable b] [Decidable d] => Part.Good.ite (x := d) (h2 b) ((h2 b).told (told_restNotice _))
    exact .ite (good_requestNow (h3 _ _) _) (h3 _ _)

theorem good_releaseInput (h : p.Good K) (i : Nat) (f : Bool) : (p.releaseInput i f).Good K :=
  good_modInput (good_deliverLater (good_writeMap (good_modInput h _ _) _) _ _ _ _) _ _

theorem good_stuckReturn (h : p.Good K) (i : Nat) : (p.stuckReturn i).Good K :=
  (good_writeMap (good_modInput h _ _) _).told (told_condEnd _ _ _)

theorem good_flip (h : p.Good K) (i : Nat) (s : KeyState) : (p.flip i s).Good K := by
  unfold Part.flip
  split
  · exact good_press h _
  · exact good_releaseInput h _ _
  · exact good_releaseInput h _ _
  · exact good_stuckReturn h _
  · exact h

theorem good_debounce (h : p.Good K) (i : Nat) (b : Bool) : (p.debounce i b).Good K := by
  unfold Part.debounce
  split
  · exact h
  · exact .ite (good_modInput h _ _) (.ite (good_flip (good_modInput h _ _) _ _) (good_modInput h _ _))

theorem good_sample (h : p.Good K) (l : Fin 4) (a : Nat) (keys : Byte) : (p.sample l a keys).Good K :=
  h.fold _ (fun p k hp => by
    unfold Part.sampleKey
    split
    · exact good_debounce hp _ _
    · exact hp) _

theorem good_stuckExpire (h : p.Good K) (i : Nat) (t : Time) : (p.stuckExpire i t).Good K := by
  unfold Part.stuckExpire
  dsimp only
  have h1 := good_writeMap (good_modInput (good_deliverLater (good_modInput h i Input.stopTimers) i .release true t) i
    (fun x => { x with treatment := none, state := .stuck })) i
  split
  · exact h1.told (told_raiseAlert _ _ _ _ _)
  · exact h1

theorem good_holdExpire (h : p.Good K) (i : Nat) (x : Input) (d : Time) : (p.holdExpire i x d).Good K := by
  unfold Part.holdExpire
  split
  · exact good_stuckExpire h _ _
  · exact good_deliverLater (good_writeMap (good_modInput h _ _) _) _ _ _ _

theorem good_repeatExpire (h : p.Good K) (i : Nat) (x : Input) (d : Time) : (p.repeatExpire i x d).Good K := by
  unfold Part.repeatExpire
  split
  · exact good_stuckExpire h _ _
  · exact good_deliverLater (good_modInput h _ _) _ _ _ _

theorem good_inputTimer (h : p.Good K) (i : Nat) (states : List KeyState) (timer : Input → Option Time)
    (act : Part → Nat → Input → Time → Part) (ha : ∀ (q : Part) i x d, q.Good K → (act q i x d).Good K) :
    (p.inputTimer i states timer act).Good K := by
  unfold Part.inputTimer
  split
  · exact h
  · split
    · split
      · split
        · exact ha _ _ _ _ (good_atDue h ‹_›)
        · exact h
      · exact h
    · exact h

theorem good_stationGone (h : p.Good K) (l : Fin 4) (a : Nat) : (p.stationGone l a).Good K :=
  h.fold _ (fun p i hp => by
    unfold Part.inputGone
    split
    · exact hp
    · split
      · have h1 := good_modInput hp i (fun y => { y with agree := 0 })
        dsimp only
        split
        · exact good_releaseInput h1 _ _
        · exact good_releaseInput h1 _ _
        · exact good_stuckReturn h1 _
        · exact h1
        · exact h1
      · exact hp) _

/-! ### Applications -/

theorem good_writeStations (h : p.Good K) (l : Fin 4) : (p.writeStations l).Good K :=
  h.fold _ (fun _ _ hp => hp.told (told_writeStation _ _ _)) _

theorem good_installInputs (h : p.Good K) (lines : Vector LineRecord 4) (defs : List InputDef) :
    (p.installInputs lines defs).Good K := by
  unfold Part.installInputs
  dsimp only
  refine good_eachLine _ (fun l q hq => good_writeStations hq l) (Part.Good.fold _ (fun _ i hq => good_writeMap hq i) _ ?_)
  exact good_setInputs (good_setLines h _ (fun l => by simp [Line.applied])) _

theorem good_applyInputsGroup (h : p.Good K) (g : InputsGroup) : (p.applyInputsGroup g).Good K := by
  unfold Part.applyInputsGroup
  dsimp only
  refine good_eachLine _ (fun l q hq => good_beginCycle hq l) (good_installInputs (good_eachLine _ ?_ ?_) _ _)
  · intro l q hq
    unfold Part.endLineConditions
    dsimp only
    have h1 : ((List.finRange 12).foldl (Part.endLost l) q).Good K := hq.fold _ (fun q a hq => by
      unfold Part.endLost
      exact .ite (hq.told (told_condEnd _ _ _)) hq) _
    exact .ite (h1.told (told_condEnd _ _ _)) h1
  · refine Part.Good.fold _ ?_ _ (Part.Good.fold _ ?_ _ (Part.Good.fold _ ?_ _ (good_eachLine _ ?_ h)))
    · intro q i hq
      unfold Part.replaceStorm
      split
      · exact hq
      · exact .ite (hq.told (told_condEnd _ _ _)) hq
    · intro q i hq
      unfold Part.replaceStuck
      split
      · exact hq
      · exact .ite ((good_modInput hq _ _).told (told_condEnd _ _ _)) hq
    · intro q i hq
      unfold Part.replaceRelease
      split
      · exact hq
      · exact .ite (good_modInput (good_deliverLater hq _ _ _ _) _ _) hq
    · intro l q hq
      exact good_modLine hq _ _ (Nat.zero_le _)

end Sys2Proof.Machine
end

