-- ==== Sys2Proof/Laws/KeepsRun.lean ====
section
/-! SUPPORT. The configuration groups, the lines, the orders, run control and the window keep the part's invariant. -/

namespace Sys2Proof.Machine

variable {K : Pairs} {p q : Part} {c : Fin 8}

/-! ### Judged reads -/

theorem good_setMem (h : p.Good K) (m : Memory) (hm : Memory.wf m) : (p.setMem m).Good K := ⟨hm, h.queues, h.fifos, h.layout, h.guards⟩

theorem good_storeGood (h : p.Good K) (a : Nat) (w : Word) : (p.storeGood a w).Good K :=
  good_setMem h _ (Memory.store_wf _ _ _ h.mem)

theorem good_storeFrom (h : p.Good K) (b : Bool) (a : Nat) (w : Word) : (p.storeFrom b a w).Good K := by
  unfold Part.storeFrom
  exact .ite (good_setProt (good_setMem h _ (Memory.store_wf _ _ _ h.mem)) _) (good_storeGood h a w)

theorem good_writeRegion (h : p.Good K) (base : Layout → Nat) (ws : List Word) : (p.writeRegion base ws).Good K := by
  unfold Part.writeRegion
  split
  · rename_i l _
    obtain ⟨m, arm, e⟩ := writeAll_eq p (base l) ws
    have := wf_writeAll p (base l) ws h.mem
    rw [e] at this ⊢
    exact ⟨this, h.queues, h.fifos, h.layout, h.guards⟩
  · exact h

theorem good_attend (h : p.Good K) (x : Causes) : (p.setRun { p.run with attention := x }).Good K :=
  good_setRun h _ (by exact fun _ hl => hl)

theorem good_enterRun (h : p.Good K) (st : RunState) : (p.enterRun st).Good K := good_setRun h _ (by exact fun _ hl => hl)

theorem good_correctedRead (h : p.Good K) (agent : Agent) (a : Nat) (w : Word) : (p.correctedRead agent a w).Good K := by
  unfold Part.correctedRead
  dsimp only
  have h1 := (good_setProt (good_storeGood h a w)
    ((p.storeGood a w).prot.noteCorrected (p.storeGood a w).run.captureLast a)).told (told_hand _ (memoryRecord false a agent
      ((p.storeGood a w).setProt ((p.storeGood a w).prot.noteCorrected (p.storeGood a w).run.captureLast a)).time))
  exact .ite (h1.told (told_raiseAlert _ _ _ _ _)) h1

theorem good_uncorrectedRead (h : p.Good K) (agent : Agent) (a : Nat) : (p.uncorrectedRead agent a).Good K := by
  unfold Part.uncorrectedRead
  dsimp only
  exact Part.Good.told (Part.Good.told (good_attend (good_setProt h _) _) (told_hand _ _)) (told_raiseAlert _ _ _ _ _)

theorem good_readWord (h : p.Good K) (agent : Agent) (a : Nat) : (p.readWord agent a).part.Good K := by
  unfold Part.readWord
  dsimp only
  split
  · exact h
  · dsimp only; exact good_correctedRead h _ _ _
  · dsimp only; exact good_uncorrectedRead h _ _
  · dsimp only; exact good_uncorrectedRead h _ _

theorem good_readEvery (h : p.Good K) (agent : Agent) (a n : Nat) : (p.readEvery agent a n).part.Good K := by
  induction n with
  | zero => exact h
  | succ n ih => exact good_readWord ih _ _

theorem good_readUntilBad (h : p.Good K) (agent : Agent) (a n : Nat) : (p.readUntilBad agent a n).part.Good K := by
  induction n with
  | zero => exact h
  | succ n ih =>
    simp only [Part.readUntilBad]
    split
    · exact ih
    · exact good_readWord ih _ _

theorem good_scrub (h : p.Good K) : p.scrub.Good K := by
  unfold Part.scrub
  dsimp only
  refine good_setClock (good_setProt ?_ _) _
  split
  · exact good_storeGood h _ _
  · exact good_readWord h _ _

theorem good_nextMs (h : p.Good K) : p.nextMs.Good K :=
  .ite (good_setClock (good_issueAll h) _) (good_countMs (.ite (good_scrub h) h) _)

/-! ### Applications -/

/-- A guard that covers nothing closes its own guard clause. -/
theorem good_close (g : Fin 8) (h : p.Good (fun g' d => K g' d ∧ g' ≠ g)) (hg : ∀ d, p.covers g d = false) : p.Good K where
  mem := h.mem
  queues := h.queues
  fifos := h.fifos
  layout := h.layout
  guards := fun g' d k v => by
    by_cases e : g' = g
    · subst e; rw [hg d] at v; cases v
    · exact h.guards g' d ⟨k, e⟩ v

theorem covers_of_clear {g : Fin 8} (h : (p.guard g).state = .clear) (d : Fin 8) : p.covers g d = false := by
  simp [Part.covers, h]

theorem covers_of_disabled {g : Fin 8} (h : (p.guard g).record.enable = false) (d : Fin 8) : p.covers g d = false := by
  simp [Part.covers, h]

theorem good_guardKept (g : Fin 8) (h : p.Good (fun g' d => K g' d ∧ g' ≠ g)) (old : GuardRecord) : (p.guardKept g old).Good K := by
  unfold Part.guardKept
  dsimp only
  have h1 := good_guardTakes (good_setGuardExcept h ((p.guard g).reread old p.time)) g .apply
  generalize (p.setGuard g ((p.guard g).reread old p.time)).guardTakes g .apply = q at h1 ⊢
  have h2 : (if (q.guard g).state = .settling ∧ (q.guard g).record.clearTime = 0 then q.clearExpire g else q).Good
      (fun g' d => K g' d ∧ g' ≠ g) := by
    split
    · rename_i hs
      exact good_clearExpire h1 g (by rw [hs.1]; decide)
    · exact h1
  exact good_tripActions g h2

theorem good_guardDisabled (g : Fin 8) (h : p.Good (fun g' d => K g' d ∧ g' ≠ g)) (he : (p.guard g).record.enable = false) :
    (p.guardDisabled g).Good K := by
  unfold Part.guardDisabled
  dsimp only
  split
  · refine good_close g (good_setGuardExcept h _) (covers_of_disabled ?_)
    rw [Part.modGuard, Part.setGuard_guard_self]
    exact he
  · have t := (told_condEnd (p.setGuard g { p.guard g with state := .clear }) .guardTrip (.guard g)).trans
      (told_hand _ (guardRecord g (p.guard g).state .clear .apply p.time))
    refine good_close g (good_setGuardExcept ((good_setGuardExcept h _).told t) _) (covers_of_disabled ?_)
    rw [Part.modGuard, Part.setGuard_guard_self]
    show (Part.guard _ g).record.enable = false
    rw [guard_told t, Part.setGuard_guard_self]
    exact he

theorem good_guardFresh (g : Fin 8) (h : p.Good (fun g' d => K g' d ∧ g' ≠ g)) (hs : (p.guard g).state = .clear)
    (cause : GuardCause) : (p.guardFresh g cause).Good K := by
  unfold Part.guardFresh
  dsimp only
  have h1 := good_setGuardExcept h { p.guard g with filterDue := none, filteredOpen := (p.guard g).pinOpen }
  refine .ite (good_guardTrip_closes g h1 _) (good_close g h1 (covers_of_clear ?_))
  rw [Part.modGuard, Part.setGuard_guard_self]
  exact hs

theorem good_guardApplied (old : Vector Guard 8) (g : Fin 8) (h : p.Good (fun g' d => K g' d ∧ g' ≠ g)) :
    (p.guardApplied old g).Good K := by
  unfold Part.guardApplied
  split
  · rename_i he
    exact good_guardDisabled g h (by simpa using he)
  · split
    · rename_i hs
      exact good_guardFresh g h hs _
    · exact good_guardKept g h _

theorem good_guardsApplied (old : Vector Guard 8) (l : List (Fin 8)) {p : Part} (h : p.Good (fun g d => K g d ∧ g ∉ l)) :
    (l.foldl (fun q g => Part.guardApplied old g q) p).Good K := by
  induction l generalizing p with
  | nil => exact h.mono (fun g d k => ⟨k, by simp⟩)
  | cons g l ih =>
    refine ih (good_guardApplied old g (h.mono ?_))
    rintro g' d ⟨⟨k, hl⟩, hd⟩
    exact ⟨k, by simp [hd, hl]⟩

theorem good_applyGuardsGroup (h : p.Good K) (records : Vector GuardRecord 8) : (p.applyGuardsGroup records).Good K := by
  unfold Part.applyGuardsGroup
  dsimp only
  refine good_eachChannel _ (fun c q hq => good_leaveHeld hq c) (good_guardsApplied _ _ ⟨h.mem, h.queues, h.fifos, h.layout, ?_⟩)
  intro g d k
  exact absurd (List.mem_finRange g) k.2

theorem good_applyBindingsGroup (h : p.Good K) (store : List Binding) : (p.applyBindingsGroup store).Good K where
  mem := h.mem
  queues := fun d => by
    have := h.queues d
    simpa [Part.applyBindingsGroup, Part.chan, Channel.unmark] using this
  fifos := h.fifos
  layout := h.layout
  guards := fun g d k v => by
    have := h.guards g d k (by exact v)
    simpa [Part.applyBindingsGroup, Part.chan, Channel.unmark] using this

theorem told_endFaults (p : Part) (c : Fin 8) : p.Told (p.endFaults c) := by
  unfold Part.endFaults
  dsimp only
  have h1 := Part.Told.ite (c := (p.chan c).faults.driver = true) (told_condEnd p .driverFault (.channel c)) (.refl p)
  have h2 := Part.Told.ite (c := (p.chan c).faults.limit = true) (h1.trans (told_condEnd _ .limitHit (.channel c))) h1
  exact .ite (h2.trans (told_condEnd _ _ _)) h2

theorem good_applyChannelGroup (h : p.Good K) (c : Fin 8) (pr : Params) : (p.applyChannelGroup c pr).Good K := by
  unfold Part.applyChannelGroup
  dsimp only
  have he := h.told (told_endFaults p c)
  have h1 : ∀ (q : Part) (x : Channel), q.Good K → x.queue = (q.chan c).queue → x.state = .unhomed → (q.setChan c x).Good K := by
    intro q x hq hx hs
    exact ((hq.except c).setChanExcept x (by rw [hx]; exact hq.queues c)).nearStilled (.refl _)
      (by rw [Part.setChan_chan_self, hs]; rfl)
  refine .ite (good_commit (h1 _ _ he (by rfl) (by rfl)) _ _ _ _) (.ite ?_ (good_commit (h.setChanSame _ (by exact h.queues c) (by rfl)) _ _ _ _))
  have h2 := good_commit (h1 p ((p.chan c).enabledBy pr) h (by rfl) (by rfl)) c (p.chan c) 0 true
  exact .ite (good_faultEntry (h2.except c) _) h2

/-! ### Lines -/

theorem Line.offer_fifo (x : Line) (d : Byte) (f m : Bool) (h : x.fifo.length ≤ Config.fifoDepth) :
    (x.offer d f m).fifo.length ≤ Config.fifoDepth := by
  unfold Line.offer
  split
  · rename_i hl
    simp only [List.length_append, List.length_singleton]
    exact hl
  · exact h

theorem Line.receive_fifo (x : Line) (d : Byte) (f m : Bool) (h : x.fifo.length ≤ Config.fifoDepth) :
    (x.receive d f m).fifo.length ≤ Config.fifoDepth := by
  unfold Line.receive
  split
  · exact Line.offer_fifo x d f m h
  · exact Line.offer_fifo x _ f _ h
  · exact h

theorem Line.openWindow_fifo (x : Line) : x.openWindow.fifo = x.fifo := by
  unfold Line.openWindow
  split <;> rfl

theorem Line.startBit_fifo (x : Line) : x.startBit.fifo = x.fifo := by
  unfold Line.startBit
  split <;> rfl

theorem good_modStation (h : p.Good K) (l : Fin 4) (a : Nat) (f : Station → Station) : (p.modStation l a f).Good K :=
  good_modLine h _ _ (h.fifos l)

theorem good_lineFailEnd (h : p.Good K) (l : Fin 4) : (p.lineFailEnd l).Good K := by
  unfold Part.lineFailEnd
  refine Part.Good.fold _ (fun q i hq => ?_) _ (Part.Good.told (good_modLine h _ _ (by exact h.fifos l)) (told_condEnd _ _ _))
  unfold Part.reportAbsent
  dsimp only
  exact .ite (good_modStation (hq.told (told_raiseAlert _ _ _ _ _)) _ _ _) hq

theorem good_writeStationWord (h : p.Good K) (l : Fin 4) (a : Nat) : (p.writeStationWord l a).Good K := h.told (told_writeStation _ _ _)

theorem good_exchangeGood (h : p.Good K) (l : Fin 4) (a : Nat) (keys : Byte) : (p.exchangeGood l a keys).Good K := by
  unfold Part.exchangeGood
  dsimp only
  refine good_sample ?_ _ _ _
  have h1 := good_modStation h l a (fun x => { x with failures := 0, everPresent := true, presence := .present })
  generalize p.modStation l a (fun x => { x with failures := 0, everPresent := true, presence := .present }) = q1 at h1 ⊢
  have h2 := Part.Good.ite (x := (p.station l a).presence = .present) h1
    (h1.told (told_hand q1 (stationRecord l a (q1.station l a) q1.time)))
  generalize (if (p.station l a).presence = .present then q1 else _) = q2 at h2 ⊢
  have h3 := Part.Good.ite (x := (p.station l a).lost = true)
    ((good_modStation h2 l a (fun x => { x with lost := false })).told (told_condEnd _ .stationLost (.station l a))) h2
  generalize (if (p.station l a).lost = true then _ else q2) = q3 at h3 ⊢
  have h4 := Part.Good.ite (x := (q3.line l).lineFail = true) (good_lineFailEnd h3 l) h3
  generalize (if (q3.line l).lineFail = true then q3.lineFailEnd l else q3) = q4 at h4 ⊢
  exact .ite h4 (good_writeStationWord h4 _ _)

theorem good_enterAbsent (h : p.Good K) (l : Fin 4) (a : Nat) (b : Bool) : (p.enterAbsent l a b).Good K := by
  unfold Part.enterAbsent
  dsimp only
  have ha : ∀ q : Part, q.Good K → (q.absentAlert l a).Good K := by
    intro q hq
    unfold Part.absentAlert
    dsimp only
    have hr := hq.told (told_raiseAlert q .lineFail (.line l) (.one (q.line l).record.zone) .urgent)
    exact .ite (good_modLine hr _ _ (by exact hr.fifos l)) (.ite hq (good_modStation (hq.told (told_raiseAlert _ _ _ _ _)) _ _ _))
  refine ha _ ?_
  have h1 := good_modStation h l a (fun x => { x with presence := .absent })
  have h2 := Part.Good.ite (x := b = true) (good_stationGone h1 l a) h1
  exact .ite (h2.told (told_hand _ _)) h2

theorem good_exchangeFailed (h : p.Good K) (l : Fin 4) (a : Nat) (b : Bool) : (p.exchangeFailed l a b).Good K := by
  unfold Part.exchangeFailed
  dsimp only
  refine good_writeStationWord ?_ _ _
  have h1 := good_modStation h l a (fun x => x.failed b)
  split
  · exact Part.Good.told (good_modStation h1 _ _ _) (told_hand _ _)
  · exact .ite (good_enterAbsent h1 _ _ _) h1
  · exact .ite (good_enterAbsent h1 _ _ _) h1
  · exact h1
  · exact h1

theorem good_exchangeEnd (h : p.Good K) (l : Fin 4) (a : Nat) : (p.exchangeEnd l a).Good K := by
  unfold Part.exchangeEnd
  dsimp only
  exact .ite h (.ite (good_pollStart h _ _) (.ite (good_beginCycle h _) (good_modLine h _ _ (by exact h.fifos l))))

theorem good_idleLine (h : p.Good K) (l : Fin 4) : (p.idleLine l).Good K := good_modLine h _ _ (by exact h.fifos l)

theorem good_replyClose (h : p.Good K) (l : Fin 4) (a : Nat) : (p.replyClose l a).Good K := by
  unfold Part.replyClose
  dsimp only
  have h1 := good_idleLine (good_modLine h l (fun x => { x with fifo := [] }) (Nat.zero_le _)) l
  refine good_exchangeEnd ?_ _ _
  split
  · exact good_exchangeGood h1 _ _ _
  · exact good_exchangeFailed h1 _ _ _

theorem Line.accepted_fifo (x : Line) (i : Nat) : (x.accepted i).fifo = x.fifo := rfl

theorem good_testBegin (h : p.Good K) (l : Fin 4) (i : Nat) : (p.testBegin l i).Good K :=
  good_modLine (good_setInputs h _) _ _ (Nat.zero_le _)

theorem good_testLeaves (h : p.Good K) (l : Fin 4) : (p.testLeaves l).Good K :=
  good_beginCycle (good_modLine h _ _ (Nat.zero_le _)) _

theorem good_applyAllWaiting (h : p.Good K) : p.applyAllWaiting.Good K := by
  unfold Part.applyAllWaiting
  refine .ite h (h.fold _ (fun q e hq => ?_) _)
  unfold Part.applyWaiting
  split
  · exact good_reportDone (good_setOrders (good_applyInputsGroup hq _) _) _ _ _
  · exact hq

theorem good_testEnd (h : p.Good K) (l : Fin 4) (i : Nat) : (p.testEnd l i).Good K := by
  unfold Part.testEnd
  dsimp only
  refine good_applyAllWaiting (good_testLeaves ?_ _)
  have h1 : (p.dropHand i).Good K := good_setOrders h _
  exact .ite (good_reportDone h1 _ _ _) ((good_reportDone h1 _ _ _).told (told_raiseAlert _ _ _ _ _))

/-! ### Orders -/

theorem good_slotWatch (h : p.Good K) (i : Nat) (st : Byte) : (p.slotWatch i st).Good K := by
  unfold Part.slotWatch
  refine .ite h ?_
  have h1 := fun f => (good_setOrders h { p.orders with slots := p.orders.slots.modify i f } : (p.modSlot i f).Good K)
  split
  · exact .ite (good_setOrders (h1 _) _) h
  · exact .ite (good_setOrders (h1 _) _) h
  · exact h
  · exact .ite (h1 _) h

theorem good_takeChecked (h : p.Good K) (i : Nat) (ws : List Word) : (p.takeChecked i ws).Good K := by
  unfold Part.takeChecked
  dsimp only
  split
  · exact good_refuse h _ _ _
  · exact .ite (good_setOrders h _) (good_refuse h _ _ _)

theorem good_takeSlot (h : p.Good K) (l : Layout) (i : Nat) : (p.takeSlot l i).Good K := by
  unfold Part.takeSlot
  dsimp only
  have h1 : ((p.modSlot i (fun _ => { shadow := .inHand, kind := 0, tag := 0 })).writeSlotState i .taken 0).Good K :=
    good_writeSlot (good_setOrders h _) _ _ _
  have h2 := good_readEvery h1 .order (l.orders + 8 * i + 1) 5
  have h3 := fun f => (good_setOrders h2 _ : (Part.modSlot _ i f).Good K)
  split
  · exact good_refuse (h3 _) _ _ _
  · exact good_takeChecked (good_setOrders (h3 _) _) _ _

theorem good_withTaking (h : p.Good K) (kind : OrderKind) (test : Taking → Bool) (act : Part → Taking → Part)
    (ha : ∀ t, (act p t).Good K) : (p.withTaking kind test act).Good K := by
  unfold Part.withTaking
  split
  · exact .ite (ha _) h
  · exact h

theorem good_placeMove (h : p.Good K) (hf : p.Free K c) (hq : (p.chan c).queue.length < Config.queueDepth) (m : Move) :
    (p.placeMove c m).Good K := by
  unfold Part.placeMove
  dsimp only
  refine .ite (good_giveMove (h.except c) hf _) (good_commit (h.setChanSame _ ?_ (by rfl)) _ _ _ _)
  simp only [List.length_append, List.length_singleton]
  exact hq

theorem free_of_admitted {kind : MoveKind} (h : p.refusesMove c kind = none) :
    p.Free K c ∧ (p.chan c).queue.length < Config.queueDepth := by
  unfold Part.refusesMove at h
  dsimp only at h
  by_cases h1 : (!(p.chan c).enabled) = true
  · simp [h1] at h
  by_cases h2 : kind = .move ∧ p.modes.mode.quick = false
  · simp [h1, h2] at h
  by_cases h3 : (p.chan c).state = .held ∨ (p.chan c).state = .fault ∨ p.guarded c = true
  · rw [if_neg h1, if_neg h2, if_pos h3] at h; cases h
  rw [if_neg h1, if_neg h2, if_neg h3] at h
  push Not at h3
  refine ⟨Part.free_of_not_guarded (by simpa using h3.2.2), ?_⟩
  by_contra hq
  rw [not_lt] at hq
  split at h
  · cases h
  · split at h
    · cases h
    · cases h

theorem good_offerMove (h : p.Good K) (t : Taking) (m : Move) : (p.offerMove t m).Good K := by
  unfold Part.offerMove
  split
  · exact good_refuse h _ _ _
  · rename_i hr
    have hf := free_of_admitted (K := K) hr
    exact .ite (good_placeMove (p := p.takePlaced) (good_setOrders h _) (free_guards hf.1 rfl) hf.2 _) (good_endTake h _ _ _)

theorem good_stopControlled (h : p.Good K) (t : Taking) : (p.stopControlled t).Good K := by
  unfold Part.stopControlled
  dsimp only
  refine .ite (good_endTake h _ _ _) ?_
  have h1 : (p.takePlaced.addHand { slot := t.slot, work := .stop t.stopOne (p.stopMoving t) (p.stopResult t) }).Good K :=
    good_setOrders (good_setOrders h _) _
  have h2 := h1.fold (fun r c => Part.controlledStop r c .stopped) (fun q c hq => good_controlledStop hq c _) t.stopNamed
  split
  · exact good_reportDone (good_setOrders h2 _) _ _ _
  · exact h2

theorem good_stopCut (h : p.Good K) (t : Taking) : (p.stopCut t).Good K := by
  unfold Part.stopCut
  exact good_endTake (h.fold _ (fun q c hq => good_cut (hq.except c) _) _) _ _ _

theorem good_releaseOrder (h : p.Good K) (t : Taking) : (p.releaseOrder t).Good K := by
  unfold Part.releaseOrder
  dsimp only
  have he := h.told (told_endFaults p t.chan)
  split
  · have h1 := ((he.except t.chan).setChanExcept ((p.endFaults t.chan).chan t.chan).releasedFault (he.queues t.chan)).nearStilled
      (.refl _) (by rw [Part.setChan_chan_self]; rfl)
    exact good_endTake (good_commit h1 _ _ _ _) _ _ _
  · split
    · rename_i hs
      have h1 : (p.setChan t.chan { p.chan t.chan with state := .idle, parkCause := none }).Good K :=
        (h.except t.chan).nearFree (near_setChan _ _ (by rfl) (by rfl) (by exact Nat.le_refl _)) (h.free (by rw [hs.2.1]; rfl))
      exact good_endTake (good_modePark (good_commit h1 _ _ _ _) _) _ _ _
    · exact good_refuse h _ _ _

theorem good_applyGroup {α : Type} (h : p.Good K) (t : Taking) (base size : Nat) (check : List Word → Except Nat α)
    (apply : Part → α → Part) (ha : ∀ (q : Part) g, q.Good K → (apply q g).Good K) : (p.applyGroup t base size check apply).Good K := by
  unfold Part.applyGroup
  dsimp only
  have h1 := good_readUntilBad h .config base size
  split
  · exact good_refuse h1 _ _ _
  · split
    · exact good_refuse h1 _ _ _
    · exact .ite (ha _ _ h1) (good_endTake h1 _ _ _)

theorem good_applyInputsOrder (h : p.Good K) (t : Taking) (g : InputsGroup) : (p.applyInputsOrder t g).Good K := by
  unfold Part.applyInputsOrder
  exact .ite (good_setOrders (good_setOrders h _) _) (good_endTake (good_applyInputsGroup h _) _ _ _)

theorem good_applyChannelOrder (h : p.Good K) (t : Taking) (c : Fin 8) (pr : Params) : (p.applyChannelOrder t c pr).Good K := by
  unfold Part.applyChannelOrder
  split
  · exact good_refuse h _ _ _
  · exact good_endTake (good_applyChannelGroup h _ _) _ _ _

theorem good_setModeOrder (h : p.Good K) (t : Taking) : (p.setModeOrder t).Good K := by
  unfold Part.setModeOrder
  split
  · exact good_refuse h _ _ _
  · exact .ite (good_setModes (good_setOrders h _) _) (good_endTake h _ _ _)

theorem good_ackOrder (h : p.Good K) (t : Taking) : (p.ackOrder t).Good K := by
  unfold Part.ackOrder
  refine .ite (good_refuse h _ _ _) ?_
  dsimp only
  split
  · exact good_refuse h _ _ _
  · exact .ite (good_refuse h _ _ _) (.ite ((good_endTake (good_ackEntry h _ _) _ _ _).told (told_restNotice _)) (good_endTake h _ _ _))

theorem good_alertOrder (h : p.Good K) (t : Taking) : (p.alertOrder t).Good K := by
  unfold Part.alertOrder
  split
  · exact good_endTake (h.told (told_raiseFull _ _ _ _ _)) _ _ _
  · exact good_refuse h _ _ _

theorem good_lampOrder (h : p.Good K) (t : Taking) : (p.lampOrder t).Good K := by
  unfold Part.lampOrder
  exact .ite (good_endTake (good_modInput h _ _) _ _ _) (good_refuse h _ _ _)

theorem good_testOrder (h : p.Good K) (t : Taking) : (p.testOrder t).Good K := by
  unfold Part.testOrder
  dsimp only
  have h1 : (p.takePlaced.addHand { slot := t.slot, work := .lineTest (Fin.ofNat 4 t.target.toNat) }).Good K :=
    good_setOrders (good_setOrders h _) _
  exact .ite (good_refuse h _ _ _) (.ite (good_refuse h _ _ _) (.ite (good_refuse h _ _ _) (.ite (good_refuse h _ _ _)
    (.ite (good_modLine h1 _ _ (by exact h1.fifos _)) (good_endTake h _ _ _)))))

/-! ### Run control -/

theorem good_beginChecking (h : p.Good K) : p.beginChecking.Good K :=
  good_setRun (good_enterRun h _) _ (by intro _ hl; cases hl)

theorem good_enterHalted (h : p.Good K) : p.enterHalted.Good K := by
  unfold Part.enterHalted
  exact .ite (good_beginChecking (good_enterRun h _)) (good_enterRun h _)

theorem good_enterStopping (h : p.Good K) : p.enterStopping.Good K := by
  unfold Part.enterStopping
  dsimp only
  refine Part.Good.told ?_ (told_restEval _)
  have h1 : ((p.enterRun .stopping).eachChannel (fun c r => r.controlledStop c .stopped)).Good K :=
    good_eachChannel _ (fun c q hq => good_controlledStop hq c _) (good_enterRun h _)
  have h2 := h1.fold Part.endHand (fun q e hq => by
    unfold Part.endHand
    have hd : (q.dropHand e.slot).Good K := good_setOrders hq _
    have hr := good_reportDone hd e.slot .stopped 0
    dsimp only
    split
    · exact good_reportDone hd _ _ _
    · exact hr
    · exact hr
    · split
      · exact good_testLeaves hr _
      · exact good_testLeaves hr _
      · exact good_modLine hr _ _ (by exact hr.fifos _))
    ((p.enterRun .stopping).eachChannel (fun c r => r.controlledStop c .stopped)).orders.hand
  unfold Part.endSetMode
  split
  · exact .ite (good_endTake (good_setModes h2 _) _ _ _) h2
  · exact h2

theorem good_haltBlocks (h : p.Good K) : p.haltBlocks.Good K where
  mem := h.mem
  queues := fun d => by
    have := h.queues d
    simpa [Part.haltBlocks, Part.chan, Channel.halted] using this
  fifos := fun d => by
    have := h.fifos d
    simpa [Part.haltBlocks, Part.line] using this
  layout := h.layout
  guards := fun g d k v => by
    have := h.guards g d k (by simpa [Part.covers, Part.haltBlocks, Part.guard, Guard.halted] using v)
    simpa [Part.haltBlocks, Part.chan, Channel.halted] using this

/-- Any channels that are all UNHOMED with empty queues meet the guard clause. -/
theorem good_unhomed (hm : Memory.wf p.mem) (hl : p.FifosOk) (hv : ∀ l, p.run.layout = some l → l.valid = true)
    (hc : ∀ c, (p.chan c).state = .unhomed ∧ (p.chan c).queue = []) : p.Good K where
  mem := hm
  queues := fun d => by rw [(hc d).2]; exact Nat.zero_le _
  fifos := hl
  layout := hv
  guards := fun g d _ _ => by rw [(hc d).1]; rfl

theorem good_resetBlocks (h : p.Good K) (r : RunControl) (pr : Protection) (hr : r.layout = none) : (p.resetBlocks r pr).Good K :=
  good_unhomed h.mem (fun l => by simp [Part.resetBlocks, Part.initial, Part.line, Line.initial])
    (fun l hl => by rw [show (p.resetBlocks r pr).run = r from rfl, hr] at hl; cases hl)
    (fun c => by simp [Part.resetBlocks, Part.chan, Channel.initial])

/-- A part of a check that keeps the invariant. -/
theorem good_next {α β : Type} (r : CheckRead α) (f : α → Part → CheckRead β) (h : r.part.Good K)
    (hf : ∀ a (q : Part), q.Good K → (f a q).part.Good K) : (r.next f).part.Good K := by
  unfold CheckRead.next
  split
  · exact h
  · exact hf _ _ h

theorem good_checkGroup {α : Type} (h : p.Good K) (base size : Nat) (check : List Word → Except Nat α) :
    (p.checkGroup base size check).part.Good K := by
  unfold Part.checkGroup
  have h1 := good_readUntilBad h .config base size
  dsimp only
  split
  · exact h1
  · split <;> exact h1

theorem good_checkChannels (h : p.Good K) (l : Layout) (n : Nat) : (p.checkChannels l n).part.Good K := by
  induction n with
  | zero => exact h
  | succ n ih => exact good_next _ _ ih (fun _ q hq => good_next _ _ (good_checkGroup hq _ _ _) (fun _ _ hr => hr))

/-- A check that lets a layout through has not failed, and the checks after it let the layout through. -/
theorem check_passed {α ε : Type} {bad : Prop} [Decidable bad] {e : ε} {later : Except ε α} {x : α}
    (h : (if bad then .error e else later) = .ok x) : ¬bad ∧ later = .ok x := by
  by_cases hb : bad
  · rw [if_pos hb] at h; exact nomatch h
  · exact ⟨hb, by rwa [if_neg hb] at h⟩

/-- A layout that passes the check is valid (R177). -/
theorem checkLayout_valid {ws : List Word} {b : Bool} {l : Layout} (h : checkLayout ws b = .ok l) : l.valid = true := by
  have hv := (check_passed (check_passed (check_passed h).2).2).2
  have ⟨h1, hr⟩ := check_passed hv
  have ⟨h2, ho⟩ := check_passed hr
  have ⟨h3, hm⟩ := check_passed ho
  have ⟨h4, hl⟩ := check_passed hm
  cases hl
  have hs : flag (layoutOf ws).silentRest = (wordAt ws 23).toNat := by
    have hb : (wordAt ws 23).toNat ≤ 1 := by
      simp only [Layout.rangesOk, Bool.not_eq_true', Bool.not_eq_false, Bool.and_eq_true, decide_eq_true_eq] at h2
      exact h2.2
    have : (layoutOf ws).silentRest = ((wordAt ws 23).toNat == 1) := rfl
    rw [this, flag]
    rcases (by omega : (wordAt ws 23).toNat = 0 ∨ (wordAt ws 23).toNat = 1) with e | e <;> simp [e]
  simp only [Layout.valid, hs, Bool.and_eq_true]
  simp only [Bool.not_eq_true', Bool.not_eq_false] at h1 h2 h3 h4
  exact ⟨⟨⟨h1, h2⟩, h3⟩, h4⟩

theorem good_checkAll (h : p.Good K) : p.checkAll.part.Good K := by
  unfold Part.checkAll
  refine good_next _ _ ?_ (fun l q h => good_next _ _ (good_checkGroup h _ _ _) (fun i q h =>
    good_next _ _ (good_checkGroup h _ _ _) (fun g q h => good_next _ _ (good_checkGroup h _ _ _) (fun b q h =>
      good_next _ _ (good_checkChannels h _ _) (fun c q h => h)))))
  unfold Part.checkLayoutBlock
  have h1 := good_readEvery h .layout 0 32
  dsimp only
  generalize p.readEvery .layout 0 32 = r at h1 ⊢
  split
  · exact h1
  · rename_i l hl
    refine ⟨h1.mem, h1.queues, h1.fifos, fun l' hl' => ?_, h1.guards⟩
    cases hl'
    exact checkLayout_valid hl

theorem good_clearGuards (h : p.Good K) (v : Vector Guard 8) (hv : ∀ g : Fin 8, v[g].state = .clear) : (p.setGuards v).Good K :=
  ⟨h.mem, h.queues, h.fifos, h.layout, fun g d _ w => by rw [covers_of_clear (show (Part.guard (p.setGuards v) g).state = .clear from hv g)] at w; cases w⟩

theorem good_startGroups (h : p.Good K) (g : Groups) : (p.startGroups g).Good K :=
  good_clearGuards (good_setBindings (good_installInputs h g.inputs.lines g.inputs.defs) g.bindings) _
    (fun i => by simp [Guard.initial])

theorem good_startFault (h : p.Good K) (c : Fin 8) : (p.startFault c).Good K := by
  unfold Part.startFault
  exact .ite (good_faultEntry (h.except c) _) h

theorem good_startChannels (h : p.Good K) (g : Groups) : (p.startChannels g).Good K := by
  unfold Part.startChannels
  dsimp only
  refine good_eachChannel _ (fun c q hq => hq.told (told_writeStatus _ _)) (good_eachChannel _ (fun c q hq => good_startFault hq c) ?_)
  exact good_unhomed h.mem h.fifos h.layout (fun c => by simp [Part.chan, Channel.started, Channel.initial])

/-- The guards of a part that has just started them are CLEAR, so each closes its own clause. -/
theorem good_startGuard (h : p.Good K) (g : Fin 8) : (p.startGuard g).Good K := by
  unfold Part.startGuard
  refine .ite ?_ h
  unfold Part.guardFresh
  dsimp only
  have h1 : (p.modGuard g (fun x => { x with filterDue := none, filteredOpen := x.pinOpen })).Good K :=
    good_setGuardSame h g _ (by rfl) (by rfl)
  exact .ite (good_guardTrip h1 _ _) h1

theorem good_scanSlot (h : p.Good K) (l : Layout) (i : Nat) : (p.scanSlot l i).Good K := by
  unfold Part.scanSlot
  dsimp only
  have h1 := good_readWord h .order (l.orders + 8 * i)
  refine .ite h1 (.ite ?_ (.ite (good_setOrders (good_setOrders h1 _) _) h1))
  unfold Part.scanTaken
  exact good_reportDone (good_setOrders (good_readWord h1 _ _) _) _ _ _

theorem good_enterRunning (h : p.Good K) (g : Groups) : (p.enterRunning g).Good K := by
  unfold Part.enterRunning
  dsimp only
  have h1 : p.startJournal.Good K := by
    unfold Part.startJournal
    exact good_writeRegion (good_setJournal (good_setClock (good_setTime (good_enterRun h _) _) _) _) _ _
  have h2 : p.startJournal.startBoard.Good K := by
    unfold Part.startBoard
    refine Part.Good.told (Part.Good.told (good_setBoard h1 _) (told_writeRegion _ _ _ (fun l _ k hk => ?_)))
      (told_writeRegion _ _ _ (fun l _ k hk => ?_))
    · rw [List.length_replicate] at hk
      exact l.reportWord_board (by omega) (by omega)
    · simp only [Board.header, List.length_cons, List.length_nil] at hk
      exact l.reportWord_board (by omega) (by omega)
  have h3 : p.startJournal.startBoard.startModes.Good K := Part.Good.told (good_setModes h2 _) (told_writeModeNow _)
  have h4 := good_eachGuard (K := K) _ (fun g q hq => good_startGuard hq g) (good_startChannels (good_startGroups h3 g) g)
  have h5 := Part.Good.fold (K := K) (Part.scanSlot g.layout) (fun q i hq => good_scanSlot hq _ i) (List.range g.layout.slotCount)
    (good_setOrders h4 { Orders.initial with slots := List.replicate g.layout.slotCount { shadow := .idle, kind := 0, tag := 0 } })
  exact good_eachLine _ (fun l q hq => good_beginCycle hq l) (good_setProt h5 _)

theorem good_finishCheck (h : p.Good K) : p.finishCheck.Good K := by
  unfold Part.finishCheck
  have h1 := good_checkAll h
  dsimp only
  split
  · exact good_setRun (good_enterRun h1 _) _ (by intro _ hl; cases hl)
  · exact good_enterRunning h1 _

theorem good_zctlWrite (h : p.Good K) (v : Word) : (p.zctlWrite v).Good K := by
  unfold Part.zctlWrite
  refine .ite h ?_
  dsimp only
  have h1 := good_setRun h { p.run with run := v.getLsbD 0, enables := .ofWord v 4, captureLast := v.getLsbD 8 } (by exact fun _ hl => hl)
  refine .ite (good_resetBlocks h1 _ _ rfl) ?_
  unfold Part.runLevel
  split
  · exact good_beginChecking h1
  · exact good_enterHalted h1
  · exact good_enterStopping h1
  · exact good_enterHalted h1
  · exact h1

theorem good_emptied (h : p.Good K) : (p.setMem []).Good K := ⟨(by decide : Memory.wf []), h.queues, h.fifos, h.layout, h.guards⟩

/-! ### The window -/

theorem good_jEmpty (h : p.Good K) (v : Word) : (p.jEmpty v).Good K := by
  unfold Part.jEmpty
  split
  · exact h
  · refine .ite h ?_
    dsimp only
    exact .ite (Part.Good.told (good_setJournal h _) (told_lowMark _ _)) (good_writeRegion h _ _)

theorem good_memWrite (h : p.Good K) (a : Nat) (v : Word) : (p.memWrite a v).Good K := by
  unfold Part.memWrite
  refine .ite h ?_
  have h1 := good_storeFrom h false a v
  unfold Part.watch
  split
  · exact h1
  · exact .ite (good_slotWatch h1 _ _) (.ite (good_jEmpty h1 _) (.ite (good_heartbeat h1) h1))

theorem good_windowWrite (h : p.Good K) (a v : Word) : (p.windowWrite a v).Good K := by
  unfold Part.windowWrite
  dsimp only
  exact .ite (good_memWrite h _ _) (.ite h (.ite (good_zctlWrite h _) (.ite (good_attend h _) (.ite (good_setProt h _)
    (.ite (good_setProt h _) h)))))

theorem good_regionWrite (h : p.Good K) (base : Layout → Nat) (v : Word) : (p.regionWrite base v).Good K := by
  unfold Part.regionWrite
  split
  · exact good_memWrite h _ _
  · exact h

theorem good_slotWrite (h : p.Good K) (i : Nat) (st : SlotState) (b : Byte) : (p.slotWrite i st b).Good K := by
  unfold Part.slotWrite
  split
  · exact .ite (good_memWrite h _ _) h
  · exact h

theorem good_windowRead (h : p.Good K) (a : Word) : (p.windowRead a).Good K := by
  unfold Part.windowRead
  dsimp only
  refine .ite (good_setHostData h _) (.ite ?_ (good_setHostData h _))
  unfold Part.memRead
  exact .ite (good_setHostData h _) (good_setHostData (good_readWord h _ _) _)

end Sys2Proof.Machine
end

