-- ==== Sys2Proof/Laws/Setup.lean ====
section
/-! SUPPORT. Operations that leave the applied configuration and run control as they stand (`Part.SameSetup`): all that the blocks do
in their ordinary work, the lines and the orders among them. -/

namespace Sys2Proof.Machine

variable {p q r : Part}

theorem Part.SameSetup.refl (p : Part) : p.SameSetup p :=
  ⟨rfl, rfl, fun _ => rfl, rfl, rfl, fun _ => rfl, fun _ => rfl⟩

theorem Part.SameSetup.trans (a : p.SameSetup q) (b : q.SameSetup r) : p.SameSetup r where
  run := by rw [b.run, a.run]
  runstate := b.runstate.trans a.runstate
  records := fun l => (b.records l).trans (a.records l)
  inputs := b.inputs.trans a.inputs
  bindings := b.bindings.trans a.bindings
  params := fun c => (b.params c).trans (a.params c)
  guards := fun g => (b.guards g).trans (a.guards g)

/-- What touches no field of the setup. -/
theorem Part.SameSetup.congr (hr : q.run = p.run) (hl : q.lines = p.lines) (hi : q.inputs = p.inputs) (hb : q.bindings = p.bindings)
    (hc : q.channels = p.channels) (hg : q.guards = p.guards) : p.SameSetup q :=
  ⟨by rw [hr], by rw [hr], fun l => by simp only [Part.line, hl], by rw [hi], by rw [hb], fun c => by simp only [Part.chan, hc],
    fun g => by simp only [Part.guard, hg]⟩

theorem Part.SameSetup.ite {a b : Part} {x : Prop} [Decidable x] (ha : p.SameSetup a) (hb : p.SameSetup b) :
    p.SameSetup (if x then a else b) := by
  split
  · exact ha
  · exact hb

theorem Part.Calm.setup (h : p.Calm Input.d q) : p.SameSetup q where
  run := h.run
  runstate := h.runstate
  records := fun l => by rw [h.lines l]
  inputs := h.inputs
  bindings := h.bindings
  params := h.params
  guards := fun g => by rw [h.guards g]

theorem Part.Near.setup {c : Fin 8} (h : p.Near c q) : p.SameSetup q := h.calm.setup

theorem Part.Told.setup (h : p.Told q) : p.SameSetup q := h.calm.setup

theorem Part.SameSetup.told (a : p.SameSetup q) (b : q.Told r) : p.SameSetup r := a.trans b.setup

theorem Part.SameSetup.calm (a : p.SameSetup q) (b : q.Calm Input.d r) : p.SameSetup r := a.trans b.setup

theorem setup_fold {α : Type} (g : Part → α → Part) (hg : ∀ (p : Part) a, p.SameSetup (g p a)) (l : List α) (p : Part) :
    p.SameSetup (l.foldl g p) := by
  induction l generalizing p with
  | nil => exact .refl p
  | cons a l ih => exact (hg p a).trans (ih _)

theorem setup_eachLine (p : Part) (g : Fin 4 → Part → Part) (hg : ∀ c (p : Part), p.SameSetup (g c p)) : p.SameSetup (p.eachLine g) :=
  setup_fold _ (fun p a => hg a p) _ _

theorem setup_eachChannel (p : Part) (g : Fin 8 → Part → Part) (hg : ∀ c (p : Part), p.SameSetup (g c p)) :
    p.SameSetup (p.eachChannel g) := setup_fold _ (fun p a => hg a p) _ _

/-! ### Field by field -/

theorem setup_setTime (p : Part) (x : Time) : p.SameSetup (p.setTime x) := .congr rfl rfl rfl rfl rfl rfl
theorem setup_setClock (p : Part) (x : Clock) : p.SameSetup (p.setClock x) := .congr rfl rfl rfl rfl rfl rfl
theorem setup_setHostData (p : Part) (x : Word) : p.SameSetup (p.setHostData x) := .congr rfl rfl rfl rfl rfl rfl
theorem setup_setMem (p : Part) (x : Memory) : p.SameSetup (p.setMem x) := .congr rfl rfl rfl rfl rfl rfl
theorem setup_setProt (p : Part) (x : Protection) : p.SameSetup (p.setProt x) := .congr rfl rfl rfl rfl rfl rfl
theorem setup_setOrders (p : Part) (x : Orders) : p.SameSetup (p.setOrders x) := .congr rfl rfl rfl rfl rfl rfl
theorem setup_setModes (p : Part) (x : Modes) : p.SameSetup (p.setModes x) := .congr rfl rfl rfl rfl rfl rfl
theorem setup_setJournal (p : Part) (x : Journal) : p.SameSetup (p.setJournal x) := .congr rfl rfl rfl rfl rfl rfl
theorem setup_setBoard (p : Part) (x : Board) : p.SameSetup (p.setBoard x) := .congr rfl rfl rfl rfl rfl rfl

theorem setup_attend (p : Part) (x : Causes) (h : x.runstate = p.run.attention.runstate) :
    p.SameSetup (p.setRun { p.run with attention := x }) :=
  ⟨rfl, h, fun _ => rfl, rfl, rfl, fun _ => rfl, fun _ => rfl⟩

theorem setup_modInput (p : Part) (i : Nat) (g : Input → Input) (hg : ∀ x, (g x).d = x.d) : p.SameSetup (p.modInput i g) :=
  (calm_modInput (f := Input.d) p i g (fun x _ => hg x)).setup

theorem setup_modBinding (p : Part) (i : Nat) (g : Binding → Binding) (hg : ∀ b, (g b).entry = b.entry) : p.SameSetup (p.modBinding i g) :=
  (calm_modBinding (f := Input.d) p i g hg).setup

theorem setup_setChan (p : Part) (c : Fin 8) (x : Channel) (h : x.params = (p.chan c).params) : p.SameSetup (p.setChan c x) := by
  refine ⟨rfl, rfl, fun _ => rfl, rfl, rfl, fun d => ?_, fun _ => rfl⟩
  by_cases e : d = c
  · subst e; simpa using h
  · rw [Part.setChan_chan_ne _ e]

theorem setup_setGuard (p : Part) (g : Fin 8) (x : Guard) (h : x.record = (p.guard g).record) : p.SameSetup (p.setGuard g x) := by
  refine ⟨rfl, rfl, fun _ => rfl, rfl, rfl, fun _ => rfl, fun d => ?_⟩
  by_cases e : d = g
  · subst e; simpa using h
  · rw [Part.setGuard_guard_ne _ e]

theorem setup_modLine (p : Part) (l : Fin 4) (g : Line → Line) (h : (g (p.line l)).record = (p.line l).record) :
    p.SameSetup (p.modLine l g) := by
  refine ⟨rfl, rfl, fun d => ?_, rfl, rfl, fun _ => rfl, fun _ => rfl⟩
  unfold Part.modLine
  by_cases e : d = l
  · subst e; simpa using h
  · rw [Part.setLine_line_ne _ e]

/-- A change of every channel that keeps their parameters. -/
theorem setup_mapChannels (p : Part) (f : Channel → Channel) (hf : ∀ x, (f x).params = x.params) :
    p.SameSetup (p.setChannels (p.channels.map f)) :=
  { Part.SameSetup.refl p with params := fun c => by rw [Part.chan_mapChannels, hf] }

theorem setup_issueAll (p : Part) : p.SameSetup p.issueAll := setup_mapChannels p _ (fun _ => rfl)

theorem setup_goTo (p : Part) (us : Nat) : p.SameSetup (p.goTo us) :=
  .ite ((setup_setClock p _).trans (setup_mapChannels _ _ (fun _ => rfl))) (.refl p)

theorem setup_countMs (p : Part) (owed : Bool) : p.SameSetup (p.countMs owed) :=
  ((setup_issueAll p).trans (setup_setTime _ _)).trans (setup_setClock _ _)

theorem setup_atDue {due : Time} (h : p.atDue due = some q) : p.SameSetup q := by
  unfold Part.atDue at h
  split at h
  · cases h
  · split at h
    · cases h; exact .refl p
    · split at h
      · cases h; exact setup_countMs p true
      · cases h

theorem setup_atTimer {due : Option Time} (h : p.atTimer due = some q) : p.SameSetup q := by
  unfold Part.atTimer at h
  split at h
  · exact setup_atDue h
  · cases h

/-! ### Judged reads and stores -/

theorem setup_storeFrom (p : Part) (b : Bool) (a : Nat) (w : Word) : p.SameSetup (p.storeFrom b a w) := by
  obtain ⟨m, arm, h⟩ := storeFrom_eq p b a w
  rw [h]; exact .congr rfl rfl rfl rfl rfl rfl

theorem setup_writeAll (p : Part) (a : Nat) (ws : List Word) : p.SameSetup (p.writeAll a ws) := by
  obtain ⟨m, arm, h⟩ := writeAll_eq p a ws
  rw [h]; exact .congr rfl rfl rfl rfl rfl rfl

theorem setup_writeRegion (p : Part) (base : Layout → Nat) (ws : List Word) : p.SameSetup (p.writeRegion base ws) := by
  unfold Part.writeRegion
  split
  · exact setup_writeAll _ _ _
  · exact .refl p

theorem setup_correctedRead (p : Part) (agent : Agent) (a : Nat) (w : Word) : p.SameSetup (p.correctedRead agent a w) := by
  unfold Part.correctedRead
  dsimp only
  have h1 := ((setup_setMem p (p.mem.store a (.good w))).trans (setup_setProt (p.storeGood a w)
    ((p.storeGood a w).prot.noteCorrected (p.storeGood a w).run.captureLast a))).told (told_hand _ (memoryRecord false a agent
      ((p.storeGood a w).setProt ((p.storeGood a w).prot.noteCorrected (p.storeGood a w).run.captureLast a)).time))
  exact .ite (h1.told (told_raiseAlert _ _ _ _ _)) h1

theorem setup_uncorrectedRead (p : Part) (agent : Agent) (a : Nat) : p.SameSetup (p.uncorrectedRead agent a) := by
  unfold Part.uncorrectedRead
  dsimp only
  exact (((setup_setProt p _).trans (setup_attend _ _ (by rfl))).told (told_hand _ _)).told (told_raiseAlert _ _ _ _ _)

theorem setup_readWord (p : Part) (agent : Agent) (a : Nat) : p.SameSetup (p.readWord agent a).part := by
  unfold Part.readWord
  dsimp only
  split
  · exact .refl p
  · dsimp only; exact setup_correctedRead _ _ _ _
  · dsimp only; exact setup_uncorrectedRead _ _ _
  · dsimp only; exact setup_uncorrectedRead _ _ _

theorem setup_readEvery (p : Part) (agent : Agent) (a n : Nat) : p.SameSetup (p.readEvery agent a n).part := by
  induction n with
  | zero => exact .refl p
  | succ n ih => exact ih.trans (setup_readWord _ _ _)

theorem setup_readUntilBad (p : Part) (agent : Agent) (a n : Nat) : p.SameSetup (p.readUntilBad agent a n).part := by
  induction n with
  | zero => exact .refl p
  | succ n ih =>
    simp only [Part.readUntilBad]
    split
    · exact ih
    · exact ih.trans (setup_readWord _ _ _)

theorem setup_scrub (p : Part) : p.SameSetup p.scrub := by
  unfold Part.scrub
  dsimp only
  refine (Part.SameSetup.trans ?_ (setup_setProt _ _)).trans (setup_setClock _ _)
  split
  · exact setup_setMem _ _
  · exact setup_readWord _ _ _

theorem setup_nextMs (p : Part) : p.SameSetup p.nextMs :=
  .ite ((setup_issueAll p).trans (setup_setClock _ _)) ((Part.SameSetup.ite (setup_scrub p) (.refl p)).trans (setup_countMs _ _))

/-! ### Slots -/

theorem setup_writeSlot (p : Part) (i k : Nat) (ws : List Word) : p.SameSetup (p.writeSlot i k ws) := by
  obtain ⟨m, arm, h⟩ := writeSlot_eq p i k ws
  rw [h]; exact .congr rfl rfl rfl rfl rfl rfl

theorem setup_report (p : Part) (i : Nat) (st : SlotState) (code : Nat) (r : Int) : p.SameSetup (p.report i st code r) :=
  (calm_report p i st code r).setup

theorem setup_endTake (p : Part) (i : Nat) (t : Termination) (r : Int) : p.SameSetup (p.endTake i t r) := (calm_endTake p i t r).setup

theorem setup_refuse (p : Part) (i : Nat) (t : RefusalCode) (r : Int) : p.SameSetup (p.refuse i t r) := (calm_refuse p i t r).setup

theorem setup_controlledStop (p : Part) (c : Fin 8) (t : Termination) : p.SameSetup (p.controlledStop c t) :=
  (calm_controlledStop p c t).setup

theorem setup_cut (p : Part) (c : Fin 8) (t : Termination) : p.SameSetup (p.cut c t) := (near_cut p t).setup

/-! ### Lines -/

theorem setup_beginCycle (p : Part) (l : Fin 4) : p.SameSetup (p.beginCycle l) := (calm_beginCycle p l).setup

theorem setup_pollStart (p : Part) (l : Fin 4) (a : Nat) : p.SameSetup (p.pollStart l a) := (calm_pollStart p l a).setup

theorem setup_modStation (p : Part) (l : Fin 4) (a : Nat) (f : Station → Station) : p.SameSetup (p.modStation l a f) :=
  setup_modLine _ _ _ (by rfl)

theorem setup_lineFailEnd (p : Part) (l : Fin 4) : p.SameSetup (p.lineFailEnd l) := by
  unfold Part.lineFailEnd
  refine Part.SameSetup.trans ((setup_modLine _ _ _ (by rfl)).told (told_condEnd _ _ _)) (setup_fold _ (fun q i => ?_) _ _)
  unfold Part.reportAbsent
  dsimp only
  exact .ite ((told_raiseAlert _ _ _ _ _).setup.trans (setup_modStation _ _ _ _)) (.refl q)

theorem setup_writeStationWord (p : Part) (l : Fin 4) (a : Nat) : p.SameSetup (p.writeStationWord l a) := (told_writeStation p _ _).setup

theorem setup_exchangeGood (p : Part) (l : Fin 4) (a : Nat) (keys : Byte) : p.SameSetup (p.exchangeGood l a keys) := by
  unfold Part.exchangeGood
  dsimp only
  refine Part.SameSetup.calm ?_ (calm_sample _ _ _ _)
  have h1 := setup_modStation p l a (fun x => { x with failures := 0, everPresent := true, presence := .present })
  generalize p.modStation l a (fun x => { x with failures := 0, everPresent := true, presence := .present }) = q1 at h1 ⊢
  have h2 := Part.SameSetup.ite (x := (p.station l a).presence = .present) h1
    (h1.told (told_hand q1 (stationRecord l a (q1.station l a) q1.time)))
  generalize (if (p.station l a).presence = .present then q1 else _) = q2 at h2 ⊢
  have h3 := Part.SameSetup.ite (x := (p.station l a).lost = true)
    ((h2.trans (setup_modStation q2 l a (fun x => { x with lost := false }))).told (told_condEnd _ .stationLost (.station l a))) h2
  generalize (if (p.station l a).lost = true then _ else q2) = q3 at h3 ⊢
  have h4 := Part.SameSetup.ite (x := (q3.line l).lineFail = true) (h3.trans (setup_lineFailEnd q3 l)) h3
  generalize (if (q3.line l).lineFail = true then q3.lineFailEnd l else q3) = q4 at h4 ⊢
  exact .ite h4 (h4.trans (setup_writeStationWord _ _ _))

theorem setup_enterAbsent (p : Part) (l : Fin 4) (a : Nat) (b : Bool) : p.SameSetup (p.enterAbsent l a b) := by
  unfold Part.enterAbsent
  dsimp only
  have ha : ∀ q : Part, q.SameSetup (q.absentAlert l a) := by
    intro q
    unfold Part.absentAlert
    dsimp only
    exact .ite ((told_raiseAlert _ _ _ _ _).setup.trans (setup_modLine _ _ _ (by rfl)))
      (.ite (.refl q) ((told_raiseAlert _ _ _ _ _).setup.trans (setup_modStation _ _ _ _)))
  refine Part.SameSetup.trans ?_ (ha _)
  have h1 := setup_modStation p l a (fun x => { x with presence := .absent })
  have h2 := Part.SameSetup.ite (x := b = true) (h1.calm (calm_stationGone _ l a)) h1
  exact .ite (h2.told (told_hand _ _)) h2

theorem setup_exchangeFailed (p : Part) (l : Fin 4) (a : Nat) (b : Bool) : p.SameSetup (p.exchangeFailed l a b) := by
  unfold Part.exchangeFailed
  dsimp only
  refine Part.SameSetup.trans ?_ (setup_writeStationWord _ _ _)
  have h1 := setup_modStation p l a (fun x => x.failed b)
  split
  · exact (h1.trans (setup_modStation _ _ _ _)).told (told_hand _ _)
  · exact .ite (h1.trans (setup_enterAbsent _ _ _ _)) h1
  · exact .ite (h1.trans (setup_enterAbsent _ _ _ _)) h1
  · exact h1
  · exact h1

theorem setup_exchangeEnd (p : Part) (l : Fin 4) (a : Nat) : p.SameSetup (p.exchangeEnd l a) := by
  unfold Part.exchangeEnd
  dsimp only
  exact .ite (.refl p) (.ite (setup_pollStart _ _ _) (.ite (setup_beginCycle _ _) (setup_modLine _ _ _ (by rfl))))

theorem setup_idleLine (p : Part) (l : Fin 4) : p.SameSetup (p.idleLine l) := setup_modLine _ _ _ (by rfl)

theorem setup_replyClose (p : Part) (l : Fin 4) (a : Nat) : p.SameSetup (p.replyClose l a) := by
  unfold Part.replyClose
  dsimp only
  have h1 := (setup_modLine p l (fun x => { x with fifo := [] }) (by rfl)).trans (setup_idleLine _ l)
  refine Part.SameSetup.trans ?_ (setup_exchangeEnd _ _ _)
  split
  · exact h1.trans (setup_exchangeGood _ _ _ _)
  · exact h1.trans (setup_exchangeFailed _ _ _ _)

theorem setup_freeze (p : Part) (l : Fin 4) : p.SameSetup (p.freeze l) := by
  refine ⟨rfl, rfl, fun _ => rfl, ?_, rfl, fun _ => rfl, fun _ => rfl⟩
  simp only [Part.freeze, Part.setInputs_inputs, List.map_map]
  apply List.map_congr_left
  intro x _
  simp only [Function.comp]
  split <;> rfl

theorem setup_testBegin (p : Part) (l : Fin 4) (i : Nat) : p.SameSetup (p.testBegin l i) :=
  (setup_freeze p l).trans (setup_modLine _ _ _ (by rfl))

theorem setup_testLeaves (p : Part) (l : Fin 4) : p.SameSetup (p.testLeaves l) :=
  (setup_modLine _ _ _ (by rfl)).trans (setup_beginCycle _ _)

/-! ### Orders -/

theorem setup_slotWatch (p : Part) (i : Nat) (st : Byte) : p.SameSetup (p.slotWatch i st) := by
  unfold Part.slotWatch
  refine .ite (.refl p) ?_
  have h : ∀ o, p.SameSetup (p.setOrders o) := setup_setOrders p
  split
  · exact .ite (h _) (.refl p)
  · exact .ite (h _) (.refl p)
  · exact .refl p
  · exact .ite (h _) (.refl p)

theorem setup_takeChecked (p : Part) (i : Nat) (ws : List Word) : p.SameSetup (p.takeChecked i ws) := by
  unfold Part.takeChecked
  dsimp only
  split
  · exact setup_refuse _ _ _ _
  · exact .ite (setup_setOrders _ _) (setup_refuse _ _ _ _)

theorem setup_modSlot (p : Part) (i : Nat) (f : Slot → Slot) : p.SameSetup (p.modSlot i f) := setup_setOrders _ _

theorem setup_takeSlot (p : Part) (l : Layout) (i : Nat) : p.SameSetup (p.takeSlot l i) := by
  unfold Part.takeSlot
  dsimp only
  have h1 : p.SameSetup ((p.modSlot i (fun _ => { shadow := .inHand, kind := 0, tag := 0 })).writeSlotState i .taken 0) :=
    (setup_modSlot p i _).trans (setup_writeSlot _ _ _ _)
  have h2 := h1.trans (setup_readEvery _ .order (l.orders + 8 * i + 1) 5)
  split
  · exact (h2.trans (setup_modSlot _ _ _)).trans (setup_refuse _ _ _ _)
  · exact ((h2.trans (setup_modSlot _ _ _)).trans (setup_modSlot _ _ _)).trans (setup_takeChecked _ _ _)

theorem setup_withTaking (p : Part) (kind : OrderKind) (test : Taking → Bool) (act : Part → Taking → Part)
    (ha : ∀ t, p.SameSetup (act p t)) : p.SameSetup (p.withTaking kind test act) := by
  unfold Part.withTaking
  split
  · exact .ite (ha _) (.refl p)
  · exact .refl p

theorem calm_placeMove (p : Part) (c : Fin 8) (m : Move) : p.Calm Input.d (p.placeMove c m) := by
  unfold Part.placeMove
  dsimp only
  exact .ite (calm_giveMove _ _ _) ((calm_setChan _ _ _ (by rfl) (by rfl)).trans (calm_commit _ _ _ _ _))

theorem setup_offerMove (p : Part) (t : Taking) (m : Move) : p.SameSetup (p.offerMove t m) := by
  unfold Part.offerMove
  split
  · exact setup_refuse _ _ _ _
  · exact .ite ((setup_setOrders p _).trans (calm_placeMove _ _ _).setup) (setup_endTake _ _ _ _)

theorem setup_stopControlled (p : Part) (t : Taking) : p.SameSetup (p.stopControlled t) := by
  unfold Part.stopControlled
  dsimp only
  refine .ite (setup_endTake _ _ _ _) ?_
  have h1 : p.SameSetup (p.takePlaced.addHand { slot := t.slot, work := .stop t.stopOne (p.stopMoving t) (p.stopResult t) }) := setup_setOrders _ _
  have h2 := h1.trans (setup_fold (fun r c => Part.controlledStop r c .stopped) (fun q c => setup_controlledStop q c _) t.stopNamed _)
  split
  · exact (h2.trans (setup_setOrders _ _)).trans (setup_report _ _ _ _ _)
  · exact h2

theorem setup_stopCut (p : Part) (t : Taking) : p.SameSetup (p.stopCut t) := by
  unfold Part.stopCut
  exact (setup_fold _ (fun q c => setup_cut q c _) _ _).trans (setup_endTake _ _ _ _)

theorem told_endFaults' (p : Part) (c : Fin 8) : p.Told (p.endFaults c) := by
  unfold Part.endFaults
  dsimp only
  have h1 := Part.Told.ite (c := (p.chan c).faults.driver = true) (told_condEnd p .driverFault (.channel c)) (.refl p)
  have h2 := Part.Told.ite (c := (p.chan c).faults.limit = true) (h1.trans (told_condEnd _ .limitHit (.channel c))) h1
  exact .ite (h2.trans (told_condEnd _ _ _)) h2

theorem setup_releaseOrder (p : Part) (t : Taking) : p.SameSetup (p.releaseOrder t) := by
  unfold Part.releaseOrder
  dsimp only
  refine .ite ?_ (.ite ?_ (setup_refuse _ _ _ _))
  · exact (((told_endFaults' p t.chan).setup.trans (setup_setChan _ _ _ (by rfl))).told (told_commit _ _ _ _ _)).trans
      (setup_endTake _ _ _ _)
  · exact ((((setup_setChan _ _ _ (by rfl))).told (told_commit _ _ _ _ _)).calm (calm_modePark _ _)).trans (setup_endTake _ _ _ _)

theorem setup_setModeOrder (p : Part) (t : Taking) : p.SameSetup (p.setModeOrder t) := by
  unfold Part.setModeOrder
  split
  · exact setup_refuse _ _ _ _
  · exact .ite ((setup_setOrders p _).trans (setup_setModes _ _)) (setup_endTake _ _ _ _)

theorem setup_ackOrder (p : Part) (t : Taking) : p.SameSetup (p.ackOrder t) := by
  unfold Part.ackOrder
  refine .ite (setup_refuse _ _ _ _) ?_
  dsimp only
  split
  · exact setup_refuse _ _ _ _
  · exact .ite (setup_refuse _ _ _ _) (.ite (((calm_ackEntry _ _ _).setup.trans (setup_endTake _ _ _ _)).told (told_restNotice _))
      (setup_endTake _ _ _ _))

theorem setup_alertOrder (p : Part) (t : Taking) : p.SameSetup (p.alertOrder t) := by
  unfold Part.alertOrder
  split
  · exact (told_raiseFull _ _ _ _ _).setup.trans (setup_endTake _ _ _ _)
  · exact setup_refuse _ _ _ _

theorem setup_lampOrder (p : Part) (t : Taking) : p.SameSetup (p.lampOrder t) := by
  unfold Part.lampOrder
  exact .ite ((setup_modInput _ _ _ (by intro _; rfl)).trans (setup_endTake _ _ _ _)) (setup_refuse _ _ _ _)

theorem setup_testOrder (p : Part) (t : Taking) : p.SameSetup (p.testOrder t) := by
  unfold Part.testOrder
  have h : ∀ l : Fin 4, p.SameSetup
      ((p.takePlaced.addHand { slot := t.slot, work := .lineTest l }).modLine l (fun x => x.accepted t.slot)) := by
    intro l
    have h1 : p.SameSetup (p.takePlaced.addHand { slot := t.slot, work := .lineTest l }) := .congr rfl rfl rfl rfl rfl rfl
    exact h1.trans (setup_modLine _ l (fun x => x.accepted t.slot) (by rfl))
  dsimp only
  generalize Fin.ofNat 4 t.target.toNat = l
  exact .ite (setup_refuse _ _ _ _) (.ite (setup_refuse _ _ _ _) (.ite (setup_refuse _ _ _ _) (.ite (setup_refuse _ _ _ _)
    (.ite (h _) (setup_endTake _ _ _ _)))))

theorem setup_endHand (p : Part) (e : HandEntry) : p.SameSetup (p.endHand e) := by
  unfold Part.endHand
  have hd : p.SameSetup (p.dropHand e.slot) := setup_setOrders _ _
  have hr := hd.trans (setup_report _ e.slot .finished Termination.stopped.code 0)
  dsimp only
  split
  · exact hd.trans (setup_report _ _ _ _ _)
  · exact hr
  · exact hr
  · split
    · exact hr.trans (setup_testLeaves _ _)
    · exact hr.trans (setup_testLeaves _ _)
    · exact hr.trans (setup_modLine _ _ _ (by rfl))

theorem setup_endSetMode (p : Part) : p.SameSetup p.endSetMode := by
  unfold Part.endSetMode
  split
  · exact .ite ((setup_setModes p _).trans (setup_endTake _ _ _ _)) (.refl p)
  · exact .refl p

/-- Entry to STOPPING changes the run state, RUNSTATE, and beyond that no setup. -/
theorem setup_enterStopping (p : Part) : (p.enterRun .stopping).SameSetup p.enterStopping := by
  unfold Part.enterStopping
  dsimp only
  exact (((setup_eachChannel _ _ (fun c q => setup_controlledStop q c _)).trans (setup_fold _ (fun q e => setup_endHand q e) _ _)).trans
    (setup_endSetMode _)).told (told_restEval _)

/-! ### The window -/

theorem setup_jEmpty (p : Part) (v : Word) : p.SameSetup (p.jEmpty v) := by
  unfold Part.jEmpty
  split
  · exact .refl p
  · refine .ite (.refl p) ?_
    dsimp only
    refine .ite ?_ (setup_writeRegion _ _ _)
    exact (setup_setJournal p _).told (told_lowMark _ _)

theorem setup_memWrite (p : Part) (a : Nat) (v : Word) : p.SameSetup (p.memWrite a v) := by
  unfold Part.memWrite
  refine .ite (.refl p) ?_
  have h1 := setup_storeFrom p false a v
  unfold Part.watch
  split
  · exact h1
  · exact .ite (h1.trans (setup_slotWatch _ _ _)) (.ite (h1.trans (setup_jEmpty _ _)) (.ite (h1.calm (calm_heartbeat _)) h1))

theorem setup_regionWrite (p : Part) (base : Layout → Nat) (v : Word) : p.SameSetup (p.regionWrite base v) := by
  unfold Part.regionWrite
  split
  · exact setup_memWrite _ _ _
  · exact .refl p

theorem setup_slotWrite (p : Part) (i : Nat) (st : SlotState) (b : Byte) : p.SameSetup (p.slotWrite i st b) := by
  unfold Part.slotWrite
  split
  · exact .ite (setup_memWrite _ _ _) (.refl p)
  · exact .refl p

theorem setup_windowRead (p : Part) (a : Word) : p.SameSetup (p.windowRead a) := by
  unfold Part.windowRead
  dsimp only
  refine .ite (setup_setHostData _ _) (.ite ?_ (setup_setHostData _ _))
  unfold Part.memRead
  exact .ite (setup_setHostData _ _) ((setup_readWord _ _ _).trans (setup_setHostData _ _))

end Sys2Proof.Machine
end

