-- ==== Sys2Proof/Laws/Time.lean ====
section
/-! SUPPORT. What a due time can do, said once: an event due at `due` is taken exactly on the part `Part.comesDue` names. -/

namespace Sys2Proof.Machine

variable {p q : Part} {due : Time}

/-- The scrub of the millisecond is made, or the run state is not RUNNING. -/
theorem Part.scrubOwed_false : p.scrubOwed = false ↔ (p.run.state = .running → p.clock.scrubbed = true) := by
  cases h : p.clock.scrubbed <;> simp [Part.scrubOwed, Part.isRunning, h]

/-- An event that can be taken is taken on the part `Part.comesDue` names (R180). -/
theorem Part.atDue_comes (h : p.comesDue due q) : p.atDue due = some q := by
  obtain ⟨ha, h⟩ := h
  unfold Part.atDue
  rw [ha]
  obtain ⟨hr, rfl⟩ | ⟨hr, ho, hs, rfl, rfl⟩ := h
  · rw [hr]; rfl
  · rw [hr, ho, Part.scrubOwed_false.mpr hs]
    simp; rfl

/-- An event that is taken could be taken, on that part and no other (R180). -/
theorem Part.comes_atDue (h : p.atDue due = some q) : p.comesDue due q := by
  cases ha : p.active <;> cases hr : reached p.time due <;> simp [Part.atDue, ha, hr] at h
  · obtain ⟨⟨⟨ho, hs⟩, hd⟩, rfl⟩ := h
    exact ⟨ha, .inr ⟨hr, ho, Part.scrubOwed_false.mp hs, hd, rfl⟩⟩
  · exact ⟨ha, .inl ⟨hr, h.symm⟩⟩

theorem Part.atTimer_comes (h : p.comesDue due q) : p.atTimer (some due) = some q := Part.atDue_comes h

/-- What taking an event that is due leaves as it stands: all but the time, the clock and the pulses still to be issued. -/
theorem Part.comesDue_eq (h : p.comesDue due q) : q = { p with time := q.time, clock := q.clock, channels := q.channels }
    ∧ ∀ c, q.chan c = { p.chan c with unissued := (q.chan c).unissued } := by
  obtain ⟨_, ⟨_, rfl⟩ | ⟨_, _, _, _, rfl⟩⟩ := h
  · exact ⟨rfl, fun _ => rfl⟩
  · exact ⟨rfl, fun c => by
      have : p.nextStart.chan c = (p.chan c).issueAll := Part.countMs_chan p true c
      rw [this]; rfl⟩

end Sys2Proof.Machine
end

