-- ==== Sys2Proof/WellFormed.lean ====
section
/-! DEFINITION. When a command's operands fit its row: the written word has the bit the row names, a byte address is even and lies
where the row says; a microsecond of a millisecond is below 1,000. A meaning still runs on an ill-formed command (it forces the row's
bit, or serves the access where its address lies), so nothing is refused for its operands. -/

namespace Sys2Proof

/-- A byte address of the window that the port can carry: it has no A0 (13.11). -/
def evenAddr (a : Word) : Bool := !a.getLsbD 0

/-- An address outside exhibit memory whose host write is discarded whole: unused space, ZID, ZSTAT, ZECA, ZEUA (R175). -/
def discardAddr (a : Word) : Bool :=
  (0xC000 ≤ a.toNat && a.toNat < 0xFFF0) || a == 0xFFF0 || a == 0xFFF4 || a == 0xFFF8 || a == 0xFFFA

/-- The command's operands fit its row. -/
def Instr.wellFormed : Instr → Bool
  | .setRun v => v.getLsbD 0 && !v.getLsbD 1
  | .clearRun v => !v.getLsbD 0 && !v.getLsbD 1
  | .softReset v => v.getLsbD 1
  | .setAttentionEnables v => !v.getLsbD 1
  | .setCaptureLast v => !v.getLsbD 1
  | .armInjection v => v.getLsbD 0
  | .disarmInjection v => !v.getLsbD 0
  | .discardedRegisterWrite a _ => evenAddr a && discardAddr a
  | .hostRead a => evenAddr a
  | .hostWrite a _ => evenAddr a && decide (a.toNat < 0xC000)
  | .homeActive _ us => decide (us < 1000)
  | .limitActive _ _ us => decide (us < 1000)
  | .fltActive _ us => decide (us < 1000)
  | _ => true

end Sys2Proof
end

