-- ==== Sys2Proof/Tests/Slice0.lean ====
section
/-! SUPPORT. Our own tests: ill-formed commands, the spec's worked examples one step at a time, and a witness for the hypotheses of
every statement that has some (`witness_<Name>` for `Obligations.<Name>`). -/

namespace Sys2Proof.Tests
open Sys2Proof Sys2Proof.Machine

-- One test after the other: a kernel evaluation waits for every declaration before it, and each waiting test would hold a thread's stack.
set_option Elab.async false

/-! ### Ill-formed commands are told apart (Syntax, WellFormed, Decode) -/

theorem test_wf_setRun : (Instr.setRun 0x0000).wellFormed = false ∧ (Instr.setRun 0x0003).wellFormed = false
    ∧ (Instr.setRun 0x01F1).wellFormed = true := by decide
theorem test_wf_clearRun : (Instr.clearRun 0x0001).wellFormed = false ∧ (Instr.clearRun 0x0002).wellFormed = false
    ∧ (Instr.clearRun 0x0000).wellFormed = true := by decide
theorem test_wf_softReset : (Instr.softReset 0x0001).wellFormed = false ∧ (Instr.softReset 0x0002).wellFormed = true := by decide
theorem test_wf_setAttentionEnables : (Instr.setAttentionEnables 0x0012).wellFormed = false
    ∧ (Instr.setAttentionEnables 0x0010).wellFormed = true := by decide
theorem test_wf_setCaptureLast : (Instr.setCaptureLast 0x0102).wellFormed = false
    ∧ (Instr.setCaptureLast 0x0101).wellFormed = true := by decide
theorem test_wf_injection : (Instr.armInjection 0x0000).wellFormed = false ∧ (Instr.disarmInjection 0x0001).wellFormed = false
    ∧ (Instr.armInjection 0x0001).wellFormed = true ∧ (Instr.disarmInjection 0x0000).wellFormed = true := by decide
theorem test_wf_discardedRegisterWrite : (Instr.discardedRegisterWrite 0xC001 0).wellFormed = false
    ∧ (Instr.discardedRegisterWrite 0xBFFE 0).wellFormed = false ∧ (Instr.discardedRegisterWrite 0xFFF2 0).wellFormed = false
    ∧ (Instr.discardedRegisterWrite 0xC000 0).wellFormed = true ∧ (Instr.discardedRegisterWrite 0xFFEE 0).wellFormed = true
    ∧ (Instr.discardedRegisterWrite 0xFFFA 0).wellFormed = true := by decide
theorem test_wf_hostRead : (Instr.hostRead 0x0001).wellFormed = false ∧ (Instr.hostRead 0xFFFE).wellFormed = true := by decide
theorem test_wf_hostWrite : (Instr.hostWrite 0x0001 0).wellFormed = false ∧ (Instr.hostWrite 0xC000 0).wellFormed = false
    ∧ (Instr.hostWrite 0xBFFE 0).wellFormed = true := by decide
theorem test_wf_pins : (Instr.homeActive 0 1000).wellFormed = false ∧ (Instr.limitActive 7 true 1000).wellFormed = false
    ∧ (Instr.fltActive 0 1000).wellFormed = false ∧ (Instr.fltActive 7 999).wellFormed = true := by decide
/-- The table gives no row any bits: no word spells a command. -/
theorem test_no_word_spells_a_command : decodeTableWord 0 0 = none ∧ decodeTableWord 16 0x5A4C = none := by decide

/-! ### A small running part -/

/-- A small layout that passes the check of R177. -/
def lay : Layout :=
  { pointers := 0x20, orders := 0x40, slotCount := 8, bindings := 0x80, entryCount := 1, inputs := 0x90, inputCount := 1,
    guards := 0xC0, params := 0x100, status := 0x180, stateMap := 0x200, board := 0x240, journal := 0x400, journalSize := 256,
    trigger := 64, highMark := 200, lowMark := 100, staleTime := 1000, restTime := 60, escalateTime := 30, watchWindow := 5000,
    silentRest := true }

/-- The channel of the example 5.3.1, with soft limits wide of the move and the guard deceleration of 5.4.2. -/
def pars : Params :=
  { enable := true, maxSpeed := 2000, startSpeed := 250, accel := 62500, decel := 62500, guardDecel := 31250, softMin := -1000,
    softMax := 1000, homeOffset := 0, parkPosition := 0, homeSpeed := 250, homeSearch := 5000, zone := 0 }

/-- A homed channel at rest at 0. -/
def chan0 : Channel := { Channel.initial with params := some pars, state := .idle, lost := false, en := true }

/-- Key 7 of station 1 of line 0, class ATTENDANT. -/
def key0 : Input :=
  Input.fresh { line := 0, station := 1, key := 7, attendant := true, active := true, debounce := 2, holdTime := 500,
                repeatInterval := 200, stuckTime := 30, stormLimit := 0, stormWindow := 0, stormCool := 0, wake := false,
                wakePass := false, alwaysJournal := false, baseLamp := .off, restLamp := .off, zone := 0 }

/-- Line 0 polls two stations, both present. -/
def line0 : Line :=
  { Line.initial with
    record := { enable := true, stations := 2, rate := .b38400, zone := 0 }
    stations := Vector.ofFn (fun a : Fin 12 => if a.val < 2 then { Station.disabled with presence := .present } else .disabled) }

/-- Guard 0 covers channel 0, filter 5 ms, clear time 100 ms. -/
def guard0 : Guard :=
  { Guard.initial with
    record := { enable := true, activeHigh := true, cut := false, attended := false, zone := 0, mask := 1, filter := 5, clearTime := 100 } }

/-- An entry that moves channel 0 to 100 on a REPEAT of input 0, in every mode. -/
def entry0 : BindingEntry :=
  { hostNeeded := false, gesture := .repeat, modeMask := 15, action := .moveTo 0 100 100, busy := .queue, fallback := .slow, input := 0,
    lockout := 2000 }

/-- The part in RUNNING and OPEN at 1000 ms under `lay`. -/
def base : Sys2Proof.Machine.Part :=
  { Part.initial with
    run := { RunControl.initial with state := .running, run := true, layout := some lay }
    time := 1000
    orders := { Orders.initial with slots := List.replicate 8 { shadow := .idle, kind := 0, tag := 0 } }
    lines := #v[line0, Line.initial, Line.initial, Line.initial]
    inputs := [key0]
    bindings := [{ entry := some entry0, lockout := none }]
    channels := Vector.replicate 8 chan0
    guards := Vector.replicate 8 guard0
    modes := { Modes.initial with mode := .opened } }

/-- A part in another run state. -/
def runs (p : Sys2Proof.Machine.Part) (st : RunState) : Sys2Proof.Machine.Part := { p with run := { p.run with state := st } }
/-- A part in another mode. -/
def moded (p : Sys2Proof.Machine.Part) (m : Mode) : Sys2Proof.Machine.Part := { p with modes := { p.modes with mode := m } }
/-- A part with one word of exhibit memory. -/
def holds (p : Sys2Proof.Machine.Part) (a : Nat) (c : Cell) : Sys2Proof.Machine.Part := { p with mem := [(a, c)] }
/-- The state of a part with no command waiting. -/
def alone (p : Sys2Proof.Machine.Part) : State := { part := p, pending := [] }
/-- An order read from slot 7, the last of the table. -/
def order (k : OrderKind) (target : Byte) (w3 w4 w5 : Word) : Taking :=
  { slot := 7, kind := k, target := target, w3 := w3, w4 := w4, w5 := w5, asked := false }
/-- A part that is taking an order. -/
def takes (p : Sys2Proof.Machine.Part) (t : Taking) : Sys2Proof.Machine.Part := { p with orders := { p.orders with taking := some t } }
/-- A part after a command has been carried out on it. -/
def afterCommand (c : Instr) (p : Sys2Proof.Machine.Part) : Sys2Proof.Machine.Part :=
  match exec c (alone p) with
  | .next t => t.part
  | _ => p

theorem serves {p : Sys2Proof.Machine.Part} {t : Taking} (ha : p.active = true) (hl : p.run.layout = some lay)
    (hs : t.slot = 7) (hn : p.orders.slots.length = 8) : (takes p t).serving lay t.kind t := by
  refine ⟨ha, rfl, rfl, hl, by decide, ?_, ?_⟩
  · rw [hs]; decide
  · rw [hs]; show 7 < p.orders.slots.length; rw [hn]; decide

/-! ### The spec's examples, one step each -/

/-- R3: the poll of address 3 with every lamp OFF. -/
theorem test_poll_frame_all_off : base.frame 0 3 = { address := 0xA3, lampLo := 0, lampHi := 0, check := 0x5C } := by decide

/-- R3: the poll of address 3 with key 0 ON and key 5 SLOW. -/
theorem test_poll_frame_two_lamps :
    let lit (k : Fin 8) (p : Lamp) : Input :=
      { key0 with d := { key0.d with station := 3, key := k }, lamp := some { pattern := p, expiry := none } }
    ({ base with inputs := [lit 0 .on, lit 5 .slow] } : Sys2Proof.Machine.Part).frame 0 3
      = { address := 0xA3, lampLo := 0x01, lampHi := 0x08, check := 0x53 } := by decide

/-- 5.2.1, the conversions of channel 3. -/
theorem test_conversions :
    let pr : Params := { pars with accel := 10, decel := 100000, softMin := -40000, softMax := 40000 }
    pr.vmax = 33554432 ∧ pr.vs = 4194304 ∧ pr.a = 168 ∧ pr.b = 1677722 ∧ pr.cap 37 false = 12415139 ∧ pr.cap 0 false = 4194304
      ∧ pr.cap 200 false = 33554432 ∧ pr.cap 60 true = 8388608 ∧ pr.limit 1500000 = 40000 := by decide

/-- A sixteenth of a step, in pq. -/
def sixteenth : Nat := 1048576

/-- Channel 0 in the middle of the move of 5.3.1 or 5.3.2, at `at16` sixteenths with speed `v16`. -/
def moving (ph : Phase) (at16 v16 target : Nat) : Channel :=
  { chan0 with
    state := .moving
    current := some { kind := .move, source := .order 7, target := .absolute target, scale := 100 }
    prof := { Profile.initial with p := at16 * sixteenth, v := v16 * sixteenth, tickV := v16 * sixteenth, positive := true, phase := ph,
                                   latch := ph == .decel, target := some (target * 16777216), cap := some 33554432 } }

/-- Position in sixteenths, speed in sixteenths, phase and steps of channel 0, all pulses of the tick issued. -/
def seen (p : Sys2Proof.Machine.Part) : Int × Nat × Phase × Int :=
  ((p.chan 0).prof.p / sixteenth, (p.chan 0).prof.v / sixteenth, (p.chan 0).prof.phase, (p.chan 0).endS)

/-- 5.3.1: the first tick. -/
theorem test_motionTick_first : seen (afterCommand .motionTick (base.setChan 0 (moving .accel 0 4 100))) = (5, 5, .accel, 0) := by decide +kernel
/-- 5.3.1: the 28th tick reaches the cap at 518 sixteenths. -/
theorem test_motionTick_cruise :
    seen (afterCommand .motionTick (base.setChan 0 (moving .accel 486 31 100))) = (518, 32, .cruise, 32) := by decide +kernel
/-- 5.3.1: the 46th tick, at 538 from the target, begins to decelerate. -/
theorem test_profile_decel :
    (moving .cruise 1062 32 100).prof.tickMove pars (100 * 16777216) 33554432
      = { prof := { (moving .decel 1093 31 100).prof with phase := .decel, latch := true }, ended := none } := by decide +kernel
/-- 5.3.2: the 4th tick of the one-step move arrives. -/
theorem test_profile_arrival :
    ((moving .decel 13 4 1).prof.tickMove pars 16777216 33554432).ended = some .complete
      ∧ ((moving .decel 13 4 1).prof.tickMove pars 16777216 33554432).prof.p = 16777216 := by decide +kernel
/-- 5.4.1: a STOP CONTROLLED after the 10th tick: its first tick, the tick that fixes the stop point at 12 steps, and the halt. -/
theorem test_profile_stop :
    let f (at16 v16 : Nat) : Profile := { (moving .accel at16 v16 100).prof with phase := .stoppingDecel, stopRate := some .b }
    let halt (g : Profile) : TickResult := { prof := g, ended := some .stopped }
    ((f 95 14).tickStop pars halt).prof.p = 108 * sixteenth
      ∧ ((f 176 5).tickStop pars halt).prof = { f 180 4 with stopPoint := some (12 * 16777216) }
      ∧ ({ f 188 4 with stopPoint := some (12 * 16777216) }.tickStop pars halt).ended = some .stopped := by decide +kernel
/-- 5.4.2: the guard stop's first tick loses half a sixteenth, and the clamp ends it LIMITED at the soft limit. -/
theorem test_profile_guard_stop :
    let pr : Params := { pars with softMax := 100 }
    let f : Profile := { (moving .cruise 1062 32 100).prof with phase := .stoppingDecel, stopRate := some .g }
    let halt (g : Profile) : TickResult := { prof := g, ended := some .guarded }
    pr.g = 524288 ∧ (f.tickStop pr halt).prof.p = (2187 * 524288 : Nat)
      ∧ ({ f with p := 1597 * sixteenth, v := 22 * sixteenth }.tickStop pr halt).ended = some .limited
      ∧ (({ f with p := 1597 * sixteenth, v := 22 * sixteenth } : Profile).tickStop pr halt).prof.p = (1677721600 : Int) := by decide +kernel

/-- 1.4.1: the three characters of station 3's reply are GOOD, keys 0 and 2 down. -/
theorem test_reply_judged :
    judge 3 ([0x03, 0x05, 0xF7].map (fun d => { data := d, framing := false, mark := false, overrun := false })) = some 0x05 := by decide

/-- 12.5.1: a ONE_BIT injection at bit 3 alters the host's write of 0x1234 to 0x123C, and is then disarmed. -/
theorem test_hostWrite_injected :
    let q := afterCommand (.hostWrite 0x3000 0x1234)
      { base with prot := { Protection.initial with injection := { Injection.clear with armed := true, bit := 3 } } }
    (q.mem.cell 0x1800).stored = 0x123C ∧ q.prot.injection.armed = false := by decide +kernel

/-- 12.5.1: the host's read of it returns 0x1234 and writes it back good; corrected 1, CV, ZECA 0x1800. -/
theorem test_hostRead_corrects :
    let q := afterCommand (.hostRead 0x3000) (holds base 0x1800 { written := 0x1234, upset := .one 3 })
    q.hostData = 0x1234 ∧ q.mem.cell 0x1800 = .good 0x1234 ∧ q.zecnt = 0x1001 ∧ q.prot.zeca = 0x1800
      ∧ q.run.attention.memerr = false := by decide +kernel

/-- 12.5.1: the ADDRESS injection reads back as stored, uncorrected 1, UV, ZEUA 0x1800, MEMERR, an URGENT entry LAPSED, CALL. -/
theorem test_hostRead_uncorrected :
    let q := afterCommand (.hostRead 0x3000) (holds base 0x1800 { written := 0x1234, upset := .address })
    q.hostData = 0x1234 ∧ q.mem.cell 0x1800 = { written := 0x1234, upset := .address } ∧ q.zecnt = 0x2100 ∧ q.prot.zeua = 0x1800
      ∧ q.run.attention.memerr = true ∧ q.run.attention.journal = true ∧ q.callPin = true ∧ q.board.pattern 3 = .fast
      ∧ q.board.entries[0]?.map (fun e => e.map (fun e => (e.code, e.source, e.severity, e.state)))
        = some (some (.memoryUncorrected, .none, .urgent, .lapsed)) := by decide +kernel

/-- 12.5.1: TWO_BIT at BIT 21 inverts bits 21 and 0: the stored data is 0x1235. -/
theorem test_two_bit_at_21 : ({ written := 0x1234, upset := .two 21 } : Cell).stored = 0x1235 := by decide

/-- A part whose journal stands at the given pointers, THROTTLED or not, with coalesce counts. -/
def journals (empty fill : Nat) (throttled : Bool) (coalesced : List (Nat × Word)) (gap : Word) : Sys2Proof.Machine.Part :=
  { base with journal := { fill := fill, empty := empty, throttled := throttled, coalesced := coalesced, gap := gap, gapRaises := 0, staleDue := some 1500 } }

/-- 10.7.1: a CHANNEL record at fill 252 wraps behind a PAD header; the occupancy of 202 throttles the writer. -/
theorem test_journal_wrap :
    let q := (journals 60 252 false [] 0).hand (channelRecord 0 .idle .moving 0 false 0 1000)
    q.journal.fill = 6 ∧ q.journal.throttled = true ∧ (q.mem.cell (0x400 + 252)).written = 0x0011
      ∧ (q.mem.cell 0x400).written = 0x0065 ∧ (q.mem.cell 0x20).written = 6 ∧ (q.mem.cell 0x23).written = 1 := by decide +kernel

/-- 10.7.1: J_EMPTY 200 brings the writer to the low mark and the count of input 40 is flushed; J_EMPTY 30 is written back as 200. -/
theorem test_jEmptyWrite_flushes :
    let q := afterCommand (.jEmptyWrite 200) (journals 150 17 true [(40, 6)] 0)
    q.journal.empty = 200 ∧ q.journal.fill = 22 ∧ q.journal.throttled = false ∧ q.journal.coalesced = []
      ∧ (q.mem.cell (0x400 + 20)).written = 40 ∧ (q.mem.cell (0x400 + 21)).written = 6 := by decide +kernel
theorem test_jEmptyWrite_rejected :
    let q := afterCommand (.jEmptyWrite 30) (journals 200 22 false [] 0)
    q.journal.empty = 200 ∧ (q.mem.cell 0x21).written = 200 := by decide +kernel

/-- 10.8.1: a record that finds no room is counted, and so is the ALERT record of the JOURNAL_GAP it raises. -/
theorem test_journal_gap :
    let q := (journals 10 9 true [(12, 3)] 0).hand (guardRecord 0 .clear .tripped .input 1000)
    q.journal.gap = 2 ∧ (q.mem.cell 0x22).written = 2
      ∧ q.board.entries[0]?.map (fun e => e.map (fun e => (e.code, e.severity, e.state))) = some (some (.journalGap, .info, .lapsed)) := by
  decide +kernel

/-- 4.11: LIMIT_HI at S = 2,610 ends slot 3 FAULTED and supersedes slots 5 and 7 of the queue. -/
theorem test_limitActive_faults :
    let order (i : Nat) (k : MoveKind) : Move := { kind := k, source := .order i, target := .absolute 4000, scale := 100 }
    let x := { moving .cruise (2610 * 16) 2 4000 with
      params := some { pars with softMin := -100, softMax := 5000, zone := 2 }, tickS := 2610, current := some (order 3 .move)
      queue := [order 5 .move, order 7 .park] }
    let q := afterCommand (.limitActive 6 true 0) (base.setChan 6 x)
    (q.chan 6).state = .fault ∧ (q.chan 6).lost = true ∧ (q.chan 6).en = true ∧ (q.chan 6).queue = [] ∧ (q.chan 6).moveCount = 3
      ∧ [3, 5, 7].map (fun i => ((q.mem.cell (0x40 + 8 * i)).written, (q.mem.cell (0x40 + 8 * i + 6)).written))
        = [(0x0703, 2610), (0x0603, 2610), (0x0603, 2610)]
      ∧ q.board.entries[0]?.map (fun e => e.map (fun e => (e.code, e.severity, e.zone))) = some (some (.limitHit, .attend, .one 2)) := by
  decide +kernel

/-- R85: the tick from S = 30 to S = 32 issues its pulses 333 and 666 us after it begins; FLT leaves the channel at the pulses issued. -/
theorem test_fltActive_between_pulses :
    [332, 333, 666].map (fun us => ((afterCommand (.fltActive 0 us) (afterCommand .motionTick (base.setChan 0 (moving .accel 486 31 100)))).chan 0).prof.p)
      = [30 * 16777216, 31 * 16777216, 32 * 16777216] := by decide +kernel

/-- R85 (log entry 4): 332 steps on an empty queue leave S at 30, and the next one issues the first pulse. -/
theorem test_idle_issues_pulse :
    let p := afterCommand .motionTick (base.setChan 0 (moving .accel 486 31 100))
    ((p.goTo 332).chan 0).s = 30 ∧ (((p.goTo 332).idle).chan 0).s = 31 ∧ ((p.goTo 1000).idle.clock.us) = 999 := by decide +kernel

/-- 4.11: HOME becomes active at S = -23 with home_offset -20: the home ends COMPLETE with result -20. -/
theorem test_homeActive_completes :
    let x := { chan0 with
      params := some { pars with homeOffset := -20 }, state := .homing, lost := true, tickS := -23
      prof := { Profile.initial with p := -23 * 16777216 }
      current := some { kind := .home, source := .order 1, target := .absent, scale := 0 } }
    let q := afterCommand (.homeActive 6 0) (base.setChan 6 x)
    (q.chan 6).state = .idle ∧ (q.chan 6).lost = false ∧ (q.chan 6).s = -20
      ∧ (q.mem.cell 0x48).written = 0x0103 ∧ (q.mem.cell 0x4E).written = 0xFFEC ∧ (q.mem.cell 0x4F).written = 0xFFFF := by decide +kernel

/-- The board of 7.9: indices 3, 8 and 11 as listed, the others OPEN and URGENT, made in index order. -/
def pressed : Board :=
  let e (code : AlertCode) (src : Source) (sev : Severity) (st : EntryState) : Option Entry :=
    some { code := code, source := src, zone := .all, severity := sev, state := st, escalated := false, count := 1, first := 0, last := 0 }
  { entries := Vector.ofFn (fun i : Fin 32 =>
      if i = 3 then e .lineTestFail (.line 1) .info .lapsed
      else if i = 8 then e .stationLost (.station 2 4) .attend .held
      else if i = 11 then e .pressStorm (.input 40) .info .opened
      else e .keyStuck (.input (100 + i.val)) .urgent .opened)
    made := List.finRange 32, overflow := false }

/-- 7.9: PRESS_STORM of input 7 takes the place of the LAPSED INFO entry at index 3. -/
theorem test_board_evicts :
    let q := { base with board := pressed }.raiseAlert .pressStorm (.input 7) .all .info
    q.board.entries[3]?.map (fun e => e.map (fun e => (e.code, e.source))) = some (some (.pressStorm, .input 7))
      ∧ q.board.count = 32 ∧ q.board.overflow = false := by decide +kernel

/-- 10.8.1 with 7.9: the EVICTED record finds no room, and the JOURNAL_GAP it calls for is raised after the new entry has its index. -/
theorem test_evicted_record_dropped :
    let q := { journals 10 9 true [] 0 with board := pressed }.raiseAlert .pressStorm (.input 7) .all .info
    q.board.entries[3]?.map (fun e => e.map (fun e => (e.code, e.source))) = some (some (.pressStorm, .input 7))
      ∧ q.board.entries[11]?.map (fun e => e.map Entry.code) = some (some .journalGap) ∧ q.board.count = 32 := by decide +kernel

/-! ### Witnesses: run control and the window -/

/-- A part that a reset holds. -/
def held : Sys2Proof.Machine.Part := { base with run := { base.run with hold := some .pin } }

theorem witness_SoftResetColumn : base.run.hold = none := by decide +kernel
theorem witness_HoldEndAndClearingDone : State.reset.part.run.hold = none ∧ State.reset.part.run.state = .clearing := by decide +kernel
theorem witness_RunBitOutsideRunning : ∀ st ∈ [RunState.clearing, .halted, .checking, .stopping, .faulted],
    (runs base st).run.hold = none ∧ (runs base st).run.state ≠ .running := by decide +kernel
theorem witness_ClearRunStopsTheRun : base.run.hold = none ∧ base.run.state = .running ∧ (base.chan 0).params.isSome = true := by decide +kernel
theorem witness_ZctlWriteReplacesFields : base.run.hold = none ∧ (0x01F1 : Word).getLsbD 1 = false
    ∧ base.run.state.moves ((0x01F1 : Word).getLsbD 0) = false := by decide +kernel
theorem witness_HeldPartServesNothing : held.run.hold ≠ none := by decide +kernel
theorem witness_AttentionAndCountsCleared : base.run.hold = none := by decide +kernel
theorem witness_InjectionRegisterWrite : base.run.hold = none ∧ (0x01FF : Word).getLsbD 0 = true ∧ (0x01FE : Word).getLsbD 0 = false := by
  decide +kernel
theorem witness_UnassignedRegisterBits : (0xFFFF : Word) &&& 0x01F3 = 0x01F3 &&& 0x01F3 ∧ (0xFFFF : Word) &&& 0x000F = 0x000F &&& 0x000F
    ∧ (0xFFFF : Word) &&& 0x01FF = 0x01FF &&& 0x01FF ∧ base.run.hold = none ∧ (0x0007 : Word).toNat / 2 % 4 = 3
    ∧ (0x0007 : Word).getLsbD 0 = true := by decide +kernel
/-- The first and the last address of each half of the window; word 0x26 is a spare word of the pointer block. -/
theorem witness_HostReadsRegistersAndCleanWords : base.run.hold = none
    ∧ [(0xC000 : Word), 0xFFEE, 0xFFF0, 0xFFFE].Forall (fun a => 0xC000 ≤ a.toNat ∧ a.getLsbD 0 = false)
    ∧ [(0x0000 : Word), 0x004C, 0xBFFE].Forall (fun a => a.toNat < 0xC000 ∧ a.getLsbD 0 = false)
    ∧ (runs base .clearing).run.state = .clearing ∧ base.spare ((0x004C : Word).toNat / 2) = true
    ∧ base.run.state ≠ .clearing ∧ base.spare ((0xBFFE : Word).toNat / 2) = false
    ∧ (holds base 0x5FFF (.good 7)).mem.cell ((0xBFFE : Word).toNat / 2) = .good 7 := by decide +kernel
theorem witness_HostReadCorrectsOneBit : let p := holds base 0x5FFF { written := 7, upset := .one 21 }
    p.run.hold = none ∧ (0xBFFE : Word).toNat < 0xC000 ∧ (0xBFFE : Word).getLsbD 0 = false ∧ p.run.state ≠ .clearing
    ∧ p.spare ((0xBFFE : Word).toNat / 2) = false ∧ Memory.wf p.mem
    ∧ p.mem.cell ((0xBFFE : Word).toNat / 2) = { written := 7, upset := .one 21 } := by decide +kernel
/-- The ring of `RingRecords`: a record of five words at the last place without a wrap, with just enough room, and behind a PAD; a gap
pending; fewer than four words free. -/
theorem witness_HostReadCorrectsOneBit_ring : base.active = true ∧ base.prot.corrected ≠ 15
    ∧ (∀ x ∈ [(60, 251), (106, 100), (60, 252)], let p := journals x.1 x.2 false [] 0
        p.journal.gapRaises = 0 ∧ p.journal.gap = 0 ∧ p.run.layout = some lay ∧ lay.valid = true ∧ p.journal.fill < lay.journalSize
        ∧ p.journal.empty < lay.journalSize
        ∧ p.journal.used 256 5 ≤ 256 - 1 - (p.journal.fill + 256 - p.journal.empty) % 256)
    ∧ (let p := journals 60 100 false [] 3; p.journal.gap ≠ 0
        ∧ p.journal.used 256 4 ≤ 256 - 1 - (p.journal.fill + 256 - p.journal.empty) % 256)
    ∧ (let p := journals 104 100 false [] 0; 256 - 1 - (p.journal.fill + 256 - p.journal.empty) % 256 < 4) := by decide +kernel
theorem witness_HostReadReportsUncorrected : ∀ u ∈ [Upset.address, .two 0],
    let p := holds base 0x5FFF { written := 7, upset := u }
    p.run.hold = none ∧ (0xBFFE : Word).toNat < 0xC000 ∧ (0xBFFE : Word).getLsbD 0 = false ∧ p.run.state ≠ .clearing
    ∧ p.spare ((0xBFFE : Word).toNat / 2) = false ∧ (p.mem.cell ((0xBFFE : Word).toNat / 2)).upset = u := by decide +kernel
theorem witness_HostWritesStoreOrVanish :
    (base.run.hold = none ∧ (0xBFFE : Word).toNat < 0xC000 ∧ (0xBFFE : Word).getLsbD 0 = false ∧ Memory.wf base.mem
      ∧ base.run.state ≠ .clearing ∧ base.spare ((0xBFFE : Word).toNat / 2) = false ∧ base.run.layout = some lay
      ∧ (0xBFFE : Word).toNat / 2 ≠ lay.pointers + 1 ∧ (0xBFFE : Word).toNat / 2 ≠ lay.pointers + 4
      ∧ ∀ i, i < lay.slotCount → (0xBFFE : Word).toNat / 2 ≠ lay.orders + 8 * i)
    ∧ [(0xC000 : Word), 0xFFEE, 0xFFF0, 0xFFF4, 0xFFF8, 0xFFFA].Forall (fun a =>
      ((0xC000 ≤ a.toNat ∧ a.toNat < 0xFFF0) ∨ a = 0xFFF0 ∨ a = 0xFFF4 ∨ a = 0xFFF8 ∨ a = 0xFFFA) ∧ a.getLsbD 0 = false)
    ∧ (runs base .clearing).run.state = .clearing ∧ base.spare ((0x004E : Word).toNat / 2) = true := by decide +kernel

/-- A part whose slot 7 has a shadow. -/
def shadowed (st : Shadow) : Sys2Proof.Machine.Part :=
  { base with orders := { base.orders with slots := List.replicate 7 { shadow := .idle, kind := 0, tag := 0 } ++ [{ shadow := st, kind := 1, tag := 0 }] } }

theorem witness_SlotWritesMoveShadow : ∀ st : Shadow,
    (shadowed st).hasSlot lay (7 : BitVec 6).toNat ∧ (shadowed st).run.hold = none ∧ (shadowed st).run.state ≠ .clearing
      ∧ Memory.wf (shadowed st).mem ∧ (shadowed st).active = true ∧ ((shadowed st).slot 7).shadow = st
      ∧ (2 : Word).toNat % 256 ≠ 0 ∧ (2 : Word).toNat % 256 ≠ 1 := by
  intro st
  refine ⟨⟨rfl, by decide +kernel, by decide +kernel, by cases st <;> decide +kernel⟩, ?_⟩
  cases st <;> decide +kernel
/-- The values at both ends of the occupied span, and the one after it; with the writer at work, and outside RUNNING and STOPPING. -/
theorem witness_EmptyPointerWrite : let p := journals 60 252 true [] 0
    p.run.hold = none ∧ p.run.state ≠ .clearing ∧ p.run.layout = some lay ∧ lay.valid = true ∧ Memory.wf p.mem ∧ p.active = true
    ∧ (runs p .halted).active = false ∧ p.journal.coalesced = []
    ∧ [(60 : Word), 252].Forall (fun v => v.toNat < lay.journalSize ∧ (v.toNat + lay.journalSize - p.journal.empty) % lay.journalSize
        ≤ (p.journal.fill + lay.journalSize - p.journal.empty) % lay.journalSize)
    ∧ [(59 : Word), 253, 256].Forall (fun v => ¬ (v.toNat < lay.journalSize ∧ (v.toNat + lay.journalSize - p.journal.empty) % lay.journalSize
        ≤ (p.journal.fill + lay.journalSize - p.journal.empty) % lay.journalSize)) := by decide +kernel
/-- The flush of 10.7.1, one count, and two counts; the GAP record of a pending gap goes first. -/
theorem witness_EmptyPointerWrite_flush : ∀ x ∈ [([(40, 6)], (0 : Word)), ([(3, 1), (40, 6)], 0), ([(40, 6)], 3)],
    let p := journals 150 17 true x.1 x.2
    p.active = true ∧ p.journal.throttled = true ∧ p.journal.gapRaises = 0
    ∧ ((200 : Word).toNat < lay.journalSize ∧ ((200 : Word).toNat + lay.journalSize - p.journal.empty) % lay.journalSize
        ≤ (p.journal.fill + lay.journalSize - p.journal.empty) % lay.journalSize)
    ∧ (p.journal.fill + lay.journalSize - (200 : Word).toNat) % lay.journalSize ≤ lay.lowMark
    ∧ p.journal.coalesced.Pairwise (fun x y => x.1 < y.1) ∧ (∀ e ∈ p.journal.coalesced, e.2 ≠ 0)
    ∧ p.journal.used 256 5 ≤ 256 - 1 - (p.journal.fill + 256 - 200) % 256 := by decide +kernel
theorem witness_HeartbeatWrite : base.run.hold = none ∧ base.run.state ≠ .clearing ∧ base.run.layout = some lay ∧ lay.valid = true
    ∧ Memory.wf base.mem ∧ base.active = true ∧ lay.watchWindow ≠ 0 ∧ base.modes.silent = false
    ∧ (runs base .faulted).active = false := by decide +kernel

/-- The scrubber stands at the last word. -/
def scrubs (u : Upset) : Sys2Proof.Machine.Part :=
  { holds base 0x5FFF { written := 7, upset := u } with prot := { Protection.initial with scrubPos := 24575 } }
theorem witness_ScrubHandlesOneWord : (∀ u ∈ [Upset.none, .one 0, .two 21, .address],
      Memory.wf (scrubs u).mem ∧ (scrubs u).run.state = .running ∧ ((scrubs u).mem.cell (scrubs u).prot.scrubPos.val).upset = u)
    ∧ (scrubs .none).clock.scrubbed = false ∧ (scrubs .none).clock.tickOwed = false
    ∧ ((scrubs .none).setClock { Clock.initial with scrubbed := true }).clock.scrubbed = true
    ∧ (runs base .stopping).run.state ≠ .running := by decide +kernel
/-- R192: one scrub in a millisecond, at the word where the position stands. -/
theorem test_scrub_once : (afterCommand .scrub (afterCommand .scrub (scrubs .none))).prot.scrubPos = 0
    ∧ (afterCommand .motionTick (scrubs .none)).prot.scrubPos = 0 := by decide +kernel

/-! ### Witnesses: CHECKING, RUNNING and HALTED -/

/-- The layout block that reads as `lay`. -/
def block : List Word :=
  [0x5A4C, 1, 0x20, 0x40, 8, 0x80, 1, 0x90, 1, 0xC0, 0x100, 0x180, 0x200, 0x240, 0x400, 256, 64, 200, 100, 1000, 60, 30, 5000, 1,
   0, 0, 0, 0, 0, 0, 0, 0]

/-- Words of exhibit memory from an address on, as written. -/
def words (a : Nat) (ws : List Word) : Memory := (ws.zipIdx a).filterMap (fun w => if w.1 = 0 then none else some (w.2, .good w.1))

/-- The hypothesis of the first clause of `LayoutCheckFails`. -/
abbrev blockFails (ws : List Word) (code : FaultCode) : Prop :=
  code ≠ .none ∧ code =
    if wordAt ws 0 ≠ 0x5A4C then .signature
    else if wordAt ws 1 ≠ 1 then .version
    else if ¬ (8 ≤ (layoutOf ws).slotCount ∧ (layoutOf ws).slotCount ≤ 64 ∧ 1 ≤ (layoutOf ws).entryCount ∧ (layoutOf ws).entryCount ≤ 256
        ∧ 1 ≤ (layoutOf ws).inputCount ∧ (layoutOf ws).inputCount ≤ 256
        ∧ 256 ≤ (layoutOf ws).journalSize ∧ (layoutOf ws).journalSize ≤ 8192) then .count
    else if ¬ ((∀ r ∈ (layoutOf ws).regions, 0x0020 ≤ r.1 ∧ r.1 + r.2 ≤ 0x6000)
        ∧ ((layoutOf ws).staleTime = 0 ∨ 10 ≤ (layoutOf ws).staleTime ∧ (layoutOf ws).staleTime ≤ 10000)
        ∧ ((layoutOf ws).restTime = 0 ∨ 10 ≤ (layoutOf ws).restTime ∧ (layoutOf ws).restTime ≤ 3600)
        ∧ ((layoutOf ws).escalateTime = 0 ∨ 10 ≤ (layoutOf ws).escalateTime ∧ (layoutOf ws).escalateTime ≤ 3600)
        ∧ ((layoutOf ws).watchWindow = 0 ∨ 100 ≤ (layoutOf ws).watchWindow ∧ (layoutOf ws).watchWindow ≤ 60000)
        ∧ (wordAt ws 23).toNat ≤ 1) then .range
    else if ¬ (layoutOf ws).regions.Pairwise (fun r q => r.1 + r.2 ≤ q.1 ∨ q.1 + q.2 ≤ r.1) then .overlap
    else if ¬ (1 ≤ (layoutOf ws).trigger ∧ (layoutOf ws).trigger ≤ (layoutOf ws).journalSize - 1 ∧ 1 ≤ (layoutOf ws).lowMark
        ∧ (layoutOf ws).lowMark < (layoutOf ws).highMark ∧ (layoutOf ws).highMark ≤ (layoutOf ws).journalSize - 1) then .marks
    else .none

/-- A part in CHECKING over some memory. -/
def checks (m : Memory) : Sys2Proof.Machine.Part :=
  { Part.initial with run := { RunControl.initial with state := .checking, run := true }, mem := m }

/-- One block for each code, each a step past the end of a range. -/
theorem witness_LayoutCheckFails :
    (∀ x ∈ [(0, (0x5A4D : Word), FaultCode.signature), (1, 2, .version), (4, 7, .count), (4, 65, .count), (15, 255, .count), (2, 0x1F, .range),
        (14, 0x5F01, .range), (19, 9, .range), (22, 60001, .range), (23, 2, .range), (3, 0x27, .overlap), (16, 256, .marks), (18, 200, .marks)],
      (block.set x.1 x.2.1).length = 32 ∧ blockFails (block.set x.1 x.2.1) x.2.2 ∧ (checks (words 0 (block.set x.1 x.2.1))).run.state = .checking
      ∧ ∀ k, k < 32 → (checks (words 0 (block.set x.1 x.2.1))).mem.cell (0 + k) = .good (wordAt (block.set x.1 x.2.1) k))
    ∧ ((checks [(31, { written := 0, upset := .two 21 })]).mem.cell 31).upset = .two 21 := by decide +kernel

/-- Groups that pass: one line with one input, one guard, one LAMP binding, eight channels. -/
def inputWords : List Word := 0x0011 :: List.replicate 15 0 ++ [0x1010, 2, 500, 200, 0, 0]
/-- Guard 0 enabled, covering channel 0. -/
def guardWords : List Word := [0x0103, 5, 100] ++ List.replicate 29 0
/-- Entry 0: LAMP on a PRESS of input 0. -/
def bindingWords : List Word := [0x04F1, 0, 0, 0, 1, 10, 0, 0]
/-- The channel of 5.3.1. -/
def channelWords : List Word := [1, 2000, 250, 250, 62500, 62500, 31250, 5000, 0xFC18, 0xFFFF, 0x03E8, 0, 0, 0, 0, 0]

/-- A configured memory, but for its guards. -/
def configured (guards : List Word) : Memory :=
  words 0 block ++ words 0x80 bindingWords ++ words 0x90 inputWords ++ words 0xC0 guards
    ++ words 0x100 ((List.replicate 8 channelWords).flatten)

theorem configures (guards : List Word) (h : guards.length = 32)
    (hc : ∀ k, k < 32 → (configured guards).cell (0xC0 + k) = .good (wordAt guards k))
    (ho : (∀ k, k < 32 → (configured guards).cell (0 + k) = .good (wordAt block k))
      ∧ (∀ k, k < 22 → (configured guards).cell (0x90 + k) = .good (wordAt inputWords k))
      ∧ (∀ k, k < 8 → (configured guards).cell (0x80 + k) = .good (wordAt bindingWords k))
      ∧ ∀ c : Fin 8, ∀ k, k < 16 → (configured guards).cell (0x100 + 16 * c.val + k) = .good (wordAt channelWords k)) :
    (checks (configured guards)).Configured lay inputWords guards bindingWords (fun _ => channelWords) :=
  { checking := rfl
    layout := ⟨block, rfl, ho.1, by decide +kernel⟩
    inputs := ⟨rfl, ho.2.1⟩
    guards := ⟨h, fun k hk => hc k (h ▸ hk)⟩
    bindings := ⟨rfl, ho.2.2.1⟩
    channels := fun c => ⟨rfl, ho.2.2.2 c⟩ }

/-- A check that passed has a value. -/
theorem isOk {α : Type} {e : Except Nat α} (h : e.toBool = true) : ∃ g, e = .ok g := by
  cases e with
  | ok g => exact ⟨g, rfl⟩
  | error _ => simp [Except.toBool] at h

/-- A check that failed has an offender. -/
theorem isError {α : Type} {e : Except Nat α} (h : e.toBool = false) : ∃ i, e = .error i := by
  cases e with
  | ok _ => simp [Except.toBool] at h
  | error i => exact ⟨i, rfl⟩

theorem witness_GroupCheckFails :
    (checks (configured (guardWords.set 1 51))).Configured lay inputWords (guardWords.set 1 51) bindingWords (fun _ => channelWords)
      ∧ ∃ g, guardsOf (guardWords.set 1 51) = .error g :=
  ⟨configures _ rfl (by decide +kernel) (by decide +kernel), isError (by decide +kernel)⟩

/-- The configured part of `witness_EntryToRunning` with one word that cannot be corrected. -/
def spoils (a : Nat) : Sys2Proof.Machine.Part := checks ((configured guardWords).store a { written := 0, upset := .address })
/-- The first and the last word of each group, the groups before it reading clean. -/
theorem witness_GroupCheckFails_memory :
    (∀ a ∈ [0x90, 0xA5, 0xC0, 0xDF, 0x80, 0x87, 0x100, 0x17F], (spoils a).run.state = .checking ∧ ((spoils a).mem.cell a).upset = .address
        ∧ ∀ k, k < 32 → (spoils a).mem.cell (0 + k) = .good (wordAt block k))
      ∧ (∀ a ∈ [0xC0, 0xDF, 0x80, 0x87, 0x100, 0x17F], ∀ k, k < 22 → (spoils a).mem.cell (0x90 + k) = .good (wordAt inputWords k))
      ∧ (∀ a ∈ [0x80, 0x87, 0x100, 0x17F], ∀ k, k < 32 → (spoils a).mem.cell (0xC0 + k) = .good (wordAt guardWords k))
      ∧ (∀ a ∈ [0x100, 0x17F], ∀ k, k < 8 → (spoils a).mem.cell (0x80 + k) = .good (wordAt bindingWords k))
      ∧ (∀ d : Fin 8, d < 7 → ∀ k, k < 16 → (spoils 0x17F).mem.cell (0x100 + 16 * d.val + k) = .good (wordAt channelWords k))
      ∧ block.length = 32 ∧ checkLayout block false = .ok lay ∧ (∃ g, inputsOf lay.inputCount inputWords = .ok g)
      ∧ (∃ g, guardsOf guardWords = .ok g) ∧ (∃ g, bindingsOf lay.entryCount bindingWords = .ok g) ∧ ∃ g, channelParamsOf channelWords = .ok g :=
  ⟨by decide +kernel, by decide +kernel, by decide +kernel, by decide +kernel, by decide +kernel, rfl, by decide +kernel,
    isOk (by decide +kernel), isOk (by decide +kernel), isOk (by decide +kernel), isOk (by decide +kernel)⟩

theorem witness_EntryToRunning :
    (checks (configured guardWords)).Configured lay inputWords guardWords bindingWords (fun _ => channelWords)
      ∧ Memory.wf (checks (configured guardWords)).mem
      ∧ (∃ gi, inputsOf lay.inputCount inputWords = .ok gi) ∧ (∃ gg, guardsOf guardWords = .ok gg)
      ∧ (∃ gb, bindingsOf lay.entryCount bindingWords = .ok gb) ∧ ∀ _c : Fin 8, ∃ gc, channelParamsOf channelWords = .ok gc :=
  ⟨configures _ rfl (by decide +kernel) (by decide +kernel), by decide +kernel, isOk (by decide +kernel), isOk (by decide +kernel),
    isOk (by decide +kernel), fun _ => isOk (by decide +kernel)⟩

/-- Slot 0 POSTED, slot 1 TAKEN, slot 2 unreadable, slot 7 DONE. -/
def table : Memory :=
  [(0x40, .good 1), (0x48, .good 2), (0x50, { written := 1, upset := .address }), (0x78, .good 0x0104)]
theorem witness_OrderTableScan : let p := { base with mem := table }
    p.run.layout = some lay ∧ lay.valid = true ∧ Memory.wf p.mem
      ∧ ((p.mem.cell (lay.orders + 8 * 0)).upset = .none ∧ lowByte (p.mem.cell (lay.orders + 8 * 0)).written = 1)
      ∧ ((p.mem.cell (lay.orders + 8 * 1)).upset = .none ∧ lowByte (p.mem.cell (lay.orders + 8 * 1)).written = 2)
      ∧ (p.mem.cell (lay.orders + 8 * 2)).upset = .address
      ∧ ((p.mem.cell (lay.orders + 8 * 7)).upset = .none ∧ lowByte (p.mem.cell (lay.orders + 8 * 7)).written = 4) := by decide +kernel
/-- The second clause of `OrderTableScan` has the premises of `EntryToRunning`. -/
theorem witness_OrderTableScan_check :
    (checks (configured guardWords)).Configured lay inputWords guardWords bindingWords (fun _ => channelWords)
      ∧ Memory.wf (checks (configured guardWords)).mem
      ∧ (∃ gi, inputsOf lay.inputCount inputWords = .ok gi) ∧ (∃ gg, guardsOf guardWords = .ok gg)
      ∧ (∃ gb, bindingsOf lay.entryCount bindingWords = .ok gb) ∧ ∀ _c : Fin 8, ∃ gc, channelParamsOf channelWords = .ok gc :=
  witness_EntryToRunning
theorem witness_StoppingEnds :
    ((runs base .stopping).run.state = .stopping ∧ (((runs base .stopping).setChan 7 (moving .accel 0 4 100)).chan 7).state = .moving)
    ∧ (takes (runs base .stopping) (order .lamp 0 0 0 0)).orders.taking ≠ none
    ∧ (runs base .stopping).orders.taking = none
    ∧ ∀ c, ((runs base .stopping).chan c).state ≠ .moving ∧ ((runs base .stopping).chan c).state ≠ .stopping
        ∧ ((runs base .stopping).chan c).state ≠ .homing := by decide +kernel

/-! ### Witnesses: orders and applications -/

/-- A part whose take queue holds slot 7, the last of the table, with words w1 to w5 in memory. -/
def queued (ws : List Word) : Sys2Proof.Machine.Part :=
  { base with orders := { base.orders with takeQueue := [7] }, mem := words 0x79 ws }

/-- The conditions on kind, target and stop kind that TakeReadsOrder calls sound. -/
abbrev soundOrder (ws : List Word) : Prop :=
  let kind := (wordAt ws 0).toNat / 256
  let target := (wordAt ws 0).toNat % 256
  ((kind = 1 ∨ kind = 2 ∨ kind = 3 ∨ kind = 5) → target < 8)
    ∧ (kind = 4 → (target < 8 ∨ target = 15) ∧ (wordAt ws 2).toNat ≤ 1) ∧ (kind = 6 → target ≤ 2 ∨ 8 ≤ target ∧ target ≤ 15)

theorem witness_TakeReadsOrder :
    (∀ ws ∈ [[(0x0107 : Word), 9, 100, 0, 100], [0x0B00, 9, 0, 0, 0], [0x040F, 9, 1, 0, 0], [0x060F, 9, 0, 0, 0], [0x0108, 9, 0, 0, 0],
        [0x040F, 9, 2, 0, 0], [0x0603, 9, 0, 0, 0], [0x0000, 9, 0, 0, 0], [0x0C00, 9, 0, 0, 0]],
      (queued ws).hasSlot lay 7 ∧ (queued ws).run.state = .running ∧ (queued ws).orders.taking = none
      ∧ (queued ws).orders.takeQueue = 7 :: [] ∧ Memory.wf (queued ws).mem ∧ ws.length = 5
      ∧ ∀ k, k < ws.length → (queued ws).mem.cell (lay.orders + 8 * 7 + 1 + k) = .good (wordAt ws k))
    ∧ (∀ ws ∈ [[(0x0107 : Word)], [0x0B00], [0x040F, 9, 1], [0x060F]],
      1 ≤ (wordAt ws 0).toNat / 256 ∧ (wordAt ws 0).toNat / 256 ≤ 11 ∧ soundOrder ws)
    ∧ (∀ ws ∈ [[(0x0108 : Word)], [0x040F, 9, 2], [0x0603]],
      1 ≤ (wordAt ws 0).toNat / 256 ∧ (wordAt ws 0).toNat / 256 ≤ 11 ∧ ¬ soundOrder ws)
    ∧ (wordAt [(0x0000 : Word)] 0).toNat / 256 = 0 ∧ 11 < (wordAt [(0x0C00 : Word)] 0).toNat / 256
    ∧ ∀ i ∈ [0, 4], let m : Memory := [(0x79 + i, { written := 0, upset := .address })]
        Memory.wf m ∧ (∀ k, k < i → (m.cell (lay.orders + 8 * 7 + 1 + k)).upset = .none)
        ∧ (m.cell (lay.orders + 8 * 7 + 1 + i)).upset = .address := by
  refine ⟨?_, by decide +kernel⟩
  have hs : ∀ ws, (queued ws).hasSlot lay 7 := fun ws => ⟨rfl, by decide +kernel, by decide +kernel, by simp [queued, base]⟩
  intro ws hw
  refine ⟨hs ws, ?_⟩
  revert ws
  decide +kernel

/-- Channel 7 in a state, with what goes with it. -/
def chan7 (st : ChanState) (park : Option ParkCause) (queue : Nat) : Sys2Proof.Machine.Part :=
  base.setChan 7 { moving .accel 0 4 100 with
    state := st, parkCause := park, current := if st.inMotion then some { kind := .home, source := .order 6, target := .absent, scale := 0 } else none
    prof := if st == .moving then (moving .accel 0 4 100).prof else .initial
    queue := List.replicate queue { kind := .move, source := .order 5, target := .absolute 5, scale := 100 } }

/-- A MOVE of channel 7 to 100. -/
def move7 : Taking := order .move 7 100 0 100

/-- The refusal code that MoveOrdersRefused names. -/
def moveCode (k : OrderKind) (p : Sys2Proof.Machine.Part) (c : Fin 8) : Option Nat :=
  let x := p.chan c
  if x.enabled = false then some 5
  else if k = .move ∧ p.modes.mode ≠ .opened ∧ p.modes.mode ≠ .service then some 4
  else if x.state = .held ∨ x.state = .fault ∨ ∃ g, p.covers g c = true then some 5
  else if k = .move ∧ x.state = .parked ∧ x.parkCause = some .mode then some 5
  else if k ≠ .home ∧ (x.state = .unhomed ∨ x.state = .homing) then some 3
  else if 4 ≤ x.queue.length then some 6
  else none

/-- A part with guard 0 not CLEAR, its pin and filtered level open or not. -/
def guardAt (g : Guard) : Sys2Proof.Machine.Part := base.setGuard 0 g

theorem witness_MoveOrdersRefused :
    (takes base move7).serving lay .move move7 ∧ Memory.wf base.mem ∧ move7.chan = 7
      ∧ moveCode .move (base.setChan 7 Channel.initial) 7 = some 5 ∧ moveCode .move (moded base .rest) 7 = some 4
      ∧ moveCode .move (chan7 .held none 0) 7 = some 5 ∧ moveCode .move (guardAt { guard0 with state := .tripped }) 0 = some 5
      ∧ moveCode .move (chan7 .parked (some .mode) 0) 7 = some 5 ∧ moveCode .move (chan7 .homing none 0) 7 = some 3
      ∧ moveCode .move (chan7 .moving none 4) 7 = some 6 ∧ moveCode .move (chan7 .moving none 3) 7 = none
      ∧ moveCode .home (chan7 .homing none 0) 7 = none ∧ (runs base .stopping).run.state = .stopping :=
  ⟨serves rfl rfl rfl rfl, by decide +kernel⟩

theorem witness_MoveOrParkBegins :
    (takes base move7).serving lay .move move7
      ∧ (takes (chan7 .parked (some .mode) 0) (order .park 7 0 0 0)).serving lay .park (order .park 7 0 0 0)
      ∧ (∀ p ∈ [base, chan7 .parked (some .host) 0], Memory.wf p.mem ∧ p.run.state = .running ∧ (p.chan 7).params = some pars
          ∧ pars.enable = true ∧ (p.chan 7).queue = [] ∧ (p.chan 7).lost = false ∧ (∀ g, p.covers g 7 = false)
          ∧ ((p.chan 7).state = .idle ∨ (p.chan 7).state = .parked ∧ (p.chan 7).parkCause ≠ some .mode) ∧ p.modes.mode = .opened)
      ∧ max pars.softMin (min pars.softMax 100) * 16777216 ≠ (base.chan 7).prof.p
      ∧ max pars.softMin (min pars.softMax 1001) = 1000
      ∧ max pars.softMin (min pars.softMax pars.parkPosition) * 16777216 = (base.chan 7).prof.p :=
  ⟨serves rfl rfl rfl rfl, serves rfl rfl rfl rfl, by decide +kernel⟩

/-- A HOME of channel 7. -/
def home7 : Taking := order .home 7 0 0 0
theorem witness_HomeBegins :
    (takes (chan7 .unhomed none 0) home7).serving lay .home home7
      ∧ (let p := chan7 .unhomed none 0
         Memory.wf p.mem ∧ p.run.state = .running ∧ (p.chan 7).params = some pars ∧ pars.enable = true ∧ (p.chan 7).queue = []
         ∧ (∀ g, p.covers g 7 = false) ∧ (p.chan 7).state = .unhomed ∧ (p.chan 7).pins.home = false ∧ (p.chan 7).pins.limitLo = false)
      ∧ (∀ pins ∈ [{ ChannelPins.initial with home := true }, { ChannelPins.initial with limitLo := true }],
         let p := base.setChan 7 { chan0 with pins := pins }
         (p.chan 7).pins = pins ∧ p.modes.mode = .opened ∧ (p.chan 7).state = .idle) :=
  ⟨serves rfl rfl rfl rfl, by decide +kernel⟩

theorem witness_MoveJoinsQueue :
    (takes (chan7 .moving none 3) move7).serving lay .move move7
      ∧ (takes (chan7 .homing none 0) home7).serving lay .home home7
      ∧ (∀ p ∈ [chan7 .moving none 3, chan7 .stopping none 0, chan7 .homing none 3], p.run.state = .running ∧ (p.chan 7).enabled = true
          ∧ (∀ g, p.covers g 7 = false) ∧ (p.chan 7).queue.length < 4 ∧ p.modes.mode = .opened)
      ∧ ((chan7 .moving none 3).chan 7).state = .moving :=
  ⟨serves rfl rfl rfl rfl, serves rfl rfl rfl rfl, by decide +kernel, by decide +kernel⟩

/-- A STOP of channel 7, CONTROLLED or CUT. -/
def stop7 (kind : Word) : Taking := order .stop 7 kind 0 0
/-- A STOP CONTROLLED of slot 7 that waits for some channels. -/
def waitsFor (cs : List (Fin 8)) : Sys2Proof.Machine.Part :=
  { base with orders := { base.orders with hand := [{ slot := 7, work := .stop none cs 0 }] } }
theorem witness_StopControlledWaits :
    (takes base (stop7 0)).serving lay .stop (stop7 0)
      ∧ (∀ cs, (waitsFor cs).hasSlot lay (7 : BitVec 6).toNat ∧ Memory.wf (waitsFor cs).mem
          ∧ (waitsFor cs).handOf (7 : BitVec 6).toNat = some { slot := 7, work := .stop none cs 0 })
      ∧ Memory.wf base.mem ∧ (stop7 0).w3 = 0 ∧ (stop7 0).target.toNat < 8 ∧ base.orders.hand = []
      ∧ (base.chan 7).state = .idle ∧ ((chan7 .moving none 0).chan 7).state = .moving ∧ base.run.state = .running
      ∧ (runs (chan7 .moving none 0) .stopping).run.state = .stopping :=
  ⟨serves rfl rfl rfl rfl,
    fun _ => ⟨⟨rfl, by decide +kernel, by decide +kernel, by simp [waitsFor, base]⟩, show Memory.wf [] by decide +kernel, rfl⟩, by decide +kernel⟩

theorem witness_StopCutTakesPower :
    (takes base (stop7 1)).serving lay .stop (stop7 1) ∧ (stop7 1).w3 = 1 ∧ (stop7 1).target.toNat < 8 ∧ Memory.wf base.mem
      ∧ ∀ st : ChanState, ((chan7 st none 0).chan 7).state = st
          ∧ ((st = .moving ∨ st = .stopping ∨ st = .homing) → ((chan7 st none 0).chan 7).current.isSome = true) := by
  refine ⟨serves rfl rfl rfl rfl, by decide +kernel, by decide +kernel, by decide +kernel, ?_⟩
  intro st
  cases st <;> decide +kernel

/-- A RELEASE of channel 7. -/
def release7 : Taking := order .release 7 0 0 0
theorem witness_ReleaseOrder :
    (takes base release7).serving lay .release release7 ∧ Memory.wf base.mem
      ∧ (let x := (chan7 .fault none 0).chan 7; x.enabled = true ∧ x.state = .fault ∧ x.pins.flt = false)
      ∧ (let x := (chan7 .parked (some .host) 0).chan 7; x.enabled = true ∧ x.state = .parked ∧ x.parkCause = some .host)
      ∧ base.modes.mode = .opened ∧ (base.chan 7).state = .idle :=
  ⟨serves rfl rfl rfl rfl, by decide +kernel⟩

/-- A part that applies the group of a target; the memory is that of `configured`. -/
def applies (target : Byte) (guards : List Word) : Sys2Proof.Machine.Part :=
  takes { base with mem := configured guards } (order .apply target 0 0 0)

theorem applies_serves (target : Byte) (guards : List Word) :
    (applies target guards).serving lay .apply (order .apply target 0 0 0) := serves rfl rfl rfl rfl

theorem witness_ApplyInputsReplacesSet :
    (applies 0 guardWords).serving lay .apply (order .apply 0 0 0 0) ∧ (∃ g, inputsOf lay.inputCount inputWords = .ok g)
      ∧ Memory.wf (applies 0 guardWords).mem ∧ (applies 0 guardWords).run.state = .running
      ∧ inputWords.length = 16 + 6 * lay.inputCount
      ∧ (∀ k, k < inputWords.length → (applies 0 guardWords).mem.cell (lay.inputs + k) = .good (wordAt inputWords k))
      ∧ (∀ k, ((applies 0 guardWords).line k).test = .none)
      ∧ ((base.setLine 3 { Line.initial with test := .accepted 6 }).line 3).test ≠ .none :=
  ⟨applies_serves _ _, isOk (by decide +kernel), by decide +kernel⟩

theorem witness_ApplyGuardsReplacesRecords :
    (applies 1 guardWords).serving lay .apply (order .apply 1 0 0 0) ∧ (∃ v, guardsOf guardWords = .ok v)
      ∧ Memory.wf (applies 1 guardWords).mem ∧ (applies 1 guardWords).run.state = .running ∧ guardWords.length = 32
      ∧ (∀ k, k < guardWords.length → (applies 1 guardWords).mem.cell (lay.guards + k) = .good (wordAt guardWords k))
      ∧ ((guardOf guardWords 0).enable = true ∧ (guardOf guardWords 1).enable = false ∧ (guardOf guardWords 0).clearTime ≠ 0)
      ∧ (base.guard 0).state = .clear
      ∧ ∀ st ∈ [GuardState.tripped, .settling, .awaitAck], ∀ o : Bool,
          ((guardAt { guard0 with state := st, filteredOpen := o }).guard 0).state = st
          ∧ ((if o then guard0.record.activeHigh else !guard0.record.activeHigh) == (guardOf guardWords 0).activeHigh) = o :=
  ⟨applies_serves _ _, isOk (by decide +kernel), by decide +kernel⟩

theorem witness_ApplyBindingsReplacesStore :
    (applies 2 guardWords).serving lay .apply (order .apply 2 0 0 0) ∧ (∃ b, bindingsOf lay.entryCount bindingWords = .ok b)
      ∧ Memory.wf (applies 2 guardWords).mem ∧ (applies 2 guardWords).run.state = .running
      ∧ bindingWords.length = 8 * lay.entryCount
      ∧ ∀ k, k < bindingWords.length → (applies 2 guardWords).mem.cell (lay.bindings + k) = .good (wordAt bindingWords k) :=
  ⟨applies_serves _ _, isOk (by decide +kernel), by decide +kernel⟩

/-- At rest at a step position. -/
def restsAt (x : Int) : Channel := { chan0 with prof := { Profile.initial with p := x * 16777216 } }
/-- Channel 7's group, applied over a channel in motion, beyond either limit, at each limit, and across a change of its enable. -/
theorem witness_ApplyChannelReplacesParameters :
    (applies 15 guardWords).serving lay .apply (order .apply 15 0 0 0)
      ∧ channelParamsOf channelWords = .ok pars ∧ (15 : Byte).toNat = 8 + (7 : Fin 8).val
      ∧ Memory.wf (applies 15 guardWords).mem ∧ (applies 15 guardWords).run.state = .running ∧ channelWords.length = 16
      ∧ (∀ k, k < channelWords.length → (applies 15 guardWords).mem.cell (lay.params + 16 * (7 : Fin 8).val + k) = .good (wordAt channelWords k))
      ∧ (∀ x ∈ [(-1001 : Int), -1000, 1000, 1001], (restsAt x).state = .idle ∧ (restsAt x).lost = false ∧ (restsAt x).s = x)
      ∧ pars.enable = true ∧ (-1001 : Int) < pars.softMin ∧ pars.softMin ≤ -1000 ∧ (1000 : Int) ≤ pars.softMax ∧ pars.softMax < 1001
      ∧ ((chan7 .moving none 0).chan 7).state = .moving ∧ (chan0.enabled = true ∧ Channel.initial.enabled = false)
      ∧ Channel.initial.pins.flt = false :=
  ⟨applies_serves _ _, by rfl, by decide +kernel⟩

theorem witness_ApplyRefused :
    (applies 1 (guardWords.set 1 51)).serving lay .apply (order .apply 1 0 0 0)
      ∧ (∃ e, guardsOf (guardWords.set 1 51) = .error e) ∧ (∃ v, guardsOf guardWords = .ok v)
      ∧ Memory.wf (applies 1 (guardWords.set 1 51)).mem ∧ (guardWords.set 1 51).length = 32
      ∧ (∀ k, k < 32 → (applies 1 (guardWords.set 1 51)).mem.cell (lay.guards + k) = .good (wordAt (guardWords.set 1 51) k))
      ∧ (runs base .stopping).run.state = .stopping
      ∧ ∀ x ∈ [(lay.inputs, 22), (lay.guards, 32), (lay.bindings, 8), (lay.params + 112, 16)], ∀ i ∈ [0, x.2 - 1],
          let m : Memory := [(x.1 + i, { written := 0, upset := .two 0 })]
          i < x.2 ∧ Memory.wf m ∧ (∀ k, k < i → (m.cell (x.1 + k)).upset = .none) ∧ (m.cell (x.1 + i)).upset = .two 0 :=
  ⟨applies_serves _ _, isError (by decide +kernel), isOk (by decide +kernel), by decide +kernel⟩

/-! ### Witnesses: the other units -/

theorem witness_SetModeOrder :
    (takes base (order .setMode 3 0 0 0)).serving lay .setMode (order .setMode 3 0 0 0)
      ∧ (takes base (order .setMode 4 0 0 0)).serving lay .setMode (order .setMode 4 0 0 0)
      ∧ Memory.wf base.mem ∧ (order .setMode 3 0 0 0).asked = false ∧ Mode.service.code = (3 : Byte).toNat
      ∧ base.run.state = .running ∧ (3 : Byte).toNat ≤ 3 ∧ (runs base .stopping).run.state = .stopping ∧ 3 < (4 : Byte).toNat :=
  ⟨serves rfl rfl rfl rfl, serves rfl rfl rfl rfl, by decide +kernel⟩

/-- A due time that has come, and one that the next millisecond brings, the present one having had its tick and its scrub (log entries 1
and 32). -/
theorem comes_due {p : Sys2Proof.Machine.Part} (ha : p.active = true) (ht : p.time = 1000) :
    p.comesDue 1000 p ∧ (p.setClock { tickOwed := false, us := 999, scrubbed := true }).comesDue 1001
      (p.setClock { tickOwed := false, us := 999, scrubbed := true }).nextStart := by
  refine ⟨⟨ha, .inl ⟨?_, rfl⟩⟩, ⟨ha, .inr ⟨?_, rfl, fun _ => rfl, ?_, rfl⟩⟩⟩
  · rw [ht]; decide
  · show reached p.time 1001 = false
    rw [ht]; decide
  · show 1001 = p.time + 1
    rw [ht]; decide

/-- A lamp commanded until 1000 ms, and a lockout that lasts until then. -/
def expiring : Sys2Proof.Machine.Part :=
  { base with inputs := [{ key0 with lamp := some { pattern := .on, expiry := some 1000 } }]
              bindings := [{ entry := some entry0, lockout := some 1000 }] }
theorem witness_LampsAndLockouts :
    (takes base (order .lamp 0 3 0 0)).serving lay .lamp (order .lamp 0 3 0 0)
      ∧ (takes base (order .lamp 1 4 0 0)).serving lay .lamp (order .lamp 1 4 0 0)
      ∧ expiring.comesDue 1000 expiring ∧ Memory.wf base.mem
      ∧ (0 : Byte).toNat < base.inputs.length ∧ Lamp.fast.code = (3 : Word).toNat
      ∧ base.inputs.length ≤ (1 : Byte).toNat ∧ 3 < (4 : Word).toNat
      ∧ expiring.inputs[(0 : Byte).toNat]? = some { key0 with lamp := some { pattern := .on, expiry := some 1000 } }
      ∧ expiring.bindings[(0 : Byte).toNat]? = some { entry := some entry0, lockout := some 1000 } :=
  ⟨serves rfl rfl rfl rfl, serves rfl rfl rfl rfl, (comes_due rfl rfl).1, by decide +kernel⟩

/-- The refusal code that LineTestOrder names. -/
def lineTestCode (p : Sys2Proof.Machine.Part) (target : Byte) (k : Fin 4) : Option Nat :=
  let x := p.line k
  if 4 ≤ target.toNat then some 2
  else if p.modes.mode = .opened then some 4
  else if x.record.enable = false then some 5
  else if x.test ≠ .none ∨ p.orders.hand.any (fun e => match e.work with | .applyInputs _ _ => true | _ => false) = true
    then some 11
  else none
/-- Line 0 with a test, and an exchange. -/
def tests (t : LineTest) (e : Exchange) (fifo : List RxChar) : Sys2Proof.Machine.Part :=
  (moded base .closed).setLine 0 { line0 with test := t, exchange := e, fifo := fifo }
theorem witness_LineTestOrder :
    (takes base (order .lineTest 0 0 0 0)).serving lay .lineTest (order .lineTest 0 0 0 0)
      ∧ Memory.wf base.mem ∧ (0 : Fin 4).val = (0 : Byte).toNat % 4 ∧ (3 : Fin 4).val = (3 : Byte).toNat % 4
      ∧ lineTestCode base 4 0 = some 2 ∧ lineTestCode base 0 0 = some 4 ∧ lineTestCode (moded base .closed) 3 3 = some 5
      ∧ lineTestCode (tests (.accepted 6) .idle []) 0 0 = some 11 ∧ lineTestCode (moded base .closed) 0 0 = none
      ∧ base.run.state = .running ∧ (runs base .stopping).run.state = .stopping :=
  ⟨serves rfl rfl rfl rfl, by decide +kernel⟩
theorem witness_LineTestRuns :
    (tests (.running 7) .idle []).hasSlot lay 7
      ∧ (∀ e ∈ [Exchange.idle, .waiting, .window 1], ((tests (.accepted 6) e []).line 0).test = .accepted 6
          ∧ ((tests (.accepted 6) e []).line 0).exchange = e)
      ∧ ((tests (.running 7) .idle []).line 0).test = .running 7
      ∧ Memory.wf (tests (.running 7) .idle []).mem ∧ (tests (.running 7) .idle []).orders.hand = [] :=
  ⟨⟨rfl, by decide +kernel, by decide +kernel, by decide +kernel⟩, by decide +kernel⟩

/-- The characters of R18, by place; the first, the last, and the one after it. -/
theorem witness_LineTestRuns_characters :
    let sent : Nat → RxChar := fun i =>
      { data := if i = 0 then 0x55 else if i = 1 then 0xAA else if i = 2 then 0x0F else if i = 3 then 0xF0 else 0xA5
        framing := false, mark := decide (i = 4), overrun := false }
    ∀ i ∈ [0, 4, 5], let x := { (tests (.running 7) .idle []).line 0 with loop := testExpected.drop i }
      x.test = .running 7 ∧ x.exchange = .idle ∧ x.loop = (List.range' i (5 - i)).map sent := by decide +kernel
/-- R18, R4: a test of a sound loop stores 0x55 first and, after the fifth character, nothing more. -/
theorem test_line_test_loops :
    let p := afterCommand (.lineTestBegin 0) (tests (.accepted 7) .idle [])
    let q := (List.range 6).foldl (fun q _ => afterCommand (.characterReceived 0 0xFF false false) q) p
    (p.line 0).loop.length = 5 ∧ (q.line 0).fifo.map (fun c => (c.data, c.mark))
      = [(0x55, false), (0xAA, false), (0x0F, false), (0xF0, false), (0xA5, true)] := by decide +kernel

/-- A part with a request for a mode. -/
def asks (p : Sys2Proof.Machine.Part) (m : Mode) (c : ModeCause) : Sys2Proof.Machine.Part :=
  { p with modes := { p.modes with requests := [{ mode := m, cause := c }] } }
/-- The condition under which ModeRequestTaken's request acts. -/
abbrev modeActs (p : Sys2Proof.Machine.Part) (m : Mode) (c : ModeCause) : Prop :=
  p.run.state = .running ∧ m ≠ p.modes.mode ∧ (c = .wake → p.modes.mode = .rest) ∧ (c = .restTimer → p.restOk = true)
    ∧ (c = .silent → p.silentRest = true ∧ p.modes.mode = .opened)
/-- A channel under way on a MODE park, or on an order's move. -/
def parking (mode : Bool) : Channel :=
  { moving .accel 0 4 100 with
    current := some { kind := if mode then .park else .move, source := if mode then .mode else .order 6, target := .absolute 100, scale := 100 } }
theorem witness_ModeRequestTaken :
    ((asks base .rest .restTimer).active = true ∧ (asks base .rest .restTimer).modes.requests = { mode := .rest, cause := .restTimer } :: []
        ∧ Memory.wf base.mem)
      ∧ modeActs base .rest .restTimer ∧ modeActs base .service .binding ∧ modeActs base .rest .silent ∧ modeActs (moded base .rest) .opened .wake
      ∧ modeActs (moded base .closed) .opened (.order 7) ∧ ¬ modeActs base .opened (.order 7) ∧ ¬ modeActs (moded base .closed) .rest .restTimer
      ∧ (takes base (order .setMode 0 0 0 0)).orders.taking = some (order .setMode 0 0 0 0)
      ∧ (let x := base.chan 7; x.state = .idle ∧ x.lost = false ∧ x.queue = [] ∧ (∀ g, base.covers g 7 = false) ∧ x.params = some pars
          ∧ pars.softMin ≤ pars.parkPosition ∧ pars.parkPosition ≤ pars.softMax ∧ pars.parkPosition * 16777216 = x.prof.p)
      ∧ pars.parkPosition * 16777216 ≠ (restsAt 5).prof.p
      ∧ ((parking true).state = .moving ∧ ∃ mv ∈ (parking true).current, mv.kind = .park ∧ mv.source = .mode)
      ∧ ((parking false).state = .moving ∧ ∀ mv ∈ (parking false).current, ¬ (mv.kind = .park ∧ mv.source = .mode))
      ∧ (let x := (chan7 .parked (some .mode) 0).chan 7; x.state = .parked ∧ x.parkCause = some .mode)
      ∧ (base.chan 7).state ≠ .stopping := by
  refine ⟨?_, ?_, ?_, ?_, ?_, ?_, ?_, ?_, ?_, ?_, ?_, ⟨rfl, _, rfl, rfl, rfl⟩, ⟨rfl, ?_⟩, ?_, ?_⟩
  on_goal 12 =>
    rintro mv ⟨⟩ ⟨h, _⟩
    cases h
  all_goals decide +kernel

/-- A board with one entry, at index 31. -/
def boards (e : Entry) : Sys2Proof.Machine.Part :=
  { base with board := { entries := (Vector.replicate 32 none).set 31 (some e), made := [31], overflow := false } }
/-- GUARD_TRIP of guard 0. -/
def trip0 (st : EntryState) : Entry :=
  { code := .guardTrip, source := .guard 0, zone := .one 0, severity := .urgent, state := st, escalated := false, count := 1, first := 0, last := 0 }

theorem roomy {p : Sys2Proof.Machine.Part} (ha : p.active = true) (hl : p.run.layout = some lay) (hj : p.journal = .initial) : p.room lay 28 :=
  ⟨ha, hl, by rw [hj]; decide, by rw [hj]; decide, by rw [hj]; decide, by rw [hj]; decide⟩

theorem witness_AckOrder :
    (takes (boards (trip0 .opened)) (order .ack 0 31 1 0)).serving lay .ack (order .ack 0 31 1 0)
      ∧ (boards (trip0 .opened)).room lay 28
      ∧ Memory.wf base.mem ∧ 32 ≤ (32 : Word).toNat ∧ (31 : Fin 32).val = (31 : Word).toNat
      ∧ base.board.entries[(31 : Fin 32)] = none ∧ (trip0 .opened).code.code ≠ (2 : Word).toNat
      ∧ (∀ st : EntryState, (boards (trip0 st)).board.entries[(31 : Fin 32)] = some (trip0 st) ∧ (trip0 st).code.code = (1 : Word).toNat
          ∧ (trip0 st).state = st)
      ∧ (base.guard 0).state ≠ .awaitAck := by
  refine ⟨serves rfl rfl rfl rfl, roomy rfl rfl rfl, by decide +kernel, by decide +kernel, by decide +kernel, by decide +kernel, by decide +kernel, ?_,
    by decide +kernel⟩
  intro st
  cases st <;> decide +kernel

/-- An ORDER_ALERT of host code 9. -/
def alert9 : Entry :=
  { code := .orderAlert, source := .host 9, zone := .all, severity := .urgent, state := .lapsed, escalated := false, count := 255, first := 0, last := 0 }
theorem witness_OrderAlertOrder :
    (takes base (order .orderAlert 15 2 9 0)).serving lay .orderAlert (order .orderAlert 15 2 9 0) ∧ base.room lay 28
      ∧ Memory.wf base.mem ∧ (4 ≤ (14 : Byte).toNat ∧ (14 : Byte) ≠ 15) ∧ 2 < (3 : Word).toNat
      ∧ (15 : Byte).toNat = 15 ∧ (3 : Byte).toNat = (3 : Fin 4).val ∧ Severity.urgent.code = (2 : Word).toNat
      ∧ (∀ j : Fin 32, base.board.entries[j] = none)
      ∧ (boards alert9).board.entries[(31 : Fin 32)] = some alert9 ∧ alert9.code = .orderAlert ∧ alert9.source = .host (BitVec.ofNat 8 (9 : Word).toNat)
      ∧ (∀ j : Fin 32, j ≠ 31 → (boards alert9).board.entries[j] = none) ∧ Severity.urgent.code ≤ alert9.severity.code :=
  ⟨serves rfl rfl rfl rfl, roomy rfl rfl rfl, by decide +kernel⟩

/-- Line 0 with an exchange. -/
def exchanges (e : Exchange) (fifo : List RxChar) : Sys2Proof.Machine.Part := base.setLine 0 { line0 with exchange := e, fifo := fifo }
theorem witness_LineEvents :
    ((exchanges .waiting []).setLine 0 { line0 with exchange := .waiting, cycleStart := 900 }).comesDue (900 + 100)
        ((exchanges .waiting []).setLine 0 { line0 with exchange := .waiting, cycleStart := 900 })
      ∧ ((exchanges (.sending 12 { address := 0xAC, lampLo := 0, lampHi := 0, check := 0x53 }) []).line 0).exchange
        = .sending 12 { address := 0xAC, lampLo := 0, lampHi := 0, check := 0x53 }
      ∧ ((exchanges (.window 12) []).line 0).exchange = .window 12 ∧ ((exchanges (.gap 12) []).line 0).exchange = .gap 12
      ∧ ((exchanges (.receiving 12) []).line 0).exchange = .receiving 12
      ∧ ((∀ b, ((exchanges (.window 12) []).line 0).exchange ≠ .receiving b) ∧ ∀ slot, ((exchanges (.window 12) []).line 0).test ≠ .running slot)
      ∧ (line0.record.enable = true ∧ 1 ≤ line0.record.stations ∧ line0.test = .none) :=
  ⟨(comes_due rfl rfl).1, by decide +kernel, by decide +kernel, by decide +kernel, by decide +kernel, ⟨fun _ h => (nomatch h), fun _ h => (nomatch h)⟩,
    by decide +kernel⟩

/-- The reply of a station: echo, keys and check. -/
def reply (a keys : Byte) : List RxChar :=
  [a, keys, 0xFF - (a + keys)].map (fun d => { data := d, framing := false, mark := false, overrun := false })
theorem witness_GoodReply :
    (exchanges (.gap 1) (reply 1 0x80)).repliesGood 0 ((0 : Fin 12).val + 1) 0x80
      ∧ (exchanges (.gap 2) (reply 2 0)).repliesGood 0 ((1 : Fin 12).val + 1) 0
      ∧ base.active = true ∧ line0.test = .none ∧ line0.record.enable = true ∧ (0 : Fin 12).val + 1 < line0.record.stations
      ∧ (1 : Fin 12).val + 1 = line0.record.stations ∧ base.modes.mode = .opened :=
  ⟨⟨rfl, by decide +kernel⟩, ⟨rfl, by decide +kernel⟩, by decide +kernel⟩

/-- Station 2 of line 0 has a presence and a count of failures. -/
def failing (pr : Presence) (n : BitVec 2) : Line :=
  { line0 with exchange := .window 2, stations := line0.stations.set 1 { Station.disabled with presence := pr, failures := n } }
theorem witness_FailedExchange :
    (∀ keys, ¬ (exchanges (.gap 1) []).repliesGood 0 ((0 : Fin 12).val + 1) keys)
      ∧ base.active = true ∧ ((exchanges (.gap 1) []).line 0).exchange = .gap ((0 : Fin 12).val + 1)
      ∧ (∀ x ∈ [failing .present 0, failing .suspect 2, failing .unknown 2, failing .absent 3],
          ((base.setLine 0 x).line 0).exchange = .window ((1 : Fin 12).val + 1))
      ∧ ((failing .suspect 2).stations[(1 : Fin 12)].presence = .suspect ∧ (if (2 : BitVec 2) = 3 then 3 else (2 : BitVec 2) + 1) = 3)
      ∧ (if (1 : BitVec 2) = 3 then 3 else (1 : BitVec 2) + 1) ≠ 3
      ∧ line0.stations[(0 : Fin 12)].presence ≠ .absent ∧ (moded base .closed).modes.mode = .closed :=
  ⟨fun _ h => by have := h.2; simp [exchanges, Part.line, Part.setLine, Part.setLines] at this, by decide +kernel⟩

/-- Input 0 in a state with an agreement count, on key 7 of station 1, whose reply samples that key as pressed or not. -/
def samples (st : KeyState) (agree : Nat) (pressed : Bool) : Sys2Proof.Machine.Part :=
  { exchanges (.gap 1) (reply 1 (if pressed then 0x80 else 0)) with inputs := [{ key0 with state := st, agree := agree }] }
theorem witness_KeySample :
    (∀ st agree, (samples st agree true).repliesGood 0 ((0 : Fin 12).val + 1) 0x80 ∧ (samples st agree false).repliesGood 0 ((0 : Fin 12).val + 1) 0
      ∧ (samples st agree true).keyInput 0 ((0 : Fin 12).val + 1) 7 0 ∧ (samples st agree false).keyInput 0 ((0 : Fin 12).val + 1) 7 0
      ∧ (samples st agree true).active = true)
    ∧ ((0x80 : Byte).getLsbD (7 : Fin 8).val = true ∧ (0 : Byte).getLsbD (7 : Fin 8).val = false)
    ∧ (0 + 1 < key0.d.debounce ∧ key0.d.debounce ≤ 1 + 1) := by
  refine ⟨?_, by decide +kernel⟩
  intro st agree
  have hk : ∀ b, (samples st agree b).keyInput 0 ((0 : Fin 12).val + 1) 7 0 := fun b =>
    ⟨⟨{ key0 with state := st, agree := agree }, rfl, by show key0.d.names 0 1 7 = true; decide +kernel⟩, fun j _ hj => absurd hj (Nat.not_lt_zero j)⟩
  exact ⟨⟨rfl, rfl⟩, ⟨rfl, rfl⟩, hk true, hk false, rfl⟩

/-- Input 0 with its timers due at 1000, alone or with the stuck timer. -/
def timed (st : KeyState) (stuck : Option Time) : Input :=
  { key0 with state := st, holdDue := some 1000, repeatDue := some 1000, stuckDue := stuck, suspended := some 1000, treatment := some .delivered }
theorem witness_KeyTimers :
    (∀ st stuck, ({ base with inputs := [timed st stuck] } : Sys2Proof.Machine.Part).inputs[(0 : Byte).toNat]? = some (timed st stuck)
      ∧ ({ base with inputs := [timed st stuck] } : Sys2Proof.Machine.Part).comesDue 1000 { base with inputs := [timed st stuck] }
      ∧ (timed st stuck).state = st ∧ (timed st stuck).holdDue = some 1000 ∧ (timed st stuck).repeatDue = some 1000
      ∧ (timed st stuck).stuckDue = stuck ∧ (timed st stuck).suspended = some 1000)
    ∧ Machine.reached 1000 1000 = true ∧ Machine.reached 1000 1001 = false :=
  ⟨fun _ _ => ⟨rfl, (comes_due rfl rfl).1, rfl, rfl, rfl, rfl, rfl⟩, by decide +kernel⟩

/-- Input 0 as it stands before each gesture. -/
def gestures : Gesture → Input
  | .press => { key0 with agree := 1 }
  | .release => { key0 with state := .down, agree := 1, treatment := some .delivered }
  | .hold => timed .down none
  | .repeat => timed .held none
/-- A part with one binding entry that is about to see a gesture of input 0. -/
def turning (g : Gesture) (b : BindingEntry) (lock : Option Time) : Sys2Proof.Machine.Part :=
  { exchanges (.gap 1) (reply 1 (if g = .press then 0x80 else 0)) with inputs := [gestures g], bindings := [{ entry := some b, lockout := lock }] }
/-- The command that brings the gesture. -/
def brings : Gesture → Instr
  | .press | .release => .replyClose 0
  | .hold => .holdTimerExpiry 0
  | .repeat => .repeatTimerExpiry 0
theorem delivers (g : Gesture) (b : BindingEntry) (lock : Option Time) :
    (turning g b lock).delivers (turning g b lock) (brings g) 0 (gestures g) g := by
  have hk : ∀ g : Gesture, (gestures g).d = key0.d := fun g => by cases g <;> rfl
  have key : ∀ (k : Fin 8) j, (turning g b lock).keyInput 0 ((0 : Fin 12).val + 1) k j → k = 7 := by
    rintro k j ⟨⟨x, hx, hn⟩, -⟩
    match j, hx with
    | 0, hx =>
      cases hx
      rw [hk] at hn
      revert hn
      show key0.d.names 0 1 k = true → k = 7
      revert k
      decide +kernel
    | j + 1, hx => simp [turning, exchanges] at hx
  have flips : ∀ keys, keys = (if g = .press then 0x80 else 0 : Byte) → keys.getLsbD (7 : Fin 8).val ≠ (gestures g).isDown →
      (gestures g).d.debounce ≤ (gestures g).agree + 1 → (turning g b lock).keyFlips 0 0 keys (0 : Byte).toNat (gestures g) := by
    rintro keys rfl h1 h2
    refine ⟨⟨rfl, rfl⟩, rfl, rfl, rfl, 7, ⟨⟨_, rfl, ?_⟩, fun j _ hj => absurd hj (Nat.not_lt_zero j)⟩, h1, h2, fun k' j y hne hj => absurd (key k' j hj) hne⟩
    rw [hk]
    show key0.d.names 0 1 7 = true
    decide +kernel
  refine ⟨rfl, rfl, .inl (by rw [hk]; rfl), ?_⟩
  cases g
  · exact ⟨rfl, rfl, rfl, rfl, .inl rfl, 0, 0, 0x80, rfl, flips _ rfl (by decide) (by decide)⟩
  · exact ⟨rfl, .inl rfl, rfl, 0, 0, 0, rfl, flips _ rfl (by decide) (by decide)⟩
  · exact ⟨rfl, rfl, rfl, rfl, 1000, rfl, (comes_due rfl rfl).1⟩
  · exact ⟨rfl, rfl, rfl, rfl, 1000, rfl, (comes_due rfl rfl).1⟩
/-- Every gesture is delivered, and an entry with any action answers it, locked or not; with no entry, none does. -/
theorem witness_BindingTurn : ∀ (g : Gesture) (b : BindingEntry) (lock : Option Time), b.input = 0 → b.gesture = g → b.modeMask = 15 →
    (turning g b lock).delivers (turning g b lock) (brings g) 0 (gestures g) g
      ∧ (turning g b lock).bindings[0]? = some { entry := some b, lockout := lock }
      ∧ (∀ (k : Nat) (v : Binding) (b' : BindingEntry), (turning g b lock).bindings[k]? = some v → v.entry = some b' →
          (b'.input = 0 ∧ b'.gesture = g ∧ b'.modeMask.getLsbD (turning g b lock).modes.mode.code = true ↔ k = 0))
      ∧ ∀ d, ((turning g b lock).chan d).heldMove ≠ some 0 := by
  intro g b lock h1 h2 h3
  refine ⟨delivers g b lock, rfl, ?_, fun d => ?_⟩
  · intro k v b' hk hv
    match k, hk with
    | 0, hk =>
      cases hk; cases hv
      refine iff_of_true ⟨h1, h2, ?_⟩ rfl
      rw [h3]; show (15 : BitVec 4).getLsbD Mode.opened.code = true; decide
    | k + 1, hk => simp [turning, exchanges] at hk
  · revert d
    show ∀ d, (base.chan d).heldMove ≠ some 0
    decide +kernel
/-- A journal with room for every record of an acknowledgement by zone. -/
def wide : Layout := { lay with journalSize := 1024 }
/-- CALL of input 0 on the board. -/
def call0 (n : Byte) : Entry :=
  { code := .call, source := .input 0, zone := .one 0, severity := .attend, state := .opened, escalated := false, count := n, first := 0, last := 0 }
/-- The clauses: a lockout that lasts past 1000 ms and one that ends then; an idle channel that a move to 100 leaves, a MOVE of an order
under way and one of entry 0, a full queue and one with room for one more, a channel that is not admitted; a board without and with a
CALL; an acknowledgement with room; no request waiting; a channel that a held move drives. -/
theorem witness_BindingTurn_clauses : Machine.reached 1000 1001 = false ∧ Machine.reached 1000 1000 = true ∧ entry0.fallback ≠ .off
    ∧ (base.chan 0).params = some pars ∧ pars.enable = true ∧ (base.chan 0).enabled = true ∧ base.modes.mode = .opened ∧ (base.chan 0).state = .idle
    ∧ (base.chan 0).queue = [] ∧ max pars.softMin (min pars.softMax 100) * 16777216 ≠ (base.chan 0).prof.p
    ∧ (let x := moving .accel 0 4 100
       x.state = .moving ∧ x.enabled = true ∧ x.queue.length < 4 ∧ x.current.map Move.kind = some .move ∧ x.current.map Move.source = some (.order 7)
       ∧ x.prof.target = some ((100 : Int) * 16777216) ∧ Memory.wf (base.setChan 0 x).mem)
    ∧ ([3, 4].map (fun n => ((chan7 .moving none n).chan 7).queue.length) = [3, 4])
    ∧ (moded base .rest).modes.mode ≠ .opened ∧ ((chan7 .held none 0).chan 7).state ≠ .idle ∧ ((chan7 .held none 0).chan 7).state ≠ .moving ∧ Channel.initial.enabled = false
    ∧ (∀ i : Fin 32, base.board.entries[i] = none)
    ∧ (∀ n ∈ [(1 : Byte), 255], (boards (call0 n)).board.entries[(31 : Fin 32)] = some (call0 n) ∧ (call0 n).code = .call
        ∧ (call0 n).source = .input (0 : Byte).toNat ∧ (call0 n).severity ≠ .info
        ∧ ∀ j : Fin 32, j ≠ 31 → (boards (call0 n)).board.entries[j] = none)
    ∧ (∀ k, (base.guard k).state ≠ .awaitAck) ∧ base.modes.requests = []
    ∧ (let x := { moving .accel 0 4 100 with heldMove := some 0 }; x.heldMove = some 0 ∧ x.state = .moving) := by decide +kernel
theorem witness_BindingTurn_room : base.room lay 28
    ∧ ({ base with run := { base.run with layout := some wide } } : Sys2Proof.Machine.Part).room wide 512
    ∧ (base.setChan 0 (moving .accel 0 4 100)).hasSlot lay 7 :=
  ⟨roomy rfl rfl rfl, ⟨rfl, rfl, by decide, by decide, by decide, by decide, by decide⟩, ⟨rfl, by decide +kernel, by decide +kernel, by decide +kernel⟩⟩
/-- R51, R99 and R53, R98: a STEP_BY of entry 0 extends its own move, and a REPLACE to a target behind the channel begins an overrun. -/
theorem test_binding_replans :
    let own : Channel := { moving .cruise 1062 32 100 with current := some { kind := .move, source := .binding 0 true, target := .absolute 100, scale := 100 } }
    let p (b : BindingEntry) := (afterCommand (brings .repeat) ((turning .repeat b none).setChan 0 own)).chan 0
    ((p { entry0 with action := .stepBy 0 50 100 }).prof.target = some (150 * 16777216) ∧ (p { entry0 with action := .stepBy 0 50 100 }).prof.overrun = false)
    ∧ ((p { entry0 with action := .moveTo 0 1 100, busy := .replace }).prof.overrun = true
        ∧ (p { entry0 with action := .moveTo 0 1 100, busy := .replace }).prof.stopRate = some .b) := by decide +kernel

/-- Channel 0 in a controlled stop at `at16` sixteenths with speed `v16`. -/
def stopping (at16 v16 : Nat) (sp : Option Int) : Channel :=
  { moving .accel at16 v16 100 with
    state := .stopping, pendingTerm := some .stopped
    prof := { (moving .accel at16 v16 100).prof with phase := .stoppingDecel, stopRate := some .b, stopPoint := sp } }
/-- A tick of each kind: the ticks of 5.3.1, 5.3.2 and 5.4.1, arrivals at and inside the speed, soft limits passed. -/
theorem witness_MotionTick :
    (let p := base.setClock { Clock.initial with scrubbed := true }; p.active = true ∧ (p.run.state = .running → p.clock.scrubbed = true))
    ∧ (let p := base.setClock { Clock.initial with tickOwed := true }; p.active = true ∧ p.clock.tickOwed = true) ∧ (base.chan 0).state = .idle ∧ (base.chan 0).params = some pars ∧ pars.enable = true
    ∧ (∀ x ∈ [moving .accel 0 4 100, moving .decel 13 4 1, moving .decel 12 4 1, stopping 95 14 none, stopping 176 5 none, stopping 171 6 none,
        stopping 188 4 (some (12 * 16777216)), stopping 180 4 (some (12 * 16777216))],
        x.params = some pars ∧ x.lost = false ∧ x.queue = [] ∧ x.pins.limitHi = false ∧ x.prof.positive = true
        ∧ (x.current.map Move.kind) = some .move)
    ∧ (moving .accel 0 4 100).prof.overrun = false ∧ (moving .accel 0 4 100).prof.target = some 1677721600
    ∧ (moving .accel 0 4 100).prof.cap = some 33554432
    ∧ (16777216 - (moving .decel 12 4 1).prof.p = (max pars.vs ((moving .decel 12 4 1).prof.v - pars.b) : Nat))
    ∧ (stopping 95 14 none).pendingTerm = some .stopped ∧ max pars.vs ((stopping 95 14 none).prof.v - pars.b) ≠ pars.vs
    ∧ max pars.vs ((stopping 176 5 none).prof.v - pars.b) = pars.vs ∧ ((stopping 176 5 none).prof.p + (pars.vs : Int)) % 16777216 ≠ 0
    ∧ ((stopping 188 5 none).prof.p + (pars.vs : Int)) % 16777216 = 0
    ∧ (12 * 16777216 - (stopping 188 4 none).prof.p = (pars.vs : Int)) ∧ (pars.vs : Int) < 12 * 16777216 - (stopping 184 4 none).prof.p
    ∧ pars.softMax * 16777216 < (moving .cruise 15990 32 2000).prof.p + (33554432 : Int)
    ∧ (let x : Channel := { chan0 with state := .homing, search := 4999, lost := true }
       x.state = .homing ∧ x.search < pars.homeSearch ∧ pars.homeSearch ≤ x.search + 1) := by decide +kernel

/-- Channel 0 in overrun past its target, at `at16` sixteenths with speed `v16`. -/
def overruns (at16 v16 target : Nat) (sp : Option Int) : Channel :=
  { moving .stoppingDecel at16 v16 target with
    prof := { (moving .stoppingDecel at16 v16 target).prof with overrun := true, stopRate := some .b, stopPoint := sp } }
/-- The ticks of 5.4.1 in overrun: on, the stop point fixed, the halt at it, the halt at a whole step, the target there or elsewhere. -/
theorem witness_MotionTick_overrun :
    (∀ x ∈ [overruns 95 14 5 none, overruns 176 5 5 none, overruns 188 4 5 (some (12 * 16777216)), overruns 188 4 12 (some (12 * 16777216)),
        overruns 180 4 5 (some (12 * 16777216)), overruns 188 4 5 none],
      x.params = some pars ∧ x.state = .moving ∧ x.prof.overrun = true ∧ x.prof.stopRate = some .b ∧ x.pins.limitHi = false ∧ x.prof.positive = true
      ∧ x.lost = false ∧ x.queue = [] ∧ x.current.map Move.kind = some .move)
    ∧ (overruns 95 14 5 none).prof.target = some ((5 : Int) * 16777216) ∧ (overruns 188 4 12 none).prof.target = some ((12 : Int) * 16777216)
    ∧ max pars.vs ((overruns 95 14 5 none).prof.v - pars.b) ≠ pars.vs ∧ max pars.vs ((overruns 176 5 5 none).prof.v - pars.b) = pars.vs
    ∧ ((overruns 188 4 5 none).prof.p + (pars.vs : Int)) % 16777216 = 0 ∧ ((overruns 176 5 5 none).prof.p + (pars.vs : Int)) % 16777216 ≠ 0
    ∧ pars.softMax * 16777216 < (overruns 15998 5 5 none).prof.p + (pars.vs : Int) := by decide +kernel
/-- Channel 0, fast from its start, in the tick that halts its overrun at step 12. -/
def restarting : Channel := { overruns 176 16 5 (some (12 * 16777216)) with params := some { pars with startSpeed := 1000 } }
/-- R98, R86: the halting tick of an overrun starts the other way, and shows speed 0 with its last pulse still to come the old way. -/
theorem test_overrun_restarts :
    let q := (afterCommand .motionTick (base.setChan 0 restarting)).chan 0
    q.state = .moving ∧ q.prof.positive = false ∧ q.prof.overrun = false ∧ q.speed = 0 ∧ q.unissued = 1 ∧ q.heading = true := by decide +kernel

theorem witness_HomingAndSwitches :
    base.active = true ∧ (unissuedAfter 2 332 = 2 ∧ unissuedAfter 2 333 = 1 ∧ unissuedAfter 20 939 = 1 ∧ unissuedAfter 20 940 = 0) ∧ (base.chan 7).params = some pars ∧ pars.enable = true ∧ (base.chan 7).pins.flt = false
    ∧ (let x := moving .accel 0 4 100
       x.pins.limitHi = false ∧ x.state = .moving ∧ x.prof.positive = true ∧ x.queue = [] ∧ x.current.map Move.source = some (.order 7))
    ∧ (let x : Channel := { moving .accel 0 4 100 with prof := { (moving .accel 0 4 100).prof with positive := false } }
       x.pins.limitLo = false ∧ x.state = .moving ∧ x.prof.positive = false)
    ∧ (let x := (afterCommand .motionTick (base.setChan 0 restarting)).chan 0
       x.unissued ≠ 0 ∧ x.prof.positive = false ∧ x.tickS < (x.prof.p + 8388608) / 16777216)
    ∧ (let x := (chan7 .homing none 0).chan 7
       x.state = .homing ∧ x.pins.limitLo = false ∧ x.pins.home = false ∧ x.search < pars.homeSearch ∧ x.queue = []
       ∧ x.current.map Move.kind = some .home ∧ (∀ g, (chan7 .homing none 0).covers g 7 = false))
    ∧ pars.homeSearch ≤ ({ chan0 with search := 5000 } : Channel).search ∧ base.modes.mode = .opened := by decide +kernel

theorem witness_ChannelInputsAndRefresh :
    (base.setChan 0 { moving .accel 0 4 100 with lastWrite := 950 }).comesDue (950 + 50) (base.setChan 0 { moving .accel 0 4 100 with lastWrite := 950 })
    ∧ (base.chan 0).pins = .initial ∧ (runs base .halted).active = false ∧ Channel.initial.enabled = false ∧ (base.chan 0).state = .idle
    ∧ (chan0.pins.get .home = false ∧ chan0.pins.get .flt ≠ true) ∧ base.run.layout = some lay ∧ lay.valid = true ∧ Memory.wf base.mem
    ∧ (moving .accel 0 4 100).state = .moving ∧ ¬ ((moving .accel 0 4 100).prof.positive = false) :=
  ⟨(comes_due rfl rfl).1, by decide +kernel⟩

/-- Guard 0 in a state, its pin open or not, its timers due at 1000. -/
def guarding (st : GuardState) (pin : Bool) (attended : Bool) (clearTime : Nat) : Guard :=
  { guard0 with record := { guard0.record with attended := attended, clearTime := clearTime }
                state := st, pin := pin, filteredOpen := !pin, filterDue := some 1000, clearDue := some 1000 }
theorem witness_GuardInputs (st : GuardState) (pin attended : Bool) (clearTime : Nat) :
    (guardAt (guarding st pin attended clearTime)).comesDue 1000 (guardAt (guarding st pin attended clearTime))
      ∧ (let x := (guardAt (guarding st pin attended clearTime)).guard 0
         x.pin ≠ !pin ∧ x.record.enable = true ∧ x.filterDue = some 1000 ∧ x.clearDue = some 1000 ∧ x.state = st
         ∧ (x.pin == x.record.activeHigh) = pin ∧ x.record.attended = attended ∧ x.record.clearTime = clearTime ∧ x.acked = false)
      ∧ (guardAt (guarding st pin attended clearTime)).modes.mode = .opened := by
  refine ⟨(comes_due rfl rfl).1, ⟨?_, rfl, rfl, rfl, rfl, ?_, rfl, rfl, rfl⟩, rfl⟩
  · show pin ≠ !pin
    cases pin <;> decide
  · show (pin == true) = pin
    cases pin <;> rfl

/-- R108, R111: a guard that becomes CLEAR at 1000 ms keeps a filter timer due then and stops one due later. -/
theorem test_guardClear_stops_timers :
    [1000, 1001].map (fun due => ((afterCommand (.clearTimerExpiry 0)
        (guardAt { guarding .settling true false 5 with filterDue := some due })).guard 0).filterDue) = [some 1000, none] := by decide +kernel

/-- The entry, the rest timer, the watch and the stale timer fall due at 1000 ms. -/
def dues : Sys2Proof.Machine.Part :=
  { boards { trip0 .opened with first := 1000 - 30000 } with
    modes := { base.modes with restDue := some 1000, watchDue := some 1000 }, journal := { Journal.initial with staleDue := some 1000 } }
theorem witness_BoardAndModeTimers :
    dues.comesDue ((1000 - 30000) + BitVec.ofNat 32 (lay.escalateTime * 1000)) dues ∧ dues.comesDue 1000 dues ∧ dues.room lay 14
      ∧ dues.run.layout = some lay ∧ dues.board.entries[(31 : Fin 32)] = some { trip0 .opened with first := 1000 - 30000 }
      ∧ ¬ (lay.escalateTime = 0 ∨ (trip0 .opened).severity = .info ∨ (trip0 .opened).state = .held ∨ (trip0 .opened).escalated = true)
      ∧ (trip0 .held).state = .held ∧ base.board.entries = Vector.replicate 32 none
      ∧ dues.modes.restDue = some 1000 ∧ dues.modes.silent = false ∧ dues.modes.watchDue = some 1000
      ∧ (∀ j : Fin 32, ∀ e ∈ dues.board.entries[j], e.code ≠ .hostSilent) ∧ dues.board.entries[(0 : Fin 32)] = none
      ∧ dues.journal.staleDue = some 1000 :=
  ⟨(comes_due rfl rfl).1, (comes_due rfl rfl).1, ⟨rfl, rfl, by decide, by decide, by decide, by decide⟩, by decide +kernel⟩

theorem witness_StepKeepsInv : base.Inv ∧ ∃ t, step { part := base, pending := [.motionTick] } = .next t :=
  ⟨⟨by decide +kernel, show ∀ c, (base.chan c).queue.length ≤ Config.queueDepth by decide +kernel,
    show ∀ l, (base.line l).fifo.length ≤ Config.fifoDepth by decide +kernel, fun l h => by cases h; decide +kernel,
    show ∀ g c, base.covers g c = true → (base.chan c).state.stilled = true by decide +kernel⟩, _, rfl⟩

theorem witness_OnlyApplicationsAndRunControlChangeTheSetup : ∃ t, exec .motionTick (alone base) = .next t := ⟨_, rfl⟩

end Sys2Proof.Tests
end

