-- ==== Sys2Proof/Proofs/SlotReports.lean ====
section
/-! What a report leaves in its order slot (9.4): the words the part writes read back, reports to other regions do not reach the order
table, and an order that ends within its take changes nothing else but what `Part.OnlyOrders` names. -/

namespace Sys2Proof.Machine

/-! ### Words written and read back -/

/-- An injection alters what is stored beside the data of the write, not that data (R194). -/
@[simp] theorem Injection.cell_written (i : Injection) (w : Word) : (i.cell w).written = w := by
  cases h : i.mode <;> simp [Injection.cell, h]

theorem written_storeFrom_self (p : Part) (b : Bool) (a : Nat) (w : Word) (hm : Memory.wf p.mem) (ha : a < Config.memWords) :
    ((p.storeFrom b a w).mem.cell a).written = w := by
  unfold Part.storeFrom Part.storeGood
  split
  · simp [Memory.cell_store_self _ _ _ hm ha]
  · simp [Memory.cell_store_self _ _ _ hm ha, Cell.good]

/-- Consecutive words written within exhibit memory stand there. -/
theorem written_writeAll (p : Part) (a : Nat) (ws : List Word) (hm : Memory.wf p.mem) (hfit : a + ws.length ≤ Config.memWords)
    (j : Nat) (hj : j < ws.length) : ((p.writeAll a ws).mem.cell (a + j)).written = wordAt ws j := by
  induction ws generalizing p a j with
  | nil => cases hj
  | cons w ws ih =>
    rw [List.length_cons] at hfit hj
    cases j with
    | zero =>
      have hlater : ((p.writeAll a (w :: ws)).mem.cell a) = (p.write a w).mem.cell a :=
        cell_writeAll_out (p.write a w) (a + 1) a ws (fun _ _ => by omega)
      rw [Nat.add_zero, hlater]
      exact written_storeFrom_self p true a w hm (by omega)
    | succ j =>
      have h := ih (p.write a w) (a + 1) (wf_storeFrom p true a w hm) (by omega) j (by omega)
      rwa [Nat.add_right_comm] at h

/-! ### The order table's place -/

/-- The order table of a valid layout lies in exhibit memory (R177). -/
theorem Layout.valid_orders_fit {l : Layout} (h : l.valid = true) : l.orders + 8 * l.slotCount ≤ Config.memWords := by
  simp only [Layout.valid, Layout.rangesOk, Layout.regions, List.all_cons, Bool.and_eq_true, decide_eq_true_eq] at h
  omega

/-- A word of a region lies in no region apart from it. -/
theorem not_inRegion_of_apart {b n b' n' a : Nat} (h : apart (b, n) (b', n') = true) (h1 : b' ≤ a) (h2 : a < b' + n') :
    ¬ (b ≤ a ∧ a < b + n) := by
  simp only [apart, Bool.or_eq_true, decide_eq_true_eq] at h
  omega

theorem apart_comm (r q : Nat × Nat) : apart r q = apart q r := Bool.or_comm _ _

/-- The order table of a valid layout shares no word with the regions that reports go to (R177). -/
theorem Layout.valid_reportWord_orders {l : Layout} (h : l.valid = true) {a : Nat} (h1 : l.orders ≤ a)
    (h2 : a < l.orders + 8 * l.slotCount) : l.reportWord a = false := by
  simp only [Layout.valid, allApart, Layout.regions, List.all_cons, List.all_nil, Bool.and_eq_true] at h
  obtain ⟨⟨-, ⟨hpointers, -⟩, ⟨-, -, -, -, hstatus, hmap, hboard, hjournal, -⟩, -⟩, -⟩ := h
  rw [apart_comm] at hstatus hmap hboard hjournal
  have outPointers := not_inRegion_of_apart hpointers h1 h2
  have outStatus := not_inRegion_of_apart hstatus h1 h2
  have outMap := not_inRegion_of_apart hmap h1 h2
  have outBoard := not_inRegion_of_apart hboard h1 h2
  have outJournal := not_inRegion_of_apart hjournal h1 h2
  simp only [Layout.reportWord, inRegion, Bool.or_eq_false_iff, beq_eq_false_iff_ne, decide_eq_false_iff_not]
  exact ⟨⟨⟨⟨⟨⟨by omega, by omega⟩, by omega⟩, outStatus⟩, outMap⟩, outBoard⟩, outJournal⟩

/-! ### Slots -/

section
variable {p : Part} {l : Layout} {i : Nat}

theorem Part.hasSlot.reportWord (h : p.hasSlot l i) {k : Nat} (hk : k < 8) : p.reportWord (l.orders + 8 * i + k) = false := by
  obtain ⟨hl, hv, hi, -⟩ := h
  rw [Part.reportWord, hl]
  exact Layout.valid_reportWord_orders hv (by omega) (by omega)

theorem Part.hasSlot.writeSlot (h : p.hasSlot l i) (j k : Nat) (ws : List Word) : (p.writeSlot j k ws).hasSlot l i := by
  obtain ⟨m, arm, he⟩ := writeSlot_eq p j k ws
  rw [he]; exact h

theorem Part.hasSlot.writeSlotResult (h : p.hasSlot l i) (j : Nat) (r : Int) : (p.writeSlotResult j r).hasSlot l i := h.writeSlot _ _ _

theorem Part.hasSlot.writeSlotState (h : p.hasSlot l i) (j : Nat) (st : SlotState) (code : Nat) :
    (p.writeSlotState j st code).hasSlot l i := h.writeSlot _ _ _

theorem Part.hasSlot.writeSlot_eq_writeAll (h : p.hasSlot l i) (k : Nat) (ws : List Word) :
    p.writeSlot i k ws = p.writeAll (l.orders + 8 * i + k) ws := by
  obtain ⟨hl, -, hi, -⟩ := h
  rw [Part.writeSlot, hl]
  exact if_pos hi

/-- Words written into a slot stand there. -/
theorem written_writeSlot (h : p.hasSlot l i) (hm : Memory.wf p.mem) {k : Nat} {ws : List Word} (hfit : k + ws.length ≤ 8)
    {j : Nat} (hj : j < ws.length) : ((p.writeSlot i k ws).mem.cell (l.orders + 8 * i + (k + j))).written = wordAt ws j := by
  rw [h.writeSlot_eq_writeAll, ← Nat.add_assoc]
  obtain ⟨-, hv, hi, -⟩ := h
  have := Layout.valid_orders_fit hv
  exact written_writeAll p _ ws hm (by omega) j hj

/-- A write into a slot leaves the slot's other words. -/
theorem cell_writeSlot_out (h : p.hasSlot l i) {k x : Nat} {ws : List Word} (hx : x < k ∨ k + ws.length ≤ x) :
    (p.writeSlot i k ws).mem.cell (l.orders + 8 * i + x) = p.mem.cell (l.orders + 8 * i + x) := by
  rw [h.writeSlot_eq_writeAll]
  exact cell_writeAll_out p _ _ ws (fun _ _ => by omega)

theorem Part.slot_modSlot_self (hi : i < p.orders.slots.length) (f : Slot → Slot) : (p.modSlot i f).slot i = f (p.slot i) := by
  simp [Part.slot, Part.modSlot, hi]

theorem Part.Told.slot {q : Part} (h : p.Told q) (j : Nat) : q.slot j = p.slot j := by rw [Part.slot, h.orders]; rfl

/-! ### Reports -/

/-- The words of a report stand as they were written: the SLOT record that follows goes to other regions (R161). -/
theorem cell_report (h : p.hasSlot l i) (st : SlotState) (code : Nat) (r : Int) {k : Nat} (hk : k < 8) :
    (p.report i st code r).mem.cell (l.orders + 8 * i + k)
      = ((p.writeSlotResult i r).writeSlotState i st code).mem.cell (l.orders + 8 * i + k) :=
  (told_hand _ _).words _ (((h.writeSlotResult i r).writeSlotState i st code).reportWord hk)

/-- The result words of a report stand beside its w0. -/
theorem written_report_result (h : p.hasSlot l i) (hm : Memory.wf p.mem) (st : SlotState) (code : Nat) (r : Int) {j : Nat} (hj : j < 2) :
    ((p.report i st code r).mem.cell (l.orders + 8 * i + (6 + j))).written = wordAt (intWords r) j := by
  have hkept : ((p.writeSlotResult i r).writeSlotState i st code).mem.cell (l.orders + 8 * i + (6 + j))
      = (p.writeSlotResult i r).mem.cell (l.orders + 8 * i + (6 + j)) :=
    cell_writeSlot_out (h.writeSlotResult i r) (.inr (by rw [List.length_singleton]; omega))
  rw [cell_report h st code r (by omega), hkept]
  exact written_writeSlot (k := 6) (ws := intWords r) h hm (Nat.le_refl 8) hj

/-- What a report leaves in its slot (R148, R156, R157). -/
theorem report_slotShows (h : p.hasSlot l i) (hm : Memory.wf p.mem) (st : SlotState) (code : Nat) (r : Int) :
    (p.report i st code r).SlotShows l i st code r where
  w0 := by
    have hwf : Memory.wf (p.writeSlotResult i r).mem := (near_writeSlot (c := 0) p i 6 (intWords r) (Nat.le_refl 8)).mem hm
    exact (congrArg Cell.written (cell_report h st code r (k := 0) (by decide))).trans
      (written_writeSlot (h.writeSlotResult i r) hwf (k := 0) (j := 0) (by simp) (by simp))
  w6 := written_report_result h hm st code r (j := 0) (by decide)
  w7 := written_report_result h hm st code r (j := 1) (by decide)
  shadow := by
    have ⟨_, _, _, hkept⟩ : ((p.writeSlotResult i r).writeSlotState i st code).hasSlot l i :=
      (h.writeSlotResult i r).writeSlotState i st code
    rw [Part.report, (told_hand _ _).slot, Part.slot_modSlot_self hkept]

/-- What changes beside a replacement of the order taker's state, `Part.OnlyOrders` names whatever that replacement was. -/
theorem Part.onlyOrders_of_near {q : Part} {o : Orders} (h : ∀ c, (p.setOrders o).Near c q) : p.OnlyOrders q :=
  fun c => { h c with taking := rfl, takeQueue := rfl }

/-- An order that ends or is refused within its take (R155, R156): its slot shows it, no order is being taken, and nothing but reports
and the order taker's state changes. -/
theorem takePlaced_report_ends (h : p.hasSlot l i) (hm : Memory.wf p.mem) (st : SlotState) (code : Nat) (r : Int) :
    (p.takePlaced.report i st code r).SlotShows l i st code r
      ∧ (p.takePlaced.report i st code r).orders.taking = none ∧ p.OnlyOrders (p.takePlaced.report i st code r) :=
  have near : ∀ c, p.takePlaced.Near c (p.takePlaced.report i st code r) := fun _ => near_report _ _ _ _ _
  ⟨report_slotShows (p := p.takePlaced) h hm st code r, (near 0).taking, Part.onlyOrders_of_near near⟩

theorem refuse_ends (h : p.hasSlot l i) (hm : Memory.wf p.mem) (code : RefusalCode) (r : Int) :
    (p.refuse i code r).SlotShows l i .refused code.code r
      ∧ (p.refuse i code r).orders.taking = none ∧ p.OnlyOrders (p.refuse i code r) :=
  takePlaced_report_ends h hm .refused code.code r

theorem endTake_ends (h : p.hasSlot l i) (hm : Memory.wf p.mem) (t : Termination) (r : Int) :
    (p.endTake i t r).SlotShows l i .finished t.code r
      ∧ (p.endTake i t r).orders.taking = none ∧ p.OnlyOrders (p.endTake i t r) :=
  takePlaced_report_ends h hm .finished t.code r

/-- A row acts on the order being taken, where the order is of its kind and passes its test. -/
theorem withTaking_of_serving {kind : OrderKind} {t : Taking} (h : p.serving l kind t) {test : Taking → Bool} (ht : test t = true)
    (act : Part → Taking → Part) : p.withTaking kind test act = act p t := by
  obtain ⟨hactive, htaking, hkind, -⟩ := h
  simp [Part.withTaking, htaking, hactive, hkind, ht]

end

end Sys2Proof.Machine
end

