-- ==== Sys2Proof/Proofs/LineTestOrder.lean ====
section
/-! LINE_TEST orders (R17): the first check that fails, and what an order that passes them all does. -/

namespace Sys2Proof.Machine

theorem Line.testing_iff (x : Line) : x.testing = true ↔ x.test ≠ .none := by
  cases h : x.test <;> simp [Line.testing, h]

theorem Line.accepted_eq (x : Line) (slot : Nat) :
    x.accepted slot = { x with test := .accepted slot, exchange := if x.exchange = .waiting then .idle else x.exchange } := by
  cases h : x.exchange <;> simp [Line.accepted, h]

/-- The first check of R17 that fails, for a LINE_TEST order taken as `t` that names line `k`. -/
def Part.refusesTest (p : Part) (t : Taking) (k : Fin 4) : Option RefusalCode :=
  if 4 ≤ t.target.toNat then some .badOperand
  else if p.modes.mode = .opened then some .wrongMode
  else if (p.line k).record.enable = false then some .wrongState
  else if (p.line k).test ≠ .none ∨ p.inputsWait = true then some .lineBusy
  else none

/-- A LINE_TEST order goes by the first check that fails, and then by the run state (R17, R162). -/
theorem testOrder_eq (p : Part) {t : Taking} {k : Fin 4} (hk : k.val = t.target.toNat % 4) :
    p.testOrder t = match p.refusesTest t k with
      | some code => p.refuse t.slot code 0
      | none =>
        if p.isRunning then
          (p.takePlaced.addHand { slot := t.slot, work := .lineTest k }).modLine k (fun x => x.accepted t.slot)
        else p.stoppedTake t := by
  have hline : Fin.ofNat 4 t.target.toNat = k := Fin.ext hk.symm
  simp only [Part.testOrder, Part.refusesTest, hline, Line.testing_iff]
  split_ifs <;> rfl

theorem exec_lineTest {s : State} {l : Layout} {t : Taking} (h : s.part.serving l .lineTest t) :
    exec .lineTest s = .next (s.setPart (s.part.testOrder t)) :=
  congrArg (done s) (withTaking_of_serving h rfl Part.testOrder)

/-- Settles O42: the order ends in its slot, or the line and the hand table take it, by the first check of R17 that fails. -/
theorem lineTestOrder : Obligations.LineTestOrder := by
  unfold Obligations.LineTestOrder
  intro s l t k hserving hm hk x code
  have ⟨_, _, _, hslot⟩ := hserving
  have hcode : code = (s.part.refusesTest t k).map RefusalCode.code := by
    simp only [Part.refusesTest, apply_ite (Option.map RefusalCode.code)]
    rfl
  rw [exec_lineTest hserving, testOrder_eq s.part hk, hcode]
  cases hfails : s.part.refusesTest t k with
  | some c =>
    refine ⟨?_, nofun, nofun⟩
    rintro _ ⟨⟩
    exact ⟨_, rfl, refuse_ends hslot hm c 0⟩
  | none =>
    refine ⟨nofun, fun _ hrun => ?_, fun _ hrun => ?_⟩
    · rw [if_pos (by simp [Part.isRunning, hrun])]
      simp only [Line.accepted_eq]
      rfl
    · rw [if_neg (by simp [Part.isRunning, hrun])]
      exact ⟨_, rfl, endTake_ends hslot hm .stopped 0⟩

end Sys2Proof.Machine
end

