-- ==== Sys2Proof/Proofs/InjectionRegister.lean ====
section
/-! ZEINJ (R193): what a write to it stores, and the resets that clear it. -/

namespace Sys2Proof.Machine

/-! ### Bits of a written word that a command asks for -/

theorem or_one_eq_self {v : Word} (h : v.getLsbD 0 = true) : v ||| 1 = v := by
  refine BitVec.eq_of_getLsbD_eq fun i _ => ?_
  cases i with
  | zero => simp [h]
  | succ i => simp [BitVec.getLsbD_one]

theorem and_fffe_eq_self {v : Word} (h : v.getLsbD 0 = false) : v &&& 0xFFFE = v := by
  rw [show (0xFFFE : Word) = ~~~1 by decide]
  refine BitVec.eq_of_getLsbD_eq fun i hi => ?_
  rw [BitVec.getLsbD_and, BitVec.getLsbD_not]
  cases i with
  | zero => simp only [h, Bool.false_and]
  | succ i => simp [hi]

theorem getLsbD_one_or_two (v : Word) : (v ||| 2).getLsbD 1 = true := by
  rw [BitVec.getLsbD_or, show (2 : Word).getLsbD 1 = true by decide, Bool.or_true]

/-! ### ZEINJ written -/

/-- No reset holds the part (R175). -/
theorem Part.free_of_hold {p : Part} (h : p.run.hold = none) : p.free = true := by simp [Part.free, h]

theorem Injection.ofWord_bit (v : Word) : (Injection.ofWord v).bit.val = v.toNat / 8 % 32 % 22 := rfl

/-- MODE code 3 is stored as ADDRESS, whose code is 2 (R196). -/
theorem Injection.ofWord_modeCode (v : Word) : (Injection.ofWord v).mode.code = min (v.toNat / 2 % 4) 2 := by
  have hmode : (Injection.ofWord v).mode = match v.toNat / 2 % 4 with | 0 => .oneBit | 1 => .twoBit | _ => .address := rfl
  rw [hmode]
  split
  case h_1 h => rw [h]; rfl
  case h_2 h => rw [h]; rfl
  case h_3 h0 h1 => exact (min_eq_right ((Nat.two_le_iff _).2 ⟨h0, h1⟩)).symm

theorem exec_armInjection {v : Word} {s : State} (hfree : s.part.run.hold = none) (harm : v.getLsbD 0 = true) :
    exec (.armInjection v) s = .next (s.setPart (s.part.writeInjection v)) := by
  have hrow : exec (.armInjection v) s = done s (if s.part.free then s.part.writeInjection (v ||| 1) else s.part) := rfl
  rw [hrow, if_pos (Part.free_of_hold hfree), or_one_eq_self harm]
  rfl

theorem exec_disarmInjection {v : Word} {s : State} (hfree : s.part.run.hold = none) (hdisarm : v.getLsbD 0 = false) :
    exec (.disarmInjection v) s = .next (s.setPart (s.part.writeInjection v)) := by
  have hrow : exec (.disarmInjection v) s = done s (if s.part.free then s.part.writeInjection (v &&& 0xFFFE) else s.part) := rfl
  rw [hrow, if_pos (Part.free_of_hold hfree), and_fffe_eq_self hdisarm]
  rfl

/-! ### ZEINJ cleared -/

@[simp] theorem Part.resetBlocks_prot (p : Part) (run : RunControl) (prot : Protection) : (p.resetBlocks run prot).prot = prot := rfl

/-- A ZCTL write with SOFT_RESET written 1 is a SOFT reset, with the other fields of the word stored before it (R183, R185). -/
theorem Part.zctlWrite_softReset {p : Part} {v : Word} (hfree : p.run.hold = none) (hv : v.getLsbD 1 = true) :
    p.zctlWrite v
      = (p.setRun { p.run with run := v.getLsbD 0, enables := .ofWord v 4, captureLast := v.getLsbD 8 }).softReset := by
  simp [Part.zctlWrite, Part.free_of_hold hfree, hv]

theorem Part.powerReset_injection (p : Part) : p.powerReset.prot.injection = .clear := by
  simp [Part.powerReset, Protection.initial]

theorem Part.pinReset_injection (p : Part) : p.pinReset.prot.injection = .clear := by
  simp [Part.pinReset, Protection.initial]

theorem Part.softReset_injection (p : Part) : p.softReset.prot.injection = .clear := by
  simp [Part.softReset]

/-- Settles O12: a ZEINJ write stores the fields of its word and nothing else, and each of the three resets leaves ZEINJ clear. -/
theorem injectionRegisterWrite : Obligations.InjectionRegisterWrite := by
  unfold Obligations.InjectionRegisterWrite
  refine ⟨fun v s hfree harm => ?_, fun v s hfree hdisarm => ?_, fun s => ?_, fun s => ?_, fun v s hfree => ?_⟩
  · exact ⟨.ofWord v, exec_armInjection hfree harm, harm, rfl, Injection.ofWord_bit v, Injection.ofWord_modeCode v⟩
  · exact ⟨.ofWord v, exec_disarmInjection hfree hdisarm, hdisarm, rfl, Injection.ofWord_bit v, Injection.ofWord_modeCode v⟩
  · exact ⟨s.part.powerReset, rfl, s.part.powerReset_injection⟩
  · exact ⟨s.part.pinReset, rfl, s.part.pinReset_injection⟩
  · refine ⟨s.part.zctlWrite (v ||| 2), rfl, ?_⟩
    rw [Part.zctlWrite_softReset hfree (getLsbD_one_or_two v)]
    exact Part.softReset_injection _

end Sys2Proof.Machine
end

