-- ==== Sys2Proof/Proofs/UnassignedBits.lean ====
section
/-! Register bits that the table of 13.10 does not assign (R196): each register's fields leave them 0 as it is read, and a write
depends only on the assigned bits of its word. -/

namespace Sys2Proof.Machine

/-! ### Fields and masks -/

theorem testBit_bits (w : Word) (lo len i : Nat) : (bits w lo len).testBit i = (decide (i < len) && w.getLsbD (lo + i)) := by
  rw [bits, Nat.testBit_mod_two_pow, Nat.testBit_div_two_pow, Nat.add_comm i lo, BitVec.testBit_toNat]

/-- A flag in a register is the field of one bit it was written from. -/
theorem flag_getLsbD (v : Word) (i : Nat) : flag (v.getLsbD i) = bits v i 1 := by
  have hbit : v.getLsbD i = decide (v.toNat / 2 ^ i % 2 = 1) := Nat.testBit_eq_decide_div_mod_eq
  simp only [flag, hbit, decide_eq_true_eq, bits]
  split <;> omega

/-- A mask that lies within a field of value 0 selects nothing. -/
theorem and_eq_zero_of_bits {w m : Word} {lo len : Nat} (h : bits w lo len = 0)
    (hm : ∀ i < 16, m.getLsbD i = true → lo ≤ i ∧ i < lo + len) : w &&& m = 0 := by
  refine BitVec.eq_of_getLsbD_eq (y := 0#16) fun i hi => ?_
  rw [BitVec.getLsbD_and, BitVec.getLsbD_zero]
  cases hmask : m.getLsbD i with
  | false => exact Bool.and_false _
  | true =>
    obtain ⟨hlo, hlen⟩ := hm i hi hmask
    have hfield := testBit_bits w lo len (i - lo)
    rw [h, Nat.zero_testBit, Nat.add_sub_cancel' hlo, decide_eq_true (by omega), Bool.true_and] at hfield
    rw [← hfield, Bool.and_true]

/-! ### Two words that agree on the bits of a mask -/

section
variable {v w m : Word}

theorem getLsbD_eq_of_and_eq (h : v &&& m = w &&& m) {i : Nat} (hi : m.getLsbD i = true) : v.getLsbD i = w.getLsbD i := by
  have hmasked := congrArg (fun x => x.getLsbD i) h
  simpa only [BitVec.getLsbD_and, hi, Bool.and_true] using hmasked

theorem bits_eq_of_and_eq (h : v &&& m = w &&& m) {lo len : Nat} (hm : ∀ i < len, m.getLsbD (lo + i) = true) :
    bits v lo len = bits w lo len := by
  refine Nat.eq_of_testBit_eq fun i => ?_
  rw [testBit_bits, testBit_bits]
  by_cases hi : i < len
  · rw [getLsbD_eq_of_and_eq h (hm i hi)]
  · simp only [hi, decide_false, Bool.false_and]

theorem or_and_congr (h : v &&& m = w &&& m) (c : Word) : (v ||| c) &&& m = (w ||| c) &&& m := by
  rw [BitVec.and_or_distrib_right, h, ← BitVec.and_or_distrib_right]

theorem and_and_congr (h : v &&& m = w &&& m) (c : Word) : v &&& c &&& m = w &&& c &&& m := by
  rw [BitVec.and_assoc, BitVec.and_comm c m, ← BitVec.and_assoc, h, BitVec.and_assoc, BitVec.and_comm m c, ← BitVec.and_assoc]

theorem Causes.ofWord_congr (h : v &&& m = w &&& m) {lo : Nat} (hm : ∀ i < 4, m.getLsbD (lo + i) = true) :
    Causes.ofWord v lo = Causes.ofWord w lo := by
  have hbit (i : Nat) (hi : i < 4) : bit v (lo + i) = bit w (lo + i) := getLsbD_eq_of_and_eq h (hm i hi)
  have hjournal : bit v lo = bit w lo := hbit 0 (by decide)
  simp only [Causes.ofWord, hjournal, hbit 1 (by decide), hbit 2 (by decide), hbit 3 (by decide)]

end

/-! ### Registers as read -/

theorem flag_le (b : Bool) : flag b ≤ 1 := by cases b <;> decide
theorem Causes.value_le (c : Causes) : c.value ≤ 15 := by
  have := flag_le c.journal
  have := flag_le c.alert
  have := flag_le c.memerr
  have := flag_le c.runstate
  unfold Causes.value
  omega
theorem RunState.code_le (x : RunState) : x.code ≤ 5 := by cases x <;> decide
theorem Mode.code_le (x : Mode) : x.code ≤ 3 := by cases x <;> decide
theorem ResetCause.code_le (x : ResetCause) : x.code ≤ 2 := by cases x <;> decide
theorem InjectMode.code_le (x : InjectMode) : x.code ≤ 2 := by cases x <;> decide

@[simp] theorem bits_word (n lo len : Nat) : bits (word n) lo len = n % 65536 / 2 ^ lo % 2 ^ len := rfl

/-- ZECA and ZEUA hold a word offset of 15 bits (13.10). -/
theorem capturedAddress_unassigned (a : BitVec 15) : bits (word a.toNat) 15 1 = 0 := by
  rw [bits_word]
  omega

section
variable (p : Part)

theorem Part.zctl_unassigned : bits p.zctl 1 3 = 0 ∧ bits p.zctl 9 7 = 0 := by
  have := flag_le p.run.run
  have := p.run.enables.value_le
  have := flag_le p.run.captureLast
  simp only [Part.zctl, bits_word]
  omega

theorem Part.zstat_unassigned : bits p.zstat 7 1 = 0 := by
  have := p.run.state.code_le
  have := p.modes.mode.code_le
  have := p.run.resetCause.code_le
  simp only [Part.zstat, bits_word]
  omega

theorem Part.zatn_unassigned : bits p.zatn 4 12 = 0 := by
  have := p.run.attention.value_le
  simp only [Part.zatn, bits_word]
  omega

theorem Part.zecnt_unassigned : bits p.zecnt 14 2 = 0 := by
  have := flag_le p.prot.cv
  have := flag_le p.prot.uv
  simp only [Part.zecnt, bits_word]
  omega

theorem Part.zeinj_unassigned : bits p.zeinj 9 7 = 0 := by
  have := flag_le p.prot.injection.armed
  have := p.prot.injection.mode.code_le
  have := flag_le p.prot.injection.partTarget
  simp only [Part.zeinj, bits_word]
  omega

end

/-! ### Registers written -/

/-- A ZCTL write depends only on RUN, SOFT_RESET, the four enables and CAPTURE_LAST (R196). -/
theorem Part.zctlWrite_congr (p : Part) {v w : Word} (h : v &&& 0x01F3 = w &&& 0x01F3) : p.zctlWrite v = p.zctlWrite w := by
  have hrun : v.getLsbD 0 = w.getLsbD 0 := getLsbD_eq_of_and_eq h (by decide)
  have hreset : v.getLsbD 1 = w.getLsbD 1 := getLsbD_eq_of_and_eq h (by decide)
  have henables : Causes.ofWord v 4 = .ofWord w 4 := Causes.ofWord_congr h (by decide)
  have hcapture : v.getLsbD 8 = w.getLsbD 8 := getLsbD_eq_of_and_eq h (by decide)
  simp only [Part.zctlWrite, hrun, hreset, henables, hcapture]

/-- A ZATN write depends only on the four causes (R196). -/
theorem Part.clearAttention_congr (p : Part) {v w : Word} (h : v &&& 0x000F = w &&& 0x000F) :
    p.clearAttention v = p.clearAttention w := by
  rw [Part.clearAttention, Part.clearAttention, Causes.ofWord_congr h (by decide)]

/-- A ZEINJ write depends only on ARM, MODE, BIT and TARGET (R196). -/
theorem Part.writeInjection_congr (p : Part) {v w : Word} (h : v &&& 0x01FF = w &&& 0x01FF) :
    p.writeInjection v = p.writeInjection w := by
  have harm : v.getLsbD 0 = w.getLsbD 0 := getLsbD_eq_of_and_eq h (by decide)
  have hmode : bits v 1 2 = bits w 1 2 := bits_eq_of_and_eq h (by decide)
  have hbit : bits v 3 5 = bits w 3 5 := bits_eq_of_and_eq h (by decide)
  have htarget : v.getLsbD 8 = w.getLsbD 8 := getLsbD_eq_of_and_eq h (by decide)
  simp only [Part.writeInjection, Injection.ofWord, harm, hmode, hbit, htarget]

/-- The rows that write ZCTL: each sets or clears its own bit in the written word first (log entry 19). -/
theorem exec_zctlRows_congr {v w : Word} (h : v &&& 0x01F3 = w &&& 0x01F3) (s : State) :
    exec (.setRun v) s = exec (.setRun w) s ∧ exec (.clearRun v) s = exec (.clearRun w) s
      ∧ exec (.softReset v) s = exec (.softReset w) s ∧ exec (.setAttentionEnables v) s = exec (.setAttentionEnables w) s
      ∧ exec (.setCaptureLast v) s = exec (.setCaptureLast w) s :=
  have written {x y : Word} (hxy : x &&& 0x01F3 = y &&& 0x01F3) : done s (s.part.zctlWrite x) = done s (s.part.zctlWrite y) :=
    congrArg (done s) (s.part.zctlWrite_congr hxy)
  ⟨written (and_and_congr (or_and_congr h 1) 0xFFFD), written (and_and_congr h 0xFFFC), written (or_and_congr h 2), written h,
    written h⟩

theorem exec_clearAttentionCause_congr {v w : Word} (h : v &&& 0x000F = w &&& 0x000F) (s : State) :
    exec (.clearAttentionCause v) s = exec (.clearAttentionCause w) s :=
  congrArg (fun q => done s (if s.part.free then q else s.part)) (s.part.clearAttention_congr h)

/-- The rows that write ZEINJ (log entry 19). -/
theorem exec_injectionRows_congr {v w : Word} (h : v &&& 0x01FF = w &&& 0x01FF) (s : State) :
    exec (.armInjection v) s = exec (.armInjection w) s ∧ exec (.disarmInjection v) s = exec (.disarmInjection w) s :=
  have written {x y : Word} (hxy : x &&& 0x01FF = y &&& 0x01FF) :
      done s (if s.part.free then s.part.writeInjection x else s.part)
        = done s (if s.part.free then s.part.writeInjection y else s.part) :=
    congrArg (fun q => done s (if s.part.free then q else s.part)) (s.part.writeInjection_congr hxy)
  ⟨written (or_and_congr h 1), written (and_and_congr h 0xFFFE)⟩

/-! ### ZEINJ read back -/

theorem Injection.ofWord_mode_address {v : Word} (h : v.toNat / 2 % 4 = 3) : (Injection.ofWord v).mode = .address := by
  have hcode : (Injection.ofWord v).mode.code = 2 := by rw [Injection.ofWord_modeCode, h]; rfl
  cases hmode : (Injection.ofWord v).mode with
  | address => rfl
  | oneBit => rw [hmode] at hcode; cases hcode
  | twoBit => rw [hmode] at hcode; cases hcode

/-- ZEINJ reads back as written, with MODE at most ADDRESS and BIT modulo 22 (R196). -/
theorem Part.zeinj_writeInjection (p : Part) (v : Word) :
    (p.writeInjection v).zeinj
      = word (bits v 0 1 + 2 * min (v.toNat / 2 % 4) 2 + 8 * (v.toNat / 8 % 32 % 22) + 256 * bits v 8 1) := by
  rw [← flag_getLsbD, ← flag_getLsbD, ← Injection.ofWord_modeCode]
  rfl

/-- Settles O13: every unassigned field is 0 as its register is read, a write depends on the assigned bits alone, and ZEINJ reads back
as the fields it stored. -/
theorem unassignedRegisterBits : Obligations.UnassignedRegisterBits := by
  unfold Obligations.UnassignedRegisterBits
  refine ⟨fun p => ?_, fun v w s h => exec_zctlRows_congr h s, fun v w s h => exec_clearAttentionCause_congr h s,
    fun v w s h => exec_injectionRows_congr h s, fun _ _ _ => rfl, fun v s hfree harm => ?_⟩
  · obtain ⟨hlow, hhigh⟩ := p.zctl_unassigned
    have hzctl : p.zctl &&& 0xFE0E = 0 := by
      rw [show (0xFE0E : Word) = 0x000E ||| 0xFE00 by decide, BitVec.and_or_distrib_left, and_eq_zero_of_bits hlow (by decide),
        and_eq_zero_of_bits hhigh (by decide)]
      rfl
    exact ⟨hzctl, and_eq_zero_of_bits p.zstat_unassigned (by decide), and_eq_zero_of_bits p.zatn_unassigned (by decide),
      and_eq_zero_of_bits (capturedAddress_unassigned p.prot.zeca) (by decide),
      and_eq_zero_of_bits (capturedAddress_unassigned p.prot.zeua) (by decide),
      and_eq_zero_of_bits p.zecnt_unassigned (by decide), and_eq_zero_of_bits p.zeinj_unassigned (by decide)⟩
  · have harmed : bits v 0 1 = 1 := by rw [← flag_getLsbD, harm]; rfl
    refine ⟨s.part.writeInjection v, exec_armInjection hfree harm, Injection.ofWord_mode_address, ?_⟩
    have hread := s.part.zeinj_writeInjection v
    rwa [harmed] at hread

end Sys2Proof.Machine
end

