-- ==== Sys2Proof/Proofs/WholeMachine.lean ====
section
/-! The machine as a whole: a step carries out the front command, every command is carried out, and every command keeps the invariant
of a run and, outside run control and applications, the setup. -/

namespace Sys2Proof.Machine

/-! ### Outcomes -/

/-- Every command is carried out: it is neither refused nor a fault, and leaves the queue alone. -/
theorem exec_done (c : Instr) (s : State) : ∃ q, exec c s = done s q := by
  cases c <;> exact ⟨_, rfl⟩

/-- What holds of the part that a command makes holds of the state after it. -/
theorem of_done {P : Part → Prop} {s t : State} {q : Part} (h : done s q = .next t) (hq : P q) : P t.part := by
  cases h
  exact hq

/-- A timer's command: the part after it is as before, or the event's at the moment the due time is taken (R180). -/
theorem atDue_induct {P : Part → Prop} {p : Part} {due : Time} {f : Part → Part} (h0 : P p) (h : ∀ q, p.atDue due = some q → P (f q)) :
    P (match p.atDue due with | some q => f q | none => p) := by
  cases hq : p.atDue due with
  | none => exact h0
  | some q => exact h q hq

/-- The same for a timer that may be stopped. -/
theorem atTimer_induct {P : Part → Prop} {p : Part} {due : Option Time} {f : Part → Part} (h0 : P p)
    (h : ∀ q, p.atTimer due = some q → P (f q)) : P (match p.atTimer due with | some q => f q | none => p) := by
  cases hq : p.atTimer due with
  | none => exact h0
  | some q => exact h q hq

/-- A due time changes no guard. -/
theorem guard_atTimer {p q : Part} {due : Option Time} (h : p.atTimer due = some q) (g : Fin 8) : q.guard g = p.guard g := by
  cases due with
  | none => cases h
  | some d =>
    rw [(Part.comesDue_eq (Part.comes_atDue h)).1]
    rfl

/-! ### The commands whose outcome depends on the state, each said once -/

section
variable {P : Part → Prop} {s t : State}

theorem execStopWaitEnd_induct {slot : BitVec 6} (h : execStopWaitEnd slot s = .next t) (h0 : P s.part)
    (hend : ∀ i r, P ((s.part.dropHand i).reportDone i .complete r)) : P t.part := by
  refine of_done h ?_
  split
  · exact hend _ _
  · exact h0

theorem execLampExpiry_induct {i : Byte} (h : execLampExpiry i s = .next t) (h0 : P s.part)
    (hdue : ∀ due q, s.part.atTimer due = some q → P (q.modInput i.toNat (fun x => { x with lamp := none }))) : P t.part := by
  refine of_done h ?_
  split
  · exact atTimer_induct h0 (hdue _)
  · exact h0

theorem execLockoutExpiry_induct {i : Byte} (h : execLockoutExpiry i s = .next t) (h0 : P s.part)
    (hdue : ∀ due q, s.part.atTimer due = some q → P (q.modBinding i.toNat (fun x => { x with lockout := none }))) : P t.part := by
  refine of_done h ?_
  split
  · exact atTimer_induct h0 (hdue _)
  · exact h0

theorem execSuspensionExpiry_induct {i : Byte} (h : execSuspensionExpiry i s = .next t) (h0 : P s.part)
    (hdue : ∀ due q, s.part.atTimer due = some q →
      P (((q.modInput i.toNat (fun y => { y with suspended := none })).writeMap i.toNat).condEnd .pressStorm (.input i.toNat))) :
    P t.part := by
  refine of_done h ?_
  split
  · exact atTimer_induct h0 (hdue _)
  · exact h0

/-- An input's timer (R28 to R30). -/
theorem inputTimer_induct {p : Part} {i : Nat} {states : List KeyState} {timer : Input → Option Time}
    {act : Part → Nat → Input → Time → Part} (h0 : P p) (hact : ∀ due q x, p.atDue due = some q → P (act q i x due)) :
    P (p.inputTimer i states timer act) := by
  unfold Part.inputTimer
  split
  · exact h0
  · split
    · split
      · exact atDue_induct h0 (fun q => hact _ q _)
      · exact h0
    · exact h0

theorem execLineTestBegin_induct {l : Fin 4} (h : execLineTestBegin l s = .next t) (h0 : P s.part)
    (hbegin : ∀ i, P (s.part.testBegin l i)) : P t.part := by
  refine of_done h ?_
  split
  · exact hbegin _
  · exact hbegin _
  · exact h0

theorem execReplyClose_induct {l : Fin 4} (h : execReplyClose l s = .next t) (h0 : P s.part)
    (hclose : ∀ a, P (s.part.replyClose l a)) : P t.part := by
  refine of_done h ?_
  split
  · split
    · exact hclose _
    · exact h0
  · exact h0

theorem execReplyMiss_induct {l : Fin 4} (h : execReplyMiss l s = .next t) (h0 : P s.part)
    (hmiss : ∀ a, P (((s.part.idleLine l).exchangeFailed l a false).exchangeEnd l a)) : P t.part := by
  refine of_done h ?_
  split
  · split
    · exact hmiss _
    · exact h0
  · exact h0

theorem execCycleWaitExpiry_induct {l : Fin 4} (h : execCycleWaitExpiry l s = .next t) (h0 : P s.part)
    (hdue : ∀ due q, s.part.atDue due = some q → P (q.beginCycle l)) : P t.part := by
  refine of_done h ?_
  split
  · exact atDue_induct h0 (hdue _)
  · exact h0

theorem execHomeSearchExhausted_induct {c : Fin 8} (h : execHomeSearchExhausted c s = .next t) (h0 : P s.part)
    (hfault : P ((s.part.setChan c (s.part.chan c).issueAll).faultNow c .homeFail)) : P t.part := by
  refine of_done h ?_
  split
  · split
    · exact hfault
    · exact h0
  · exact h0

theorem execStatusRefresh_induct {c : Fin 8} (h : execStatusRefresh c s = .next t) (h0 : P s.part)
    (hdue : ∀ due q, s.part.atDue due = some q → P (q.writeStatus c)) : P t.part := by
  refine of_done h ?_
  split
  · exact atDue_induct h0 (hdue _)
  · exact h0

theorem execGuardPinChange_induct {g : Fin 8} {level : Bool} (h : execGuardPinChange g level s = .next t) (h0 : P s.part)
    (hset : ∀ x : Guard, x.record = (s.part.guard g).record → x.state = (s.part.guard g).state → P (s.part.setGuard g x)) :
    P t.part := by
  refine of_done h ?_
  split
  · exact h0
  · split
    · exact hset _ rfl rfl
    · exact hset _ rfl rfl

theorem execGuardFilterExpiry_induct {g : Fin 8} (h : execGuardFilterExpiry g s = .next t) (h0 : P s.part)
    (hdue : ∀ due q, s.part.atTimer due = some q →
      P ((q.modGuard g (fun x => { x with filterDue := none, filteredOpen := x.pinOpen })).guardTakes g .input)) : P t.part :=
  of_done h (atTimer_induct h0 (hdue _))

theorem execClearTimerExpiry_induct {g : Fin 8} (h : execClearTimerExpiry g s = .next t) (h0 : P s.part)
    (hdue : ∀ due q, (s.part.guard g).state = .settling → s.part.atTimer due = some q → P (q.clearExpire g)) : P t.part := by
  refine of_done h ?_
  split
  · exact atTimer_induct h0 (fun q => hdue _ q ‹_›)
  · exact h0

theorem execEscalation_induct {i : Fin 32} (h : execEscalation i s = .next t) (h0 : P s.part)
    (hdue : ∀ due q e, s.part.atDue due = some q → P (q.escalate i e).whole) : P t.part := by
  refine of_done h ?_
  split
  · split
    · exact atDue_induct h0 (fun q => hdue _ q _)
    · exact h0
  · exact h0

theorem execModeRequest_induct (h : execModeRequest s = .next t) (h0 : P s.part)
    (htake : ∀ m r, P ((s.part.setModes m).takeRequest r)) : P t.part := by
  refine of_done h ?_
  split
  · split
    · exact htake _ _
    · exact h0
  · exact h0

theorem execRestTimerExpiry_induct (h : execRestTimerExpiry s = .next t) (h0 : P s.part)
    (hdue : ∀ due q m, s.part.atTimer due = some q → P (q.setModes m)) : P t.part :=
  of_done h (atTimer_induct h0 (fun q => hdue _ q _))

theorem execHostWatchExpiry_induct (h : execHostWatchExpiry s = .next t) (h0 : P s.part)
    (hdue : ∀ due q, s.part.atTimer due = some q → P q.fallSilent) : P t.part := by
  refine of_done h ?_
  split
  · exact h0
  · exact atTimer_induct h0 (hdue _)

theorem execStaleTimerExpiry_induct (h : execStaleTimerExpiry s = .next t) (h0 : P s.part)
    (hdue : ∀ due q j, s.part.atTimer due = some q → P (q.attendJournal.setJournal j)) : P t.part := by
  refine of_done h ?_
  split
  · exact hdue _ _ _ ‹_›
  · exact h0

theorem execMotionTick_induct (h : execMotionTick s = .next t) (h0 : P s.part)
    (htick : P (s.part.nextMs.eachChannel Part.tickChannel)) : P t.part := by
  refine of_done h ?_
  split
  · exact htick
  · exact h0

theorem execTake_induct (h : execTake s = .next t) (h0 : P s.part)
    (htake : ∀ l i rest, P ((s.part.setTakeQueue rest).takeSlot l i)) : P t.part := by
  refine of_done h ?_
  split
  · exact htake _ _ _
  · exact h0

theorem execLineTestEnd_induct {l : Fin 4} (h : execLineTestEnd l s = .next t) (h0 : P s.part)
    (hend : ∀ i, P (s.part.testEnd l i)) : P t.part := by
  refine of_done h ?_
  split
  · exact hend _
  · exact h0

end

/-! ### The invariant -/

theorem good_applyOrder {K : Pairs} {p : Part} (h : p.Good K) (t : Taking) {α : Type} (place : Layout → Nat × Nat)
    (check : Layout → List Word → Except Nat α) (apply : Part → α → Part) (ha : ∀ (q : Part) g, q.Good K → (apply q g).Good K) :
    (match p.run.layout with | some l => p.applyGroup t (place l).1 (place l).2 (check l) apply | none => p).Good K := by
  cases p.run.layout with
  | none => exact h
  | some l => exact good_applyGroup h t _ _ _ _ ha

/-- Every command keeps the invariant. -/
theorem good_exec {c : Instr} {s t : State} (h : s.part.Good .all) (hx : exec c s = .next t) : t.part.Good .all := by
  cases c with
  | powerReset => exact of_done hx (good_emptied (good_resetBlocks h _ _ rfl))
  | pinReset => exact of_done hx (good_resetBlocks h _ _ rfl)
  | resetHoldEnd => exact of_done hx (good_setRun h _ (fun _ => id))
  | clearingDone => exact of_done hx (.ite (good_enterHalted (good_emptied h)) h)
  | setRun v => exact of_done hx (good_zctlWrite h _)
  | clearRun v => exact of_done hx (good_zctlWrite h _)
  | softReset v => exact of_done hx (good_zctlWrite h _)
  | setAttentionEnables v => exact of_done hx (good_zctlWrite h _)
  | setCaptureLast v => exact of_done hx (good_zctlWrite h _)
  | clearAttentionCause v => exact of_done hx (.ite (good_attend h _) h)
  | clearErrorCounts v => exact of_done hx (.ite (good_setProt h _) h)
  | armInjection v => exact of_done hx (.ite (good_setProt h _) h)
  | disarmInjection v => exact of_done hx (.ite (good_setProt h _) h)
  | discardedRegisterWrite a v => exact of_done hx (good_windowWrite h a v)
  | hostRead a => exact of_done hx (good_windowRead h a)
  | hostWrite a v => exact of_done hx (good_windowWrite h a v)
  | slotPostedWrite i b => exact of_done hx (good_slotWrite h _ _ _)
  | slotFreeWrite i b => exact of_done hx (good_slotWrite h _ _ _)
  | jEmptyWrite v => exact of_done hx (good_regionWrite h _ _)
  | heartbeatWrite v => exact of_done hx (good_regionWrite h _ _)
  | checkingComplete => exact of_done hx (.ite (good_finishCheck h) h)
  | stoppingEnd => exact of_done hx (.ite (good_enterHalted (good_haltBlocks h)) h)
  | take => exact execTake_induct hx h (fun l i rest => good_takeSlot (good_setOrders h _) l i)
  | move => exact of_done hx (good_withTaking h _ _ _ (fun t => good_offerMove h t _))
  | home => exact of_done hx (good_withTaking h _ _ _ (fun t => good_offerMove h t _))
  | park => exact of_done hx (good_withTaking h _ _ _ (fun t => good_offerMove h t _))
  | stopControlled => exact of_done hx (good_withTaking h _ _ _ (fun t => good_stopControlled h t))
  | stopCut => exact of_done hx (good_withTaking h _ _ _ (fun t => good_stopCut h t))
  | release => exact of_done hx (good_withTaking h _ _ _ (fun t => good_releaseOrder h t))
  | applyInputs =>
    exact of_done hx (good_withTaking h _ _ _ (fun t =>
      good_applyOrder h t (fun l => (l.inputs, 16 + 6 * l.inputCount)) (fun l => inputsOf l.inputCount)
        _ (fun q g hq => good_applyInputsOrder hq t g)))
  | applyGuards =>
    exact of_done hx (good_withTaking h _ _ _ (fun t =>
      good_applyOrder h t (fun l => (l.guards, 32)) (fun _ => guardsOf) _
        (fun q g hq => good_endTake (good_applyGuardsGroup hq g) _ _ _)))
  | applyBindings =>
    exact of_done hx (good_withTaking h _ _ _ (fun t =>
      good_applyOrder h t (fun l => (l.bindings, 8 * l.entryCount)) (fun l => bindingsOf l.entryCount) _
        (fun q b hq => good_endTake (good_applyBindingsGroup hq b) _ _ _)))
  | applyChannel =>
    exact of_done hx (good_withTaking h _ _ _ (fun t =>
      good_applyOrder h t (fun l => (l.params + 16 * (Fin.ofNat 8 (t.target.toNat - 8)).val, 16)) (fun _ => channelParamsOf) _
        (fun q pr hq => good_applyChannelOrder hq t _ pr)))
  | setMode => exact of_done hx (good_withTaking h _ _ _ (fun t => good_setModeOrder h t))
  | ack => exact of_done hx (good_withTaking h _ _ _ (fun t => good_ackOrder h t))
  | orderAlert => exact of_done hx (good_withTaking h _ _ _ (fun t => good_alertOrder h t))
  | lamp => exact of_done hx (good_withTaking h _ _ _ (fun t => good_lampOrder h t))
  | lineTest => exact of_done hx (good_withTaking h _ _ _ (fun t => good_testOrder h t))
  | stopWaitEnd slot => exact execStopWaitEnd_induct hx h (fun i r => good_reportDone (good_setOrders h _) i _ r)
  | lineTestBegin l => exact execLineTestBegin_induct hx h (fun i => good_testBegin h l i)
  | lineTestEnd l => exact execLineTestEnd_induct hx h (fun i => good_testEnd h l i)
  | replyWindowOpen l =>
    exact of_done hx (good_modLine h l _ (by rw [Line.openWindow_fifo]; exact h.fifos l))
  | characterReceived l d f m => exact of_done hx (good_modLine h l _ (Line.receive_fifo _ d f m (h.fifos l)))
  | replyClose l => exact execReplyClose_induct hx h (fun a => good_replyClose h l a)
  | replyMiss l =>
    exact execReplyMiss_induct hx h (fun a => good_exchangeEnd (good_exchangeFailed (good_idleLine h l) l a false) l a)
  | cycleWaitExpiry l => exact execCycleWaitExpiry_induct hx h (fun due q hq => good_beginCycle (good_atDue h hq) l)
  | lampExpiry i => exact execLampExpiry_induct hx h (fun due q hq => good_modInput (good_atTimer h hq) _ _)
  | holdTimerExpiry i =>
    exact of_done hx (good_inputTimer h _ _ _ _ (fun q i x d hq => good_holdExpire hq i x d))
  | repeatTimerExpiry i =>
    exact of_done hx (good_inputTimer h _ _ _ _ (fun q i x d hq => good_repeatExpire hq i x d))
  | stuckTimerExpiry i =>
    exact of_done hx (good_inputTimer h _ _ _ _ (fun q i _ d hq => good_stuckExpire hq i d))
  | suspensionExpiry i =>
    exact execSuspensionExpiry_induct hx h (fun due q hq =>
      (good_writeMap (good_modInput (good_atTimer h hq) _ _) _).told (told_condEnd _ _ _))
  | lockoutExpiry e => exact execLockoutExpiry_induct hx h (fun due q hq => good_modBinding (good_atTimer h hq) _ _)
  | motionTick => exact execMotionTick_induct hx h (good_eachChannel _ (fun c p hp => good_tickChannel hp c) (good_nextMs h))
  | homeActive c us => exact of_done hx (good_inputChange (good_goTo h us) c _ _)
  | homeSearchExhausted c =>
    exact execHomeSearchExhausted_induct hx h (good_faultNow ((h.except c).setChanExcept (Channel.issueAll _) (h.queues c)) _)
  | limitActive c high us => exact of_done hx (good_inputChange (good_goTo h us) c _ _)
  | fltActive c us => exact of_done hx (good_inputChange (good_goTo h us) c _ _)
  | channelInputChange c pin level => exact of_done hx (good_inputChange h c pin level)
  | statusRefresh c => exact execStatusRefresh_induct hx h (fun due q hq => (good_atDue h hq).told (told_writeStatus q c))
  | guardPinChange g level => exact execGuardPinChange_induct hx h (fun x hr hs => good_setGuardSame h g x hr hs)
  | guardFilterExpiry g =>
    exact execGuardFilterExpiry_induct hx h (fun due q hq =>
      good_guardTakes (good_setGuardSame (good_atTimer h hq) g { q.guard g with filterDue := none, filteredOpen := _ } rfl rfl) g _)
  | clearTimerExpiry g =>
    refine execClearTimerExpiry_induct hx h (fun due q hs hq => good_clearExpire (good_atTimer h hq) g ?_)
    rw [guard_atTimer hq, hs]
    decide
  | escalation i =>
    exact execEscalation_induct hx h (fun due q e hq => ((good_atDue h hq).told (told_escalate q i e)).told (told_whole _))
  | modeRequest => exact execModeRequest_induct hx h (fun m r => good_takeRequest (good_setModes h m) r)
  | restTimerExpiry => exact execRestTimerExpiry_induct hx h (fun due q m hq => good_setModes (good_atTimer h hq) m)
  | hostWatchExpiry => exact execHostWatchExpiry_induct hx h (fun due q hq => good_fallSilent (good_atTimer h hq))
  | staleTimerExpiry =>
    exact execStaleTimerExpiry_induct hx h (fun due q j hq => good_setJournal ((good_atTimer h hq).told (told_attendJournal q)) j)
  | scrub => exact of_done hx (.ite (good_scrub h) h)
  | startBitDetected l =>
    exact of_done hx (good_modLine h l _ (by rw [Line.startBit_fifo]; exact h.fifos l))

/-- Settles O59: the step's command keeps the invariant, and the idle step moves no state, queue or guard. -/
theorem stepKeepsInv : Obligations.StepKeepsInv := by
  unfold Obligations.StepKeepsInv
  intro s t h hstep
  rw [← Part.good_iff] at h ⊢
  unfold step at hstep
  split at hstep
  · next rest _ => exact good_exec (s := s.setPending rest) h hstep
  · cases hstep
    exact good_goTo h _

/-- Settles O58: memory is empty, no snapshot is in force, and no guard of the reset state is enabled. -/
theorem resetInv : Obligations.ResetInv := by
  unfold Obligations.ResetInv
  rw [← Part.good_iff]
  refine good_unhomed ⟨⟨.nil, fun _ he => nomatch he⟩, fun _ he => nomatch he⟩ (fun l => ?_) (fun l hl => nomatch hl) (fun c => ?_)
  · fin_cases l <;> decide
  · fin_cases c <;> decide

/-! ### The setup -/

theorem Line.openWindow_record (x : Line) : x.openWindow.record = x.record := by
  unfold Line.openWindow
  split <;> rfl

theorem Line.startBit_record (x : Line) : x.startBit.record = x.record := by
  unfold Line.startBit
  split <;> rfl

theorem Line.offer_record (x : Line) (d : Byte) (f m : Bool) : (x.offer d f m).record = x.record := by
  unfold Line.offer
  split <;> rfl

theorem Line.receive_record (x : Line) (d : Byte) (f m : Bool) : (x.receive d f m).record = x.record := by
  unfold Line.receive
  split
  · exact x.offer_record d f m
  · exact x.offer_record _ f _
  · rfl

/-- A channel input's change touches its channel, and publishes (R59). -/
theorem setup_inputChange (p : Part) (c : Fin 8) (pin : ChannelPin) (level : Bool) : p.SameSetup (p.inputChange c pin level) := by
  have hset : p.SameSetup (p.setChan c { p.chan c with pins := (p.chan c).pins.put pin level }) := setup_setChan p c _ rfl
  unfold Part.inputChange
  dsimp only
  split
  · exact .refl p
  · split
    · have hcommit := hset.told (told_commit _ c (p.chan c) 0 false)
      split
      · exact hcommit.trans (near_inputActs (c := c) _ pin).setup
      · exact hcommit
    · exact hset

/-- Outside run control and the applications every command leaves the setup as it stands. -/
theorem setup_exec {c : Instr} {s t : State} (hx : exec c s = .next t) :
    match c with
    | .powerReset | .pinReset | .resetHoldEnd | .clearingDone | .setRun _ | .clearRun _ | .softReset _ | .setAttentionEnables _
    | .setCaptureLast _ | .clearAttentionCause _ | .discardedRegisterWrite _ _ | .hostWrite _ _ | .checkingComplete | .stoppingEnd
    | .applyInputs | .applyGuards | .applyBindings | .applyChannel | .lineTestEnd _ => True
    | _ => s.part.SameSetup t.part := by
  have h0 : s.part.SameSetup s.part := .refl _
  cases c with
  | powerReset | pinReset | resetHoldEnd | clearingDone | setRun | clearRun | softReset | setAttentionEnables | setCaptureLast
  | clearAttentionCause | discardedRegisterWrite | hostWrite | checkingComplete | stoppingEnd
  | applyInputs | applyGuards | applyBindings | applyChannel | lineTestEnd => trivial
  | clearErrorCounts v => exact of_done hx (.ite (setup_setProt _ _) h0)
  | armInjection v => exact of_done hx (.ite (setup_setProt _ _) h0)
  | disarmInjection v => exact of_done hx (.ite (setup_setProt _ _) h0)
  | hostRead a => exact of_done hx (setup_windowRead _ a)
  | slotPostedWrite i b => exact of_done hx (setup_slotWrite _ _ _ _)
  | slotFreeWrite i b => exact of_done hx (setup_slotWrite _ _ _ _)
  | jEmptyWrite v => exact of_done hx (setup_regionWrite _ _ _)
  | heartbeatWrite v => exact of_done hx (setup_regionWrite _ _ _)
  | take => exact execTake_induct hx h0 (fun l i rest => (setup_setOrders _ _).trans (setup_takeSlot _ l i))
  | move => exact of_done hx (setup_withTaking _ _ _ _ (fun t => setup_offerMove _ t _))
  | home => exact of_done hx (setup_withTaking _ _ _ _ (fun t => setup_offerMove _ t _))
  | park => exact of_done hx (setup_withTaking _ _ _ _ (fun t => setup_offerMove _ t _))
  | stopControlled => exact of_done hx (setup_withTaking _ _ _ _ (setup_stopControlled _))
  | stopCut => exact of_done hx (setup_withTaking _ _ _ _ (setup_stopCut _))
  | release => exact of_done hx (setup_withTaking _ _ _ _ (setup_releaseOrder _))
  | setMode => exact of_done hx (setup_withTaking _ _ _ _ (setup_setModeOrder _))
  | ack => exact of_done hx (setup_withTaking _ _ _ _ (setup_ackOrder _))
  | orderAlert => exact of_done hx (setup_withTaking _ _ _ _ (setup_alertOrder _))
  | lamp => exact of_done hx (setup_withTaking _ _ _ _ (setup_lampOrder _))
  | lineTest => exact of_done hx (setup_withTaking _ _ _ _ (setup_testOrder _))
  | stopWaitEnd slot => exact execStopWaitEnd_induct hx h0 (fun i r => (setup_setOrders _ _).trans (setup_report _ i _ _ r))
  | lineTestBegin l => exact execLineTestBegin_induct hx h0 (setup_testBegin _ l)
  | replyWindowOpen l => exact of_done hx (setup_modLine _ l _ (Line.openWindow_record _))
  | characterReceived l d f m => exact of_done hx (setup_modLine _ l _ (Line.receive_record _ d f m))
  | replyClose l => exact execReplyClose_induct hx h0 (setup_replyClose _ l)
  | replyMiss l =>
    exact execReplyMiss_induct hx h0 (fun a =>
      ((setup_idleLine _ l).trans (setup_exchangeFailed _ l a false)).trans (setup_exchangeEnd _ l a))
  | cycleWaitExpiry l => exact execCycleWaitExpiry_induct hx h0 (fun due q hq => (setup_atDue hq).trans (setup_beginCycle q l))
  | lampExpiry i =>
    exact execLampExpiry_induct hx h0 (fun due q hq => (setup_atTimer hq).trans (setup_modInput q _ _ (fun _ => rfl)))
  | holdTimerExpiry i =>
    exact of_done hx (inputTimer_induct h0 (fun due q x hq => (setup_atDue hq).calm (calm_holdExpire q _ x due)))
  | repeatTimerExpiry i =>
    exact of_done hx (inputTimer_induct h0 (fun due q x hq => (setup_atDue hq).calm (calm_repeatExpire q _ x due)))
  | stuckTimerExpiry i =>
    exact of_done hx (inputTimer_induct h0 (fun due q x hq => (setup_atDue hq).calm (calm_stuckExpire q _ due)))
  | suspensionExpiry i =>
    exact execSuspensionExpiry_induct hx h0 (fun due q hq =>
      (((setup_atTimer hq).trans (setup_modInput q _ (fun y => { y with suspended := none }) (fun _ => rfl))).told
        (told_writeMap _ _)).told (told_condEnd _ _ _))
  | lockoutExpiry e =>
    exact execLockoutExpiry_induct hx h0 (fun due q hq => (setup_atTimer hq).trans (setup_modBinding q _ _ (fun _ => rfl)))
  | motionTick =>
    exact execMotionTick_induct hx h0 ((setup_nextMs _).trans (setup_eachChannel _ _ (fun c p => (near_tickChannel p).setup)))
  | homeActive c us => exact of_done hx ((setup_goTo _ us).trans (setup_inputChange _ c _ _))
  | homeSearchExhausted c =>
    exact execHomeSearchExhausted_induct hx h0
      ((setup_setChan s.part c (Channel.issueAll _) rfl).trans (near_faultNow _ _).setup)
  | limitActive c high us => exact of_done hx ((setup_goTo _ us).trans (setup_inputChange _ c _ _))
  | fltActive c us => exact of_done hx ((setup_goTo _ us).trans (setup_inputChange _ c _ _))
  | channelInputChange c pin level => exact of_done hx (setup_inputChange _ c pin level)
  | statusRefresh c => exact execStatusRefresh_induct hx h0 (fun due q hq => (setup_atDue hq).told (told_writeStatus q c))
  | guardPinChange g level => exact execGuardPinChange_induct hx h0 (fun x hr _ => setup_setGuard _ g x hr)
  | guardFilterExpiry g =>
    exact execGuardFilterExpiry_induct hx h0 (fun due q hq =>
      ((setup_atTimer hq).trans (setup_setGuard q g { q.guard g with filterDue := none, filteredOpen := _ } rfl)).calm
        (calm_guardTakes _ g _))
  | clearTimerExpiry g =>
    exact execClearTimerExpiry_induct hx h0 (fun due q _ hq => (setup_atTimer hq).calm (calm_clearExpire q g))
  | escalation i =>
    exact execEscalation_induct hx h0 (fun due q e hq => ((setup_atDue hq).told (told_escalate q i e)).told (told_whole _))
  | modeRequest => exact execModeRequest_induct hx h0 (fun m r => (setup_setModes _ m).calm (calm_takeRequest _ r))
  | restTimerExpiry => exact execRestTimerExpiry_induct hx h0 (fun due q m hq => (setup_atTimer hq).trans (setup_setModes q m))
  | hostWatchExpiry => exact execHostWatchExpiry_induct hx h0 (fun due q hq => (setup_atTimer hq).calm (calm_fallSilent q))
  | staleTimerExpiry =>
    exact execStaleTimerExpiry_induct hx h0 (fun due q j hq =>
      ((setup_atTimer hq).told (told_attendJournal q)).trans (setup_setJournal _ j))
  | scrub => exact of_done hx (.ite (setup_scrub _) h0)
  | startBitDetected l => exact of_done hx (setup_modLine _ l _ (Line.startBit_record _))

/-- Settles O60: the case split over the commands is `setup_exec`. -/
theorem onlyApplicationsAndRunControlChangeTheSetup : Obligations.OnlyApplicationsAndRunControlChangeTheSetup := by
  unfold Obligations.OnlyApplicationsAndRunControlChangeTheSetup
  intro c s t hx
  have h := setup_exec hx
  cases c <;> exact h

/-! ### Steps -/

/-- Settles O2: every arm of `exec` ends in `done`. -/
theorem everyCommandIsCarriedOut : Obligations.EveryCommandIsCarriedOut := by
  unfold Obligations.EveryCommandIsCarriedOut
  exact fun c s => exec_done c s

/-- Settles O1: `step` runs the queue's front, and the idle step is `Part.goTo` one microsecond on. -/
theorem stepRunsFrontCommand : Obligations.StepRunsFrontCommand := by
  unfold Obligations.StepRunsFrontCommand
  refine ⟨fun c rest p => rfl, fun p h => ?_, fun p h => ⟨p.idle, rfl, ?_, fun c => ?_⟩⟩
  · have hidle : p.idle = p := by simp [Part.idle, Part.goTo, h]
    rw [step, State.setPart, hidle]
  · simp only [Part.idle, Part.goTo, h]
    rfl
  · simp only [Part.idle, Part.goTo_chan, h, if_true]
    simp only [Part.goTo, h, if_true]
    rfl

end Sys2Proof.Machine
end

