-- ==== Sys2Proof/Proofs/RunControl.lean ====
section
/-! Resets, the control and attention registers, and the run states (11.4 to 11.6). -/

namespace Sys2Proof.Machine

/-! ### Resets (R183) -/

/-- Settles O3: a closed fact about the reset state. -/
theorem powerOnRegistersAndBlocks : Obligations.PowerOnRegistersAndBlocks := by
  unfold Obligations.PowerOnRegistersAndBlocks
  decide

/-- A reset clears every block (R183). -/
theorem cleared_resetBlocks (p : Part) (run : RunControl) (prot : Protection) : p.Cleared (p.resetBlocks run prot) where
  time := rfl
  clock := rfl
  hostData := rfl
  orders := rfl
  lines l := by simp [Part.line, Part.resetBlocks, Part.initial]
  inputs := rfl
  bindings := rfl
  channels c := by simp [Part.chan, Part.resetBlocks]
  guards g := by simp [Part.guard, Part.resetBlocks]
  board := rfl
  modes := rfl
  journal := rfl

/-- Clearing the blocks does not see run control, nor exhibit memory. -/
theorem Part.Cleared.setMem {p q : Part} (h : p.Cleared q) (m : Memory) : p.Cleared (q.setMem m) := { h with }

theorem Part.Cleared.of_setRun {p q : Part} {x : RunControl} (h : (p.setRun x).Cleared q) : p.Cleared q := { h with }

/-- Settles O4: both resets are `Part.resetBlocks`, and a POWER reset empties memory besides. -/
theorem powerAndPinResetColumns : Obligations.PowerAndPinResetColumns := by
  unfold Obligations.PowerAndPinResetColumns
  exact ⟨fun s => ⟨_, rfl, (cleared_resetBlocks s.part _ _).setMem [], rfl, fun _ => rfl, rfl⟩,
    fun s => ⟨_, rfl, cleared_resetBlocks s.part _ _, rfl, rfl, rfl⟩⟩

theorem getLsbD_or_two {v : Word} {i : Nat} (hi : i ≠ 1) : (v ||| 2).getLsbD i = v.getLsbD i := by
  have h2 : (2 : Word).getLsbD i = false := by
    rw [show (2 : Word) = BitVec.twoPow 16 1 by decide, BitVec.getLsbD_twoPow]
    simp [Ne.symm hi]
  rw [BitVec.getLsbD_or, h2, Bool.or_false]

/-- The causes or enables of two words that agree on their bits are the same. -/
theorem Causes.ofWord_of_bits {v w : Word} {lo : Nat} (h : ∀ i < 4, v.getLsbD (lo + i) = w.getLsbD (lo + i)) :
    Causes.ofWord v lo = Causes.ofWord w lo := by
  simp only [Causes.ofWord, bit, h 1 (by decide), h 2 (by decide), h 3 (by decide), show v.getLsbD lo = w.getLsbD lo from h 0 (by decide)]

/-- Settles O5: SOFT_RESET stores the enables and CAPTURE_LAST of its word, and then resets every block. -/
theorem softResetColumn : Obligations.SoftResetColumn := by
  unfold Obligations.SoftResetColumn
  intro v s hfree
  refine ⟨s.part.zctlWrite (v ||| 2), rfl, ?_⟩
  have henables : Causes.ofWord (v ||| 2) 4 = Causes.ofWord v 4 := Causes.ofWord_of_bits fun i _ => getLsbD_or_two (by omega)
  rw [Part.zctlWrite_softReset hfree (getLsbD_one_or_two v), henables, getLsbD_or_two (by decide : (8 : Nat) ≠ 1)]
  exact ⟨(cleared_resetBlocks _ _ _).of_setRun, rfl, rfl, rfl⟩

/-! ### Changes of run state (R178) -/

/-- HALTED, or CHECKING at once where RUN is set (R178). -/
theorem Part.enterHalted_eq (p : Part) :
    p.enterHalted = p.setRun (if p.run.run then
        { p.run with state := .checking, faultCode := .none, layout := none, attention := { p.run.attention with runstate := true } }
      else { p.run with state := .halted, attention := { p.run.attention with runstate := true } }) := by
  unfold Part.enterHalted
  split <;> simp_all [Part.enterRun, Part.beginChecking, Part.setRun]

/-- Settles O6: the clearing ends with memory empty, and HALTED is entered. -/
theorem holdEndAndClearingDone : Obligations.HoldEndAndClearingDone := by
  unfold Obligations.HoldEndAndClearingDone
  refine ⟨fun s => rfl, fun s hfree hclearing => ⟨(s.part.setMem []).enterHalted, ?_, ?_, ?_⟩⟩
  · show done s (if s.part.free = true ∧ s.part.run.state = .clearing then _ else _) = _
    rw [if_pos ⟨Part.free_of_hold hfree, hclearing⟩]
    rfl
  · simp only [Part.enterHalted_eq]
    exact fun _ => rfl
  · simp only [Part.enterHalted_eq]
    rfl

/-! ### ZCTL (R185) -/

/-- A ZCTL write with SOFT_RESET 0 stores its fields, and the run state follows the level of RUN (R178, R185). -/
theorem Part.zctlWrite_level {p : Part} {v : Word} (hfree : p.run.hold = none) (hv : v.getLsbD 1 = false) :
    p.zctlWrite v = (p.setRun { p.run with run := v.getLsbD 0, enables := .ofWord v 4, captureLast := v.getLsbD 8 }).runLevel := by
  simp only [Part.zctlWrite, Part.free_of_hold hfree, hv]
  rfl

/-- A run state that RUN's level does not move is left as it is (R178). -/
theorem Part.runLevel_of_moves {p : Part} (h : p.run.state.moves p.run.run = false) : p.runLevel = p := by
  unfold Part.runLevel
  split <;> simp_all [RunState.moves]

theorem getLsbD_and_mask {v m : Word} {i : Nat} (h : m.getLsbD i = true) : (v &&& m).getLsbD i = v.getLsbD i := by
  rw [BitVec.getLsbD_and, h, Bool.and_true]

theorem getLsbD_and_mask_false {v m : Word} {i : Nat} (h : m.getLsbD i = false) : (v &&& m).getLsbD i = false := by
  rw [BitVec.getLsbD_and, h, Bool.and_false]

/-- The word SET_RUN writes: RUN 1, SOFT_RESET 0, the other fields of the written word. -/
theorem setRun_word (v : Word) : ((v ||| 1) &&& 0xFFFD).getLsbD 0 = true ∧ ((v ||| 1) &&& 0xFFFD).getLsbD 1 = false
    ∧ Causes.ofWord ((v ||| 1) &&& 0xFFFD) 4 = .ofWord v 4 ∧ ((v ||| 1) &&& 0xFFFD).getLsbD 8 = v.getLsbD 8 := by
  have hkept : ∀ i, 2 ≤ i → i < 16 → ((v ||| 1) &&& 0xFFFD).getLsbD i = v.getLsbD i := by
    intro i h2 h16
    interval_cases i <;> simp
  refine ⟨?_, ?_, Causes.ofWord_of_bits fun i hi => hkept _ (by omega) (by omega), hkept 8 (by decide) (by decide)⟩
  · rw [getLsbD_and_mask (by decide), BitVec.getLsbD_or, show (1 : Word).getLsbD 0 = true by decide, Bool.or_true]
  · exact getLsbD_and_mask_false (by decide)

/-- The word CLEAR_RUN writes: RUN 0, SOFT_RESET 0, the other fields of the written word. -/
theorem clearRun_word (v : Word) : (v &&& 0xFFFC).getLsbD 0 = false ∧ (v &&& 0xFFFC).getLsbD 1 = false
    ∧ Causes.ofWord (v &&& 0xFFFC) 4 = .ofWord v 4 ∧ (v &&& 0xFFFC).getLsbD 8 = v.getLsbD 8 := by
  have hkept : ∀ i, 2 ≤ i → i < 16 → (v &&& 0xFFFC).getLsbD i = v.getLsbD i := by
    intro i h2 h16
    refine getLsbD_and_mask ?_
    interval_cases i <;> decide
  exact ⟨getLsbD_and_mask_false (by decide), getLsbD_and_mask_false (by decide),
    Causes.ofWord_of_bits fun i hi => hkept _ (by omega) (by omega), hkept 8 (by decide) (by decide)⟩

/-- SET_RUN stores RUN 1 with the enables and CAPTURE_LAST of its word. -/
theorem exec_setRun {v : Word} {s : State} (hfree : s.part.run.hold = none) :
    exec (.setRun v) s = .next (s.setPart
      (s.part.setRun { s.part.run with run := true, enables := .ofWord v 4, captureLast := v.getLsbD 8 }).runLevel) := by
  obtain ⟨h0, h1, h4, h8⟩ := setRun_word v
  refine congrArg (fun q => Host.Outcome.next (s.setPart q)) ?_
  rw [Part.zctlWrite_level hfree h1, h0, h4, h8]

/-- CLEAR_RUN stores RUN 0 with the enables and CAPTURE_LAST of its word. -/
theorem exec_clearRun {v : Word} {s : State} (hfree : s.part.run.hold = none) :
    exec (.clearRun v) s = .next (s.setPart
      (s.part.setRun { s.part.run with run := false, enables := .ofWord v 4, captureLast := v.getLsbD 8 }).runLevel) := by
  obtain ⟨h0, h1, h4, h8⟩ := clearRun_word v
  refine congrArg (fun q => Host.Outcome.next (s.setPart q)) ?_
  rw [Part.zctlWrite_level hfree h1, h0, h4, h8]

/-- Settles O7: the run state's column of R178 for the level that the row writes. -/
theorem runBitOutsideRunning : Obligations.RunBitOutsideRunning := by
  unfold Obligations.RunBitOutsideRunning
  refine ⟨fun v s hfree => ?_, fun v s hfree hrunning => ?_⟩
  · rw [exec_setRun hfree]
    refine congrArg (fun q => Host.Outcome.next (s.setPart q)) ?_
    cases hst : s.part.run.state <;>
      simp [Part.runLevel, hst, Part.setRun, Part.beginChecking, Part.enterRun]
  · rw [exec_clearRun hfree]
    refine congrArg (fun q => Host.Outcome.next (s.setPart q)) ?_
    cases hst : s.part.run.state <;>
      simp_all [Part.runLevel, Part.setRun, Part.enterHalted, Part.enterRun]

theorem exec_zctlWrite {c : Instr} {v : Word} (s : State) (h : c = .setAttentionEnables v ∨ c = .setCaptureLast v) :
    exec c s = .next (s.setPart (s.part.zctlWrite v)) := by
  rcases h with rfl | rfl <;> rfl

/-- The fields of ZCTL stand as they were written, whatever the level of RUN brings (R185). -/
theorem Part.runLevel_fields (p : Part) :
    p.runLevel.run.run = p.run.run ∧ p.runLevel.run.enables = p.run.enables ∧ p.runLevel.run.captureLast = p.run.captureLast := by
  unfold Part.runLevel
  split
  · exact ⟨rfl, rfl, rfl⟩
  · rw [Part.enterHalted_eq]
    split <;> exact ⟨rfl, rfl, rfl⟩
  · have h := (setup_enterStopping p).run
    rw [h]
    exact ⟨rfl, rfl, rfl⟩
  · rw [Part.enterHalted_eq]
    split <;> exact ⟨rfl, rfl, rfl⟩
  · exact ⟨rfl, rfl, rfl⟩

/-- Settles O9: the fields stand as written, and ATTN_N is a function of the enables and the causes. -/
theorem zctlWriteReplacesFields : Obligations.ZctlWriteReplacesFields := by
  unfold Obligations.ZctlWriteReplacesFields
  intro c v s hc hfree hv
  refine ⟨s.part.zctlWrite v, exec_zctlWrite s hc, ?_⟩
  rw [Part.zctlWrite_level hfree hv]
  obtain ⟨hrun, henables, hlast⟩ := Part.runLevel_fields
    (s.part.setRun { s.part.run with run := v.getLsbD 0, enables := .ofWord v 4, captureLast := v.getLsbD 8 })
  refine ⟨hrun, henables, hlast, ?_, fun hmoves => Part.runLevel_of_moves hmoves⟩
  rw [Part.attnAsserted, henables]
  simp only [Part.setRun_run, Causes.ofWord, bit, Bool.and_comm]

/-! ### The register rows while a reset holds the part, and ZATN and ZECNT -/

theorem Part.free_of_held {p : Part} (h : p.run.hold ≠ none) : p.free = false := by
  simpa only [Part.free, ← Bool.not_eq_true, Option.isNone_iff_eq_none] using h

theorem Part.memWrite_held {p : Part} (h : p.run.hold ≠ none) (a : Nat) (v : Word) : p.memWrite a v = p := by
  rw [Part.memWrite, if_pos (.inl (Part.free_of_held h))]

/-- Settles O10: each row tests first whether the part is free. -/
theorem heldPartServesNothing : Obligations.HeldPartServesNothing := by
  unfold Obligations.HeldPartServesNothing
  intro s h
  have hfree := Part.free_of_held h
  have hzctl (v : Word) : s.part.zctlWrite v = s.part := by simp [Part.zctlWrite, hfree]
  have hwindow (a v : Word) : s.part.windowWrite a v = s.part := by simp [Part.windowWrite, hfree, Part.memWrite_held h]
  have hregion (base : Layout → Nat) (v : Word) : s.part.regionWrite base v = s.part := by
    simp only [Part.regionWrite, Part.memWrite_held h]
    split <;> rfl
  have hslot (i : Nat) (st : SlotState) (b : Byte) : s.part.slotWrite i st b = s.part := by
    simp only [Part.slotWrite, Part.memWrite_held h]
    split <;> simp
  have hnext {q : Part} (hq : q = s.part) : done s q = .next s := by rw [hq]; rfl
  have hskip (q : Part) : done s (if s.part.free then q else s.part) = .next s := hnext (by rw [hfree]; rfl)
  refine ⟨fun a => ?_, ?_⟩
  · show done s (s.part.windowRead a) = _
    rw [Part.windowRead, if_pos hfree]
    rfl
  · rintro c ⟨v, rfl | rfl | rfl | rfl | rfl | rfl | rfl | rfl | rfl | rfl | rfl | ⟨a, rfl | rfl⟩ | ⟨i, b, rfl | rfl⟩⟩
    · exact hnext (hzctl _)
    · exact hnext (hzctl _)
    · exact hnext (hzctl _)
    · exact hnext (hzctl _)
    · exact hnext (hzctl _)
    · exact hskip _
    · exact hskip _
    · exact hskip _
    · exact hskip _
    · exact hnext (hregion _ _)
    · exact hnext (hregion _ _)
    · exact hnext (hwindow _ _)
    · exact hnext (hwindow _ _)
    · exact hnext (hslot _ _ _)
    · exact hnext (hslot _ _ _)

/-- Settles O11: both rows store the fields that `Part.clearAttention` and `Part.clearCounts` name. -/
theorem attentionAndCountsCleared : Obligations.AttentionAndCountsCleared := by
  unfold Obligations.AttentionAndCountsCleared
  refine ⟨fun v s hfree => ?_, fun v s hfree => ?_⟩
  · show done s (if s.part.free then s.part.clearAttention v else s.part) = _
    rw [if_pos (Part.free_of_hold hfree)]
    rfl
  · show done s (if s.part.free then s.part.clearCounts else s.part) = _
    rw [if_pos (Part.free_of_hold hfree)]
    rfl

end Sys2Proof.Machine
end

