-- ==== Sys2Proof/Proofs/Frames.lean ====
section
/-! What reports and operations on the channels leave, said so that later proofs can rewrite with it: a channel but for the time of its
last status write, the order taker after a report, and an operation run for each channel. -/

namespace Sys2Proof.Machine

/-! ### A channel but for the time of its last status write -/

/-- A channel with the time of its last status write left out (R80): what reports do not change. -/
def Channel.view (x : Channel) : Channel := { x with lastWrite := 0 }

theorem Channel.view_eq_iff {x y : Channel} : y.view = x.view ↔ y = { x with lastWrite := y.lastWrite } := by
  cases x; cases y
  simp [Channel.view]

theorem view_told {p q : Part} (h : p.Told q) (c : Fin 8) : (q.chan c).view = (p.chan c).view :=
  Channel.view_eq_iff.mpr (h.channels c)

theorem view_near {c d : Fin 8} {p q : Part} (h : p.Near c q) (hd : d ≠ c) : (q.chan d).view = (p.chan d).view :=
  Channel.view_eq_iff.mpr (h.others d hd)

/-- Two channels of the part that are not the same. -/
theorem exists_other (d : Fin 8) : ∃ c : Fin 8, d ≠ c := by
  by_cases h : d = 0
  · exact ⟨1, by rw [h]; decide⟩
  · exact ⟨0, h⟩

/-- What is near whatever the channel has changed no channel. -/
theorem view_nearAll {p q : Part} (h : ∀ c, p.Near c q) (d : Fin 8) : (q.chan d).view = (p.chan d).view := by
  obtain ⟨c, hc⟩ := exists_other d
  exact view_near (h c) hc

theorem view_report (p : Part) (i : Nat) (st : SlotState) (code : Nat) (r : Int) (d : Fin 8) :
    ((p.report i st code r).chan d).view = (p.chan d).view :=
  view_nearAll (fun _ => near_report p i st code r) d

/-- A channel with the view of another is that channel, at some time of its last status write. -/
theorem exists_of_view {x y : Channel} (h : y.view = x.view) : ∃ t, y = { x with lastWrite := t } := ⟨_, Channel.view_eq_iff.mp h⟩

@[simp] theorem Channel.view_lastWrite (x : Channel) (t : Time) : Channel.view { x with lastWrite := t } = x.view := rfl

theorem state_of_view {x y : Channel} (h : y.view = x.view) : y.state = x.state := (congrArg Channel.state h :)
theorem pins_of_view {x y : Channel} (h : y.view = x.view) : y.pins = x.pins := (congrArg Channel.pins h :)

/-! ### A line changed twice, and the start of a polling cycle -/

@[simp] theorem Part.setLine_setLine (p : Part) (l : Fin 4) (x y : Line) : (p.setLine l x).setLine l y = p.setLine l y := by
  simp [Part.setLine, Part.setLines]

/-- A polled line begins its cycle with the poll of address 1, formed at that moment (R3, R13); another has no exchange. -/
theorem beginCycle_eq (p : Part) (l : Fin 4) : p.beginCycle l = if p.polls l then
    p.setLine l { p.line l with cycleStart := p.time, fifo := [], overrun := false, exchange := .sending 1 (p.frame l 1) }
    else p.setLine l { p.line l with exchange := .idle } := by
  unfold Part.beginCycle
  split
  · simp only [Part.pollStart, Part.modLine, Part.setLine_setLine, Part.setLine_line_self]
    rfl
  · rfl

/-! ### The order taker after a report -/

theorem orders_writeSlot (p : Part) (i k : Nat) (ws : List Word) : (p.writeSlot i k ws).orders = p.orders := by
  obtain ⟨m, arm, he⟩ := writeSlot_eq p i k ws
  rw [he]
  rfl

/-- A report moves its slot's shadow to REPORTED, and nothing else of the order taker (R148). -/
theorem orders_report (p : Part) (i : Nat) (st : SlotState) (code : Nat) (r : Int) :
    (p.report i st code r).orders = { p.orders with slots := p.orders.slots.modify i (fun s => { s with shadow := .reported }) } := by
  rw [Part.report, (told_hand _ _).orders, Part.modSlot, Part.setOrders_orders, Part.writeSlotState, orders_writeSlot,
    Part.writeSlotResult, orders_writeSlot]

/-! ### The work of the blocks on the channels -/

/-- Nothing but reports, slots and the channels' ordinary state stands between `p` and `q`: what `Part.Near` names, for every channel. -/
structure Part.Working (p q : Part) : Prop where
  run : q.run = { p.run with attention := q.run.attention }
  runstate : q.run.attention.runstate = p.run.attention.runstate
  memerr : q.run.attention.memerr = p.run.attention.memerr
  time : q.time = p.time
  clock : q.clock = p.clock
  hostData : q.hostData = p.hostData
  prot : q.prot = { p.prot with injection := { p.prot.injection with armed := q.prot.injection.armed } }
  taking : q.orders.taking = p.orders.taking
  takeQueue : q.orders.takeQueue = p.orders.takeQueue
  lines : q.lines = p.lines
  inputs : q.inputs = p.inputs
  bindings : q.bindings = p.bindings
  params : ∀ c, (q.chan c).params = (p.chan c).params
  pins : ∀ c, (q.chan c).pins = (p.chan c).pins
  guards : q.guards = p.guards
  modes : q.modes = { p.modes with settling := q.modes.settling, restDue := q.modes.restDue }
  empty : q.journal.empty = p.journal.empty
  mem : Memory.wf p.mem → Memory.wf q.mem
  words : ∀ a, p.reportWord a = false → p.orderWord a = false → q.mem.cell a = p.mem.cell a

section
variable {p q r : Part} {c : Fin 8}

theorem Part.Near.working (h : p.Near c q) : p.Working q :=
  { h with
    params := fun d => by
      by_cases hd : d = c
      · rw [hd]; exact h.params
      · rw [h.others d hd]
    pins := fun d => by
      by_cases hd : d = c
      · rw [hd]; exact h.pins
      · rw [h.others d hd] }

theorem Part.Working.refl (p : Part) : p.Working p := (Part.Near.refl (c := 0) p).working

theorem Part.Working.trans (a : p.Working q) (b : q.Working r) : p.Working r where
  run := by rw [b.run, a.run]
  runstate := b.runstate.trans a.runstate
  memerr := b.memerr.trans a.memerr
  time := b.time.trans a.time
  clock := b.clock.trans a.clock
  hostData := b.hostData.trans a.hostData
  prot := by rw [b.prot, a.prot]
  taking := b.taking.trans a.taking
  takeQueue := b.takeQueue.trans a.takeQueue
  lines := b.lines.trans a.lines
  inputs := b.inputs.trans a.inputs
  bindings := b.bindings.trans a.bindings
  params d := (b.params d).trans (a.params d)
  pins d := (b.pins d).trans (a.pins d)
  guards := b.guards.trans a.guards
  modes := by rw [b.modes, a.modes]
  empty := b.empty.trans a.empty
  mem := fun h => b.mem (a.mem h)
  words := fun x h1 h2 =>
    (b.words x (by rw [Part.reportWord_run a.run]; exact h1) (by rw [Part.orderWord_run a.run]; exact h2)).trans (a.words x h1 h2)

theorem Part.Working.isRunning (h : p.Working q) : q.isRunning = p.isRunning := by rw [Part.isRunning, h.run]; rfl
theorem Part.Working.active (h : p.Working q) : q.active = p.active := by rw [Part.active, h.run]; rfl
theorem Part.Working.layout (h : p.Working q) : q.run.layout = p.run.layout := by rw [h.run]
theorem Part.Working.mode (h : p.Working q) : q.modes.mode = p.modes.mode := by rw [h.modes]
theorem Part.Working.wantsPark (h : p.Working q) : q.wantsPark = p.wantsPark := by rw [Part.wantsPark, h.mode]; rfl
theorem Part.Working.guarded (h : p.Working q) (c : Fin 8) : q.guarded c = p.guarded c := by rw [Part.guarded, h.guards]; rfl

theorem working_setChan (p : Part) (c : Fin 8) {x : Channel} (h1 : x.params = (p.chan c).params) (h2 : x.pins = (p.chan c).pins) :
    p.Working (p.setChan c x) :=
  { Part.Working.refl p with
    params := fun d => by
      rw [Part.setChan_chan]
      split
      · next h => rw [h]; exact h1
      · rfl
    pins := fun d => by
      rw [Part.setChan_chan]
      split
      · next h => rw [h]; exact h2
      · rfl }

theorem Part.Told.working (h : p.Told q) : p.Working q := (h.near (c := 0)).working

/-- Operations that each touch one channel, run for several channels, none twice: channel `c` is changed in its own turn only. -/
theorem fold_visits (f : Fin 8 → Part → Part) (hf : ∀ d (p : Part), p.Near d (f d p)) {l : List (Fin 8)} (hl : l.Nodup) (p : Part) :
    p.Working (l.foldl (fun q d => f d q) p)
    ∧ (∀ c, c ∉ l → ((l.foldl (fun q d => f d q) p).chan c).view = (p.chan c).view)
    ∧ ∀ c ∈ l, ∃ q, p.Working q ∧ (q.chan c).view = (p.chan c).view
        ∧ ((l.foldl (fun q d => f d q) p).chan c).view = ((f c q).chan c).view := by
  induction l generalizing p with
  | nil => exact ⟨.refl p, fun _ _ => rfl, nofun⟩
  | cons d l ih =>
    obtain ⟨hd, hl⟩ := List.nodup_cons.mp hl
    obtain ⟨hwork, hout, hin⟩ := ih hl (f d p)
    have hnear := hf d p
    refine ⟨hnear.working.trans hwork, fun c hc => ?_, fun c hc => ?_⟩
    · obtain ⟨hcd, hcl⟩ : c ≠ d ∧ c ∉ l := by simpa using hc
      exact (hout c hcl).trans (view_near hnear hcd)
    · rcases List.mem_cons.mp hc with rfl | hcl
      · exact ⟨p, .refl p, rfl, hout c hd⟩
      · have hcd : c ≠ d := fun h => hd (h ▸ hcl)
        obtain ⟨q, hq, hview, hend⟩ := hin c hcl
        exact ⟨q, hnear.working.trans hq, hview.trans (view_near hnear hcd), hend⟩

/-- The same for an operation that runs for each channel. -/
theorem eachChannel_visits (f : Fin 8 → Part → Part) (hf : ∀ d (p : Part), p.Near d (f d p)) (p : Part) :
    p.Working (p.eachChannel f)
    ∧ ∀ c, ∃ q, p.Working q ∧ (q.chan c).view = (p.chan c).view ∧ ((p.eachChannel f).chan c).view = ((f c q).chan c).view := by
  obtain ⟨hwork, -, hin⟩ := fold_visits f hf (List.nodup_finRange 8) p
  exact ⟨hwork, fun c => hin c (List.mem_finRange c)⟩

end

end Sys2Proof.Machine
end

