-- ==== Sys2Proof/Proofs/ChannelRules.lean ====
section
/-! What the operations on a channel make of it (Chapter 4), as functions of the channel: the end of a move, a queue superseded, a fault,
a stop, a cut. Reports go on beside it, so each rule speaks of the channel's view. -/

namespace Sys2Proof.Machine

section
variable {p : Part} {c : Fin 8}

/-! ### Reports leave the channels -/

theorem view_commit (p : Part) (d : Fin 8) (before : Channel) (cause : Nat) (always : Bool) (c : Fin 8) :
    ((p.commit d before cause always).chan c).view = (p.chan c).view :=
  view_told (told_commit p d before cause always) c

theorem view_reportEnd (p : Part) (d : Fin 8) (m : Move) (t : Termination) (c : Fin 8) :
    ((p.reportEnd d m t).chan c).view = (p.chan c).view :=
  view_nearAll (fun _ => near_reportEnd p d m t) c

theorem view_reports (l : List Move) (p : Part) (d : Fin 8) (t : Termination) (c : Fin 8) :
    ((l.foldl (fun q m => q.reportEnd d m t) p).chan c).view = (p.chan c).view :=
  view_nearAll (fun _ => near_fold _ (fun q m => near_reportEnd q d m t) l p) c

/-! ### A queue superseded, a move ended (R63, R65) -/

/-- A channel whose queue is superseded (R63): the moves in it count as ended. -/
def Channel.superseded (x : Channel) : Channel :=
  { x with queue := [], moveCount := x.moveCount + BitVec.ofNat 16 x.queue.length }

theorem view_supersedeQueue (p : Part) (c : Fin 8) : ((p.supersedeQueue c).chan c).view = (p.chan c).superseded.view := by
  rw [Part.supersedeQueue, view_reports, Part.setChan_chan_self]
  rfl

/-- A channel whose current move has ended (R65 steps 1 and 2). -/
def Channel.finished (x : Channel) : Channel :=
  match x.current with
  | none => x
  | some m => { x with current := none, moveCount := x.moveCount + 1, prof := x.prof.atRest, pendingTerm := none,
                       heldMove := m.source.heldAfter x.heldMove }

theorem view_finishMove (p : Part) (c : Fin 8) (t : Termination) : ((p.finishMove c t).chan c).view = (p.chan c).finished.view := by
  unfold Part.finishMove Channel.finished
  cases hm : (p.chan c).current with
  | none => rfl
  | some m =>
    obtain ⟨w, hw⟩ := exists_of_view (view_reportEnd p c m t c)
    simp only [Part.setChan_chan_self, Part.countStopped, Part.setOrders_chan, hw]
    rfl

@[simp] theorem Channel.finished_params (x : Channel) : x.finished.params = x.params := by unfold Channel.finished; split <;> rfl
@[simp] theorem Channel.finished_lost (x : Channel) : x.finished.lost = x.lost := by unfold Channel.finished; split <;> rfl
@[simp] theorem Channel.finished_queue (x : Channel) : x.finished.queue = x.queue := by unfold Channel.finished; split <;> rfl

/-! ### Faults (R77) -/

/-- A channel that has entered FAULT (R77). -/
def Channel.faulted (x : Channel) (cause : ChanFault) : Channel := ((x.losePosition cause).finished.superseded).inFault cause

theorem Channel.superseded_view {x y : Channel} (h : y.view = x.view) : y.superseded.view = x.superseded.view := by
  obtain ⟨w, rfl⟩ := exists_of_view h
  rfl

theorem Channel.inFault_view {x y : Channel} (h : y.view = x.view) (cause : ChanFault) :
    (y.inFault cause).view = (x.inFault cause).view := by
  obtain ⟨w, rfl⟩ := exists_of_view h
  rfl

theorem view_faultEntry (p : Part) (c : Fin 8) (cause : ChanFault) :
    ((p.faultEntry c cause).chan c).view = ((p.chan c).faulted cause).view := by
  unfold Part.faultEntry
  dsimp only
  rw [view_commit, view_told (told_raiseAlert _ _ _ _ _), Part.setChan_chan_self]
  refine Channel.inFault_view ((view_supersedeQueue _ c).trans (Channel.superseded_view ?_)) cause
  rw [view_finishMove, Part.setChan_chan_self]

/-! ### The end of a move, where none follows it (R65) -/

/-- A channel that comes to rest as its move ends, no move following (R65 step 3): `guarded` where a guard holds it. -/
def Channel.rested (x : Channel) (guarded : Bool) (t : Termination) : Channel :=
  if guarded then { x.finished with state := .held, heldPark := none, parkCause := none }.superseded
  else if x.lost then { x.finished with state := .unhomed, parkCause := none }
  else { x.finished with state := (restChoice x.current t).1, parkCause := (restChoice x.current t).2 }

/-- The current move is a PARK that ends COMPLETE: it leaves the channel PARKED (R65 step 3). -/
def Channel.parks (x : Channel) (t : Termination) : Prop := t = .complete ∧ ∃ m, x.current = some m ∧ m.kind = .park

theorem Channel.restChoice_of_parks {x : Channel} {t : Termination} (h : x.parks t) :
    (restChoice x.current t).1 = .parked ∧ homeCompleted x.current t = false := by
  obtain ⟨rfl, m, hm, hk⟩ := h
  simp [restChoice, homeCompleted, hm, hk]

/-- No move follows the end of the channel's current one: not RUNNING, or its queue is empty, and the mode wants no park or has one
(R64, R65, R141). -/
def Part.noneFollows (p : Part) (c : Fin 8) (t : Termination) : Prop :=
  p.isRunning = false ∨ (p.chan c).queue = [] ∧ (p.wantsPark = false ∨ (p.chan c).parks t)

/-- The part as a move ends, before the channel's state of rest is chosen: what its end reads of the channel (R65 steps 1 and 2). -/
theorem finishMove_chan (p : Part) (c : Fin 8) (t : Termination) :
    ((p.finishMove c t).chan c).params = (p.chan c).params ∧ ((p.finishMove c t).chan c).lost = (p.chan c).lost
      ∧ ((p.finishMove c t).chan c).queue = (p.chan c).queue := by
  obtain ⟨w, hw⟩ := exists_of_view (view_finishMove p c t)
  rw [hw]
  exact ⟨(p.chan c).finished_params, (p.chan c).finished_lost, (p.chan c).finished_queue⟩

/-- Under a guard the channel is HELD (R65 step 3). -/
theorem ends_held (hg : p.guarded c = true) (n : Nat) (before : Channel) (t : Termination) :
    p.moveEvent (n + 1) c before (.ends t) = (((p.finishMove c t).setChan c
      { (p.finishMove c t).chan c with state := .held, heldPark := none, parkCause := none }).supersedeQueue c).commit c before t.code true := by
  rw [Part.moveEvent]
  dsimp only
  rw [if_pos ((near_finishMove (c := c) p t).working.guarded c ▸ hg)]

/-- With the position lost it is UNHOMED (R65 step 3). -/
theorem ends_lost (hg : p.guarded c = false) (hl : (p.chan c).lost = true) (n : Nat) (before : Channel) (t : Termination) :
    p.moveEvent (n + 1) c before (.ends t) = ((p.finishMove c t).setChan c
      { (p.finishMove c t).chan c with state := .unhomed, parkCause := none }).commit c before t.code true := by
  obtain ⟨-, hlost, -⟩ := finishMove_chan p c t
  rw [Part.moveEvent]
  dsimp only
  rw [if_neg (by rw [(near_finishMove (c := c) p t).working.guarded c, hg]; decide), if_pos (hlost.trans hl)]

/-- Else, where no move follows, it is IDLE, or PARKED after a PARK that ended COMPLETE (R65 steps 3 and 4). -/
theorem ends_rest (hg : p.guarded c = false) (hl : (p.chan c).lost = false) (hp : (p.chan c).params.isSome = true) {t : Termination}
    (hn : p.noneFollows c t) (n : Nat) (before : Channel) :
    p.moveEvent (n + 1) c before (.ends t) = ((p.finishMove c t).setChan c
      { (p.finishMove c t).chan c with state := (restChoice (p.chan c).current t).1,
                                       parkCause := (restChoice (p.chan c).current t).2 }).commit c before t.code true := by
  have hfin := (near_finishMove (c := c) p t).working
  obtain ⟨hparams, hlost, hqueue⟩ := finishMove_chan p c t
  obtain ⟨pr, hpr⟩ := Option.isSome_iff_exists.mp hp
  have hpark {q : Part} (h : p.Working q) (hr : q.isRunning = true) (hw : q.wantsPark = true) : (p.chan c).parks t := by
    rw [h.isRunning] at hr
    rw [h.wantsPark] at hw
    rcases hn with hn | ⟨-, hn | hn⟩
    · rw [hn] at hr; cases hr
    · rw [hn] at hw; cases hw
    · exact hn
  rw [Part.moveEvent]
  dsimp only
  rw [if_neg (by rw [hfin.guarded, hg]; decide), if_neg (by rw [hlost, hl]; decide)]
  split
  · next hnone => rw [hparams, hpr] at hnone; cases hnone
  rw [if_neg (by
      simp only [Bool.and_eq_true]
      rintro ⟨⟨hhome, hw⟩, hr⟩
      rw [(Channel.restChoice_of_parks (hpark hfin hr hw)).2] at hhome
      cases hhome)]
  split
  · next next rest hq hr =>
    rcases hn with hn | ⟨hn, -⟩
    · rw [hfin.isRunning, hn] at hr; cases hr
    · rw [hqueue, hn] at hq; cases hq
  · have hset : p.Working ((p.finishMove c t).setChan c
        { (p.finishMove c t).chan c with state := (restChoice (p.chan c).current t).1,
                                         parkCause := (restChoice (p.chan c).current t).2 }) := by
      refine hfin.trans ?_
      exact working_setChan _ c rfl rfl
    have hwork := hset.trans (told_commit _ c before t.code true).working
    rw [if_neg (by
      rintro ⟨hidle, hr, hw⟩
      rw [(Channel.restChoice_of_parks (hpark hwork hr hw)).1] at hidle
      cases hidle)]

/-- The channel comes to rest as its move ends: a guard holds it, its position is lost, or no move follows. -/
def Part.rests (p : Part) (c : Fin 8) (t : Termination) : Prop :=
  p.guarded c = true ∨ (p.chan c).lost = true ∨ (p.chan c).params.isSome = true ∧ p.noneFollows c t

theorem view_ends {t : Termination} (hr : p.rests c t) (n : Nat) (before : Channel) :
    ((p.moveEvent (n + 1) c before (.ends t)).chan c).view = ((p.chan c).rested (p.guarded c) t).view := by
  obtain ⟨w, hw⟩ := exists_of_view (view_finishMove p c t)
  unfold Channel.rested
  cases hg : p.guarded c with
  | true =>
    rw [ends_held hg, view_commit, view_supersedeQueue, Part.setChan_chan_self, hw]
    rfl
  | false =>
    cases hl : (p.chan c).lost with
    | true =>
      rw [ends_lost hg hl, view_commit, Part.setChan_chan_self, hw]
      rfl
    | false =>
      obtain ⟨hp, hn⟩ : _ ∧ _ := by simpa [Part.rests, hg, hl] using hr
      rw [ends_rest hg hl hp hn, view_commit, Part.setChan_chan_self, hw]
      rfl

theorem view_endMove {t : Termination} (hr : p.rests c t) (before : Channel) :
    ((p.endMove c before t).chan c).view = ((p.chan c).rested (p.guarded c) t).view := view_ends hr _ before

theorem Channel.rested_view {x y : Channel} (h : y.view = x.view) (guarded : Bool) (t : Termination) :
    (y.rested guarded t).view = (x.rested guarded t).view := by
  obtain ⟨w, rfl⟩ := exists_of_view h
  cases hm : x.current <;> simp only [Channel.rested, Channel.finished, hm] <;> split <;> try split
  all_goals rfl

/-- A channel that came to rest is in a state of rest (R65). -/
theorem Channel.rested_inMotion (x : Channel) (guarded : Bool) (t : Termination) : (x.rested guarded t).state.inMotion = false := by
  have hchoice : (restChoice x.current t).1.inMotion = false := by
    unfold restChoice
    split
    · split <;> rfl
    · rfl
  unfold Channel.rested
  split
  · rfl
  · split
    · rfl
    · exact hchoice

/-! ### Stops and cuts (R71, R72, R74) -/

theorem view_controlledStop_moving (h : (p.chan c).state = .moving) (t : Termination) :
    ((p.controlledStop c t).chan c).view = ((p.chan c).superseded.stopBegun t).view := by
  obtain ⟨w, hw⟩ := exists_of_view (view_supersedeQueue p c)
  simp only [Part.controlledStop, h, view_commit, Part.setChan_chan_self, hw]
  rfl

theorem view_controlledStop_stopping (h : (p.chan c).state = .stopping) (t : Termination) :
    ((p.controlledStop c t).chan c).view = ((p.chan c).superseded.stopAgain t).view := by
  obtain ⟨w, hw⟩ := exists_of_view (view_supersedeQueue p c)
  simp only [Part.controlledStop, h, view_commit, Part.setChan_chan_self, hw, Channel.stopAgain]
  split <;> rfl

/-- A channel that is not in motion has its queue superseded, and no more (R71). -/
theorem view_controlledStop_still (h : (p.chan c).state.inMotion = false) (t : Termination) :
    ((p.controlledStop c t).chan c).view = (p.chan c).superseded.view := by
  unfold Part.controlledStop
  dsimp only
  split
  · next hs => rw [hs] at h; cases h
  · next hs => rw [hs] at h; cases h
  · next hs => rw [hs] at h; cases h
  · rw [view_commit, view_supersedeQueue]

/-- A HOMING channel halts at once, and its home ends (R71). -/
theorem view_controlledStop_homing (h : (p.chan c).state = .homing)
    (hr : p.guarded c = true ∨ (p.chan c).lost = true ∨ (p.chan c).params.isSome = true ∧ (p.isRunning = true → p.wantsPark = false))
    (t : Termination) :
    ((p.controlledStop c t).chan c).view = ((p.chan c).superseded.halt.rested (p.guarded c) t).view := by
  obtain ⟨w, hw⟩ := exists_of_view (view_supersedeQueue p c)
  have hwork := (near_supersedeQueue (c := c) p).working
  have hrests : ((p.supersedeQueue c).setChan c ((p.supersedeQueue c).chan c).halt).rests c t := by
    refine hr.imp (fun hg => ?_) (.imp (fun hl => ?_) (fun ⟨hp, hn⟩ => ⟨?_, ?_⟩))
    · exact (hwork.guarded c).trans hg
    · rw [Part.setChan_chan_self, hw]; exact hl
    · rw [Part.setChan_chan_self, hw]; exact hp
    · cases hrun : p.isRunning with
      | false => exact .inl (hwork.isRunning.trans hrun)
      | true => exact .inr ⟨by rw [Part.setChan_chan_self, hw]; rfl, .inl (hwork.wantsPark.trans (hn hrun))⟩
  have hguarded : ((p.supersedeQueue c).setChan c ((p.supersedeQueue c).chan c).halt).guarded c = p.guarded c := hwork.guarded c
  simp only [Part.controlledStop, h]
  rw [view_endMove hrests, hguarded, Part.setChan_chan_self]
  exact Channel.rested_view (by rw [hw]; rfl) _ _

/-- The channel's power is off and its queue superseded, whatever its state (R74). -/
theorem view_cutOff (p : Part) (c : Fin 8) :
    ((((p.setChan c { p.chan c with en := false }).supersedeQueue c).chan c).view
      = { (p.chan c).superseded with en := false }.view) := by
  rw [view_supersedeQueue, Part.setChan_chan_self]
  rfl

/-- A cut in motion: the channel stands where it is, its position lost, and its move ends (R74). -/
theorem view_cut_motion (h : (p.chan c).state.inMotion = true) (t : Termination) :
    ((p.cut c t).chan c).view
      = ({ { (p.chan c).superseded with en := false }.halt with lost := true }.rested (p.guarded c) t).view := by
  obtain ⟨w, hw⟩ := exists_of_view (view_cutOff p c)
  have hwork := (near_supersedeQueue (c := c) (p.setChan c { p.chan c with en := false })).working
  unfold Part.cut
  dsimp only
  split
  case h_1 | h_2 | h_3 =>
    rw [view_endMove (.inr (.inl (by rw [Part.setChan_chan_self]))), Part.setChan_chan_self]
    refine (Channel.rested_view ?_ _ _).trans (congrArg (fun g => (Channel.rested _ g t).view) (hwork.guarded c))
    rw [hw]
    rfl
  all_goals
    next hs => rw [hs] at h; cases h

/-- A cut of an IDLE or PARKED channel: UNHOMED (R74). -/
theorem view_cut_idle (h : (p.chan c).state = .idle ∨ (p.chan c).state = .parked) (t : Termination) :
    ((p.cut c t).chan c).view
      = { (p.chan c).superseded with en := false, lost := true, parkCause := none, state := .unhomed }.view := by
  obtain ⟨w, hw⟩ := exists_of_view (view_cutOff p c)
  unfold Part.cut
  dsimp only
  split
  case h_4 | h_5 =>
    rw [view_commit, Part.setChan_chan_self, hw]
    rfl
  all_goals
    next hs => rw [hs] at h; rcases h with h | h <;> cases h

/-- A cut of a HELD channel: its position is lost (R74). -/
theorem view_cut_held (h : (p.chan c).state = .held) (t : Termination) :
    ((p.cut c t).chan c).view = { (p.chan c).superseded with en := false, lost := true }.view := by
  obtain ⟨w, hw⟩ := exists_of_view (view_cutOff p c)
  unfold Part.cut
  dsimp only
  split
  case h_6 =>
    rw [view_commit, Part.setChan_chan_self, hw]
    rfl
  all_goals
    next hs => rw [hs] at h; cases h

/-- A cut of an UNHOMED channel or of one in FAULT takes its power (R74). -/
theorem view_cut_off (h : (p.chan c).state = .unhomed ∨ (p.chan c).state = .fault) (t : Termination) :
    ((p.cut c t).chan c).view = { (p.chan c).superseded with en := false }.view := by
  unfold Part.cut
  dsimp only
  split
  case h_7 | h_8 => rw [view_commit, view_cutOff]
  all_goals
    next hs => rw [hs] at h; rcases h with h | h <;> cases h

end

end Sys2Proof.Machine
end

