-- ==== Sys2Proof/Proofs/Stopping.lean ====
section
/-! STOPPING (R181, R182): its entry by CLEAR_RUN, and its end. -/

namespace Sys2Proof.Machine

/-! ### Entry to STOPPING -/

/-- A channel with parameters that is asked for a controlled stop outside RUNNING neither moves nor homes any more. -/
theorem controlledStop_stops {p : Part} {c : Fin 8} (hp : (p.chan c).params.isSome = true) (hr : p.isRunning = false) (t : Termination) :
    ((p.controlledStop c t).chan c).state ≠ .moving ∧ ((p.controlledStop c t).chan c).state ≠ .homing := by
  cases hs : (p.chan c).state with
  | moving =>
    rw [state_of_view (view_controlledStop_moving hs t)]
    exact ⟨nofun, nofun⟩
  | homing =>
    have hrests := view_controlledStop_homing hs (.inr (.inr ⟨hp, by rw [hr]; nofun⟩)) t
    have hstill := (p.chan c).superseded.halt.rested_inMotion (p.guarded c) t
    rw [state_of_view hrests]
    constructor <;> intro h <;> rw [h] at hstill <;> cases hstill
  | stopping =>
    have hkept : ((p.chan c).superseded.stopAgain t).state = .stopping := by
      unfold Channel.stopAgain
      split <;> exact hs
    rw [state_of_view (view_controlledStop_stopping hs t), hkept]
    exact ⟨nofun, nofun⟩
  | unhomed | idle | held | fault | parked =>
    rw [state_of_view (view_controlledStop_still (by rw [hs]; rfl) t)]
    exact ⟨by rw [Channel.superseded, hs]; nofun, by rw [Channel.superseded, hs]; nofun⟩

/-- What the end of a waiting order leaves: the channels, the take queue, the applied sets, the mode and the time. -/
structure Part.Waited (p q : Part) : Prop where
  chans : ∀ c, (q.chan c).view = (p.chan c).view
  takeQueue : q.orders.takeQueue = p.orders.takeQueue
  bindings : q.bindings = p.bindings
  guards : q.guards = p.guards
  mode : q.modes.mode = p.modes.mode
  time : q.time = p.time

section
variable {p q r : Part}

theorem Part.Waited.refl (p : Part) : p.Waited p := ⟨fun _ => rfl, rfl, rfl, rfl, rfl, rfl⟩

theorem Part.Waited.trans (a : p.Waited q) (b : q.Waited r) : p.Waited r :=
  ⟨fun c => (b.chans c).trans (a.chans c), b.takeQueue.trans a.takeQueue, b.bindings.trans a.bindings, b.guards.trans a.guards,
    b.mode.trans a.mode, b.time.trans a.time⟩

theorem waited_near (h : ∀ c, p.Near c q) : p.Waited q :=
  ⟨view_nearAll h, (h 0).takeQueue, (h 0).bindings, (h 0).guards, by rw [(h 0).modes], (h 0).time⟩

theorem waited_told (h : p.Told q) : p.Waited q := waited_near fun _ => h.near

theorem waited_report (p : Part) (i : Nat) (t : Termination) (r : Int) : p.Waited (p.reportDone i t r) :=
  waited_near fun _ => near_reportDone p i t r

theorem waited_setOrders (p : Part) (o : Orders) (h : o.takeQueue = p.orders.takeQueue) : p.Waited (p.setOrders o) :=
  ⟨fun _ => rfl, h, rfl, rfl, rfl, rfl⟩

theorem waited_setLine (p : Part) (l : Fin 4) (x : Line) : p.Waited (p.setLine l x) :=
  ⟨fun _ => rfl, rfl, rfl, rfl, rfl, rfl⟩

theorem waited_setModes (p : Part) (m : Modes) (h : m.mode = p.modes.mode) : p.Waited (p.setModes m) :=
  ⟨fun _ => rfl, rfl, rfl, rfl, h, rfl⟩

theorem beginCycle_setLine (p : Part) (l : Fin 4) : ∃ x, p.beginCycle l = p.setLine l x := by
  rw [beginCycle_eq]
  split <;> exact ⟨_, rfl⟩

theorem testLeaves_setLine (p : Part) (l : Fin 4) : ∃ x, p.testLeaves l = p.setLine l x := by
  obtain ⟨x, hx⟩ := beginCycle_setLine (p.modLine l (fun x => { x with test := .none, fifo := [], overrun := false, loop := [] })) l
  exact ⟨x, hx.trans (Part.setLine_setLine p l _ x)⟩

/-- The end of a waiting order: its entry leaves the hand table, its slot is reported, and a test's line is left. -/
theorem endHand_waited (p : Part) (e : HandEntry) :
    p.Waited (p.endHand e) ∧ (p.endHand e).orders.hand = p.orders.hand.filter (fun x => x.slot ≠ e.slot) := by
  have hdrop : p.Waited (p.dropHand e.slot) := waited_setOrders p _ rfl
  have hreport (t : Termination) (r : Int) : p.Waited ((p.dropHand e.slot).reportDone e.slot t r)
      ∧ ((p.dropHand e.slot).reportDone e.slot t r).orders.hand = p.orders.hand.filter (fun x => x.slot ≠ e.slot) :=
    ⟨hdrop.trans (waited_report _ _ _ _), by rw [Part.reportDone, orders_report]; rfl⟩
  have hline (l : Fin 4) (y : Line) {q : Part}
      (h : p.Waited q ∧ q.orders.hand = p.orders.hand.filter (fun x => x.slot ≠ e.slot)) :
      p.Waited (q.setLine l y) ∧ (q.setLine l y).orders.hand = p.orders.hand.filter (fun x => x.slot ≠ e.slot) :=
    ⟨h.1.trans (waited_setLine q l y), h.2⟩
  have hleaves (l : Fin 4) {q : Part}
      (h : p.Waited q ∧ q.orders.hand = p.orders.hand.filter (fun x => x.slot ≠ e.slot)) :
      p.Waited (q.testLeaves l) ∧ (q.testLeaves l).orders.hand = p.orders.hand.filter (fun x => x.slot ≠ e.slot) := by
    obtain ⟨y, hy⟩ := testLeaves_setLine q l
    rw [hy]
    exact hline l y h
  unfold Part.endHand
  dsimp only
  split
  · exact hreport _ _
  · exact hreport _ _
  · exact hreport _ _
  · split
    · exact hleaves _ (hreport _ _)
    · exact hleaves _ (hreport _ _)
    · exact hline _ _ (hreport _ _)

/-- The waiting orders end: no entry whose slot is among those ended stays in the hand table. -/
theorem endHands_waited (es : List HandEntry) (p : Part) :
    p.Waited (es.foldl Part.endHand p) ∧ ∀ e ∈ (es.foldl Part.endHand p).orders.hand, e ∈ p.orders.hand ∧ ∀ x ∈ es, e.slot ≠ x.slot := by
  induction es generalizing p with
  | nil => exact ⟨.refl p, fun e he => ⟨he, nofun⟩⟩
  | cons x es ih =>
    obtain ⟨hx, hhand⟩ := endHand_waited p x
    obtain ⟨hes, hleft⟩ := ih (p.endHand x)
    refine ⟨hx.trans hes, fun e he => ?_⟩
    obtain ⟨hmem, hslots⟩ := hleft e he
    rw [hhand, List.mem_filter] at hmem
    exact ⟨hmem.1, List.forall_mem_cons.mpr ⟨by simpa using hmem.2, hslots⟩⟩

theorem endSetMode_waited (p : Part) : p.Waited p.endSetMode ∧ p.endSetMode.orders.hand = p.orders.hand := by
  unfold Part.endSetMode
  split
  · split
    · next t _ _ =>
      have hmodes := waited_setModes p { p.modes with requests := p.modes.requests.filter (fun r => r.cause != .order t.slot) } rfl
      have htake {q : Part} : q.Waited (q.stoppedTake t) :=
        (waited_setOrders q { q.orders with taking := none } rfl).trans (waited_report _ _ _ _)
      refine ⟨hmodes.trans htake, ?_⟩
      rw [Part.stoppedTake, Part.endTake, Part.reportDone, orders_report]
      rfl
    · exact ⟨.refl p, rfl⟩
  · exact ⟨.refl p, rfl⟩

end

/-- The parts of the entry to STOPPING (R181): the channels' stops, the hand table emptied, a SET_MODE that waits ended. -/
theorem enterStopping_stops (p : Part) :
    (∀ c, (p.chan c).params.isSome = true → (p.enterStopping.chan c).state ≠ .moving ∧ (p.enterStopping.chan c).state ≠ .homing)
    ∧ (∀ c, (p.enterStopping.chan c).pins = (p.chan c).pins)
    ∧ p.enterStopping.orders.hand = [] ∧ p.enterStopping.orders.takeQueue = p.orders.takeQueue
    ∧ p.enterStopping.bindings = p.bindings ∧ p.enterStopping.guards = p.guards
    ∧ p.enterStopping.modes.mode = p.modes.mode ∧ p.enterStopping.time = p.time := by
  obtain ⟨hstop, hvisit⟩ := eachChannel_visits (fun c r => r.controlledStop c .stopped) (fun c r => near_controlledStop r .stopped)
    (p.enterRun .stopping)
  have heq : p.enterStopping = (((p.enterRun .stopping).eachChannel (fun c r => r.controlledStop c .stopped)).orders.hand.foldl
      Part.endHand ((p.enterRun .stopping).eachChannel (fun c r => r.controlledStop c .stopped))).endSetMode.restEval := rfl
  generalize (p.enterRun .stopping).eachChannel (fun c r => r.controlledStop c .stopped) = stopped at hstop hvisit heq
  obtain ⟨hhands, hleft⟩ := endHands_waited stopped.orders.hand stopped
  obtain ⟨hmode, hmodeHand⟩ := endSetMode_waited (stopped.orders.hand.foldl Part.endHand stopped)
  have hlast := told_restEval (stopped.orders.hand.foldl Part.endHand stopped).endSetMode
  rw [← heq] at hlast
  have hwaited : stopped.Waited p.enterStopping := (hhands.trans hmode).trans (waited_told hlast)
  refine ⟨fun c hc => ?_, fun c => ?_, ?_, hwaited.takeQueue.trans hstop.takeQueue, hwaited.bindings.trans hstop.bindings,
    hwaited.guards.trans hstop.guards, hwaited.mode.trans hstop.mode, hwaited.time.trans hstop.time⟩
  · obtain ⟨q, hq, hview, hend⟩ := hvisit c
    have hstate := state_of_view ((hwaited.chans c).trans hend)
    rw [hstate]
    exact controlledStop_stops (by rw [hq.params]; exact hc) hq.isRunning _
  · exact (pins_of_view (hwaited.chans c)).trans (hstop.pins c)
  · rw [hlast.orders, hmodeHand]
    refine List.eq_nil_iff_forall_not_mem.mpr fun e he => ?_
    obtain ⟨hmem, hslots⟩ := hleft e he
    exact hslots e hmem rfl

/-- Settles O8: CLEAR_RUN in RUNNING is the entry to STOPPING. -/
theorem clearRunStopsTheRun : Obligations.ClearRunStopsTheRun := by
  unfold Obligations.ClearRunStopsTheRun
  intro v s hfree hrunning
  let cleared := s.part.setRun { s.part.run with run := false, enables := .ofWord v 4, captureLast := v.getLsbD 8 }
  have hlevel : cleared.runLevel = cleared.enterStopping := by
    simp [cleared, Part.runLevel, hrunning]
  refine ⟨cleared.enterStopping, by rw [exec_clearRun hfree, ← hlevel], ?_⟩
  have hsetup := setup_enterStopping cleared
  obtain ⟨hstops, hpins, hhand, hqueue, hbindings, hguards, hmode, htime⟩ := enterStopping_stops cleared
  exact ⟨hsetup.run, hsetup.runstate, hstops, hhand, hqueue, fun c => ⟨hsetup.params c, hpins c⟩, hsetup.inputs, hbindings, hguards,
    hsetup.records, hmode, htime⟩

/-! ### The end of STOPPING (R182) -/

theorem Part.anyMotion_iff (p : Part) : p.anyMotion = true ↔ ∃ c, (p.chan c).state.inMotion = true := by
  simp only [Part.anyMotion, List.any_eq_true, Part.chan, Fin.getElem_fin]
  constructor
  · rintro ⟨x, hx, hm⟩
    obtain ⟨i, hi, rfl⟩ := List.mem_iff_getElem.mp hx
    exact ⟨⟨i, by simpa using hi⟩, by simpa using hm⟩
  · rintro ⟨c, hm⟩
    exact ⟨_, by simp, hm⟩

theorem ChanState.inMotion_iff (st : ChanState) : st.inMotion = true ↔ st = .moving ∨ st = .stopping ∨ st = .homing := by
  cases st <;> decide

theorem Board.initial_pattern (z : Fin 4) : Board.initial.pattern z = .off := by
  revert z
  decide

theorem Part.beaconPin_of_initial {p : Part} (h : p.board = .initial) (z : Fin 4) : p.beaconPin z = false := by
  simp only [Part.beaconPin, h, Board.initial_pattern]

/-- Settles O26: while a channel moves or a take goes on the command changes nothing; else the blocks halt and HALTED is entered. -/
theorem stoppingEnds : Obligations.StoppingEnds := by
  unfold Obligations.StoppingEnds
  intro s hstopping
  have hmotion : (∃ c, (s.part.chan c).state = .moving ∨ (s.part.chan c).state = .stopping ∨ (s.part.chan c).state = .homing)
      ↔ s.part.anyMotion = true := by
    rw [Part.anyMotion_iff]
    exact exists_congr fun c => (ChanState.inMotion_iff _).symm
  have hexec : exec .stoppingEnd s = done s (if s.part.run.state = .stopping ∧ s.part.anyMotion = false ∧ s.part.orders.taking = none
      then s.part.haltBlocks.enterHalted else s.part) := rfl
  rw [hexec]
  refine ⟨fun h => ?_, fun hstill htaking => ⟨s.part.haltBlocks.enterHalted, ?_, ?_⟩⟩
  · rw [if_neg]
    · rfl
    · rintro ⟨-, hm, ht⟩
      rcases h with h | h
      · rw [hmotion, hm] at h; cases h
      · exact h ht
  · have hrest : s.part.anyMotion = false := by
      rw [← Bool.not_eq_true, ← hmotion]
      rintro ⟨c, h⟩
      obtain ⟨h1, h2, h3⟩ := hstill c
      tauto
    rw [if_pos ⟨hstopping, hrest, htaking⟩]
    rfl
  · rw [Part.enterHalted_eq]
    refine ⟨rfl, fun c => ?_, fun g => ?_, fun l => ⟨?_, ?_⟩, rfl, rfl, rfl, rfl, fun i => ?_, fun i => ?_, rfl, fun z => ?_, rfl, rfl, rfl,
      rfl, rfl, rfl, rfl⟩
    · simp [Part.chan, Part.haltBlocks, Channel.halted]
    · simp [Part.guard, Part.haltBlocks, Guard.halted]
    · simp [Part.line, Part.haltBlocks]
    · simp [Part.line, Part.haltBlocks, Line.de]
    · show Slot.shadow ((s.part.orders.slots.map _).getD i _) = _
      rw [List.getD_eq_getElem?_getD, List.getElem?_map]
      cases s.part.orders.slots[i]? <;> rfl
    · simp [Part.haltBlocks, Board.initial]
    · exact Part.beaconPin_of_initial rfl z

end Sys2Proof.Machine
end

