-- ==== Sys2Proof/Proofs/Window.lean ====
section
/-! The window port (11.1): what a host read and a host write of a word do, and the watched words (9.2, 8.7). -/

namespace Sys2Proof.Machine

/-! ### Addresses -/

theorem evenAddress_eq {a : Word} (h : a.getLsbD 0 = false) : evenAddress a = a := and_fffe_eq_self h

/-- A host read of a word of exhibit memory. -/
theorem exec_hostRead_mem {a : Word} {s : State} (hfree : s.part.run.hold = none) (ha : a.toNat < 0xC000) (heven : a.getLsbD 0 = false) :
    exec (.hostRead a) s = done s (s.part.memRead (a.toNat / 2)) := by
  have hrow : exec (.hostRead a) s = done s (s.part.windowRead a) := rfl
  rw [hrow, Part.windowRead, evenAddress_eq heven, if_neg (by rw [Part.free_of_hold hfree]; decide)]
  exact congrArg (done s) (if_pos ha)

/-- A host read of a register address, or of unused space. -/
theorem exec_hostRead_register {a : Word} {s : State} (hfree : s.part.run.hold = none) (ha : 0xC000 ≤ a.toNat)
    (heven : a.getLsbD 0 = false) : exec (.hostRead a) s = done s (s.part.setHostData (s.part.readRegister a)) := by
  have hrow : exec (.hostRead a) s = done s (s.part.windowRead a) := rfl
  rw [hrow, Part.windowRead, evenAddress_eq heven, if_neg (by rw [Part.free_of_hold hfree]; decide)]
  exact congrArg (done s) (if_neg (Nat.not_lt.mpr ha))

/-- A host write of a word of exhibit memory. -/
theorem exec_hostWrite_mem {a : Word} (v : Word) {s : State} (ha : a.toNat < 0xC000) (heven : a.getLsbD 0 = false) :
    exec (.hostWrite a v) s = done s (s.part.memWrite (a.toNat / 2) v) := by
  have hrow : exec (.hostWrite a v) s = done s (s.part.windowWrite a v) := rfl
  rw [hrow, Part.windowWrite, evenAddress_eq heven]
  exact congrArg (done s) (if_pos ha)

/-! ### Reads (R175, R187, R188) -/

/-- A read in the run states that serve memory, of a word that is not spare, is judged. -/
theorem Part.memRead_judged {p : Part} {a : Nat} (hst : p.run.state ≠ .clearing) (hsp : p.spare a = false) :
    p.memRead a = (p.readWord .host a).part.setHostData (p.readWord .host a).value := by
  rw [Part.memRead, if_neg]
  rintro (h | h)
  · exact hst h
  · rw [hsp] at h; cases h

theorem Part.zctl_flags (p : Part) : p.zctl = BitVec.ofNat 16 (flag p.run.run + 16 * flag p.run.enables.journal
    + 32 * flag p.run.enables.alert + 64 * flag p.run.enables.memerr + 128 * flag p.run.enables.runstate
    + 256 * flag p.run.captureLast) :=
  congrArg (BitVec.ofNat 16) (by rw [Causes.value]; ring)

/-- A captured address is shown in the low bits of its register. -/
theorem word_toNat_address (a : BitVec 15) : word a.toNat = a.setWidth 16 := by
  rw [word, BitVec.ofNat_toNat]

/-- Settles O14: a register read shows `Part.readRegister`; a memory read is answered 0x0000 in CLEARING and at a spare word, and judged
elsewhere, where a word as written reads as written. -/
theorem hostReadsRegistersAndCleanWords : Obligations.HostReadsRegistersAndCleanWords := by
  unfold Obligations.HostReadsRegistersAndCleanWords
  refine ⟨fun a s hfree ha heven => ⟨s.part.readRegister a, exec_hostRead_register hfree ha heven, ?_⟩, fun a s hfree ha heven => ?_⟩
  · rw [Part.readRegister, Part.zctl_flags, word_toNat_address, word_toNat_address]
    rfl
  · rw [exec_hostRead_mem hfree ha heven]
    refine ⟨fun h => ?_, fun hst hsp w hw => ?_⟩
    · rw [Part.memRead, if_pos h]
      rfl
    · rw [Part.memRead_judged hst hsp, Part.readWord, hw]
      rfl

/-- A read of a word that cannot be corrected returns what is stored, and is counted (R187, R188). -/
theorem Part.readWord_uncorrected {p : Part} {a : Nat} (agent : Agent)
    (h : (p.mem.cell a).upset = .address ∨ ∃ b, (p.mem.cell a).upset = .two b) :
    p.readWord agent a = { value := (p.mem.cell a).stored, bad := true, part := p.uncorrectedRead agent a } := by
  rcases h with h | ⟨b, h⟩ <;> simp only [Part.readWord, Cell.data, h]

/-- What an uncorrected read leaves besides reports: the count, the capture and MEMERR (R188, R190). -/
theorem told_uncorrectedRead (p : Part) (agent : Agent) (a : Nat) :
    ((p.setProt (p.prot.noteUncorrected p.run.captureLast a)).attendMemerr).Told (p.uncorrectedRead agent a) :=
  (told_hand _ _).trans (told_raiseAlert _ _ _ _ _)

/-- Settles O16: the read is `Part.uncorrectedRead`. -/
theorem hostReadReportsUncorrected : Obligations.HostReadReportsUncorrected := by
  unfold Obligations.HostReadReportsUncorrected
  intro a s hfree ha heven hst hsp hbad
  refine ⟨s.part.uncorrectedRead .host (a.toNat / 2), ?_, told_uncorrectedRead _ _ _⟩
  rw [exec_hostRead_mem hfree ha heven, Part.memRead_judged hst hsp, Part.readWord_uncorrected _ hbad]
  rfl

/-! ### Writes (R175, R194) -/

/-- A host write in the run states that serve memory, of a word that is not spare, is stored and passed to the word's owner. -/
theorem Part.memWrite_stores {p : Part} {a : Nat} (hfree : p.run.hold = none) (hst : p.run.state ≠ .clearing) (hsp : p.spare a = false)
    (v : Word) : p.memWrite a v = (p.storeFrom false a v).watch a v := by
  rw [Part.memWrite, if_neg]
  rintro (h | h | h)
  · rw [Part.free_of_hold hfree] at h; cases h
  · exact hst h
  · rw [hsp] at h; cases h

/-- What a store leaves: memory and, where it carries an injection out, ARM (R194). -/
theorem storeFrom_frame (p : Part) (b : Bool) (a : Nat) (w : Word) :
    p.storeFrom b a w = { p with
      mem := (p.storeFrom b a w).mem
      prot := { p.prot with injection := { p.prot.injection with armed := (p.storeFrom b a w).prot.injection.armed } } } := by
  obtain ⟨m, arm, h⟩ := storeFrom_eq p b a w
  rw [h]
  rfl

/-- A word that no owner watches (R175). -/
theorem Part.watch_unwatched {p : Part} {a : Nat} (v : Word)
    (h : ∀ l, p.run.layout = some l → a ≠ l.pointers + 1 ∧ a ≠ l.pointers + 4 ∧ ∀ i, i < l.slotCount → a ≠ l.orders + 8 * i) :
    p.watch a v = p := by
  unfold Part.watch
  split
  · rfl
  · next l hl =>
    obtain ⟨hempty, hbeat, hslots⟩ := h l hl
    have hslot : (inRegion a l.orders (8 * l.slotCount) && (a - l.orders) % 8 == 0) = false := by
      rw [← Bool.not_eq_true]
      simp only [inRegion, Bool.and_eq_true, decide_eq_true_eq, beq_iff_eq]
      rintro ⟨⟨h1, h2⟩, h3⟩
      exact hslots ((a - l.orders) / 8) (by omega) (by omega)
    rw [hslot, if_neg Bool.false_ne_true, if_neg hempty, if_neg hbeat]

/-- What a store makes of its word: the written data, altered by an injection armed for its target, which it disarms (R194). -/
theorem storeFrom_stored (p : Part) (b : Bool) {a : Nat} (w : Word) (hm : Memory.wf p.mem) (ha : a < Config.memWords) :
    if p.prot.injection.armed = true ∧ p.prot.injection.partTarget = b then
      (p.storeFrom b a w).mem.cell a = p.prot.injection.cell w
        ∧ (p.storeFrom b a w).prot = { p.prot with injection := { p.prot.injection with armed := false } }
    else (p.storeFrom b a w).mem.cell a = .good w ∧ (p.storeFrom b a w).prot = p.prot := by
  have hcell (c : Cell) : (p.mem.store a c).cell a = c := Memory.cell_store_self _ _ _ hm ha
  have hcond : (p.prot.injection.armed && p.prot.injection.partTarget == b && decide (a < Config.memWords)) = true
      ↔ p.prot.injection.armed = true ∧ p.prot.injection.partTarget = b := by
    simp [ha]
  split
  · next h =>
    rw [Part.storeFrom, if_pos (hcond.mpr h)]
    exact ⟨hcell _, rfl⟩
  · next h =>
    rw [Part.storeFrom, if_neg (mt hcond.mp h)]
    exact ⟨hcell _, rfl⟩

theorem Injection.cell_eq (i : Injection) (w : Word) : i.cell w = { written := w, upset := match i.mode with
    | .oneBit => .one i.bit | .twoBit => .two i.bit | .address => .address } := by
  unfold Injection.cell
  cases i.mode <;> rfl

/-- Settles O17: a word that is neither watched nor spare is stored; the addresses that take no write are told apart. -/
theorem hostWritesStoreOrVanish : Obligations.HostWritesStoreOrVanish := by
  unfold Obligations.HostWritesStoreOrVanish
  refine ⟨fun a v s hfree ha heven hm hst hsp hwatched => ⟨s.part.storeFrom false (a.toNat / 2) v, ?_, ?_⟩, fun a v s ha heven => ?_,
    fun a v s ha heven h => ?_⟩
  · have hlayout : (s.part.storeFrom false (a.toNat / 2) v).run.layout = s.part.run.layout := by rw [storeFrom_frame]
    rw [exec_hostWrite_mem v ha heven, Part.memWrite_stores hfree hst hsp, Part.watch_unwatched v (by rw [hlayout]; exact hwatched)]
    rfl
  · refine ⟨?_, wf_storeFrom _ _ _ _ hm, fun x hx => cell_storeFrom_ne _ _ _ _ _ hx, ?_⟩
    · rw [storeFrom_frame]
    · have hstored := storeFrom_stored s.part false v hm (a := a.toNat / 2) (by simp only [Config.memWords]; omega)
      rwa [Injection.cell_eq] at hstored
  · show done s (s.part.windowWrite a v) = .next s
    have hne : ¬ a.toNat < Config.memBytes ∧ a ≠ 0xFFF2 ∧ a ≠ 0xFFF6 ∧ a ≠ 0xFFFC ∧ a ≠ 0xFFFE := by
      rcases ha with ⟨h1, h2⟩ | rfl | rfl | rfl | rfl
      · refine ⟨Nat.not_lt.mpr h1, ?_, ?_, ?_, ?_⟩ <;> rintro rfl <;> exact absurd h2 (by decide)
      all_goals decide
    obtain ⟨hmem, h2, h6, hC, hE⟩ := hne
    simp only [Part.windowWrite, evenAddress_eq heven, hmem, h2, h6, hC, hE, if_false, ite_self]
    rfl
  · rw [exec_hostWrite_mem v ha heven, Part.memWrite, if_pos (.inr h)]
    rfl

end Sys2Proof.Machine
end

