-- ==== Sys2Proof/Proofs/LayoutRules.lean ====
section
/-! What the check of R177 says of a layout: its regions lie in exhibit memory and share no word, its counts and marks are in range. -/

namespace Sys2Proof.Machine

theorem apart_iff (r q : Nat × Nat) : apart r q = true ↔ r.1 + r.2 ≤ q.1 ∨ q.1 + q.2 ≤ r.1 := by
  simp [apart]

theorem allApart_iff (rs : List (Nat × Nat)) : allApart rs = true ↔ rs.Pairwise (fun r q => r.1 + r.2 ≤ q.1 ∨ q.1 + q.2 ≤ r.1) := by
  induction rs with
  | nil => simp [allApart]
  | cons r rs ih => simp [allApart, ih, apart_iff]

section
variable {l : Layout}

theorem Layout.valid_iff : l.valid = true ↔ l.countsOk = true ∧ l.rangesOk (flag l.silentRest) = true
    ∧ allApart l.regions = true ∧ l.marksOk = true := by
  simp only [Layout.valid, Bool.and_eq_true, and_assoc]

/-- A region of a valid layout lies in exhibit memory, past the layout block. -/
theorem Layout.valid_fits (h : l.valid = true) (i : Fin 10) : 32 ≤ l.regions[i].1 ∧ l.regions[i].1 + l.regions[i].2 ≤ Config.memWords := by
  obtain ⟨-, hranges, -, -⟩ := Layout.valid_iff.mp h
  simp only [Layout.rangesOk, Bool.and_eq_true, List.all_eq_true, decide_eq_true_eq] at hranges
  exact hranges.1.1.1.1.1 _ (List.getElem_mem _)

/-- Two regions of a valid layout share no word. -/
theorem Layout.valid_disjoint (h : l.valid = true) {i j : Fin 10} (hij : i ≠ j) :
    l.regions[i].1 + l.regions[i].2 ≤ l.regions[j].1 ∨ l.regions[j].1 + l.regions[j].2 ≤ l.regions[i].1 := by
  obtain ⟨-, -, hapart, -⟩ := Layout.valid_iff.mp h
  have hpair := List.pairwise_iff_getElem.mp ((allApart_iff _).mp hapart)
  rcases lt_or_gt_of_ne hij with hlt | hlt
  · exact hpair _ _ _ _ hlt
  · exact (hpair _ _ _ _ hlt).symm

theorem Layout.valid_pointers_fit (h : l.valid = true) : 32 ≤ l.pointers ∧ l.pointers + 8 ≤ Config.memWords := l.valid_fits h 0

theorem Layout.valid_pointers_orders (h : l.valid = true) :
    l.pointers + 8 ≤ l.orders ∨ l.orders + 8 * l.slotCount ≤ l.pointers := Layout.valid_disjoint h (i := 0) (j := 1) (by decide)

/-- Reports go to the regions of status records, input states, board and journal, and to four words of the pointer block. -/
theorem Layout.reportWord_iff (l : Layout) (a : Nat) : l.reportWord a = true ↔
    a = l.pointers ∨ (l.pointers + 2 ≤ a ∧ a < l.pointers + 4) ∨ a = l.pointers + 5 ∨ (l.status ≤ a ∧ a < l.status + 96)
      ∨ (l.stateMap ≤ a ∧ a < l.stateMap + (l.inputCount + 48)) ∨ (l.board ≤ a ∧ a < l.board + 260)
      ∨ (l.journal ≤ a ∧ a < l.journal + l.journalSize) := by
  simp [Layout.reportWord, inRegion, or_assoc, Nat.add_assoc]

/-- The words of the pointer block that the host writes take no report. -/
theorem Layout.reportWord_host (h : l.valid = true) {i : Nat} (hi : i = 1 ∨ i = 4 ∨ i = 6 ∨ i = 7) :
    l.reportWord (l.pointers + i) = false := by
  have hstatus : l.pointers + 8 ≤ l.status ∨ l.status + 96 ≤ l.pointers := Layout.valid_disjoint h (i := 0) (j := 6) (by decide)
  have hmap : l.pointers + 8 ≤ l.stateMap ∨ l.stateMap + (l.inputCount + 48) ≤ l.pointers :=
    Layout.valid_disjoint h (i := 0) (j := 7) (by decide)
  have hboard : l.pointers + 8 ≤ l.board ∨ l.board + 260 ≤ l.pointers := Layout.valid_disjoint h (i := 0) (j := 8) (by decide)
  have hjournal : l.pointers + 8 ≤ l.journal ∨ l.journal + l.journalSize ≤ l.pointers :=
    Layout.valid_disjoint h (i := 0) (j := 9) (by decide)
  rw [← Bool.not_eq_true, Layout.reportWord_iff]
  omega

end

end Sys2Proof.Machine
end

