-- ==== Sys2Proof/Proofs/WatchedWords.lean ====
section
/-! The words whose host writes have an owner: w0 of a slot (R150), HEARTBEAT (R146). -/

namespace Sys2Proof.Machine

/-! ### w0 of a slot (R150) -/

/-- A slot's word is not one of the spare words of the pointer block. -/
theorem Part.spare_slot {p : Part} {l : Layout} {i : Nat} (h : p.hasSlot l i) : p.spare (l.orders + 8 * i) = false := by
  obtain ⟨hl, hv, hi, -⟩ := h
  have := Layout.valid_pointers_orders hv
  simp only [Part.spare, hl, Bool.or_eq_false_iff, beq_eq_false_iff_ne]
  omega

/-- A write of w0 of a slot reaches the order taker with its state byte (R150). -/
theorem Part.watch_slot {p : Part} {l : Layout} {i : Nat} (h : p.hasSlot l i) (v : Word) :
    p.watch (l.orders + 8 * i) v = p.slotWatch i (lowByte v) := by
  obtain ⟨hl, -, hi, -⟩ := h
  have hin : (inRegion (l.orders + 8 * i) l.orders (8 * l.slotCount) && (l.orders + 8 * i - l.orders) % 8 == 0) = true := by
    simp only [inRegion, Bool.and_eq_true, decide_eq_true_eq, beq_iff_eq]
    omega
  rw [Part.watch, hl]
  dsimp only
  rw [if_pos hin, Nat.add_sub_cancel_left, Nat.mul_div_cancel_left i (by decide)]

/-- A host write of w0 of a slot: stored, and passed to the order taker. -/
theorem Part.memWrite_slot {p : Part} {l : Layout} {i : Nat} (hfree : p.run.hold = none) (hst : p.run.state ≠ .clearing)
    (h : p.hasSlot l i) (v : Word) :
    p.memWrite (l.orders + 8 * i) v = (p.storeFrom false (l.orders + 8 * i) v).slotWatch i (lowByte v) := by
  have hslot : (p.storeFrom false (l.orders + 8 * i) v).hasSlot l i := by rw [storeFrom_frame]; exact h
  rw [Part.memWrite_stores hfree hst (Part.spare_slot h), Part.watch_slot hslot]

/-- What the slot watch makes of the order taker, by the shadow and the state byte (the table of R150). -/
def Part.watched (p : Part) (i : Nat) (state : Byte) : Orders :=
  if p.active = true ∧ (p.slot i).shadow = .idle ∧ state = 1 then
    { p.orders with slots := p.orders.slots.modify i (fun x => { x with shadow := .queued }), takeQueue := p.orders.takeQueue ++ [i] }
  else if p.active = true ∧ (p.slot i).shadow = .queued ∧ state = 0 then
    { p.orders with slots := p.orders.slots.modify i (fun x => { x with shadow := .idle })
                    takeQueue := p.orders.takeQueue.filter (fun j => j ≠ i) }
  else if p.active = true ∧ (p.slot i).shadow = .reported ∧ state = 0 then
    { p.orders with slots := p.orders.slots.modify i (fun x => { x with shadow := .idle }) }
  else p.orders

theorem Part.slotWatch_eq (p : Part) (i : Nat) (state : Byte) : p.slotWatch i state = p.setOrders (p.watched i state) := by
  unfold Part.slotWatch Part.watched
  cases ha : p.active with
  | false => simp [Part.setOrders]
  | true =>
    cases hs : (p.slot i).shadow <;> simp [Part.modSlot, Part.setTakeQueue, Part.setOrders] <;> split <;> rfl

/-- A host write of w0 of a slot whose state byte is `state`: the word is stored, the order taker goes by the table of R150, and nothing
else changes. -/
theorem Part.memWrite_slot_frame {p : Part} {l : Layout} {i : Nat} (hfree : p.run.hold = none) (hst : p.run.state ≠ .clearing)
    (h : p.hasSlot l i) (hm : Memory.wf p.mem) (v : Word) :
    ∃ q, p.memWrite (l.orders + 8 * i) v = q ∧ (q.mem.cell (l.orders + 8 * i)).written = v
      ∧ (∀ x, x ≠ l.orders + 8 * i → q.mem.cell x = p.mem.cell x)
      ∧ q = { p with
          mem := q.mem, prot := { p.prot with injection := { p.prot.injection with armed := q.prot.injection.armed } }
          orders := p.watched i (lowByte v) } := by
  refine ⟨_, Part.memWrite_slot hfree hst h v, ?_, fun x hx => ?_, ?_⟩
  · rw [Part.slotWatch_eq]
    have := Layout.valid_orders_fit h.2.1
    have hi := h.2.2.1
    exact written_storeFrom_self p false _ v hm (by omega)
  · rw [Part.slotWatch_eq]
    exact cell_storeFrom_ne p false _ x v hx
  · rw [Part.slotWatch_eq, storeFrom_frame]
    rfl

theorem lowByte_state (b : Nat) (high : Byte) : lowByte (word (b + 256 * high.toNat)) = BitVec.ofNat 8 b := by
  apply BitVec.eq_of_toNat_eq
  simp only [lowByte, word, BitVec.toNat_ofNat]
  omega

theorem execSlotWrite {p : Part} {l : Layout} {i : Nat} (h : p.hasSlot l i) (st : SlotState) (high : Byte) :
    p.slotWrite i st high = p.memWrite (l.orders + 8 * i) (word (st.code + 256 * high.toNat)) := by
  obtain ⟨hl, -, hi, -⟩ := h
  rw [Part.slotWrite, hl]
  exact if_pos hi

/-- Settles O18: each of the writes is one of w0 of its slot, and `Part.watched` is the table of R150. -/
theorem slotWritesMoveShadow : Obligations.SlotWritesMoveShadow := by
  unfold Obligations.SlotWritesMoveShadow
  intro slot high s l hfree hst hslot hm
  have hframe := Part.memWrite_slot_frame hfree hst hslot hm
  refine ⟨?_, ?_, fun v h0 h1 => ?_⟩
  · obtain ⟨q, hq, hw, hkept, heq⟩ := hframe (word (1 + 256 * high.toNat))
    refine ⟨q, ?_, hw, hkept, heq.trans ?_⟩
    · exact congrArg (done s) ((execSlotWrite hslot .posted high).trans hq)
    · rw [lowByte_state 1 high]
      simp [Part.watched]
  · obtain ⟨q, hq, hw, hkept, heq⟩ := hframe (word (0 + 256 * high.toNat))
    refine ⟨q, ?_, ?_, hkept, heq.trans ?_⟩
    · exact congrArg (done s) ((execSlotWrite hslot .free high).trans hq)
    · rw [hw, Nat.zero_add, word]
    · rw [lowByte_state 0 high]
      simp [Part.watched]
  · obtain ⟨q, hq, hw, -, heq⟩ := hframe v
    have hfit := Layout.valid_orders_fit hslot.2.1
    have hi := hslot.2.2.1
    have haddr : (BitVec.ofNat 16 (2 * (l.orders + 8 * slot.toNat))).toNat = 2 * (l.orders + 8 * slot.toNat) := by
      rw [BitVec.toNat_ofNat, Nat.mod_eq_of_lt]
      simp only [Config.memWords] at hfit
      omega
    refine ⟨q, ?_, hw, ?_⟩
    · rw [exec_hostWrite_mem v (by rw [haddr]; simp only [Config.memWords] at hfit; omega) ?_, haddr,
        Nat.mul_div_cancel_left _ (by decide), hq]
      · rfl
      · rw [BitVec.getLsbD, haddr, Nat.testBit_zero]
        simp
    · rw [heq]
      have hne0 : lowByte v ≠ 0 := fun h => h0 (by simpa [lowByte] using congrArg BitVec.toNat h)
      have hne1 : lowByte v ≠ 1 := fun h => h1 (by simpa [lowByte] using congrArg BitVec.toNat h)
      exact (if_neg fun h => hne1 h.2.2).trans ((if_neg fun h => hne0 h.2.2).trans (if_neg fun h => hne0 h.2.2))

/-! ### HEARTBEAT (R146) -/

/-- A host write of HEARTBEAT: stored, and passed to the host watch. -/
theorem exec_heartbeatWrite {v : Word} {s : State} {l : Layout} (hfree : s.part.run.hold = none) (hst : s.part.run.state ≠ .clearing)
    (hl : s.part.run.layout = some l) (hv : l.valid = true) :
    exec (.heartbeatWrite v) s = done s (s.part.storeFrom false (l.pointers + 4) v).heartbeat := by
  have hrow : exec (.heartbeatWrite v) s = done s (s.part.regionWrite (fun l => l.pointers + 4) v) := rfl
  have hspare : s.part.spare (l.pointers + 4) = false := by
    simp only [Part.spare, hl, Bool.or_eq_false_iff, beq_eq_false_iff_ne]
    omega
  have hwatch : (s.part.storeFrom false (l.pointers + 4) v).watch (l.pointers + 4) v
      = (s.part.storeFrom false (l.pointers + 4) v).heartbeat := by
    have hlayout : (s.part.storeFrom false (l.pointers + 4) v).run.layout = some l := by rw [storeFrom_frame]; exact hl
    have hout : inRegion (l.pointers + 4) l.orders (8 * l.slotCount) = false := by
      have := Layout.valid_pointers_orders hv
      simp only [inRegion, decide_eq_false_iff_not]
      omega
    rw [Part.watch, hlayout]
    dsimp only
    rw [hout, Bool.false_and, if_neg Bool.false_ne_true, if_neg (by omega), if_pos rfl]
  rw [hrow, Part.regionWrite, hl]
  exact congrArg (done s) ((Part.memWrite_stores hfree hst hspare v).trans hwatch)

/-- A watch that falls due later leaves the same behind. -/
theorem Part.Told.setWatchDue {p q : Part} (h : p.Told q) (due : Option Time) :
    (p.setModes { p.modes with watchDue := due }).Told (q.setModes { q.modes with watchDue := due }) :=
  { h with modes := by simp only [Part.setModes_modes]; rw [h.modes] }

/-- The host watch's restart (R146): only reports besides, and none where it was ANSWERING. -/
theorem Part.heartbeat_restarts {p : Part} {l : Layout} (ha : p.active = true) (hl : p.run.layout = some l) (hw : l.watchWindow ≠ 0) :
    p.heartbeat.modes.watchDue = some (after p.time l.watchWindow)
    ∧ (p.modes.silent = false → p.heartbeat = p.setModes { p.modes with watchDue := some (after p.time l.watchWindow) })
    ∧ (p.setModes { p.modes with silent := false, watchDue := some (after p.time l.watchWindow) }).Told p.heartbeat := by
  have hwindow {q : Part} (h : q.run.layout = some l) : q.watchWindow = l.watchWindow := by rw [Part.watchWindow, h]
  have hcond : p.active = true ∧ p.watchWindow ≠ 0 := ⟨ha, by rw [hwindow hl]; exact hw⟩
  cases hs : p.modes.silent with
  | false =>
    have heq : p.heartbeat = p.setModes { p.modes with watchDue := some (after p.time l.watchWindow) } := by
      rw [Part.heartbeat, if_pos hcond]
      dsimp only
      rw [if_neg (by rw [hs]; exact Bool.false_ne_true), hwindow hl]
    refine ⟨by rw [heq]; rfl, fun _ => heq, ?_⟩
    rw [heq, ← hs]
    exact .refl _
  | true =>
    have hend := told_condEnd (p.setModes { p.modes with silent := false }) .hostSilent .none
    have heq : p.heartbeat = ((p.setModes { p.modes with silent := false }).condEnd .hostSilent .none).setModes
        { ((p.setModes { p.modes with silent := false }).condEnd .hostSilent .none).modes with
          watchDue := some (after p.time l.watchWindow) } := by
      rw [Part.heartbeat, if_pos hcond]
      dsimp only
      rw [hs, if_pos rfl, hwindow (hend.layout.trans hl), hend.time]
      rfl
    refine ⟨by rw [heq]; rfl, nofun, ?_⟩
    rw [heq]
    exact hend.setWatchDue _

/-- Settles O20: the word is stored, and where the watch has a window, it restarts. -/
theorem heartbeatWrite : Obligations.HeartbeatWrite := by
  unfold Obligations.HeartbeatWrite
  intro v s l hfree hst hl hv hm
  have hframe := storeFrom_frame s.part false (l.pointers + 4) v
  refine ⟨s.part.storeFrom false (l.pointers + 4) v, _, exec_heartbeatWrite hfree hst hl hv, hframe, ?_, fun x hx => ?_, ?_⟩
  · have := Layout.valid_pointers_fit hv
    exact written_storeFrom_self _ _ _ _ hm (by omega)
  · exact cell_storeFrom_ne _ _ _ _ _ hx
  · generalize s.part.storeFrom false (l.pointers + 4) v = base at hframe
    have hactive : base.active = s.part.active := by rw [hframe]; rfl
    have hlayout : base.run.layout = some l := by rw [hframe]; exact hl
    have hmodes : base.modes = s.part.modes := by rw [hframe]
    have htime : base.time = s.part.time := by rw [hframe]
    split
    · next h =>
      obtain ⟨ha, hw⟩ := h
      obtain ⟨hdue, hanswering, htold⟩ := Part.heartbeat_restarts (hactive.trans ha) hlayout hw
      rw [← hmodes, ← htime, hdue]
      refine ⟨rfl, ?_, ?_, hanswering, htold⟩
      · rw [htold.modes]; rfl
      · rw [htold.modes]; rfl
    · next h =>
      rw [Part.heartbeat, if_neg]
      rintro ⟨ha, hw⟩
      exact h ⟨hactive.symm.trans ha, by rwa [Part.watchWindow, hlayout] at hw⟩

end Sys2Proof.Machine
end

