-- ==== Sys2Proof/Proofs/ChannelSteps.lean ====
section
/-! What every operation on the channels keeps, said through the steps they are made of: reports told, a change of one channel, a slot
reported, a STOP CONTROLLED that counts. A relation that each of these keeps is kept by every operation of Chapter 4 and of the guards on
a channel. -/

namespace Sys2Proof.Machine

/-- A relation between a part and a later one that every operation on the channels keeps. -/
structure ChannelSteps (R : Part → Part → Prop) : Prop where
  refl : ∀ p, R p p
  trans : ∀ {p q r}, R p q → R q r → R p r
  told : ∀ {p q : Part}, p.Told q → R p q
  chan : ∀ (p : Part) c x, R p (p.setChan c x)
  report : ∀ (p : Part) i st code res, R p (p.report i st code res)
  count : ∀ (p : Part) c s, R p (p.countStopped c s)

section
variable {R : Part → Part → Prop}

theorem Part.rel_ite {p q r : Part} {b : Prop} [Decidable b] (hq : R p q) (hr : R p r) : R p (if b then q else r) := by
  split
  · exact hq
  · exact hr

variable (h : ChannelSteps R) {c : Fin 8}
include h

theorem ChannelSteps.fold {α : Type} (f : Part → α → Part) (hf : ∀ p a, R p (f p a)) (l : List α) (p : Part) : R p (l.foldl f p) := by
  induction l generalizing p with
  | nil => exact h.refl p
  | cons a l ih => exact h.trans (hf p a) (ih _)

theorem ChannelSteps.commit (p : Part) (d : Fin 8) (before : Channel) (cause : Nat) (always : Bool) :
    R p (p.commit d before cause always) := h.told (told_commit _ _ _ _ _)

/-- A change of the channel, seen. -/
theorem ChannelSteps.committed (p : Part) (c d : Fin 8) (x before : Channel) (cause : Nat) (always : Bool) :
    R p ((p.setChan c x).commit d before cause always) := h.trans (h.chan p c x) (h.commit _ _ _ _ _)

theorem ChannelSteps.reportEnd (p : Part) (d : Fin 8) (m : Move) (t : Termination) : R p (p.reportEnd d m t) := by
  unfold Part.reportEnd
  split
  · exact h.report _ _ _ _ _
  · exact h.refl p

theorem ChannelSteps.supersedeQueue (p : Part) : R p (p.supersedeQueue c) :=
  h.trans (h.chan _ _ _) (h.fold _ (fun q m => h.reportEnd q c m _) _ _)

theorem ChannelSteps.finishMove (p : Part) (t : Termination) : R p (p.finishMove c t) := by
  unfold Part.finishMove
  split
  · exact h.refl p
  · exact h.trans (h.trans (h.reportEnd p c _ t) (h.count _ _ _)) (h.chan _ _ _)

theorem ChannelSteps.faultEntry (p : Part) (cause : ChanFault) : R p (p.faultEntry c cause) := by
  have hends := h.trans (h.trans (h.chan p c ((p.chan c).losePosition cause)) (h.finishMove (c := c) _ .faulted)) (h.supersedeQueue (c := c) _)
  unfold Part.faultEntry
  dsimp only
  generalize ((p.setChan c ((p.chan c).losePosition cause)).finishMove c .faulted).supersedeQueue c = q at hends ⊢
  have hfault := h.trans hends (h.chan q c ((q.chan c).inFault cause))
  exact h.trans (h.trans hfault (h.told (told_raiseAlert _ _ _ _ _))) (h.commit _ _ _ _ _)

theorem ChannelSteps.moveEvent (n : Nat) (before : Channel) (p : Part) (e : MoveEvent) : R p (p.moveEvent n c before e) := by
  induction n generalizing before p e with
  | zero => exact h.refl p
  | succ n ih =>
    cases e with
    | ends t =>
      simp only [Part.moveEvent]
      have hfin := h.finishMove (c := c) p t
      refine h.trans hfin ?_
      refine Part.rel_ite (h.trans (h.trans (h.chan _ _ _) (h.supersedeQueue _)) (h.commit _ _ _ _ _)) (Part.rel_ite (h.committed _ _ _ _ _ _ _) ?_)
      split
      · exact h.refl _
      · refine Part.rel_ite (ih _ _ _) ?_
        split
        · exact h.trans (h.chan _ _ _) (ih _ _ _)
        · exact Part.rel_ite (h.trans (h.committed _ _ _ _ _ _ _) (ih _ _ _)) (h.committed _ _ _ _ _ _ _)
    | starts m cause =>
      simp only [Part.moveEvent]
      split
      · exact h.refl p
      · split
        · refine Part.rel_ite (h.trans (h.chan _ _ _) (ih _ _ _)) (Part.rel_ite ?_ (h.committed _ _ _ _ _ _ _))
          exact h.trans (h.committed _ _ _ _ _ _ _) (h.faultEntry _ _)
        · exact Part.rel_ite (h.trans (h.chan _ _ _) (ih _ _ _)) (h.committed _ _ _ _ _ _ _)

theorem ChannelSteps.endMove (p : Part) (before : Channel) (t : Termination) : R p (p.endMove c before t) := h.moveEvent _ _ _ _

theorem ChannelSteps.giveMove (p : Part) (m : Move) : R p (p.giveMove c m) := h.moveEvent _ _ _ _

theorem ChannelSteps.modePark (p : Part) : R p (p.modePark c) := by
  unfold Part.modePark
  split
  · exact Part.rel_ite (h.giveMove _ _) (h.refl p)
  · exact h.refl p

theorem ChannelSteps.controlledStop (p : Part) (t : Termination) : R p (p.controlledStop c t) := by
  unfold Part.controlledStop
  dsimp only
  refine h.trans (q := p.supersedeQueue c) (h.supersedeQueue p) ?_
  split
  · exact h.committed _ _ _ _ _ _ _
  · exact h.trans (h.chan _ _ _) (h.endMove _ _ _)
  · exact h.committed _ _ _ _ _ _ _
  · exact h.commit _ _ _ _ _

theorem ChannelSteps.cut (p : Part) (t : Termination) : R p (p.cut c t) := by
  unfold Part.cut
  dsimp only
  refine h.trans (q := (p.setChan c { p.chan c with en := false }).supersedeQueue c) (h.trans (h.chan _ _ _) (h.supersedeQueue _)) ?_
  split
  case h_1 | h_2 | h_3 => exact h.trans (h.chan _ _ _) (h.endMove _ _ _)
  case h_4 | h_5 | h_6 => exact h.committed _ _ _ _ _ _ _
  case h_7 | h_8 => exact h.commit _ _ _ _ _

theorem ChannelSteps.tripAction (b : Bool) (p : Part) : R p (p.tripAction b c) := by
  unfold Part.tripAction
  split
  case h_1 | h_2 | h_3 => exact Part.rel_ite (h.cut _ _) (h.controlledStop _ _)
  case h_4 | h_5 => exact h.trans (h.trans (h.chan _ _ _) (h.supersedeQueue _)) (h.commit _ _ _ _ _)
  all_goals exact h.refl p

theorem ChannelSteps.leaveHeld (p : Part) : R p (p.leaveHeld c) :=
  Part.rel_ite (h.trans (h.committed _ _ _ _ _ _ _) (h.modePark _)) (h.refl p)

theorem ChannelSteps.faultNow (p : Part) (cause : ChanFault) : R p (p.faultNow c cause) :=
  Part.rel_ite (h.trans (h.chan _ _ _) (h.faultEntry _ _)) (h.faultEntry _ _)

end

/-! ### The order table's shadows -/

/-- The part keeps as many shadows as before, under the same snapshot. -/
def Part.SlotsKept (p q : Part) : Prop := q.orders.slots.length = p.orders.slots.length ∧ q.run.layout = p.run.layout

theorem slotsKept : ChannelSteps Part.SlotsKept where
  refl _ := ⟨rfl, rfl⟩
  trans h1 h2 := ⟨h2.1.trans h1.1, h2.2.trans h1.2⟩
  told h := ⟨by rw [h.orders], by rw [h.run]⟩
  chan _ _ _ := ⟨rfl, rfl⟩
  report p i st code res := ⟨by rw [orders_report]; exact List.length_modify _ _ _, (near_report (c := 0) p i st code res).working.layout⟩
  count _ _ _ := ⟨rfl, rfl⟩

theorem Part.SlotsKept.hasSlot {p q : Part} {l : Layout} {i : Nat} (h : p.SlotsKept q) (hs : p.hasSlot l i) : q.hasSlot l i := by
  obtain ⟨hl, hv, hi, hlen⟩ := hs
  exact ⟨h.2.trans hl, hv, hi, by rw [h.1]; exact hlen⟩

end Sys2Proof.Machine
end

