-- ==== Sys2Proof/Proofs/OrderRows.lean ====
section
/-! MOVE, HOME, PARK and RELEASE orders (R66, R78): which are admitted, and what an admitted one does. -/

namespace Sys2Proof.Machine

/-! ### Guards, modes and frames -/

theorem guarded_iff (p : Part) (c : Fin 8) : p.guarded c = true ↔ ∃ g, p.covers g c = true := by
  have h : p.guarded c = true ↔ ∃ g ∈ p.guards.toList, (g.record.enable && g.record.mask.getLsbD c.val && g.state != .clear) = true := by
    rw [Part.guarded, List.any_eq_true]
  rw [h]
  constructor
  · rintro ⟨g, hg, hc⟩
    obtain ⟨n, hn, rfl⟩ := List.mem_iff_getElem.mp hg
    exact ⟨⟨n, by simpa using hn⟩, by simpa [Part.covers, Part.guard] using hc⟩
  · rintro ⟨g, hg⟩
    exact ⟨p.guards[g], by simp, hg⟩

theorem guarded_eq_false {p : Part} {c : Fin 8} (h : ∀ g, p.covers g c = false) : p.guarded c = false := by
  rw [Bool.eq_false_iff, Ne, guarded_iff]
  rintro ⟨g, hg⟩
  rw [h g] at hg
  cases hg

theorem Mode.quick_iff (m : Mode) : m.quick = true ↔ m = .opened ∨ m = .service := by cases m <;> decide

theorem Mode.quick_eq_false (m : Mode) : m.quick = false ↔ m ≠ .opened ∧ m ≠ .service := by cases m <;> decide

/-- In OPEN and SERVICE no channel is parked by the mode (R141). -/
theorem wantsPark_of_quick {p : Part} (h : p.modes.mode = .opened ∨ p.modes.mode = .service) : p.wantsPark = false := by
  rcases h with h | h <;> rw [Part.wantsPark, h] <;> rfl

@[simp] theorem Part.setChan_self (p : Part) (c : Fin 8) : p.setChan c (p.chan c) = p := by
  simp [Part.setChan, Part.setChannels, Part.chan]

theorem Channel.eq_of_view {x y : Channel} (h : y.view = x.view) : y = { x with lastWrite := y.lastWrite } := Channel.view_eq_iff.mp h

/-! ### Frames that take a change of the channel and of the order taker's state -/

section
variable {p q r : Part} {c : Fin 8}

theorem Part.OnlyChannel.setChan (p : Part) (c : Fin 8) (x : Channel) : p.OnlyChannel c (p.setChan c x) := by
  rw [Part.OnlyChannel, Part.setChan_chan_self]
  exact .refl _

theorem Part.Near.onlyChannel (h : p.Near c q) : p.OnlyChannel c q :=
  { h with
    taking := rfl
    takeQueue := rfl
    others := fun d hd => by rw [Part.setChan_chan_ne _ hd]; exact h.others d hd
    params := by rw [Part.setChan_chan_self]
    pins := by rw [Part.setChan_chan_self]
    queue := by rw [Part.setChan_chan_self] }

theorem Part.OnlyOrders.onlyChannel (h : p.OnlyOrders q) (c : Fin 8) : p.OnlyChannel c q :=
  { (h c) with
    taking := rfl
    takeQueue := rfl
    others := fun d hd => by rw [Part.setChan_chan_ne _ hd]; exact (h c).others d hd
    params := by rw [Part.setChan_chan_self]
    pins := by rw [Part.setChan_chan_self]
    queue := by rw [Part.setChan_chan_self] }

theorem Part.OnlyChannel.setOrders (p : Part) (c : Fin 8) (o : Orders) : p.OnlyChannel c (p.setOrders o) :=
  Part.OnlyOrders.onlyChannel (fun _ => .refl _) c

theorem Part.OnlyChannel.trans (a : p.OnlyChannel c q) (b : q.OnlyChannel c r) : p.OnlyChannel c r where
  run := by
    have hq : q.run = { p.run with attention := q.run.attention } := a.run
    have hr : r.run = { q.run with attention := r.run.attention } := b.run
    show r.run = { p.run with attention := r.run.attention }
    rw [hr, hq]
  runstate := b.runstate.trans a.runstate
  memerr := b.memerr.trans a.memerr
  time := b.time.trans a.time
  clock := b.clock.trans a.clock
  hostData := b.hostData.trans a.hostData
  prot := by
    have hq : q.prot = { p.prot with injection := { p.prot.injection with armed := q.prot.injection.armed } } := a.prot
    have hr : r.prot = { q.prot with injection := { q.prot.injection with armed := r.prot.injection.armed } } := b.prot
    show r.prot = { p.prot with injection := { p.prot.injection with armed := r.prot.injection.armed } }
    rw [hr, hq]
  taking := rfl
  takeQueue := rfl
  lines := b.lines.trans a.lines
  inputs := b.inputs.trans a.inputs
  bindings := b.bindings.trans a.bindings
  others d hd := by
    have h1 := a.others d hd
    have h2 := b.others d hd
    rw [Part.setChan_chan_ne _ hd, Part.setOrders_chan] at h1 h2 ⊢
    rw [h2, h1]
  params := by rw [Part.setChan_chan_self]
  pins := by rw [Part.setChan_chan_self]
  queue := by rw [Part.setChan_chan_self]
  guards := b.guards.trans a.guards
  modes := by
    have hq : q.modes = { p.modes with settling := q.modes.settling, restDue := q.modes.restDue } := a.modes
    have hr : r.modes = { q.modes with settling := r.modes.settling, restDue := r.modes.restDue } := b.modes
    show r.modes = { p.modes with settling := r.modes.settling, restDue := r.modes.restDue }
    rw [hr, hq]
  empty := b.empty.trans a.empty
  mem := fun h => b.mem (a.mem h)
  words := fun x h1 h2 => by
    have hrun : q.run = { p.run with attention := q.run.attention } := a.run
    refine (b.words x ?_ ?_).trans (a.words x h1 h2)
    · exact (Part.reportWord_run hrun x).trans h1
    · exact (Part.orderWord_run hrun x).trans h2

/-- An order on a channel ends within its take (R155): its slot shows it, and beside the channel nothing but reports and the order
taker's state changes. -/
theorem Part.OnlyChannel.endTake {l : Layout} {i : Nat} (h : p.OnlyChannel c q) (hslot : q.hasSlot l i) (hm : Memory.wf p.mem)
    (t : Termination) (res : Int) :
    (q.endTake i t res).SlotShows l i .finished t.code res ∧ (q.endTake i t res).orders.taking = none
      ∧ p.OnlyChannel c (q.endTake i t res) := by
  obtain ⟨hshows, htaking, honly⟩ := endTake_ends hslot (h.mem hm) t res
  exact ⟨hshows, htaking, h.trans (honly.onlyChannel c)⟩

theorem view_endTake (p : Part) (i : Nat) (t : Termination) (res : Int) (c : Fin 8) :
    ((p.endTake i t res).chan c).view = (p.chan c).view := view_report _ i .finished t.code res c

end

/-! ### MOVE, HOME and PARK orders (R63, R66) -/

/-- The row that acts on an order of a move, and the order's kind. -/
def movesBy (c : Instr) (k : OrderKind) : Prop := c = .move ∧ k = .move ∨ c = .home ∧ k = .home ∨ c = .park ∧ k = .park

/-- The move that a MOVE, HOME or PARK order asks of its channel (13.2, R66, R69). -/
def Taking.asks (t : Taking) (k : OrderKind) (x : Channel) : Move :=
  match k with
  | .home => { kind := .home, source := .order t.slot, target := .absent, scale := 0 }
  | .park => { kind := .park, source := .order t.slot, target := .absolute x.parkPosition, scale := (lowByte t.w5).toNat }
  | _ => { kind := .move, source := .order t.slot, target := t.moveTarget, scale := (lowByte t.w5).toNat }

theorem exec_movesBy {c : Instr} {k : OrderKind} {s : State} {l : Layout} {t : Taking} (hc : movesBy c k) (h : s.part.serving l k t) :
    exec c s = .next (s.setPart (s.part.offerMove t (t.asks k (s.part.chan t.chan)))) := by
  rcases hc with ⟨rfl, rfl⟩ | ⟨rfl, rfl⟩ | ⟨rfl, rfl⟩
  all_goals exact congrArg (done s) (withTaking_of_serving h rfl _)

theorem asks_kind {c : Instr} {k : OrderKind} (hc : movesBy c k) (t : Taking) (x : Channel) :
    ((t.asks k x).kind = .move ↔ k = .move) ∧ ((t.asks k x).kind = .home ↔ k = .home) := by
  rcases hc with ⟨-, rfl⟩ | ⟨-, rfl⟩ | ⟨-, rfl⟩ <;> simp [Taking.asks]

/-- An order's move that is refused ends there (R66). -/
theorem offerMove_refused {p : Part} {t : Taking} {m : Move} {code : RefusalCode} (h : p.refusesMove t.chan m.kind = some code) :
    p.offerMove t m = p.refuse t.slot code 0 := by rw [Part.offerMove, h]

/-- An order's move that passes the checks goes to its channel while RUNNING (R155, R66). -/
theorem offerMove_placed {p : Part} {t : Taking} {m : Move} (h : p.refusesMove t.chan m.kind = none) (hrun : p.run.state = .running) :
    p.offerMove t m = p.takePlaced.placeMove t.chan m := by
  rw [Part.offerMove, h]
  simp [Part.isRunning, hrun]

/-- In STOPPING it ends STOPPED (R162). -/
theorem offerMove_stopping {p : Part} {t : Taking} {m : Move} (h : p.refusesMove t.chan m.kind = none) (hrun : p.run.state = .stopping) :
    p.offerMove t m = p.endTake t.slot .stopped 0 := by
  rw [Part.offerMove, h]
  simp [Part.isRunning, hrun, Part.stoppedTake]

/-- A refused order leaves the hand table (R156). -/
theorem hand_refuse (p : Part) (i : Nat) (code : RefusalCode) (res : Int) : (p.refuse i code res).orders.hand = p.orders.hand := by
  rw [Part.refuse, orders_report]
  rfl

/-- Settles O28: the code is that of the first check of R66 that fails. -/
theorem moveOrdersRefused : Obligations.MoveOrdersRefused := by
  unfold Obligations.MoveOrdersRefused
  intro c k s l t hc hserving hm x code
  have ⟨_, _, _, hslot⟩ := hserving
  obtain ⟨hmove, hhome⟩ := asks_kind hc t (s.part.chan t.chan)
  have hcode : code = (s.part.refusesMove t.chan (t.asks k (s.part.chan t.chan)).kind).map RefusalCode.code := by
    simp only [Part.refusesMove, apply_ite (Option.map RefusalCode.code), hmove, ne_eq, hhome, guarded_iff, Mode.quick_eq_false,
      Bool.not_eq_true']
    rfl
  rw [exec_movesBy hc hserving, hcode]
  cases hfails : s.part.refusesMove t.chan (t.asks k (s.part.chan t.chan)).kind with
  | some r =>
    refine ⟨?_, nofun⟩
    rintro _ ⟨⟩
    rw [offerMove_refused hfails]
    obtain ⟨hshows, htaking, honly⟩ := refuse_ends hslot hm r 0
    exact ⟨_, rfl, hshows, htaking, hand_refuse _ _ _ _, honly⟩
  | none =>
    refine ⟨nofun, fun _ hrun => ?_⟩
    rw [offerMove_stopping hfails hrun]
    exact ⟨_, rfl, endTake_ends hslot hm .stopped 0⟩

/-- A move that passes every check of R66. -/
theorem refusesMove_eq_none {p : Part} {c : Fin 8} {kind : MoveKind} (he : (p.chan c).enabled = true)
    (hmode : kind = .move → p.modes.mode.quick = true) (hheld : (p.chan c).state ≠ .held) (hfault : (p.chan c).state ≠ .fault)
    (hg : p.guarded c = false) (hpark : kind = .move → (p.chan c).state = .parked → (p.chan c).parkCause ≠ some .mode)
    (hhomed : kind ≠ .home → (p.chan c).state ≠ .unhomed ∧ (p.chan c).state ≠ .homing) (hq : (p.chan c).queue.length < 4) :
    p.refusesMove c kind = none := by
  unfold Part.refusesMove
  dsimp only
  rw [if_neg (by simp [he]), if_neg (by rintro ⟨hk, h⟩; rw [hmode hk] at h; cases h), if_neg (by simp [hheld, hfault, hg]),
    if_neg (fun h => hpark h.1 h.2.1 h.2.2), if_neg (by rintro ⟨hk, h⟩; exact h.elim (hhomed hk).1 (hhomed hk).2),
    if_neg (show ¬ Config.queueDepth ≤ _ from Nat.not_le.mpr hq)]

/-- A channel that is not at rest with nothing queued takes an admitted move into its queue (R63, R66). -/
theorem placeMove_joins {p : Part} {c : Fin 8} (h : (p.chan c).startsAtOnce = false) (m : Move) :
    p.placeMove c m
      = (p.setChan c { p.chan c with queue := (p.chan c).queue ++ [m] }).commit c (p.chan c) 0 false := by
  simp [Part.placeMove, h]

/-- Settles O31: in motion the move joins the queue, and the order's slot stays in hand. -/
theorem moveJoinsQueue : Obligations.MoveJoinsQueue := by
  unfold Obligations.MoveJoinsQueue
  intro c k s l t hc hserving x hrun he hg hq hstate hmode
  obtain ⟨hmove, hhome⟩ := asks_kind hc t (s.part.chan t.chan)
  have hadmits : s.part.refusesMove t.chan (t.asks k x).kind = none := by
    refine refusesMove_eq_none he (fun hk => (Mode.quick_iff _).mpr (hmode (hmove.mp hk))) ?_ ?_ (guarded_eq_false hg) ?_ ?_ hq
    · rcases hstate with h | h | ⟨h, -⟩ <;> exact fun e => nomatch h.symm.trans e
    · rcases hstate with h | h | ⟨h, -⟩ <;> exact fun e => nomatch h.symm.trans e
    · rcases hstate with h | h | ⟨h, -⟩ <;> exact fun _ e => nomatch h.symm.trans e
    · rcases hstate with h | h | ⟨-, h⟩
      · exact fun _ => ⟨(fun e => nomatch h.symm.trans e), (fun e => nomatch h.symm.trans e)⟩
      · exact fun _ => ⟨(fun e => nomatch h.symm.trans e), (fun e => nomatch h.symm.trans e)⟩
      · exact fun hk => absurd (hhome.mpr h) hk
  have hmoving : (s.part.takePlaced.chan t.chan).startsAtOnce = false := by
    show x.startsAtOnce = false
    rw [Channel.startsAtOnce]
    rcases hstate with h | h | ⟨h, -⟩ <;> rw [h] <;> rfl
  rw [exec_movesBy hc hserving, offerMove_placed hadmits hrun, placeMove_joins hmoving]
  have hcommit := told_commit (s.part.takePlaced.setChan t.chan { x with queue := x.queue ++ [t.asks k x] }) t.chan x 0 false
  refine ⟨_, rfl, hcommit.orders, ?_, ?_⟩
  · exact ((Part.OnlyChannel.setOrders _ _ _).trans (.setChan _ _ _)).trans hcommit.near.onlyChannel
  · have hview := (view_told hcommit t.chan).trans (congrArg Channel.view (Part.setChan_chan_self _ _ _))
    refine (Channel.view_eq_iff.mp hview).trans ?_
    rcases hc with ⟨-, rfl⟩ | ⟨-, rfl⟩ | ⟨-, rfl⟩
    · rfl
    · rfl
    · have hpark : x.parkPosition = match x.params with | some pr => pr.parkPosition | none => 0 := rfl
      simp only [Taking.asks, hpark]
      rfl

/-! ### RELEASE (R78) -/

/-- In OPEN and SERVICE, and outside RUNNING, a channel that becomes IDLE starts no park (R141). -/
theorem modePark_of_not_wantsPark {p : Part} (h : p.wantsPark = false) (c : Fin 8) : p.modePark c = p := by
  unfold Part.modePark
  split
  · rw [if_neg (by rw [h]; simp)]
  · rfl

/-- Settles O34: the two ways out by the channel's state, and WRONG_STATE in every other case. -/
theorem releaseOrder : Obligations.ReleaseOrder := by
  unfold Obligations.ReleaseOrder
  intro s l t hserving hm x
  have ⟨_, _, _, hslot⟩ := hserving
  have hexec : exec .release s = .next (s.setPart (s.part.releaseOrder t)) := congrArg (done s) (withTaking_of_serving hserving rfl _)
  rw [hexec]
  unfold Part.releaseOrder
  dsimp only
  split
  · next hfault =>
    obtain ⟨he, hstate, hflt⟩ : x.enabled = true ∧ x.state = .fault ∧ x.pins.flt = false := hfault
    have hends := told_endFaults s.part t.chan
    have hcommit := told_commit ((s.part.endFaults t.chan).setChan t.chan ((s.part.endFaults t.chan).chan t.chan).releasedFault) t.chan
      x 0 true
    have honly := (hends.near.onlyChannel.trans (.setChan _ t.chan _)).trans hcommit.near.onlyChannel
    have hkept := slotsKept.trans (slotsKept.trans (slotsKept.told hends) (slotsKept.chan _ t.chan _)) (slotsKept.told hcommit)
    obtain ⟨hshows, htaking, hall⟩ := honly.endTake (hkept.hasSlot hslot) hm .complete x.s
    refine ⟨_, rfl, htaking, hall, fun _ _ _ => ⟨hshows, ?_⟩, fun _ h => ?_, fun h => ?_⟩
    · refine (Channel.eq_of_view (x := x.releasedFault) ?_).trans rfl
      obtain ⟨w, hw⟩ := exists_of_view (view_told hends t.chan)
      rw [view_endTake, view_told hcommit, Part.setChan_chan_self, hw]
      rfl
    · exact nomatch hstate.symm.trans h
    · exact absurd ⟨he, .inl ⟨hstate, hflt⟩⟩ h
  · next hfault =>
    split
    · next hpark =>
      obtain ⟨he, hstate, hcause⟩ : x.enabled = true ∧ x.state = .parked ∧ x.parkCause = some .host := hpark
      have hcommit := told_commit (s.part.setChan t.chan { x with state := .idle, parkCause := none }) t.chan x 0 true
      have honly := (Part.OnlyChannel.setChan s.part t.chan _).trans hcommit.near.onlyChannel
      have hkept := slotsKept.trans (slotsKept.chan s.part t.chan _) (slotsKept.told hcommit)
      obtain ⟨hshows, htaking, hall⟩ := (honly.trans (near_modePark _).onlyChannel).endTake
        ((slotsKept.trans hkept (slotsKept.modePark _)).hasSlot hslot) hm .complete x.s
      refine ⟨_, rfl, htaking, hall, fun _ h => ?_, fun _ _ _ hmode => ⟨hshows, ?_⟩, fun h => ?_⟩
      · exact nomatch hstate.symm.trans h
      · refine (Channel.eq_of_view (x := { x with state := .idle, parkCause := none }) ?_).trans rfl
        have hstays : ((s.part.setChan t.chan { x with state := .idle, parkCause := none }).commit t.chan x 0 true).wantsPark = false := by
          rw [hcommit.working.wantsPark]
          exact wantsPark_of_quick hmode
        rw [view_endTake, modePark_of_not_wantsPark hstays, view_told hcommit, Part.setChan_chan_self]
      · exact absurd ⟨he, .inr ⟨hstate, hcause⟩⟩ h
    · next hpark =>
      obtain ⟨hshows, htaking, honly⟩ := refuse_ends hslot hm .wrongState 0
      refine ⟨_, rfl, htaking, honly.onlyChannel _, fun he hs hf => ?_, fun he hs hc => ?_, fun _ => ⟨hshows, honly⟩⟩
      · exact absurd ⟨he, hs, hf⟩ hfault
      · exact absurd ⟨he, hs, hc⟩ hpark

end Sys2Proof.Machine
end

