-- ==== Sys2Proof/Proofs/MovesBegin.lean ====
section
/-! Moves that become current at once (R64, R67, R88 to R90): a MOVE or a PARK from rest, or already there; a HOME, found or failed at
once. -/

namespace Sys2Proof.Machine

section
variable {p q : Part} {c : Fin 8} {l : Layout} {i : Nat}

/-! ### What a slot shows, after more reports -/

theorem Part.SlotShows.told {st : SlotState} {code : Nat} {res : Int} (h : p.SlotShows l i st code res) (hs : p.hasSlot l i)
    (ht : p.Told q) : q.SlotShows l i st code res where
  w0 := (congrArg Cell.written (ht.words _ (hs.reportWord (k := 0) (by decide)))).trans h.w0
  w6 := (congrArg Cell.written (ht.words _ (hs.reportWord (k := 6) (by decide)))).trans h.w6
  w7 := (congrArg Cell.written (ht.words _ (hs.reportWord (k := 7) (by decide)))).trans h.w7
  shadow := by rw [ht.slot]; exact h.shadow

theorem Part.SlotShows.setChan {st : SlotState} {code : Nat} {res : Int} (h : p.SlotShows l i st code res) (c : Fin 8) (x : Channel) :
    (p.setChan c x).SlotShows l i st code res := ⟨h.w0, h.w6, h.w7, h.shadow⟩

theorem Part.SlotShows.countStopped {st : SlotState} {code : Nat} {res : Int} (h : p.SlotShows l i st code res) (c : Fin 8) (n : Int) :
    (p.countStopped c n).SlotShows l i st code res := ⟨h.w0, h.w6, h.w7, h.shadow⟩

/-- The end of an order's move is written into its slot, with S (R63, R65). -/
theorem finishMove_shows {m : Move} (hm : (p.chan c).current = some m) (hsrc : m.source = .order i) (hs : p.hasSlot l i)
    (hwf : Memory.wf p.mem) (t : Termination) : (p.finishMove c t).SlotShows l i .finished t.code (p.chan c).s := by
  have hreport : p.reportEnd c m t = p.report i .finished t.code (p.chan c).s := by rw [Part.reportEnd, hsrc]; rfl
  have hshows := report_slotShows hs hwf .finished t.code (p.chan c).s
  rw [Part.finishMove, hm]
  dsimp only
  rw [hreport]
  exact (hshows.countStopped c _).setChan c _

/-- A change of the channel, seen, leaves what a slot shows. -/
theorem Part.SlotShows.committed {st : SlotState} {code : Nat} {res : Int} (h : p.SlotShows l i st code res) (hs : p.hasSlot l i)
    (c : Fin 8) (x before : Channel) (cause : Nat) (always : Bool) :
    ((p.setChan c x).commit c before cause always).SlotShows l i st code res :=
  (h.setChan c x).told ((slotsKept.chan p c x).hasSlot hs) (told_commit _ _ _ _ _)

/-- Where no move follows the end of an order's move, its slot shows the end and S (R65). -/
theorem ends_shows {m : Move} {t : Termination} (hm : (p.chan c).current = some m) (hsrc : m.source = .order i) (hs : p.hasSlot l i)
    (hwf : Memory.wf p.mem) (hg : p.guarded c = false) (hl : (p.chan c).lost = true ∨ (p.chan c).params.isSome = true ∧ p.noneFollows c t)
    (n : Nat) (before : Channel) :
    (p.moveEvent (n + 1) c before (.ends t)).SlotShows l i .finished t.code (p.chan c).s := by
  have hshows := finishMove_shows hm hsrc hs hwf t
  have hkept := (slotsKept.finishMove (c := c) p t).hasSlot hs
  cases hlost : (p.chan c).lost with
  | true => rw [ends_lost hg hlost]; exact hshows.committed hkept _ _ _ _ _
  | false =>
    obtain ⟨hp, hn⟩ := hl.resolve_left (by rw [hlost]; decide)
    rw [ends_rest hg hlost hp hn]
    exact hshows.committed hkept _ _ _ _ _

theorem supersedeQueue_empty (h : (p.chan c).queue = []) : p.supersedeQueue c = p.setChan c (p.chan c).superseded := by
  simp only [Part.supersedeQueue, Channel.superseded, h, List.foldl_nil]

/-- An order's move that a fault ends shows FAULTED and S (R77 step 2), with nothing queued behind it. -/
theorem faultEntry_shows {m : Move} (hm : (p.chan c).current = some m) (hsrc : m.source = .order i) (hs : p.hasSlot l i)
    (hwf : Memory.wf p.mem) (hq : (p.chan c).queue = []) (cause : ChanFault) :
    (p.faultEntry c cause).SlotShows l i .finished 7 (p.chan c).s := by
  obtain ⟨r, hr⟩ : ∃ r, r = p.setChan c ((p.chan c).losePosition cause) := ⟨_, rfl⟩
  have hchan : r.chan c = (p.chan c).losePosition cause := by rw [hr, Part.setChan_chan_self]
  have hslot : r.hasSlot l i := hr ▸ (slotsKept.chan p c _).hasSlot hs
  have hwf' : Memory.wf r.mem := hr ▸ hwf
  have hshows := finishMove_shows (p := r) (c := c) (by rw [hchan]; exact hm) hsrc hslot hwf' .faulted
  have hqueue : ((r.finishMove c .faulted).chan c).queue = [] := by
    obtain ⟨-, -, h⟩ := finishMove_chan r c .faulted
    rw [h, hchan]
    exact hq
  have hkept := (slotsKept.finishMove (c := c) r .faulted).hasSlot hslot
  have hS : (r.chan c).s = (p.chan c).s := by rw [hchan]; rfl
  rw [hS] at hshows
  rw [Part.faultEntry, ← hr, supersedeQueue_empty hqueue]
  have hset := hshows.setChan c ((r.finishMove c .faulted).chan c).superseded
  have hsets := (slotsKept.chan _ c ((r.finishMove c .faulted).chan c).superseded).hasSlot hkept
  generalize (r.finishMove c .faulted).setChan c ((r.finishMove c .faulted).chan c).superseded = u at hset hsets ⊢
  have hfault := hset.setChan c ((u.chan c).inFault cause)
  have hraise := told_raiseAlert (u.setChan c ((u.chan c).inFault cause)) cause.alert (.channel c) (.one (p.chan c).zone) cause.severity
  have hfslot := (slotsKept.chan u c ((u.chan c).inFault cause)).hasSlot hsets
  exact (hfault.told hfslot hraise).told ((slotsKept.told hraise).hasSlot hfslot) (told_commit _ _ _ _ _)

theorem Channel.finished_of_current {x : Channel} {m : Move} (h : x.current = some m) :
    x.finished = { x with current := none, moveCount := x.moveCount + 1, prof := x.prof.atRest, pendingTerm := none,
                          heldMove := m.source.heldAfter x.heldMove } := by rw [Channel.finished, h]

/-- A homed channel that no guard holds is IDLE after a move that is no PARK (R65 step 3). -/
theorem Channel.rested_idle {x : Channel} {m : Move} {t : Termination} (hm : x.current = some m) (hk : m.kind ≠ .park) (hl : x.lost = false) :
    x.rested false t = { x.finished with state := .idle, parkCause := none } := by
  simp [Channel.rested, hl, restChoice, hm, hk]

/-- A channel whose current move a fault has ended (R77). -/
theorem Channel.faulted_of_current {x : Channel} {m : Move} (h : x.current = some m) (cause : ChanFault) :
    x.faulted cause = { x with
      state := .fault, faults := x.faults.add cause, faultCode := some cause, lost := true, parkCause := none, heldPark := none
      en := x.en && cause != .driver, current := none, prof := x.prof.atRest, pendingTerm := none
      heldMove := m.source.heldAfter x.heldMove, queue := [], moveCount := x.moveCount + 1 + BitVec.ofNat 16 x.queue.length } := by
  rw [Channel.faulted, Channel.finished_of_current (x := x.losePosition cause) h]
  rfl

/-! ### A MOVE or a PARK becomes current (R64, R88 to R90) -/

theorem usedScale_eq (scale : Nat) (service : Bool) :
    usedScale scale service = min (max 1 (min 100 scale)) (if service then 25 else 100) := by
  unfold usedScale
  cases service <;> simp only [Bool.false_and, Bool.true_and, decide_eq_true_eq, Bool.false_eq_true, if_false, if_true] <;> split_ifs <;> omega

/-- A channel that has started a MOVE or PARK from rest (R64, R90). -/
def Channel.moveStarted (x : Channel) (pr : Params) (m : Move) (service : Bool) : Channel :=
  { x.moveBegun pr m service with
    state := .moving, prof := (x.moveBegun pr m service).prof.start pr (pr.limit (m.asked x.s) * Config.step)
    tickS := x.endS, unissued := 0 }

/-- A MOVE or PARK given to a channel aims at its limited target, and starts from rest where it is not there yet (R64, R89, R90). -/
theorem giveMove_aims {pr : Params} {m : Move} (hp : (p.chan c).params = some pr) (hk : m.kind ≠ .home) :
    p.giveMove c m =
      if pr.limit (m.asked (p.chan c).s) * Config.step = (p.chan c).prof.p then
        (p.setChan c ((p.chan c).moveBegun pr m (p.modes.mode == .service))).moveEvent (4 * (p.chan c).queue.length + 7) c (p.chan c)
          (.ends ((p.chan c).moveBegun pr m (p.modes.mode == .service)).prof.arrival)
      else
        (p.setChan c ((p.chan c).moveStarted pr m (p.modes.mode == .service))).commit c (p.chan c) 0 true := by
  rw [Part.giveMove, Channel.chain]
  conv_lhs => rw [Part.moveEvent]
  dsimp only
  split
  · next hnone => rw [hnone] at hp; cases hp
  · next pr' hpr =>
    obtain rfl : pr' = pr := by rw [hpr] at hp; exact Option.some.inj hp
    split
    · next hhome => exact absurd hhome hk
    · rfl

end

/-- The target a MOVE or a PARK order asks for (13.2, R69). -/
theorem asked_asks {c : Instr} {k : OrderKind} (hc : c = .move ∧ k = .move ∨ c = .park ∧ k = .park) {x : Channel} {pr : Params}
    (hp : x.params = some pr) (t : Taking) :
    (t.asks k x).asked x.s = (if k = .park then pr.parkPosition
      else if t.w5.getLsbD 15 then x.s + long t.w3 t.w4 else long t.w3 t.w4) := by
  rcases hc with ⟨-, rfl⟩ | ⟨-, rfl⟩
  · simp only [Taking.asks, Move.asked, Taking.moveTarget]
    cases t.w5.getLsbD 15 <;> rfl
  · simp only [Taking.asks, Move.asked, Channel.parkPosition, hp]
    rfl

/-- Settles O29: a channel at rest aims at the limited target; it starts, or is there and the order ends. -/
theorem moveOrParkBegins : Obligations.MoveOrParkBegins := by
  unfold Obligations.MoveOrParkBegins
  intro c k s l t pr hc hserving hwf x asked target used hrun hp hen hq hlost hg hstate hmode
  have ⟨_, _, _, hslot⟩ := hserving
  have hmoves : movesBy c k := hc.imp_right .inr
  obtain ⟨hmove, hhome⟩ := asks_kind hmoves t x
  have hnothome : (t.asks k x).kind ≠ .home := fun h => by rcases hc with ⟨-, rfl⟩ | ⟨-, rfl⟩ <;> cases hhome.mp h
  have hasked : (t.asks k x).asked x.s = asked := asked_asks hc hp t
  have hadmits : s.part.refusesMove t.chan (t.asks k x).kind = none := by
    refine refusesMove_eq_none (by rw [Channel.enabled, hp]; exact hen) (fun hk => (Mode.quick_iff _).mpr (hmode (hmove.mp hk))) ?_ ?_
      (guarded_eq_false hg) ?_ (fun _ => ⟨?_, ?_⟩) (by rw [show (s.part.chan t.chan).queue = [] from hq]; decide)
    · rcases hstate with h | ⟨h, -⟩ <;> exact fun e => nomatch h.symm.trans e
    · rcases hstate with h | ⟨h, -⟩ <;> exact fun e => nomatch h.symm.trans e
    · rcases hstate with h | ⟨-, h⟩
      · exact fun _ e => nomatch h.symm.trans e
      · exact fun hk _ => h (hmove.mp hk)
    · rcases hstate with h | ⟨h, -⟩ <;> exact fun e => nomatch h.symm.trans e
    · rcases hstate with h | ⟨h, -⟩ <;> exact fun e => nomatch h.symm.trans e
  have hgive : s.part.takePlaced.placeMove t.chan (t.asks k x) = s.part.takePlaced.giveMove t.chan (t.asks k x) := by
    have hrest : (s.part.takePlaced.chan t.chan).startsAtOnce = true := by
      show x.startsAtOnce = true
      rw [Channel.startsAtOnce, hq]
      rcases hstate with h | ⟨h, -⟩ <;> rw [h] <;> rfl
    rw [Part.placeMove]
    exact if_pos hrest
  rw [exec_movesBy hmoves hserving, offerMove_placed hadmits hrun, hgive,
    giveMove_aims (show (s.part.takePlaced.chan t.chan).params = some pr from hp) hnothome]
  have htarget : pr.limit ((t.asks k x).asked x.s) = target := by rw [hasked]; rfl
  have hbase : s.part.OnlyChannel t.chan s.part.takePlaced := .setOrders _ _ _
  split
  · next hthere =>
    rw [show (s.part.takePlaced.chan t.chan) = x from rfl, htarget] at hthere
    obtain ⟨y, hy⟩ : ∃ y, y = x.moveBegun pr (t.asks k x) (s.part.modes.mode == .service) := ⟨_, rfl⟩
    show ∃ q, Host.Outcome.next (s.setPart ((s.part.takePlaced.setChan t.chan (x.moveBegun pr (t.asks k x)
      (s.part.modes.mode == .service))).moveEvent (4 * x.queue.length + 6 + 1) t.chan x (.ends (x.moveBegun pr (t.asks k x)
      (s.part.modes.mode == .service)).prof.arrival))) = Host.Outcome.next (s.setPart q) ∧ _
    rw [← hy]
    have hnear := near_moveEvent (c := t.chan) (4 * x.queue.length + 6 + 1) x (s.part.takePlaced.setChan t.chan y) (.ends y.prof.arrival)
    refine ⟨_, rfl, hnear.taking, (hbase.trans (.setChan _ _ y)).trans hnear.onlyChannel, fun h => absurd hthere h, fun _ hpark => ?_⟩
    have harrives : y.prof.arrival = if target = asked then .complete else .clamped := by
      have hclamped : y.prof.clamped = decide (target ≠ asked) := by rw [hy, ← htarget, ← hasked]; rfl
      rw [Profile.arrival, hclamped]
      by_cases h : target = asked <;> simp [h]
    obtain ⟨m, hm, hsrc, hkind⟩ : ∃ m, y.current = some m ∧ m.source = .order t.slot ∧ m.kind = (if k = .park then .park else .move) := by
      rw [hy]
      rcases hc with ⟨-, rfl⟩ | ⟨-, rfl⟩ <;> exact ⟨_, rfl, rfl, rfl⟩
    have hys : y.params = some pr ∧ y.lost = false ∧ y.queue = [] ∧ y.s = x.s ∧ y.prof.p = x.prof.p := by
      rw [hy]
      exact ⟨hp, hlost, hq, rfl, rfl⟩
    obtain ⟨hparams, hylost, hyqueue, hyS, hyp⟩ := hys
    have hnone : (s.part.takePlaced.setChan t.chan y).noneFollows t.chan y.prof.arrival := by
      refine .inr ⟨by rw [Part.setChan_chan_self, hyqueue], ?_⟩
      rcases hc with ⟨-, hk⟩ | ⟨-, hk⟩
      · exact .inl (wantsPark_of_quick (hmode hk))
      · refine .inr ⟨by rw [harrives, if_pos (hpark hk)], m, by rw [Part.setChan_chan_self, hm], by rw [hkind, if_pos hk]⟩
    have hsome : ((s.part.takePlaced.setChan t.chan y).chan t.chan).params.isSome = true := by rw [Part.setChan_chan_self, hparams]; rfl
    have hguard : (s.part.takePlaced.setChan t.chan y).guarded t.chan = false := guarded_eq_false hg
    have hshows := ends_shows (p := s.part.takePlaced.setChan t.chan y) (by rw [Part.setChan_chan_self, hm]) hsrc hslot hwf hguard
      (.inr ⟨hsome, hnone⟩) (4 * x.queue.length + 6) x
    have hview := view_ends (p := s.part.takePlaced.setChan t.chan y) (.inr (.inr ⟨hsome, hnone⟩)) (4 * x.queue.length + 6) x
    rw [hguard, Part.setChan_chan_self] at hview
    obtain ⟨w, hw⟩ := exists_of_view hview
    rw [Part.setChan_chan_self, hyS] at hshows
    have hcode : y.prof.arrival.code = if target = asked then 1 else 2 := by rw [harrives]; split <;> rfl
    rw [hcode] at hshows
    have hrested : y.rested false y.prof.arrival = { y.finished with
        state := if k = .park then .parked else .idle, parkCause := if k = .park then some .host else none } := by
      have hchoice : restChoice y.current y.prof.arrival = (if k = .park then (.parked, some .host) else (.idle, none)) := by
        rw [hm, harrives]
        rcases hc with ⟨-, rfl⟩ | ⟨-, rfl⟩
        · simp [restChoice, hkind]
        · simp [restChoice, hkind, hsrc, hpark rfl]
      rw [Channel.rested, if_neg (by decide), if_neg (by rw [hylost]; decide), hchoice]
      split <;> rfl
    refine ⟨hshows, ?_⟩
    rw [hw, hrested]
    have hfin : y.finished.current = none ∧ y.finished.prof.v = 0 ∧ y.finished.prof.p = y.prof.p := by
      unfold Channel.finished
      rw [hm]
      exact ⟨rfl, rfl, rfl⟩
    exact ⟨hfin.1, hfin.2.1, hfin.2.2.trans hyp, rfl, rfl⟩
  · next haway =>
    rw [show (s.part.takePlaced.chan t.chan) = x from rfl, htarget] at haway
    obtain ⟨z, hz⟩ : ∃ z, z = x.moveStarted pr (t.asks k x) (s.part.modes.mode == .service) := ⟨_, rfl⟩
    show ∃ q, Host.Outcome.next (s.setPart ((s.part.takePlaced.setChan t.chan (x.moveStarted pr (t.asks k x)
      (s.part.modes.mode == .service))).commit t.chan x 0 true)) = Host.Outcome.next (s.setPart q) ∧ _
    rw [← hz]
    have hcommit := told_commit (s.part.takePlaced.setChan t.chan z) t.chan x 0 true
    refine ⟨_, rfl, congrArg Orders.taking hcommit.orders, (hbase.trans (.setChan _ _ z)).trans hcommit.near.onlyChannel,
      fun _ => ⟨hcommit.orders, ?_⟩, fun h => absurd h haway⟩
    have hview : (((s.part.takePlaced.setChan t.chan z).commit t.chan x 0 true).chan t.chan).view = z.view := by
      rw [view_told hcommit, Part.setChan_chan_self]
    refine (Channel.eq_of_view hview).trans ?_
    have hstart : x.moveStarted pr (t.asks k x) (s.part.modes.mode == .service) = { x with
        state := .moving, parkCause := none, tickS := x.endS, unissued := 0
        current := some { t.asks k x with target := .absolute asked }
        prof := { p := x.prof.p, v := pr.vs, tickV := 0, positive := decide (x.prof.p < target * Config.step), phase := .accel, latch := false,
                  target := some (target * Config.step), clamped := decide (target ≠ asked),
                  cap := some (pr.cap (t.asks k x).scale (s.part.modes.mode == .service)), stopRate := none, stopPoint := none,
                  overrun := false } } := by
      rw [← htarget, ← hasked]
      rfl
    have hscale : (t.asks k x).scale = t.w5.toNat % 256 := by rcases hc with ⟨-, rfl⟩ | ⟨-, rfl⟩ <;> rfl
    have hcap : pr.cap (t.asks k x).scale (s.part.modes.mode == .service) = max pr.vs (pr.vmax * used / 100) := by
      simp only [Params.cap, usedScale_eq, hscale, beq_iff_eq]
      rfl
    rw [hz, hstart, hcap]
    rcases hc with ⟨-, rfl⟩ | ⟨-, rfl⟩ <;> rfl

/-! ### A HOME becomes current (R67, R68) -/

/-- A channel that searches for its home switch (R67, R100). -/
def Channel.homingBegun (x : Channel) (m : Move) : Channel :=
  { x.homeBegun m with state := .homing, dir := false, tickS := (x.homeBegun m).endS, unissued := 0 }

/-- A HOME given to a channel is found at once, searches, or fails at once (R67, R68). -/
theorem giveMove_homes {p : Part} {c : Fin 8} {pr : Params} {m : Move} (hp : (p.chan c).params = some pr) (hk : m.kind = .home) :
    p.giveMove c m =
      if (p.chan c).pins.home then
        (p.setChan c (((p.chan c).homeBegun m).homedAt pr)).moveEvent (4 * (p.chan c).queue.length + 7) c (p.chan c) (.ends .complete)
      else if (p.chan c).pins.limitLo then
        ((p.setChan c ((p.chan c).homingBegun m)).commit c (p.chan c) 0 true).faultEntry c .homeFail
      else (p.setChan c ((p.chan c).homingBegun m)).commit c (p.chan c) 0 true := by
  rw [Part.giveMove, Channel.chain]
  conv_lhs => rw [Part.moveEvent]
  dsimp only
  split
  · next hnone => rw [hnone] at hp; cases hp
  · next pr' hpr =>
    obtain rfl : pr' = pr := by rw [hpr] at hp; exact Option.some.inj hp
    split
    · rfl
    · next hhome => exact absurd hk hhome

theorem stepsOf_mul (n : Int) : stepsOf (n * Config.step) = n := by
  show (n * 16777216 + 8388608) / 16777216 = n
  omega

/-- Settles O30: by the switches HOME and LIMIT_LO the home is found, fails or searches. -/
theorem homeBegins : Obligations.HomeBegins := by
  unfold Obligations.HomeBegins
  intro s l t pr hserving hwf x hrun hp hen hq hg hstate
  have ⟨_, _, _, hslot⟩ := hserving
  have hadmits : s.part.refusesMove t.chan (t.asks .home x).kind = none := by
    refine refusesMove_eq_none (by rw [Channel.enabled, hp]; exact hen) nofun ?_ ?_ (guarded_eq_false hg) nofun (fun h => absurd rfl h)
      (by rw [show (s.part.chan t.chan).queue = [] from hq]; decide)
    · rcases hstate with h | h | h <;> exact fun e => nomatch h.symm.trans e
    · rcases hstate with h | h | h <;> exact fun e => nomatch h.symm.trans e
  have hgive : s.part.takePlaced.placeMove t.chan (t.asks .home x) = s.part.takePlaced.giveMove t.chan (t.asks .home x) := by
    have hrest : (s.part.takePlaced.chan t.chan).startsAtOnce = true := by
      show x.startsAtOnce = true
      rw [Channel.startsAtOnce, hq]
      rcases hstate with h | h | h <;> rw [h] <;> rfl
    rw [Part.placeMove]
    exact if_pos hrest
  have hbase : s.part.OnlyChannel t.chan s.part.takePlaced := .setOrders _ _ _
  rw [exec_movesBy (.inr (.inl ⟨rfl, rfl⟩)) hserving, offerMove_placed hadmits hrun, hgive,
    giveMove_homes (show (s.part.takePlaced.chan t.chan).params = some pr from hp) rfl]
  have hmode (h : s.part.modes.mode = .opened ∨ s.part.modes.mode = .service) : s.part.takePlaced.wantsPark = false := wantsPark_of_quick h
  have hchan : s.part.takePlaced.chan t.chan = x := rfl
  have hslot' : s.part.takePlaced.hasSlot l t.slot := hslot
  have hguard : s.part.takePlaced.guarded t.chan = false := guarded_eq_false hg
  have htaking : s.part.takePlaced.orders.taking = none := rfl
  have hwf' : Memory.wf s.part.takePlaced.mem := hwf
  obtain ⟨m, hm⟩ : ∃ m, m = t.asks .home x := ⟨_, rfl⟩
  have hsrc : m.source = .order t.slot ∧ m.kind = .home := by rw [hm]; exact ⟨rfl, rfl⟩
  rw [← hm, hchan]
  generalize s.part.takePlaced = r at *
  split
  · next hhome =>
    obtain ⟨y, hy⟩ : ∃ y, y = (x.homeBegun m).homedAt pr := ⟨_, rfl⟩
    rw [← hy]
    have hys : y.params = some pr ∧ y.lost = false ∧ y.queue = [] ∧ y.current = some m ∧ y.unissued = 0
        ∧ y.prof.p = pr.homeOffset * Config.step := by
      rw [hy]
      exact ⟨hp, rfl, hq, rfl, rfl, rfl⟩
    obtain ⟨hparams, hlost, hqueue, hcur, huniss, hpos⟩ := hys
    have hS : y.s = pr.homeOffset := by rw [Channel.s, Channel.endS, hpos, stepsOf_mul, huniss]; split <;> omega
    have hnear := near_moveEvent (c := t.chan) (4 * x.queue.length + 7) x (r.setChan t.chan y) (.ends .complete)
    refine ⟨_, rfl, hnear.taking.trans htaking, (hbase.trans (.setChan _ _ y)).trans hnear.onlyChannel, fun h => ?_, fun _ hquick => ?_,
      fun h => ?_⟩
    · rw [h] at hhome; cases hhome
    · have hsome : ((r.setChan t.chan y).chan t.chan).params.isSome = true := by rw [Part.setChan_chan_self, hparams]; rfl
      have hnone : (r.setChan t.chan y).noneFollows t.chan .complete :=
        .inr ⟨by rw [Part.setChan_chan_self, hqueue], .inl (hmode hquick)⟩
      have hshows := ends_shows (p := r.setChan t.chan y) (by rw [Part.setChan_chan_self, hcur]) hsrc.1
        ((slotsKept.chan r t.chan y).hasSlot hslot') hwf' hguard (.inr ⟨hsome, hnone⟩) (4 * x.queue.length + 6) x
      have hview := view_ends (p := r.setChan t.chan y) (.inr (.inr ⟨hsome, hnone⟩)) (4 * x.queue.length + 6) x
      rw [show (r.setChan t.chan y).guarded t.chan = false from hguard, Part.setChan_chan_self] at hview
      obtain ⟨w, hw⟩ := exists_of_view hview
      rw [Part.setChan_chan_self, hS] at hshows
      refine ⟨hshows, ?_⟩
      rw [hw, Channel.rested_idle hcur (by rw [hsrc.2]; decide) hlost]
      refine ⟨rfl, y.finished_lost.trans hlost, ?_, by rw [Channel.finished_of_current hcur]⟩
      rw [Channel.finished_of_current hcur]
      exact hS
    · rw [h] at hhome; cases hhome
  · next hhome =>
    obtain ⟨y, hy⟩ : ∃ y, y = x.homingBegun m := ⟨_, rfl⟩
    rw [← hy]
    split
    · next hlow =>
      have hcommit := told_commit (r.setChan t.chan y) t.chan x 0 true
      have hchan' : (((r.setChan t.chan y).commit t.chan x 0 true).chan t.chan).view = y.view := by
        rw [view_told hcommit, Part.setChan_chan_self]
      have hnear := near_faultEntry (c := t.chan) ((r.setChan t.chan y).commit t.chan x 0 true) .homeFail
      refine ⟨_, rfl, hnear.taking.trans ((congrArg Orders.taking hcommit.orders).trans htaking),
        ((hbase.trans (.setChan _ _ y)).trans hcommit.near.onlyChannel).trans hnear.onlyChannel, fun _ h => ?_, fun h => ?_, fun _ _ => ?_⟩
      · exact nomatch hlow.symm.trans h
      · exact absurd h hhome
      · obtain ⟨w, hw⟩ := exists_of_view hchan'
        have hys : y.queue = [] ∧ y.current = some m ∧ y.s = stepsOf x.prof.p := by
          rw [hy]
          refine ⟨hq, rfl, ?_⟩
          rw [Channel.s]
          exact (if_pos (Int.le_refl _)).trans (Int.sub_zero _)
        obtain ⟨hqueue, hcur, hS⟩ := hys
        have hkept := slotsKept.trans (slotsKept.chan r t.chan y) (slotsKept.told hcommit)
        have hshows := faultEntry_shows (p := (r.setChan t.chan y).commit t.chan x 0 true) (c := t.chan) (m := m) (by rw [hw]; exact hcur)
          hsrc.1 (hkept.hasSlot hslot') (hcommit.mem hwf') (by rw [hw]; exact hqueue) .homeFail
        have hS' : (((r.setChan t.chan y).commit t.chan x 0 true).chan t.chan).s = stepsOf x.prof.p := by rw [hw]; exact hS
        rw [hS'] at hshows
        obtain ⟨v, hv⟩ := exists_of_view (view_faultEntry ((r.setChan t.chan y).commit t.chan x 0 true) t.chan .homeFail)
        rw [hv, hw, Channel.faulted_of_current (x := { y with lastWrite := w }) hcur]
        exact ⟨hshows, rfl, rfl, rfl, rfl⟩
    · next hlow =>
      have hcommit := told_commit (r.setChan t.chan y) t.chan x 0 true
      refine ⟨_, rfl, (congrArg Orders.taking hcommit.orders).trans htaking, (hbase.trans (.setChan _ _ y)).trans hcommit.near.onlyChannel,
        fun _ _ => ?_, fun h => absurd h hhome, fun _ h => absurd h hlow⟩
      have hview : (((r.setChan t.chan y).commit t.chan x 0 true).chan t.chan).view = y.view := by
        rw [view_told hcommit, Part.setChan_chan_self]
      refine (Channel.eq_of_view hview).trans ?_
      rw [hy, hm]
      rfl

end Sys2Proof.Machine
end

