-- ==== Sys2Proof/Proofs/StopOrders.lean ====
section
/-! STOP orders (R73, R74, R158): the cut of a channel, and the controlled stop that waits in the hand table. -/

namespace Sys2Proof.Machine

section
variable {p q : Part} {c : Fin 8} {t : Taking}

/-- A STOP whose target is below 8 names that one channel (R73). -/
theorem stopOne_of_lt (h : t.target.toNat < 8) : t.stopOne = some t.chan := by
  rw [Taking.stopOne, if_neg]
  rintro h15
  rw [h15] at h
  exact absurd h (by decide)

theorem stopNamed_of_lt (h : t.target.toNat < 8) : t.stopNamed = [t.chan] := by rw [Taking.stopNamed, stopOne_of_lt h]

theorem stopCut_of_lt (h : t.target.toNat < 8) (p : Part) :
    p.stopCut t = (p.cut t.chan .cut).endTake t.slot .complete ((p.cut t.chan .cut).chan t.chan).s := by
  simp only [Part.stopCut, stopNamed_of_lt h, List.foldl_cons, List.foldl_nil, Part.stopResult, stopOne_of_lt h]

/-! ### What a cut makes of a channel (R74) -/

/-- A channel cut while in motion stands where the pulses issued have brought it (R74, R85). -/
def Channel.cutShort (x : Channel) : Channel := { { x.superseded with en := false }.halt with lost := true }

@[simp] theorem Channel.cutShort_s (x : Channel) : x.cutShort.s = x.s := by
  show (if x.tickS ≤ stepsOf (x.s * Config.step) then stepsOf (x.s * Config.step) - ((0 : Nat) : Int)
    else stepsOf (x.s * Config.step) + ((0 : Nat) : Int)) = x.s
  rw [stepsOf_mul]
  split <;> omega

/-- A channel after a cut, by its state (R74). -/
def Channel.cutAs (x : Channel) (guarded : Bool) (t : Termination) : Channel :=
  match x.state with
  | .moving | .stopping | .homing => x.cutShort.rested guarded t
  | .idle | .parked => { x.superseded with en := false, lost := true, parkCause := none, state := .unhomed }
  | .held => { x.superseded with en := false, lost := true }
  | .unhomed | .fault => { x.superseded with en := false }

theorem view_cut (p : Part) (c : Fin 8) (t : Termination) :
    ((p.cut c t).chan c).view = ((p.chan c).cutAs (p.guarded c) t).view := by
  unfold Channel.cutAs
  split
  case h_1 h | h_2 h | h_3 h => exact view_cut_motion (by rw [h]; rfl) t
  case h_4 h => exact view_cut_idle (.inl h) t
  case h_5 h => exact view_cut_idle (.inr h) t
  case h_6 h => exact view_cut_held h t
  case h_7 h => exact view_cut_off (.inl h) t
  case h_8 h => exact view_cut_off (.inr h) t

/-- A channel in motion on a move, after a cut: at rest where it stands, HELD or UNHOMED. -/
theorem Channel.cutAs_motion {x : Channel} (hs : x.state.inMotion = true) {m : Move} (hm : x.current = some m) (guarded : Bool)
    (t : Termination) :
    x.cutAs guarded t = { x.cutShort with
      state := if guarded then .held else .unhomed
      heldPark := if guarded then none else x.heldPark
      parkCause := none, current := none, prof := x.cutShort.prof.atRest, pendingTerm := none
      moveCount := if guarded then x.cutShort.moveCount + 1 + 0 else x.cutShort.moveCount + 1
      heldMove := m.source.heldAfter x.heldMove } := by
  have hcut : x.cutAs guarded t = x.cutShort.rested guarded t := by
    unfold Channel.cutAs
    split
    case h_1 | h_2 | h_3 => rfl
    all_goals
      next h => rw [h] at hs; cases hs
  rw [hcut, Channel.rested, Channel.finished_of_current (x := x.cutShort) hm]
  cases guarded <;> rfl

/-- What a cut keeps and takes of a channel in every state (R73, R74). -/
theorem Channel.cutAs_keeps {x : Channel} (hc : x.state.inMotion = true → x.current.isSome = true) (guarded : Bool) (t : Termination) :
    (x.cutAs guarded t).en = false ∧ (x.cutAs guarded t).queue = [] ∧ (x.cutAs guarded t).s = x.s
      ∧ (x.cutAs guarded t).params = x.params ∧ (x.cutAs guarded t).pins = x.pins := by
  cases hs : x.state.inMotion with
  | true =>
    obtain ⟨m, hm⟩ := Option.isSome_iff_exists.mp (hc hs)
    rw [Channel.cutAs_motion hs hm]
    exact ⟨rfl, rfl, x.cutShort_s, rfl, rfl⟩
  | false =>
    unfold Channel.cutAs
    split
    case h_1 h | h_2 h | h_3 h => rw [h] at hs; cases hs
    all_goals exact ⟨rfl, rfl, rfl, rfl, rfl⟩

/-- Settles O33: the power is off and the queue gone in every state, and the rest is by the state. -/
theorem stopCutTakesPower : Obligations.StopCutTakesPower := by
  unfold Obligations.StopCutTakesPower
  intro s l t hserving hwf hw3 ht x hcurrent
  have ⟨_, _, _, hslot⟩ := hserving
  have hexec : exec .stopCut s = .next (s.setPart (s.part.stopCut t)) :=
    congrArg (done s) (withTaking_of_serving hserving (by rw [hw3]; rfl) _)
  rw [hexec, stopCut_of_lt ht]
  obtain ⟨w, hw⟩ := exists_of_view (view_cut s.part t.chan .cut)
  obtain ⟨hen, hqueue, hS, hparams, hpins⟩ := Channel.cutAs_keeps (x := x) (fun h => hcurrent ((ChanState.inMotion_iff _).mp h))
    (s.part.guarded t.chan) .cut
  have hS' : ((s.part.cut t.chan .cut).chan t.chan).s = x.s := by rw [hw]; exact hS
  rw [hS']
  obtain ⟨hshows, htaking, honly⟩ := (near_cut (c := t.chan) s.part .cut).onlyChannel.endTake ((slotsKept.cut s.part .cut).hasSlot hslot)
    hwf .complete x.s
  obtain ⟨v, hv⟩ := exists_of_view (view_endTake (s.part.cut t.chan .cut) t.slot .complete x.s t.chan)
  refine ⟨_, rfl, htaking, hshows, honly, ?_⟩
  rw [hv, hw]
  refine ⟨hen, hqueue, hS, hparams, hpins, fun hm => ?_, fun hi => ?_, fun hh => ?_, fun ho => ?_⟩
  · have hmotion : x.state.inMotion = true := (ChanState.inMotion_iff _).mpr hm
    obtain ⟨m, hm'⟩ := Option.isSome_iff_exists.mp (hcurrent hm)
    rw [Channel.cutAs_motion hmotion hm']
    refine ⟨rfl, rfl, rfl, rfl, fun hg => ?_, fun hg => ?_⟩
    · rw [(guarded_iff _ _).mpr hg]; rfl
    · rw [guarded_eq_false hg]; rfl
  · unfold Channel.cutAs
    rcases hi with h | h <;> rw [h] <;> exact ⟨rfl, rfl, rfl⟩
  · unfold Channel.cutAs
    rw [hh]
    exact ⟨hh, rfl⟩
  · unfold Channel.cutAs
    rcases ho with h | h <;> rw [h] <;> exact ⟨h, rfl⟩

end

/-! ### A controlled stop and the hand table (R71, R73, R158) -/

/-- A waiting STOP CONTROLLED whose named channels have all counted ends, as STOP_WAIT_END ends it (R158). -/
def Part.endStop (p : Part) (slot : Nat) : Part :=
  match p.handOf slot with
  | some { slot := i, work := .stop _ [] result } => (p.dropHand i).reportDone i .complete result
  | _ => p

theorem exec_stopWaitEnd (slot : BitVec 6) (s : State) : exec (.stopWaitEnd slot) s = .next (s.setPart (s.part.endStop slot.toNat)) := rfl

section
variable {p q : Part} {c : Fin 8} {t : Taking}

theorem endStop_counted {slot i : Nat} {one : Option (Fin 8)} {r : Int}
    (h : p.handOf slot = some { slot := i, work := .stop one [] r }) :
    p.endStop slot = (p.dropHand i).reportDone i .complete r := by
  rw [Part.endStop, h]

theorem endStop_waits {slot i : Nat} {one : Option (Fin 8)} {waiting : List (Fin 8)} {r : Int}
    (h : p.handOf slot = some { slot := i, work := .stop one waiting r }) (hw : waiting ≠ []) : p.endStop slot = p := by
  cases waiting with
  | nil => exact absurd rfl hw
  | cons a l => rw [Part.endStop, h]

theorem near_endStop (p : Part) (slot : Nat) : p.Near c (p.endStop slot) := by
  unfold Part.endStop
  split
  · exact (near_dropHand _ _).trans (near_reportDone _ _ _ _)
  · exact .refl p

/-- The part when a STOP CONTROLLED of one channel has been put into the hand table (R155). -/
def Part.stopPlaced (p : Part) (t : Taking) : Part :=
  p.takePlaced.addHand { slot := t.slot, work := .stop (some t.chan) (if (p.chan t.chan).state.inMotion then [t.chan] else []) (p.chan t.chan).s }

/-- A STOP CONTROLLED of one channel. -/
theorem stopControlled_of_lt (h : t.target.toNat < 8) (p : Part) :
    p.stopControlled t =
      if p.isRunning = false ∧ (p.chan t.chan).state.inMotion = true then p.stoppedTake t
      else ((p.stopPlaced t).controlledStop t.chan .stopped).endStop t.slot := by
  have hmoving : p.stopMoving t = if (p.chan t.chan).state.inMotion then [t.chan] else [] := by
    rw [Part.stopMoving, stopNamed_of_lt h]
    cases hm : (p.chan t.chan).state.inMotion <;> simp [hm]
  have hcond : (if (p.chan t.chan).state.inMotion then [t.chan] else []) ≠ [] ↔ (p.chan t.chan).state.inMotion = true := by
    cases (p.chan t.chan).state.inMotion <;> simp
  simp only [Part.stopControlled, hmoving, hcond, stopNamed_of_lt h, List.foldl_cons, List.foldl_nil, Part.stopResult, stopOne_of_lt h]
  rfl

theorem hand_reportEnd (p : Part) (c : Fin 8) (m : Move) (t : Termination) : (p.reportEnd c m t).orders.hand = p.orders.hand := by
  unfold Part.reportEnd
  split
  · rw [Part.reportDone, orders_report]
  · rfl

/-- A queue superseded leaves the hand table. -/
theorem hand_supersedeQueue (p : Part) (c : Fin 8) : (p.supersedeQueue c).orders.hand = p.orders.hand := by
  have hfold (l : List Move) (q : Part) : (l.foldl (fun q m => q.reportEnd c m .superseded) q).orders.hand = q.orders.hand := by
    induction l generalizing q with
    | nil => rfl
    | cons m l ih => exact (ih _).trans (hand_reportEnd q c m .superseded)
  exact hfold _ _

/-- A controlled stop of a channel that has no home to end leaves the hand table. -/
theorem hand_controlledStop (h : (p.chan c).state ≠ .homing) (t : Termination) : (p.controlledStop c t).orders.hand = p.orders.hand := by
  have hq := hand_supersedeQueue p c
  unfold Part.controlledStop
  dsimp only
  split
  · rw [(told_commit _ _ _ _ _).orders]; exact hq
  · next hs => exact absurd hs h
  · rw [(told_commit _ _ _ _ _).orders]; exact hq
  · rw [(told_commit _ _ _ _ _).orders]; exact hq

/-- The hand table's entry of a slot that no other entry has. -/
theorem handOf_append {hand : List HandEntry} {e : HandEntry} (hp : p.orders.hand = hand ++ [e]) (hne : ∀ x ∈ hand, x.slot ≠ e.slot) :
    p.handOf e.slot = some e := by
  have hnone : hand.find? (fun x => x.slot == e.slot) = none := by
    rw [List.find?_eq_none]
    intro x hx
    simpa using hne x hx
  rw [Part.handOf, hp, List.find?_append, hnone]
  simp

theorem stopPlaced_chan (p : Part) (t : Taking) (c : Fin 8) : (p.stopPlaced t).chan c = p.chan c := rfl

theorem stopPlaced_hand (p : Part) (t : Taking) : (p.stopPlaced t).orders.hand = p.orders.hand ++
    [{ slot := t.slot, work := .stop (some t.chan) (if (p.chan t.chan).state.inMotion then [t.chan] else []) (p.chan t.chan).s }] := rfl

/-- A channel that is not in motion counts at once: the order ends COMPLETE with its S (R73, R158). -/
theorem stopPlaced_still {l : Layout} (hslot : p.hasSlot l t.slot) (hwf : Memory.wf p.mem) (hhand : ∀ e ∈ p.orders.hand, e.slot ≠ t.slot)
    (hstill : (p.chan t.chan).state.inMotion = false) :
    (((p.stopPlaced t).controlledStop t.chan .stopped).endStop t.slot).SlotShows l t.slot .finished 1 (p.chan t.chan).s
      ∧ (((p.stopPlaced t).controlledStop t.chan .stopped).endStop t.slot).orders.hand = p.orders.hand
      ∧ ((((p.stopPlaced t).controlledStop t.chan .stopped).endStop t.slot).chan t.chan).view = (p.chan t.chan).superseded.view := by
  have hhome : ((p.stopPlaced t).chan t.chan).state ≠ .homing := by
    rw [stopPlaced_chan]
    intro h
    rw [h] at hstill
    cases hstill
  have hhand' := (hand_controlledStop hhome .stopped).trans (stopPlaced_hand p t)
  have hview := view_controlledStop_still (p := p.stopPlaced t) (c := t.chan) hstill .stopped
  have hwf' := (near_controlledStop (c := t.chan) (p.stopPlaced t) .stopped).mem hwf
  have hkept := (slotsKept.controlledStop (c := t.chan) (p.stopPlaced t) .stopped).hasSlot hslot
  rw [hstill] at hhand'
  rw [stopPlaced_chan] at hview
  generalize (p.stopPlaced t).controlledStop t.chan .stopped = r at hhand' hview hwf' hkept ⊢
  have hdropped : (r.dropHand t.slot).orders.hand = p.orders.hand := by
    show r.orders.hand.filter (fun e => e.slot ≠ t.slot) = _
    rw [hhand', List.filter_append, List.filter_eq_self.mpr (fun e he => by simpa using hhand e he)]
    simp
  rw [endStop_counted (handOf_append hhand' hhand)]
  refine ⟨report_slotShows (p := r.dropHand t.slot) hkept hwf' .finished 1 _, ?_, (view_report (r.dropHand t.slot) _ _ _ _ _).trans hview⟩
  rw [Part.reportDone, orders_report]
  exact hdropped

/-- A MOVING channel begins its stop, and the order waits for it (R71, R158). -/
theorem stopPlaced_moving (hhand : ∀ e ∈ p.orders.hand, e.slot ≠ t.slot) (hmoving : (p.chan t.chan).state = .moving) :
    (((p.stopPlaced t).controlledStop t.chan .stopped).endStop t.slot).orders.hand
        = p.orders.hand ++ [{ slot := t.slot, work := .stop (some t.chan) [t.chan] (p.chan t.chan).s }]
      ∧ ((((p.stopPlaced t).controlledStop t.chan .stopped).endStop t.slot).chan t.chan).view
        = ((p.chan t.chan).superseded.stopBegun .stopped).view := by
  have hhome : ((p.stopPlaced t).chan t.chan).state ≠ .homing := by
    rw [stopPlaced_chan, hmoving]
    decide
  have hhand' := (hand_controlledStop hhome .stopped).trans (stopPlaced_hand p t)
  have hview := view_controlledStop_moving (p := p.stopPlaced t) (c := t.chan) hmoving .stopped
  rw [hmoving] at hhand'
  rw [endStop_waits (handOf_append hhand' hhand) (List.cons_ne_nil _ _)]
  exact ⟨hhand', hview⟩

end

/-- Settles O32: a STOP of one channel waits for it, or ends, by the channel's state and the run state; the wait ends once it has counted. -/
theorem stopControlledWaits : Obligations.StopControlledWaits := by
  unfold Obligations.StopControlledWaits
  refine ⟨fun s l t hserving hwf hw3 ht hhand => ?_, fun slot s l one waiting r hslot hwf hentry => ⟨fun hw => ?_, ?_⟩⟩
  · have ⟨_, _, _, hslot⟩ := hserving
    intro x
    have hexec : exec .stopControlled s = .next (s.setPart (s.part.stopControlled t)) :=
      congrArg (done s) (withTaking_of_serving hserving (by rw [hw3]; rfl) _)
    rw [hexec, stopControlled_of_lt ht]
    split
    · next hstops =>
      obtain ⟨hrun, hmotion⟩ := hstops
      obtain ⟨hshows, htaking, honly⟩ := endTake_ends hslot hwf .stopped 0
      refine ⟨_, rfl, htaking, honly.onlyChannel _, fun h1 h2 h3 => ?_, fun _ hr => ?_, fun _ _ => ⟨hshows, ?_⟩⟩
      · rcases (ChanState.inMotion_iff _).mp hmotion with h | h | h
        · exact absurd h h1
        · exact absurd h h2
        · exact absurd h h3
      · rw [Part.isRunning, hr] at hrun; cases hrun
      · rw [Part.stoppedTake, Part.endTake, Part.reportDone, orders_report]
        rfl
    · next hgoes =>
      obtain ⟨r, hr⟩ : ∃ r, r = (s.part.stopPlaced t).controlledStop t.chan .stopped := ⟨_, rfl⟩
      have hnear : (s.part.stopPlaced t).Near t.chan r := hr ▸ near_controlledStop _ _
      have honly : s.part.OnlyChannel t.chan (r.endStop t.slot) :=
        ((Part.OnlyChannel.setOrders _ _ _).trans hnear.onlyChannel).trans (near_endStop r t.slot).onlyChannel
      have hkept : r.hasSlot l t.slot := hr ▸ (slotsKept.controlledStop (s.part.stopPlaced t) .stopped).hasSlot hslot
      rw [← hr]
      refine ⟨_, rfl, (near_endStop (c := t.chan) r t.slot).taking.trans hnear.taking, honly, fun h1 h2 h3 => ?_, fun hmoving hrun => ?_,
        fun hmotion hrun => ?_⟩
      · have hstill : x.state.inMotion = false := by
          rw [Bool.eq_false_iff, Ne, ChanState.inMotion_iff]
          rintro (h | h | h)
          · exact h1 h
          · exact h2 h
          · exact h3 h
        rw [hr]
        obtain ⟨hshows, hend, hview⟩ := stopPlaced_still hslot hwf hhand hstill
        refine ⟨hshows, hend, ?_⟩
        obtain ⟨v, hv⟩ := exists_of_view hview
        rw [hv]
        rfl
      · rw [hr]
        obtain ⟨hend, hview⟩ := stopPlaced_moving hhand hmoving
        refine ⟨hend, ?_⟩
        obtain ⟨v, hv⟩ := exists_of_view hview
        rw [hv]
        rfl
      · refine absurd ⟨?_, (ChanState.inMotion_iff _).mpr hmotion⟩ hgoes
        rw [Part.isRunning, hrun]
        rfl
  · rw [exec_stopWaitEnd, endStop_waits hentry hw]
    rfl
  · rintro rfl
    rw [exec_stopWaitEnd, endStop_counted hentry]
    refine ⟨_, rfl, report_slotShows (p := s.part.dropHand slot.toNat) hslot hwf .finished 1 r, ?_, ?_⟩
    · rw [Part.reportDone, orders_report]
      rfl
    · exact Part.onlyOrders_of_near (o := (s.part.dropHand slot.toNat).orders) (fun _ => near_reportDone _ _ _ _)

end Sys2Proof.Machine
end

