-- ==== Sys2Proof/Proofs/Reads.lean ====
section
/-! Reads of several words (R187 to R189): groups that read clean, the first word that cannot be corrected, and what a read leaves. -/

namespace Sys2Proof.Machine

section
variable {p q r : Part} {agent : Agent} {a : Nat}

/-! ### Words that read clean (R187) -/

theorem readWord_clean {w : Word} (h : p.mem.cell a = .good w) : p.readWord agent a = { value := w, bad := false, part := p } := by
  rw [Part.readWord, h]
  rfl

theorem wordAt_take_succ {ws : List Word} {n : Nat} (h : n < ws.length) : ws.take n ++ [wordAt ws n] = ws.take (n + 1) := by
  rw [List.take_succ_eq_append_getElem h, wordAt, List.getD_eq_getElem _ _ h]

theorem readEvery_clean {ws : List Word} (h : p.clean a ws) :
    p.readEvery agent a ws.length = { words := ws, firstBad := none, part := p } := by
  have hn (n : Nat) (hn : n ≤ ws.length) : p.readEvery agent a n = { words := ws.take n, firstBad := none, part := p } := by
    induction n with
    | zero => rfl
    | succ n ih =>
      simp only [Part.readEvery, ih (by omega), readWord_clean (h n hn), wordAt_take_succ hn]
      rfl
  rw [hn _ (Nat.le_refl _), List.take_length]

theorem readUntilBad_clean {ws : List Word} (h : p.clean a ws) :
    p.readUntilBad agent a ws.length = { words := ws, firstBad := none, part := p } := by
  have hn (n : Nat) (hn : n ≤ ws.length) : p.readUntilBad agent a n = { words := ws.take n, firstBad := none, part := p } := by
    induction n with
    | zero => rfl
    | succ n ih =>
      simp only [Part.readUntilBad, ih (by omega), readWord_clean (h n hn), wordAt_take_succ hn]
      rfl
  rw [hn _ (Nat.le_refl _), List.take_length]

/-! ### What a read makes of words (R187, R188) -/

/-- A cell that reads with the data as written, corrected or not (R187). -/
def Cell.readable (c : Cell) : Prop := c.upset = .none ∨ ∃ b, c.upset = .one b

/-- A cell that cannot be corrected (R187). -/
def Cell.spoilt (c : Cell) : Prop := c.upset = .address ∨ ∃ b, c.upset = .two b

theorem Cell.not_spoilt_iff (c : Cell) : ¬ c.spoilt ↔ c.readable := by
  unfold Cell.spoilt Cell.readable
  cases c.upset <;> simp

/-- A word stands as before, or its one inverted bit has been corrected and the data written back (R188). -/
def Part.mends (p q : Part) (x : Nat) : Prop :=
  q.mem.cell x = p.mem.cell x ∨ ∃ b, (p.mem.cell x).upset = .one b ∧ q.mem.cell x = .good (p.mem.cell x).written

theorem Part.mends.trans {x : Nat} (h1 : p.mends q x) (h2 : q.mends r x) : p.mends r x := by
  rcases h1 with h1 | ⟨b, hb, h1⟩
  · rcases h2 with h2 | ⟨b', hb', h2⟩
    · exact .inl (h2.trans h1)
    · exact .inr ⟨b', by rw [← h1]; exact hb', by rw [h2, h1]⟩
  · rcases h2 with h2 | ⟨b', hb', h2⟩
    · exact .inr ⟨b, hb, h2.trans h1⟩
    · rw [h1] at hb'; cases hb'

theorem Part.mends.readable {x : Nat} (h : p.mends q x) : (q.mem.cell x).readable ↔ (p.mem.cell x).readable := by
  rcases h with h | ⟨b, hb, h⟩
  · rw [h]
  · rw [h]
    exact ⟨fun _ => .inr ⟨b, hb⟩, fun _ => .inl rfl⟩

/-- A mended word reads as it read. -/
theorem Part.mends.written {x : Nat} (h : p.mends q x) : (q.mem.cell x).written = (p.mem.cell x).written := by
  rcases h with h | ⟨b, hb, h⟩ <;> rw [h]
  rfl

theorem Cell.data_of_readable {c : Cell} (h : c.readable) : c.data = c.written := by
  rcases h with h | ⟨b, h⟩ <;> simp only [Cell.data, h]

theorem readWord_readable (h : (p.mem.cell a).readable) :
    (p.readWord agent a).bad = false ∧ (p.readWord agent a).value = (p.mem.cell a).written := by
  have hdata := Cell.data_of_readable h
  rcases h with h | ⟨b, h⟩ <;> simp only [Part.readWord, h] <;> exact ⟨trivial, hdata⟩

theorem readWord_spoilt (h : (p.mem.cell a).spoilt) :
    (p.readWord agent a).bad = true ∧ (p.readWord agent a).part = p.uncorrectedRead agent a := by
  rw [Part.readWord_uncorrected agent h]
  exact ⟨rfl, rfl⟩

/-- Each word stands as before when the reads of `n` words from `a` on reach it. -/
def Part.unreadStand (p : Part) (f : Nat → ReadAll) (a n : Nat) : Prop := ∀ m, m < n → (f m).part.mem.cell (a + m) = p.mem.cell (a + m)

theorem Part.unreadStand.mono {f : Nat → ReadAll} {m n : Nat} (h : p.unreadStand f a n) (hle : m ≤ n) : p.unreadStand f a m :=
  fun k hk => h k (by omega)

/-- The words read all the same, though some were corrected. -/
theorem readEvery_readable {n : Nat} (hm : p.unreadStand (p.readEvery agent a) a n) (h : ∀ k, k < n → (p.mem.cell (a + k)).readable) :
    (p.readEvery agent a n).firstBad = none := by
  induction n with
  | zero => rfl
  | succ n ih =>
    have hread := h n (by omega)
    rw [← hm n (by omega)] at hread
    simp only [Part.readEvery, ih (hm.mono (by omega)) (fun k hk => h k (by omega)), (readWord_readable hread).1]
    rfl

theorem readEvery_spoilt {n i : Nat} (hm : p.unreadStand (p.readEvery agent a) a n) (hi : i < n)
    (h : ∀ k, k < i → (p.mem.cell (a + k)).readable) (hbad : (p.mem.cell (a + i)).spoilt) :
    (p.readEvery agent a n).firstBad = some i := by
  rw [← hm i hi] at hbad
  have hfirst : (p.readEvery agent a (i + 1)).firstBad = some i := by
    simp only [Part.readEvery, readEvery_readable (hm.mono (by omega)) h, (readWord_spoilt hbad).1]
    rfl
  have hind (m : Nat) : (p.readEvery agent a (i + 1 + m)).firstBad = some i := by
    induction m with
    | zero => exact hfirst
    | succ m ih =>
      rw [show i + 1 + (m + 1) = (i + 1 + m) + 1 from rfl, Part.readEvery]
      dsimp only
      rw [ih]
  rw [show n = i + 1 + (n - (i + 1)) by omega]
  exact hind _

theorem readUntilBad_readable {n : Nat} (hm : p.unreadStand (p.readUntilBad agent a) a n)
    (h : ∀ k, k < n → (p.mem.cell (a + k)).readable) : (p.readUntilBad agent a n).firstBad = none := by
  induction n with
  | zero => rfl
  | succ n ih =>
    have hread := h n (by omega)
    rw [← hm n (by omega)] at hread
    simp only [Part.readUntilBad, ih (hm.mono (by omega)) (fun k hk => h k (by omega)), (readWord_readable hread).1]
    rfl

theorem readUntilBad_spoilt {n i : Nat} (hm : p.unreadStand (p.readUntilBad agent a) a n) (hi : i < n)
    (h : ∀ k, k < i → (p.mem.cell (a + k)).readable) (hbad : (p.mem.cell (a + i)).spoilt) :
    (p.readUntilBad agent a n).firstBad = some i := by
  rw [← hm i hi] at hbad
  have hfirst : (p.readUntilBad agent a (i + 1)).firstBad = some i := by
    simp only [Part.readUntilBad, readUntilBad_readable (hm.mono (by omega)) h, (readWord_spoilt hbad).1]
    rfl
  have hind (m : Nat) : p.readUntilBad agent a (i + 1 + m) = p.readUntilBad agent a (i + 1) := by
    induction m with
    | zero => rfl
    | succ m ih =>
      rw [show i + 1 + (m + 1) = (i + 1 + m) + 1 from rfl, Part.readUntilBad]
      simp only [ih, hfirst]
  rw [show n = i + 1 + (n - (i + 1)) by omega, hind, hfirst]

/-- Where any of the words cannot be corrected, a first one is found. -/
theorem exists_first_spoilt {n : Nat} (h : ∃ k, k < n ∧ (p.mem.cell (a + k)).spoilt) :
    ∃ i, i < n ∧ (p.mem.cell (a + i)).spoilt ∧ ∀ k, k < i → (p.mem.cell (a + k)).readable := by
  classical
  obtain ⟨hlt, hbad⟩ := Nat.find_spec h
  refine ⟨Nat.find h, hlt, hbad, fun k hk => (Cell.not_spoilt_iff _).mp (fun hs => ?_)⟩
  exact Nat.find_min h hk ⟨by omega, hs⟩

/-! ### What the reads leave (R188) -/

theorem cell_storeGood_ne {w : Word} {x : Nat} (h : x ≠ a) : (p.storeGood a w).mem.cell x = p.mem.cell x :=
  Memory.cell_store_ne _ _ _ _ h

/-- What a corrected read leaves besides reports: the word mended, the count and the capture (R188, R190). -/
theorem told_correctedRead (p : Part) (agent : Agent) (a : Nat) (w : Word) :
    ((p.storeGood a w).setProt ((p.storeGood a w).prot.noteCorrected (p.storeGood a w).run.captureLast a)).Told
      (p.correctedRead agent a w) := by
  unfold Part.correctedRead
  exact .ite ((told_hand _ _).trans (told_raiseAlert _ _ _ _ _)) (told_hand _ _)

/-- Reads stand between `p` and `q`: reports, the registers of Chapter 12 and MEMERR, and words of one bit inverted mended. -/
structure Part.Reads (p q : Part) : Prop where
  run : q.run = { p.run with attention := q.run.attention }
  runstate : q.run.attention.runstate = p.run.attention.runstate
  time : q.time = p.time
  clock : q.clock = p.clock
  orders : q.orders = p.orders
  lines : q.lines = p.lines
  inputs : q.inputs = p.inputs
  bindings : q.bindings = p.bindings
  guards : q.guards = p.guards
  mode : q.modes.mode = p.modes.mode
  chans : ∀ c, (q.chan c).view = (p.chan c).view
  mem : Memory.wf p.mem → Memory.wf q.mem
  words : Memory.wf p.mem → ∀ x, x < Config.memWords → p.reportWord x = false → p.mends q x

theorem Part.Reads.refl (p : Part) : p.Reads p :=
  ⟨rfl, rfl, rfl, rfl, rfl, rfl, rfl, rfl, rfl, rfl, fun _ => rfl, id, fun _ _ _ _ => .inl rfl⟩

theorem Part.Reads.trans (h1 : p.Reads q) (h2 : q.Reads r) : p.Reads r where
  run := by rw [h2.run, h1.run]
  runstate := h2.runstate.trans h1.runstate
  time := h2.time.trans h1.time
  clock := h2.clock.trans h1.clock
  orders := h2.orders.trans h1.orders
  lines := h2.lines.trans h1.lines
  inputs := h2.inputs.trans h1.inputs
  bindings := h2.bindings.trans h1.bindings
  guards := h2.guards.trans h1.guards
  mode := h2.mode.trans h1.mode
  chans c := (h2.chans c).trans (h1.chans c)
  mem := fun h => h2.mem (h1.mem h)
  words := fun h x hx hr => (h1.words h x hx hr).trans (h2.words (h1.mem h) x hx (by rw [Part.reportWord_run h1.run]; exact hr))

theorem Part.Told.reads (h : p.Told q) : p.Reads q where
  run := h.run
  runstate := h.runstate
  time := h.time
  clock := h.clock
  orders := h.orders
  lines := h.lines
  inputs := h.inputs
  bindings := h.bindings
  guards := h.guards
  mode := by rw [h.modes]
  chans c := view_told h c
  mem := h.mem
  words := fun _ x _ hr => .inl (h.words x hr)

theorem reads_readWord (p : Part) (agent : Agent) (a : Nat) (ha : a < Config.memWords) : p.Reads (p.readWord agent a).part := by
  rcases hcell : (p.mem.cell a).upset with _ | b | b | _
  · simp only [Part.readWord, hcell]
    exact .refl p
  · have hstore : p.Reads ((p.storeGood a (p.mem.cell a).data).setProt
        ((p.storeGood a (p.mem.cell a).data).prot.noteCorrected (p.storeGood a (p.mem.cell a).data).run.captureLast a)) := by
      refine ⟨rfl, rfl, rfl, rfl, rfl, rfl, rfl, rfl, rfl, rfl, fun _ => rfl, fun h => Memory.store_wf _ _ _ h, fun hwf x hx _ => ?_⟩
      by_cases hxa : x = a
      · rw [hxa]
        refine .inr ⟨b, hcell, ?_⟩
        rw [← Cell.data_of_readable (.inr ⟨b, hcell⟩)]
        exact Memory.cell_store_self _ _ _ hwf ha
      · exact .inl (cell_storeGood_ne hxa)
    have hread : (p.readWord agent a).part = p.correctedRead agent a (p.mem.cell a).data := by simp only [Part.readWord, hcell]
    rw [hread]
    exact hstore.trans (told_correctedRead p agent a _).reads
  all_goals
    rw [(readWord_spoilt (p := p) (agent := agent) (a := a) (by simp [Cell.spoilt, hcell])).2]
    have hnote : p.Reads ((p.setProt (p.prot.noteUncorrected p.run.captureLast a)).attendMemerr) :=
      ⟨rfl, rfl, rfl, rfl, rfl, rfl, rfl, rfl, rfl, rfl, fun _ => rfl, id, fun _ _ _ _ => .inl rfl⟩
    exact hnote.trans (told_uncorrectedRead p agent a).reads

theorem reads_readEvery (p : Part) (agent : Agent) (a : Nat) {n : Nat} (hfit : a + n ≤ Config.memWords) :
    p.Reads (p.readEvery agent a n).part := by
  induction n with
  | zero => exact .refl p
  | succ n ih => exact (ih (by omega)).trans (reads_readWord _ _ _ (by omega))

theorem reads_readUntilBad (p : Part) (agent : Agent) (a : Nat) {n : Nat} (hfit : a + n ≤ Config.memWords) :
    p.Reads (p.readUntilBad agent a n).part := by
  induction n with
  | zero => exact .refl p
  | succ n ih =>
    simp only [Part.readUntilBad]
    split
    · exact ih (by omega)
    · exact (ih (by omega)).trans (reads_readWord _ _ _ (by omega))

/-- A read changes its own word, and words of reports. -/
theorem cell_readWord {x : Nat} (hx : x ≠ a) (hr : p.reportWord x = false) : (p.readWord agent a).part.mem.cell x = p.mem.cell x := by
  by_cases hread : (p.mem.cell a).readable
  · rcases hread with hc | ⟨b, hc⟩
    · simp only [Part.readWord, hc]
    · have hread : (p.readWord agent a).part = p.correctedRead agent a (p.mem.cell a).data := by simp only [Part.readWord, hc]
      rw [hread]
      exact ((told_correctedRead p agent a _).words x hr).trans (cell_storeGood_ne hx)
  · have hspoilt : (p.mem.cell a).spoilt := by
      by_contra hno
      exact hread ((Cell.not_spoilt_iff _).mp hno)
    rw [(readWord_spoilt hspoilt).2]
    exact (told_uncorrectedRead p agent a).words x hr

/-- Words outside the regions of reports stand until they are read. -/
theorem cell_readEvery {n x : Nat} (hfit : a + n ≤ Config.memWords) (hx : x < a ∨ a + n ≤ x) (hr : p.reportWord x = false) :
    (p.readEvery agent a n).part.mem.cell x = p.mem.cell x := by
  induction n with
  | zero => rfl
  | succ n ih =>
    have hrun := (reads_readEvery p agent a (n := n) (by omega)).run
    exact (cell_readWord (by omega) ((Part.reportWord_run hrun x).trans hr)).trans (ih (by omega) (by omega))

theorem cell_readUntilBad {n x : Nat} (hfit : a + n ≤ Config.memWords) (hx : x < a ∨ a + n ≤ x) (hr : p.reportWord x = false) :
    (p.readUntilBad agent a n).part.mem.cell x = p.mem.cell x := by
  induction n with
  | zero => rfl
  | succ n ih =>
    have hrun := (reads_readUntilBad p agent a (n := n) (by omega)).run
    simp only [Part.readUntilBad]
    split
    · exact ih (by omega) (by omega)
    · exact (cell_readWord (by omega) ((Part.reportWord_run hrun x).trans hr)).trans (ih (by omega) (by omega))

theorem unreadStand_readEvery {n : Nat} (hfit : a + n ≤ Config.memWords) (hr : ∀ k, k < n → p.reportWord (a + k) = false) :
    p.unreadStand (p.readEvery agent a) a n :=
  fun m hm => cell_readEvery (by omega) (.inr (Nat.le_refl _)) (hr m hm)

theorem unreadStand_readUntilBad {n : Nat} (hfit : a + n ≤ Config.memWords) (hr : ∀ k, k < n → p.reportWord (a + k) = false) :
    p.unreadStand (p.readUntilBad agent a) a n :=
  fun m hm => cell_readUntilBad (by omega) (.inr (Nat.le_refl _)) (hr m hm)

/-- The slots stand as before a read. -/
theorem Part.Reads.hasSlot (h : p.Reads q) {l : Layout} {i : Nat} (hs : p.hasSlot l i) : q.hasSlot l i := by
  obtain ⟨hl, hv, hi, hlen⟩ := hs
  exact ⟨by rw [h.run]; exact hl, hv, hi, by rw [h.orders]; exact hlen⟩

end

end Sys2Proof.Machine
end

