-- ==== Sys2Proof/Proofs/TakeRow.lean ====
section
/-! TAKE (R153, R154): the order at the head of the take queue is read and checked. -/

namespace Sys2Proof.Machine

@[simp] theorem highByte_toNat (w : Word) : (highByte w).toNat = w.toNat / 256 := by
  have := w.isLt
  simp only [highByte, BitVec.toNat_ofNat]
  omega

@[simp] theorem lowByte_toNat (w : Word) : (lowByte w).toNat = w.toNat % 256 := by
  simp [lowByte]

theorem lowByte_eq (w : Word) : lowByte w = BitVec.ofNat 8 (w.toNat % 256) := by
  apply BitVec.eq_of_toNat_eq
  simp [lowByte]

/-- The kinds of orders are numbered 1 to 11 (13.9). -/
theorem OrderKind.ofCode_listed {n : Nat} (h1 : 1 ≤ n) (h2 : n ≤ 11) : ∃ k, OrderKind.ofCode n = some k := by
  interval_cases n <;> exact ⟨_, rfl⟩

theorem OrderKind.ofCode_unlisted {n : Nat} (h : n = 0 ∨ 11 < n) : OrderKind.ofCode n = none := by
  unfold OrderKind.ofCode
  split
  case h_12 => rfl
  all_goals exact absurd h (by decide)

/-- The targets that R154 takes, by the kind's number. -/
theorem targetOk_iff {kind target : Nat} {k : OrderKind} (hk : OrderKind.ofCode kind = some k) (w3 : Word) :
    targetOk k target w3 = true ↔
      ((kind = 1 ∨ kind = 2 ∨ kind = 3 ∨ kind = 5) → target < 8)
      ∧ (kind = 4 → (target < 8 ∨ target = 15) ∧ w3.toNat ≤ 1) ∧ (kind = 6 → target ≤ 2 ∨ 8 ≤ target ∧ target ≤ 15) := by
  unfold OrderKind.ofCode at hk
  split at hk
  case h_12 => cases hk
  all_goals
    cases hk
    simp [targetOk, within]

section
variable {p : Part} {l : Layout} {slot : Nat} {rest : List Nat}

/-- The part when the slot at the head of the take queue is in hand and its w0 shows TAKEN (R153 steps 1 and 2). -/
def Part.takeBegun (p : Part) (slot : Nat) : Part :=
  (p.modSlot slot (fun _ => { shadow := .inHand, kind := 0, tag := 0 })).writeSlotState slot .taken 0

theorem exec_take {s : State} (hrun : s.part.run.state = .running) (htaking : s.part.orders.taking = none)
    (hqueue : s.part.orders.takeQueue = slot :: rest) (hl : s.part.run.layout = some l) :
    exec .take s = .next (s.setPart ((s.part.setTakeQueue rest).takeSlot l slot)) := by
  have hrunning : s.part.isRunning = true := by rw [Part.isRunning, hrun]; rfl
  show done s _ = _
  rw [hrunning, htaking, hqueue, hl]
  rfl

theorem Part.hasSlot.modSlot (h : p.hasSlot l slot) (i : Nat) (f : Slot → Slot) : (p.modSlot i f).hasSlot l slot := by
  obtain ⟨hl, hv, hi, hlen⟩ := h
  exact ⟨hl, hv, hi, by rw [Part.modSlot, Part.setOrders_orders]; simpa using hlen⟩

theorem hasSlot_takeBegun (h : p.hasSlot l slot) : (p.takeBegun slot).hasSlot l slot := (h.modSlot _ _).writeSlotState slot .taken 0

theorem orders_takeBegun (p : Part) (slot : Nat) : (p.takeBegun slot).orders = { p.orders with
    slots := p.orders.slots.modify slot (fun _ => { shadow := .inHand, kind := 0, tag := 0 }) } := by
  rw [Part.takeBegun, Part.writeSlotState, orders_writeSlot]
  rfl

/-- w0 of the slot shows TAKEN, and every other word stands as the take begins. -/
theorem written_takeBegun (h : p.hasSlot l slot) (hm : Memory.wf p.mem) :
    ((p.takeBegun slot).mem.cell (l.orders + 8 * slot)).written = 2 :=
  written_writeSlot (k := 0) (j := 0) (h.modSlot slot (fun _ => { shadow := .inHand, kind := 0, tag := 0 })) hm (by decide) (by decide)

theorem cell_takeBegun (h : p.hasSlot l slot) {x : Nat} (hx : x ≠ l.orders + 8 * slot) : (p.takeBegun slot).mem.cell x = p.mem.cell x := by
  rw [Part.takeBegun, Part.writeSlotState, (h.modSlot _ _).writeSlot_eq_writeAll]
  refine cell_writeAll_out _ _ _ _ (fun j hj => ?_)
  simp only [List.length_singleton, Nat.lt_one_iff] at hj
  omega

theorem wf_takeBegun (hm : Memory.wf p.mem) : Memory.wf (p.takeBegun slot).mem :=
  (near_writeSlot (c := 0) (p.modSlot slot (fun _ => { shadow := .inHand, kind := 0, tag := 0 })) slot 0 _ (by decide)).mem hm

/-- Besides the slot, its w0 and ARM, nothing changes as the take begins. -/
theorem takeBegun_eq (p : Part) (slot : Nat) : ∃ m arm, p.takeBegun slot = { p with
    mem := m, orders := { p.orders with slots := p.orders.slots.modify slot (fun _ => { shadow := .inHand, kind := 0, tag := 0 }) }
    prot := { p.prot with injection := { p.prot.injection with armed := arm } } } := by
  obtain ⟨m, arm, h⟩ := writeSlot_eq (p.modSlot slot (fun _ => { shadow := .inHand, kind := 0, tag := 0 })) slot 0
    [word (SlotState.taken.code + 256 * 0)]
  exact ⟨m, arm, h⟩

/-- The part when w1 to w5 have been read and kind and tag are kept (R153 step 3). -/
def Part.takeRead (p : Part) (slot : Nat) (ws : List Word) : Part :=
  ((p.takeBegun slot).modSlot slot (fun x => { x with tag := wordAt ws 1 })).modSlot slot (fun x => { x with kind := highByte (wordAt ws 0) })

theorem takeSlot_clean (h : p.hasSlot l slot) {ws : List Word} (hlen : ws.length = 5) (hclean : p.clean (l.orders + 8 * slot + 1) ws) :
    p.takeSlot l slot = (p.takeRead slot ws).takeChecked slot ws := by
  have hread : (p.takeBegun slot).readEvery .order (l.orders + 8 * slot + 1) 5
      = { words := ws, firstBad := none, part := p.takeBegun slot } := by
    rw [← hlen]
    exact readEvery_clean (fun k hk => (cell_takeBegun h (by omega)).trans (hclean k hk))
  unfold Part.takeSlot
  rw [← Part.takeBegun]
  dsimp only
  rw [hread]
  rfl

theorem takeRead_orders (p : Part) (slot : Nat) (ws : List Word) : (p.takeRead slot ws).orders = { p.orders with
    slots := p.orders.slots.modify slot (fun _ => { shadow := .inHand, kind := highByte (wordAt ws 0), tag := wordAt ws 1 }) } := by
  simp only [Part.takeRead, Part.modSlot, Part.setOrders_orders, orders_takeBegun, List.modify_modify_eq]
  rfl

/-- A take that ends in a refusal (R154). -/
theorem takeRead_refused (h : p.hasSlot l slot) (hm : Memory.wf p.mem) (ws : List Word) (code : RefusalCode) :
    ((p.takeRead slot ws).refuse slot code 0).SlotShows l slot .refused code.code 0
      ∧ ((p.takeRead slot ws).refuse slot code 0).orders.taking = none
      ∧ ((p.takeRead slot ws).refuse slot code 0).orders.takeQueue = p.orders.takeQueue := by
  obtain ⟨hshows, hnone, -⟩ := refuse_ends (((hasSlot_takeBegun h).modSlot slot (fun x => { x with tag := wordAt ws 1 })).modSlot slot
    (fun x => { x with kind := highByte (wordAt ws 0) })) (wf_takeBegun hm) code 0
  refine ⟨hshows, hnone, ?_⟩
  rw [Part.refuse, orders_report]
  exact (congrArg Orders.takeQueue (takeRead_orders p slot ws) :)

/-- A word that cannot be corrected refuses the order MEMORY with its number (R153 step 3). -/
theorem takeSlot_spoilt (h : p.hasSlot l slot) (hm : Memory.wf p.mem) {i : Nat} (hi : i < 5)
    (hread : ∀ k, k < i → (p.mem.cell (l.orders + 8 * slot + 1 + k)).readable)
    (hbad : (p.mem.cell (l.orders + 8 * slot + 1 + i)).spoilt) :
    ∃ q : Part, q.hasSlot l slot ∧ Memory.wf q.mem ∧ q.orders.takeQueue = p.orders.takeQueue
      ∧ p.takeSlot l slot = q.refuse slot .memory (i + 1) := by
  have hslot := hasSlot_takeBegun h
  have hfit : l.orders + 8 * slot + 1 + 5 ≤ Config.memWords := by
    obtain ⟨-, hv, hlt, -⟩ := h
    have := Layout.valid_orders_fit hv
    omega
  have hstand : (p.takeBegun slot).unreadStand ((p.takeBegun slot).readEvery .order (l.orders + 8 * slot + 1)) (l.orders + 8 * slot + 1) 5 := by
    refine unreadStand_readEvery hfit (fun k hk => ?_)
    rw [show l.orders + 8 * slot + 1 + k = l.orders + 8 * slot + (1 + k) by omega]
    exact hslot.reportWord (by omega)
  have hcell (k : Nat) : (p.takeBegun slot).mem.cell (l.orders + 8 * slot + 1 + k) = p.mem.cell (l.orders + 8 * slot + 1 + k) :=
    cell_takeBegun h (by omega)
  have hfirst := readEvery_spoilt hstand hi (fun k hk => by rw [hcell]; exact hread k hk) (by rw [hcell]; exact hbad)
  have hreads := reads_readEvery (p.takeBegun slot) .order (l.orders + 8 * slot + 1) hfit
  have hqueue := congrArg Orders.takeQueue hreads.orders
  refine ⟨_, (hreads.hasSlot hslot).modSlot slot (fun x => { x with
    tag := wordAt ((p.takeBegun slot).readEvery .order (l.orders + 8 * slot + 1) 5).words 1 }), hreads.mem (wf_takeBegun hm),
    hqueue.trans (by rw [orders_takeBegun]), ?_⟩
  unfold Part.takeSlot
  rw [← Part.takeBegun]
  dsimp only
  rw [hfirst]

end

/-- Settles O27: by the words read, the order is in hand with its kind and tag, or its slot shows the refusal. -/
theorem takeReadsOrder : Obligations.TakeReadsOrder := by
  unfold Obligations.TakeReadsOrder
  refine ⟨fun s l slot rest ws hrun htaking hqueue hslot hm hlen hclean => ?_, fun s l slot rest i hrun htaking hqueue hslot hm hi hread hbad => ?_⟩
  · intro kind target sound
    have ⟨hl, _, _, _⟩ := hslot
    rw [exec_take hrun htaking hqueue hl, takeSlot_clean (p := s.part.setTakeQueue rest) hslot hlen hclean]
    refine ⟨_, rfl, fun h1 h2 hsound => ?_, fun hkind => ?_, fun h1 h2 hunsound => ?_⟩
    · obtain ⟨k, hk⟩ := OrderKind.ofCode_listed h1 h2
      have hok : targetOk k target (wordAt ws 2) = true := (targetOk_iff hk _).mpr hsound
      have hchecked : ((s.part.setTakeQueue rest).takeRead slot ws).takeChecked slot ws
          = ((s.part.setTakeQueue rest).takeRead slot ws).setOrders { ((s.part.setTakeQueue rest).takeRead slot ws).orders with
            taking := some { slot := slot, kind := k, target := lowByte (wordAt ws 0), w3 := wordAt ws 2, w4 := wordAt ws 3
                             w5 := wordAt ws 4, asked := false } } := by
        simp only [Part.takeChecked, highByte_toNat, lowByte_toNat]
        rw [show OrderKind.ofCode ((wordAt ws 0).toNat / 256) = some k from hk]
        exact if_pos hok
      obtain ⟨m, arm, hm'⟩ := takeBegun_eq (s.part.setTakeQueue rest) slot
      have hw0 := written_takeBegun (p := s.part.setTakeQueue rest) hslot hm
      have hcells (x : Nat) (hx : x ≠ l.orders + 8 * slot) := cell_takeBegun (p := s.part.setTakeQueue rest) hslot hx
      rw [hchecked, takeRead_orders]
      refine ⟨k, hk, ?_, hw0, hcells, ?_⟩
      · rw [lowByte_eq]
        rfl
      · rw [Part.takeRead, hm']
        rfl
    · have hchecked : ((s.part.setTakeQueue rest).takeRead slot ws).takeChecked slot ws
          = ((s.part.setTakeQueue rest).takeRead slot ws).refuse slot .badKind 0 := by
        simp only [Part.takeChecked, highByte_toNat]
        rw [show OrderKind.ofCode ((wordAt ws 0).toNat / 256) = none from OrderKind.ofCode_unlisted hkind]
      rw [hchecked]
      exact takeRead_refused (p := s.part.setTakeQueue rest) hslot hm ws .badKind
    · obtain ⟨k, hk⟩ := OrderKind.ofCode_listed h1 h2
      have hok : ¬ targetOk k target (wordAt ws 2) = true := fun h => hunsound ((targetOk_iff hk _).mp h)
      have hchecked : ((s.part.setTakeQueue rest).takeRead slot ws).takeChecked slot ws
          = ((s.part.setTakeQueue rest).takeRead slot ws).refuse slot .badOperand 0 := by
        simp only [Part.takeChecked, highByte_toNat, lowByte_toNat]
        rw [show OrderKind.ofCode ((wordAt ws 0).toNat / 256) = some k from hk]
        exact if_neg hok
      rw [hchecked]
      exact takeRead_refused (p := s.part.setTakeQueue rest) hslot hm ws .badOperand
  · have ⟨hl, _, _, _⟩ := hslot
    obtain ⟨q, hqslot, hqm, hqqueue, hq⟩ := takeSlot_spoilt (p := s.part.setTakeQueue rest) hslot hm hi hread hbad
    rw [exec_take hrun htaking hqueue hl, hq]
    obtain ⟨hshows, hnone, honly⟩ := refuse_ends hqslot hqm .memory (i + 1)
    refine ⟨_, rfl, hshows, hnone, ?_⟩
    rw [Part.refuse, orders_report]
    exact hqqueue

end Sys2Proof.Machine
end

