-- ==== Sys2Proof/Proofs/CheckFails.lean ====
section
/-! CHECKING that fails (R177, R179): the layout block's checks, the groups' checks, and words that cannot be corrected. -/

namespace Sys2Proof.Machine

/-! ### The layout block's checks (R177) -/

theorem Layout.countsOk_iff (l : Layout) : l.countsOk = true ↔ 8 ≤ l.slotCount ∧ l.slotCount ≤ 64 ∧ 1 ≤ l.entryCount ∧ l.entryCount ≤ 256
    ∧ 1 ≤ l.inputCount ∧ l.inputCount ≤ 256 ∧ 256 ≤ l.journalSize ∧ l.journalSize ≤ 8192 := by
  simp [Layout.countsOk, within, and_assoc]

theorem Layout.rangesOk_iff (l : Layout) (n : Nat) : l.rangesOk n = true ↔
    (∀ r ∈ l.regions, 0x0020 ≤ r.1 ∧ r.1 + r.2 ≤ 0x6000)
    ∧ (l.staleTime = 0 ∨ 10 ≤ l.staleTime ∧ l.staleTime ≤ 10000) ∧ (l.restTime = 0 ∨ 10 ≤ l.restTime ∧ l.restTime ≤ 3600)
    ∧ (l.escalateTime = 0 ∨ 10 ≤ l.escalateTime ∧ l.escalateTime ≤ 3600)
    ∧ (l.watchWindow = 0 ∨ 100 ≤ l.watchWindow ∧ l.watchWindow ≤ 60000) ∧ n ≤ 1 := by
  simp only [Layout.rangesOk, offOr, within, Bool.and_eq_true, Bool.or_eq_true, List.all_eq_true, decide_eq_true_eq, beq_iff_eq, and_assoc]
  rfl

theorem Layout.marksOk_iff (l : Layout) : l.marksOk = true ↔ 1 ≤ l.trigger ∧ l.trigger ≤ l.journalSize - 1 ∧ 1 ≤ l.lowMark
    ∧ l.lowMark < l.highMark ∧ l.highMark ≤ l.journalSize - 1 := by
  simp [Layout.marksOk, within, and_assoc]

/-! ### Reads outside RUNNING and STOPPING report nothing -/

section
variable {p q r : Part} {agent : Agent} {a : Nat}

theorem hand_inactive (h : p.active = false) (rec : Record) : p.hand rec = p := by
  rw [Part.hand, Part.writeRecord, h, if_pos (by decide), Part.whole, h, if_neg (by decide)]

theorem raiseAlert_inactive (h : p.active = false) (code : AlertCode) (src : Source) (zone : Zone) (sev : Severity) :
    p.raiseAlert code src zone sev = p := by
  rw [Part.raiseAlert, Part.raiseFull, Part.raiseOne, h, if_pos (by decide)]
  dsimp only
  rw [Part.whole, h, if_neg (by decide)]

/-- Reads outside RUNNING and STOPPING stand between `p` and `q`: words mended, the registers of Chapter 12, and MEMERR. -/
structure Part.Quiet (p q : Part) : Prop where
  rest : q = { p with
    run := { p.run with attention := { p.run.attention with memerr := q.run.attention.memerr } }, prot := q.prot, mem := q.mem }
  memerr : p.run.attention.memerr = true → q.run.attention.memerr = true
  uv : p.prot.uv = true → q.prot.uv = true

theorem Part.Quiet.refl (p : Part) : p.Quiet p := ⟨rfl, id, id⟩

theorem Part.Quiet.trans (h1 : p.Quiet q) (h2 : q.Quiet r) : p.Quiet r where
  rest := by
    refine h2.rest.trans ?_
    rw [h1.rest]
  memerr := h2.memerr ∘ h1.memerr
  uv := h2.uv ∘ h1.uv

theorem Part.Quiet.inactive (h : p.Quiet q) : q.active = p.active := by
  rw [h.rest]
  rfl

theorem correctedRead_inactive (h : p.active = false) (agent : Agent) (a : Nat) (w : Word) :
    p.correctedRead agent a w = (p.storeGood a w).setProt ((p.storeGood a w).prot.noteCorrected (p.storeGood a w).run.captureLast a) := by
  unfold Part.correctedRead
  dsimp only
  have hbase : ((p.storeGood a w).setProt ((p.storeGood a w).prot.noteCorrected (p.storeGood a w).run.captureLast a)).active = false := h
  rw [hand_inactive hbase, raiseAlert_inactive hbase, ite_self]

theorem uncorrectedRead_inactive (h : p.active = false) (agent : Agent) (a : Nat) :
    p.uncorrectedRead agent a = (p.setProt (p.prot.noteUncorrected p.run.captureLast a)).attendMemerr := by
  unfold Part.uncorrectedRead
  dsimp only
  have hbase : (p.setProt (p.prot.noteUncorrected p.run.captureLast a)).attendMemerr.active = false := h
  rw [hand_inactive hbase, raiseAlert_inactive hbase]

theorem quiet_uncorrectedRead (h : p.active = false) (agent : Agent) (a : Nat) :
    p.Quiet (p.uncorrectedRead agent a) ∧ (p.uncorrectedRead agent a).run.attention.memerr = true
      ∧ (p.uncorrectedRead agent a).prot.uv = true := by
  rw [uncorrectedRead_inactive h]
  exact ⟨⟨rfl, fun _ => rfl, fun _ => rfl⟩, rfl, rfl⟩

theorem quiet_readWord (h : p.active = false) (agent : Agent) (a : Nat) :
    p.Quiet (p.readWord agent a).part := by
  by_cases hread : (p.mem.cell a).readable
  · rcases hread with hc | ⟨b, hc⟩
    · simp only [Part.readWord, hc]
      exact .refl p
    · simp only [Part.readWord, hc, correctedRead_inactive h]
      exact ⟨rfl, id, id⟩
  · have hspoilt : (p.mem.cell a).spoilt := by
      by_contra hno
      exact hread ((Cell.not_spoilt_iff _).mp hno)
    rw [(readWord_spoilt hspoilt).2]
    exact (quiet_uncorrectedRead h agent a).1

/-- A read that found a bad word has set MEMERR and UV (R188, R190). -/
def Part.noted (p : Part) : Prop := p.run.attention.memerr = true ∧ p.prot.uv = true

theorem noted_readWord (h : p.active = false) (agent : Agent) (a : Nat) (hbad : (p.readWord agent a).bad = true) :
    (p.readWord agent a).part.noted := by
  have hspoilt : (p.mem.cell a).spoilt := by
    by_contra hno
    rw [(readWord_readable ((Cell.not_spoilt_iff _).mp hno)).1] at hbad
    cases hbad
  rw [(readWord_spoilt hspoilt).2]
  exact (quiet_uncorrectedRead h agent a).2

theorem Part.Quiet.noted (h : p.Quiet q) (hn : p.noted) : q.noted := ⟨h.memerr hn.1, h.uv hn.2⟩

theorem quiet_readEvery (h : p.active = false) (agent : Agent) (a n : Nat) :
    p.Quiet (p.readEvery agent a n).part ∧ ((p.readEvery agent a n).firstBad.isSome = true → (p.readEvery agent a n).part.noted) := by
  induction n with
  | zero => exact ⟨.refl p, nofun⟩
  | succ n ih =>
    obtain ⟨hq, hn⟩ := ih
    have hinactive := hq.inactive.trans h
    have hread := quiet_readWord hinactive agent (a + n)
    refine ⟨hq.trans hread, fun hbad => ?_⟩
    simp only [Part.readEvery] at hbad
    split at hbad
    · next i hi => exact hread.noted (hn (by rw [hi]; rfl))
    · split at hbad
      · next hb => exact noted_readWord hinactive agent _ hb
      · cases hbad

theorem quiet_readUntilBad (h : p.active = false) (agent : Agent) (a n : Nat) :
    p.Quiet (p.readUntilBad agent a n).part
      ∧ ((p.readUntilBad agent a n).firstBad.isSome = true → (p.readUntilBad agent a n).part.noted) := by
  induction n with
  | zero => exact ⟨.refl p, nofun⟩
  | succ n ih =>
    obtain ⟨hq, hn⟩ := ih
    simp only [Part.readUntilBad]
    split
    · exact ⟨hq, hn⟩
    · have hinactive := hq.inactive.trans h
      have hread := quiet_readWord hinactive agent (a + n)
      refine ⟨hq.trans hread, fun hbad => ?_⟩
      split at hbad
      · next hb => exact noted_readWord hinactive agent _ hb
      · cases hbad

/-- A read outside RUNNING and STOPPING changes its own word, and no other. -/
theorem cell_readWord_inactive (h : p.active = false) {x : Nat} (hx : x ≠ a) :
    (p.readWord agent a).part.mem.cell x = p.mem.cell x := by
  by_cases hread : (p.mem.cell a).readable
  · rcases hread with hc | ⟨b, hc⟩
    · simp only [Part.readWord, hc]
    · simp only [Part.readWord, hc, correctedRead_inactive h]
      exact cell_storeGood_ne hx
  · have hspoilt : (p.mem.cell a).spoilt := by
      by_contra hno
      exact hread ((Cell.not_spoilt_iff _).mp hno)
    rw [(readWord_spoilt hspoilt).2, uncorrectedRead_inactive h]
    rfl

theorem unreadStand_readEvery_inactive (h : p.active = false) (n : Nat) : p.unreadStand (p.readEvery agent a) a n := by
  have hind (m x : Nat) (hx : a + m ≤ x) : (p.readEvery agent a m).part.mem.cell x = p.mem.cell x := by
    induction m with
    | zero => rfl
    | succ m ih =>
      exact (cell_readWord_inactive ((quiet_readEvery h agent a m).1.inactive.trans h) (by omega)).trans (ih (by omega))
  exact fun m _ => hind m _ (Nat.le_refl _)

theorem unreadStand_readUntilBad_inactive (h : p.active = false) (n : Nat) : p.unreadStand (p.readUntilBad agent a) a n := by
  have hind (m x : Nat) (hx : a + m ≤ x) : (p.readUntilBad agent a m).part.mem.cell x = p.mem.cell x := by
    induction m with
    | zero => rfl
    | succ m ih =>
      simp only [Part.readUntilBad]
      split
      · exact ih (by omega)
      · exact (cell_readWord_inactive ((quiet_readUntilBad h agent a m).1.inactive.trans h) (by omega)).trans (ih (by omega))
  exact fun m _ => hind m _ (Nat.le_refl _)

/-- Where any of the words cannot be corrected, the reads find one and note it. -/
theorem readEvery_finds (h : p.active = false) {n : Nat} (hbad : ∃ k, k < n ∧ (p.mem.cell (a + k)).spoilt) :
    (p.readEvery agent a n).firstBad.isSome = true ∧ (p.readEvery agent a n).part.noted ∧ p.Quiet (p.readEvery agent a n).part := by
  obtain ⟨i, hi, hs, hr⟩ := exists_first_spoilt hbad
  obtain ⟨hq, hn⟩ := quiet_readEvery h agent a n
  have hfirst := readEvery_spoilt (unreadStand_readEvery_inactive (agent := agent) h n) hi hr hs
  exact ⟨by rw [hfirst]; rfl, hn (by rw [hfirst]; rfl), hq⟩

theorem readUntilBad_finds (h : p.active = false) {n : Nat} (hbad : ∃ k, k < n ∧ (p.mem.cell (a + k)).spoilt) :
    (p.readUntilBad agent a n).firstBad.isSome = true ∧ (p.readUntilBad agent a n).part.noted
      ∧ p.Quiet (p.readUntilBad agent a n).part := by
  obtain ⟨i, hi, hs, hr⟩ := exists_first_spoilt hbad
  obtain ⟨hq, hn⟩ := quiet_readUntilBad h agent a n
  have hfirst := readUntilBad_spoilt (unreadStand_readUntilBad_inactive (agent := agent) h n) hi hr hs
  exact ⟨by rw [hfirst]; rfl, hn (by rw [hfirst]; rfl), hq⟩

/-! ### A check that fails (R179) -/

theorem exec_checkingComplete {s : State} (h : s.part.run.state = .checking) :
    exec .checkingComplete s = .next (s.setPart s.part.finishCheck) := by
  show done s _ = _
  rw [if_pos h]
  rfl

theorem finishCheck_fails {code : FaultCode} (h : p.checkAll = { part := q, value := .error code }) :
    p.finishCheck = q.checkFailed code := by
  unfold Part.finishCheck
  generalize p.checkAll = r at h ⊢
  subst h
  rfl

theorem active_of_checking (h : p.run.state = .checking) : p.active = false := by rw [Part.active, h]; rfl

/-- A check that finds a bad word: FAULTED with MEMORY, and nothing applied (R179, R188). -/
theorem checkFailed_memory (hq : p.Quiet q) (hn : q.noted) :
    (q.checkFailed .memory).run.state = .faulted ∧ (q.checkFailed .memory).run.faultCode = .memory ∧ (q.checkFailed .memory).run.layout = none
      ∧ (q.checkFailed .memory).run.attention.runstate = true ∧ (q.checkFailed .memory).run.attention.memerr = true
      ∧ (q.checkFailed .memory).prot.uv = true ∧ (q.checkFailed .memory).inputs = p.inputs ∧ (q.checkFailed .memory).bindings = p.bindings
      ∧ (q.checkFailed .memory).channels = p.channels ∧ (q.checkFailed .memory).guards = p.guards ∧ (q.checkFailed .memory).lines = p.lines
      ∧ (q.checkFailed .memory).board = p.board ∧ (q.checkFailed .memory).journal = p.journal ∧ (q.checkFailed .memory).orders = p.orders := by
  refine ⟨rfl, rfl, rfl, rfl, hn.1, hn.2, ?_⟩
  have hrest := hq.rest
  generalize q.run.attention.memerr = b, q.prot = prot, q.mem = m at hrest
  rw [hrest]
  exact ⟨rfl, rfl, rfl, rfl, rfl, rfl, rfl, rfl⟩

theorem readEvery_layout_clean {ws : List Word} (hlen : ws.length = 32) (h : p.clean 0 ws) :
    p.readEvery .layout 0 32 = { words := ws, firstBad := none, part := p } := by
  have hread := readEvery_clean (agent := .layout) h
  rwa [hlen] at hread

theorem checkLayoutBlock_error {rd : ReadAll} {code : FaultCode} (hread : p.readEvery .layout 0 32 = rd)
    (he : checkLayout rd.words rd.firstBad.isSome = .error code) : p.checkLayoutBlock = { part := rd.part, value := .error code } := by
  unfold Part.checkLayoutBlock
  generalize p.readEvery .layout 0 32 = r at hread ⊢
  subst hread
  dsimp only
  rw [he]

theorem checkLayoutBlock_ok {ws : List Word} {l : Layout} (hlen : ws.length = 32) (h : p.clean 0 ws)
    (he : checkLayout ws false = .ok l) : p.checkLayoutBlock = { part := p.setRun { p.run with layout := some l }, value := .ok l } := by
  have hread := readEvery_layout_clean hlen h
  unfold Part.checkLayoutBlock
  generalize p.readEvery .layout 0 32 = r at hread ⊢
  subst hread
  dsimp only [Option.isSome_none]
  rw [he]

/-- A layout block that fails ends the check (R179). -/
theorem checkAll_layout_fails {rd : ReadAll} {code : FaultCode} (hread : p.readEvery .layout 0 32 = rd)
    (he : checkLayout rd.words rd.firstBad.isSome = .error code) : p.checkAll = { part := rd.part, value := .error code } := by
  rw [Part.checkAll, checkLayoutBlock_error hread he]
  rfl

/-- The code of the first check of R177 that fails, of a block whose words were read. -/
theorem checkLayout_error {ws : List Word} {code : FaultCode} (hnone : code ≠ .none)
    (h : code =
      if wordAt ws 0 ≠ 0x5A4C then .signature
      else if wordAt ws 1 ≠ 1 then .version
      else if ¬ (layoutOf ws).countsOk = true then .count
      else if ¬ (layoutOf ws).rangesOk (wordAt ws 23).toNat = true then .range
      else if ¬ allApart (layoutOf ws).regions = true then .overlap
      else if ¬ (layoutOf ws).marksOk = true then .marks
      else .none) : checkLayout ws false = .error code := by
  rw [checkLayout, if_neg (by decide)]
  simp only [Bool.not_eq_true', ← Bool.not_eq_true, Config.signature]
  rw [h] at hnone ⊢
  split_ifs at hnone ⊢ <;> first | rfl | exact absurd rfl hnone

end

/-- Settles O22: the first failing check of a block that reads clean gives the code; a bad word gives MEMORY. -/
theorem layoutCheckFails : Obligations.LayoutCheckFails := by
  unfold Obligations.LayoutCheckFails
  refine ⟨fun s ws code hst hlen hclean hcode => ?_, fun s hst hbad => ?_⟩
  · obtain ⟨hnone, hcode⟩ := hcode
    have herror : checkLayout ws false = .error code := by
      refine checkLayout_error hnone ?_
      simp only [Layout.countsOk_iff, Layout.rangesOk_iff, allApart_iff, Layout.marksOk_iff]
      exact hcode
    have hall := checkAll_layout_fails (readEvery_layout_clean hlen hclean) herror
    rw [exec_checkingComplete hst, finishCheck_fails hall]
    rfl
  · have hinactive := active_of_checking hst
    obtain ⟨hfound, hnoted, hquiet⟩ := readEvery_finds (agent := .layout) (a := 0) (n := 32) hinactive (by
      obtain ⟨a, ha, h⟩ := hbad
      exact ⟨a, ha, by rw [Nat.zero_add]; exact h⟩)
    have hall : s.part.checkAll = { part := (s.part.readEvery .layout 0 32).part, value := .error .memory } := by
      generalize hread : s.part.readEvery .layout 0 32 = r at hfound hnoted hquiet
      exact checkAll_layout_fails hread (by rw [hfound]; rfl)
    rw [exec_checkingComplete hst, finishCheck_fails hall]
    exact ⟨_, rfl, checkFailed_memory hquiet hnoted⟩

end Sys2Proof.Machine
end

