-- ==== Sys2Proof/Proofs/GroupFails.lean ====
section
/-! The groups' checks at CHECKING_COMPLETE (R179): groups that read clean pass or fail by their rules, and a bad word ends the check. -/

namespace Sys2Proof.Machine

section
variable {α : Type} {p : Part} {base size : Nat} {check : List Word → Except Nat α} {ws : List Word}

theorem checkGroup_passes (hlen : ws.length = size) (h : p.clean base ws) {g : α} (hg : check ws = .ok g) :
    p.checkGroup base size check = { part := p, value := .ok g } := by
  subst hlen
  rw [Part.checkGroup, readUntilBad_clean h]
  dsimp only
  rw [hg]

theorem checkGroup_fails (hlen : ws.length = size) (h : p.clean base ws) {e : Nat} (he : check ws = .error e) :
    p.checkGroup base size check = { part := p, value := .error .config } := by
  subst hlen
  rw [Part.checkGroup, readUntilBad_clean h]
  dsimp only
  rw [he]

/-- A group with a bad word gives MEMORY (R179, R188). -/
theorem checkGroup_spoilt (h : p.active = false) (hbad : ∃ k, k < size ∧ (p.mem.cell (base + k)).spoilt) :
    ∃ q, p.checkGroup base size check = { part := q, value := .error .memory } ∧ p.Quiet q ∧ q.noted := by
  obtain ⟨hfound, hnoted, hquiet⟩ := readUntilBad_finds (agent := .config) h hbad
  refine ⟨_, ?_, hquiet, hnoted⟩
  obtain ⟨i, hi⟩ := Option.isSome_iff_exists.mp hfound
  rw [Part.checkGroup, hi]

end

section
variable {p : Part} {l : Layout}

/-- A CHANNEL group that reads clean and passes adds its parameters to those before it (R179). -/
theorem checkChannels_next {n : Nat} {prs : List Params} (h : p.checkChannels l n = { part := p, value := .ok prs }) {ws : List Word}
    {pr : Params} (hlen : ws.length = 16) (hclean : p.clean (l.params + 16 * n) ws) (hok : channelParamsOf ws = .ok pr) :
    p.checkChannels l (n + 1) = { part := p, value := .ok (prs ++ [pr]) } := by
  simp only [Part.checkChannels, h, CheckRead.next, checkGroup_passes hlen hclean hok]

/-- The CHANNEL groups below `n` read clean and pass. -/
theorem checkChannels_pass {n : Nat}
    (h : ∀ c, c < n → ∃ ws g, ws.length = 16 ∧ p.clean (l.params + 16 * c) ws ∧ channelParamsOf ws = .ok g) :
    ∃ prs, p.checkChannels l n = { part := p, value := .ok prs } := by
  induction n with
  | zero => exact ⟨[], rfl⟩
  | succ n ih =>
    obtain ⟨prs, hprs⟩ := ih (fun c hc => h c (by omega))
    obtain ⟨ws, g, hlen, hclean, hok⟩ := h n (by omega)
    exact ⟨_, checkChannels_next hprs hlen hclean hok⟩

/-- A check of CHANNEL groups that has failed stays failed. -/
theorem checkChannels_failed {n : Nat} {q : Part} {code : FaultCode} (h : p.checkChannels l n = { part := q, value := .error code }) (m : Nat) :
    p.checkChannels l (n + m) = { part := q, value := .error code } := by
  induction m with
  | zero => exact h
  | succ m ih =>
    rw [show n + (m + 1) = (n + m) + 1 from rfl, Part.checkChannels, ih]
    rfl

/-- The first CHANNEL group that ends the check, those before it reading clean and passing. -/
theorem checkChannels_ends {n c : Nat} (hc : c < n) (hpass : ∀ d, d < c → ∃ ws g, ws.length = 16 ∧ p.clean (l.params + 16 * d) ws ∧ channelParamsOf ws = .ok g)
    {q : Part} {code : FaultCode} (hend : p.checkGroup (l.params + 16 * c) 16 channelParamsOf = { part := q, value := .error code }) :
    p.checkChannels l n = { part := q, value := .error code } := by
  obtain ⟨prs, hprs⟩ := checkChannels_pass hpass
  have hfail : p.checkChannels l (c + 1) = { part := q, value := .error code } := by
    simp only [Part.checkChannels, hprs, CheckRead.next, hend]
  rw [show n = c + 1 + (n - (c + 1)) by omega]
  exact checkChannels_failed hfail _

/-- The checks after the layout block's (R179). -/
def Part.checkGroups (p : Part) (l : Layout) : CheckRead Groups :=
  (p.checkGroup l.inputs (16 + 6 * l.inputCount) (inputsOf l.inputCount)).next (fun i p =>
    (p.checkGroup l.guards 32 guardsOf).next (fun g p =>
      (p.checkGroup l.bindings (8 * l.entryCount) (bindingsOf l.entryCount)).next (fun b p =>
        (p.checkChannels l 8).next (fun c p =>
          { part := p, value := .ok { layout := l, inputs := i, guards := g, bindings := b, channels := c } }))))

theorem checkAll_groups {ws : List Word} (hlen : ws.length = 32) (h : p.clean 0 ws) (he : checkLayout ws false = .ok l) :
    p.checkAll = (p.setRun { p.run with layout := some l }).checkGroups l := by
  rw [Part.checkAll, checkLayoutBlock_ok hlen h he]
  rfl

/-- A group passes: it reads clean and satisfies its rule (R179). -/
def Part.groupPasses {α : Type} (p : Part) (base size : Nat) (check : List Word → Except Nat α) : Prop :=
  ∃ ws g, ws.length = size ∧ p.clean base ws ∧ check ws = .ok g

/-- Where each group before it passes, the first group that ends the check decides its outcome (R179). -/
theorem checkGroups_ends {q : Part} {code : FaultCode}
    (h : p.checkGroup l.inputs (16 + 6 * l.inputCount) (inputsOf l.inputCount) = { part := q, value := .error code }
      ∨ p.groupPasses l.inputs (16 + 6 * l.inputCount) (inputsOf l.inputCount)
        ∧ (p.checkGroup l.guards 32 guardsOf = { part := q, value := .error code }
          ∨ p.groupPasses l.guards 32 guardsOf
            ∧ (p.checkGroup l.bindings (8 * l.entryCount) (bindingsOf l.entryCount) = { part := q, value := .error code }
              ∨ p.groupPasses l.bindings (8 * l.entryCount) (bindingsOf l.entryCount)
                ∧ p.checkChannels l 8 = { part := q, value := .error code }))) :
    p.checkGroups l = { part := q, value := .error code } := by
  rcases h with h | ⟨⟨wi, gi, hi, hiclean, hiok⟩, h⟩
  · rw [Part.checkGroups, h]; rfl
  rw [Part.checkGroups, checkGroup_passes hi hiclean hiok]
  rcases h with h | ⟨⟨wg, gg, hg, hgclean, hgok⟩, h⟩
  · simp only [CheckRead.next, h]
  simp only [CheckRead.next, checkGroup_passes hg hgclean hgok]
  rcases h with h | ⟨⟨wb, gb, hb, hbclean, hbok⟩, h⟩
  · simp only [h]
  simp only [checkGroup_passes hb hbclean hbok, h]

end

/-- The first CHANNEL group that fails its checks (R179). -/
theorem exists_first_failing {wc : Fin 8 → List Word} (h : ∃ c k, channelParamsOf (wc c) = .error k) :
    ∃ c k, channelParamsOf (wc c) = .error k ∧ ∀ d, d < c → ∃ g, channelParamsOf (wc d) = .ok g := by
  obtain ⟨c, hc⟩ := h
  induction hn : c.val using Nat.strong_induction_on generalizing c with
  | _ n ih =>
    by_cases hfirst : ∀ d, d < c → ∃ g, channelParamsOf (wc d) = .ok g
    · obtain ⟨k, hk⟩ := hc
      exact ⟨c, k, hk, hfirst⟩
    · push Not at hfirst
      obtain ⟨d, hd, hbad⟩ := hfirst
      cases he : channelParamsOf (wc d) with
      | ok g => exact absurd he (hbad g)
      | error k => exact ih d.val (hn ▸ hd) d ⟨k, he⟩ rfl

/-- Settles O23: the first group that fails or has a bad word ends the check. -/
theorem groupCheckFails : Obligations.GroupCheckFails := by
  unfold Obligations.GroupCheckFails
  refine ⟨fun s l wi wg wb wc hconf hfail => ?_, fun s l ws hst hlen hclean hok => ?_⟩
  · obtain ⟨hst, ⟨ws, hlen, hclean, hok⟩, ⟨hi, hiclean⟩, ⟨hg, hgclean⟩, ⟨hb, hbclean⟩, hc⟩ := hconf
    have hends : (s.part.setRun { s.part.run with layout := some l }).checkGroups l
        = { part := s.part.setRun { s.part.run with layout := some l }, value := .error .config } := by
      refine checkGroups_ends ?_
      cases hwi : inputsOf l.inputCount wi with
      | error e => exact .inl (checkGroup_fails hi hiclean hwi)
      | ok gi =>
        refine .inr ⟨⟨wi, gi, hi, hiclean, hwi⟩, ?_⟩
        cases hwg : guardsOf wg with
        | error e => exact .inl (checkGroup_fails hg hgclean hwg)
        | ok gg =>
          refine .inr ⟨⟨wg, gg, hg, hgclean, hwg⟩, ?_⟩
          cases hwb : bindingsOf l.entryCount wb with
          | error e => exact .inl (checkGroup_fails hb hbclean hwb)
          | ok gb =>
            refine .inr ⟨⟨wb, gb, hb, hbclean, hwb⟩, ?_⟩
            have hchan : ∃ c k, channelParamsOf (wc c) = .error k := by
              rcases hfail with ⟨e, h⟩ | ⟨e, h⟩ | ⟨e, h⟩ | h
              · exact nomatch hwi.symm.trans h
              · exact nomatch hwg.symm.trans h
              · exact nomatch hwb.symm.trans h
              · exact h
            obtain ⟨c, k, hbad, hpass⟩ := exists_first_failing hchan
            refine checkChannels_ends c.isLt (fun d hd => ?_) (checkGroup_fails (hc c).1 (hc c).2 hbad)
            obtain ⟨g, hok'⟩ := hpass ⟨d, by omega⟩ hd
            exact ⟨wc ⟨d, by omega⟩, g, (hc ⟨d, by omega⟩).1, (hc ⟨d, by omega⟩).2, hok'⟩
    rw [exec_checkingComplete hst, finishCheck_fails ((checkAll_groups hlen hclean hok).trans hends)]
    rfl
  · intro spoilt passes inputsPass guardsPass bindingsPass hbad
    have hinactive : (s.part.setRun { s.part.run with layout := some l }).active = false := active_of_checking hst
    have hends : ∃ q, (s.part.setRun { s.part.run with layout := some l }).checkGroups l = { part := q, value := .error .memory }
        ∧ (s.part.setRun { s.part.run with layout := some l }).Quiet q ∧ q.noted := by
      have hpass {α : Type} {a n : Nat} {check : List Word → Except Nat α} (h : passes a n (fun ws => ∃ g, check ws = .ok g)) :
          (s.part.setRun { s.part.run with layout := some l }).groupPasses a n check := by
        obtain ⟨ws, hlen, hclean, g, hg⟩ := h
        exact ⟨ws, g, hlen, hclean, hg⟩
      rcases hbad with hi | ⟨hip, hg⟩ | ⟨hip, hgp, hb⟩ | ⟨hip, hgp, hbp, c, hc, hfirst⟩
      · obtain ⟨q, hq, hquiet⟩ := checkGroup_spoilt (check := inputsOf l.inputCount) hinactive hi
        exact ⟨q, checkGroups_ends (.inl hq), hquiet⟩
      · obtain ⟨q, hq, hquiet⟩ := checkGroup_spoilt (check := guardsOf) hinactive hg
        exact ⟨q, checkGroups_ends (.inr ⟨hpass hip, .inl hq⟩), hquiet⟩
      · obtain ⟨q, hq, hquiet⟩ := checkGroup_spoilt (check := bindingsOf l.entryCount) hinactive hb
        exact ⟨q, checkGroups_ends (.inr ⟨hpass hip, .inr ⟨hpass hgp, .inl hq⟩⟩), hquiet⟩
      · obtain ⟨q, hq, hquiet⟩ := checkGroup_spoilt (check := channelParamsOf) hinactive hc
        refine ⟨q, checkGroups_ends (.inr ⟨hpass hip, .inr ⟨hpass hgp, .inr ⟨hpass hbp, ?_⟩⟩⟩), hquiet⟩
        refine checkChannels_ends c.isLt (fun d hd => ?_) hq
        obtain ⟨ws, hlen, hclean, g, hg⟩ := hfirst ⟨d, by omega⟩ hd
        exact ⟨ws, g, hlen, hclean, hg⟩
    obtain ⟨q, hq, hquiet, hnoted⟩ := hends
    rw [exec_checkingComplete hst, finishCheck_fails ((checkAll_groups hlen hclean hok).trans hq)]
    have hfailed := checkFailed_memory hquiet hnoted
    exact ⟨_, rfl, hfailed⟩

end Sys2Proof.Machine
end

