-- ==== Sys2Proof/Proofs/ApplyRefusals.lean ====
section
/-! APPLY orders whose group does not pass, and those that STOPPING ends (R160, R162, R189). -/

namespace Sys2Proof.Machine

/-- A word of a configuration group is no word of reports. -/
theorem Layout.valid_reportWord_config {l : Layout} (h : l.valid = true) (i : Fin 10) (hi : i.val = 2 ∨ i.val = 3 ∨ i.val = 4 ∨ i.val = 5)
    {a : Nat} (h1 : l.regions[i].1 ≤ a) (h2 : a < l.regions[i].1 + l.regions[i].2) : l.reportWord a = false := by
  have hapart (j : Fin 10) (hj : i ≠ j) := Layout.valid_disjoint h hj
  have hne (j : Fin 10) (hj : j.val = 0 ∨ 6 ≤ j.val) : i ≠ j := by
    rintro rfl
    omega
  have h0 := hapart 0 (hne 0 (by decide))
  have h6 := hapart 6 (hne 6 (by decide))
  have h7 := hapart 7 (hne 7 (by decide))
  have h8 := hapart 8 (hne 8 (by decide))
  have h9 := hapart 9 (hne 9 (by decide))
  rw [Bool.eq_false_iff, Ne, Layout.reportWord_iff]
  change _ ≤ l.pointers ∨ l.pointers + 8 ≤ _ at h0
  change _ ≤ l.status ∨ l.status + 96 ≤ _ at h6
  change _ ≤ l.stateMap ∨ l.stateMap + (l.inputCount + 48) ≤ _ at h7
  change _ ≤ l.board ∨ l.board + 260 ≤ _ at h8
  change _ ≤ l.journal ∨ l.journal + l.journalSize ≤ _ at h9
  omega

/-- The words of a configuration group: in exhibit memory, and none of them a word of reports. -/
def Part.configRegion (p : Part) (base size : Nat) : Prop :=
  base + size ≤ Config.memWords ∧ ∀ k, k < size → p.reportWord (base + k) = false

theorem configRegion_of_valid {p : Part} {l : Layout} (hl : p.run.layout = some l) (hv : l.valid = true) :
    p.configRegion l.inputs (16 + 6 * l.inputCount) ∧ p.configRegion l.guards 32 ∧ p.configRegion l.bindings (8 * l.entryCount)
      ∧ ∀ c : Fin 8, p.configRegion (l.params + 16 * c.val) 16 := by
  have hreport (a : Nat) : p.reportWord a = l.reportWord a := by rw [Part.reportWord, hl]
  have hregion (i : Fin 10) (hi : i.val = 2 ∨ i.val = 3 ∨ i.val = 4 ∨ i.val = 5) (a n : Nat) (h1 : l.regions[i].1 ≤ a)
      (h2 : a + n ≤ l.regions[i].1 + l.regions[i].2) : p.configRegion a n := by
    have hfits := l.valid_fits hv i
    refine ⟨by omega, fun k hk => ?_⟩
    rw [hreport]
    exact Layout.valid_reportWord_config hv i hi (by omega) (by omega)
  refine ⟨hregion 3 (by decide) _ _ (Nat.le_refl _) (Nat.le_refl _), hregion 4 (by decide) _ _ (Nat.le_refl _) (Nat.le_refl _),
    hregion 2 (by decide) _ _ (Nat.le_refl _) (Nat.le_refl _), fun c => hregion 5 (by decide) _ _ ?_ ?_⟩
  · exact Nat.le_add_right _ _
  · show l.params + 16 * c.val + 16 ≤ l.params + 128
    omega

section
variable {α : Type} {p : Part} {l : Layout} {t : Taking} {base size : Nat} {check : List Word → Except Nat α} {f : Part → α → Part}
  {ws : List Word}

theorem applyGroup_clean (hlen : ws.length = size) (h : p.clean base ws) :
    p.applyGroup t base size check f = match check ws with
      | .error i => p.refuse t.slot .badConfig i
      | .ok g => if p.isRunning then f p g else p.stoppedTake t := by
  subst hlen
  rw [Part.applyGroup, readUntilBad_clean h] <;> rfl

theorem applyGroup_fails (hlen : ws.length = size) (h : p.clean base ws) {e : Nat} (he : check ws = .error e) :
    p.applyGroup t base size check f = p.refuse t.slot .badConfig e := by
  rw [applyGroup_clean hlen h, he]

theorem applyGroup_stopping (hlen : ws.length = size) (h : p.clean base ws) {g : α} (hg : check ws = .ok g)
    (hrun : p.run.state = .stopping) : p.applyGroup t base size check f = p.endTake t.slot .stopped 0 := by
  rw [applyGroup_clean hlen h, hg]
  simp [Part.isRunning, hrun, Part.stoppedTake]

theorem applyGroup_applies (hlen : ws.length = size) (h : p.clean base ws) {g : α} (hg : check ws = .ok g)
    (hrun : p.run.state = .running) : p.applyGroup t base size check f = f p g := by
  rw [applyGroup_clean hlen h, hg]
  simp [Part.isRunning, hrun]

/-- The first bad word refuses the order MEMORY with its index (R189). -/
theorem applyGroup_spoilt {i : Nat} (hregion : p.configRegion base size) (hi : i < size)
    (hread : ∀ k, k < i → (p.mem.cell (base + k)).readable) (hbad : (p.mem.cell (base + i)).spoilt) :
    p.applyGroup t base size check f = (p.readUntilBad .config base size).part.refuse t.slot .memory i := by
  have hfirst := readUntilBad_spoilt (agent := .config) (unreadStand_readUntilBad hregion.1 hregion.2) hi hread hbad
  rw [Part.applyGroup, hfirst]

/-- An APPLY order that is not applied, by what its group reads (R160, R162, R189). -/
theorem applyGroup_ends (hserving : p.serving l .apply t) (hm : Memory.wf p.mem) (hregion : p.configRegion base size)
    {err : List Word → Option Nat} (herr : ∀ ws e, err ws = some e → check ws = .error e) (hok : ∀ ws, err ws = none → ∃ g, check ws = .ok g) :
    (∀ ws e, ws.length = size → p.clean base ws → err ws = some e →
        (p.applyGroup t base size check f).SlotShows l t.slot .refused 8 e ∧ (p.applyGroup t base size check f).orders.taking = none
          ∧ p.OnlyOrders (p.applyGroup t base size check f))
      ∧ (∀ i, i < size → (∀ k, k < i → (p.mem.cell (base + k)).readable) → (p.mem.cell (base + i)).spoilt →
        (p.applyGroup t base size check f).SlotShows l t.slot .refused 9 i ∧ (p.applyGroup t base size check f).orders.taking = none
          ∧ p.SameSetup (p.applyGroup t base size check f))
      ∧ (∀ ws, ws.length = size → p.clean base ws → err ws = none → p.run.state = .stopping →
        (p.applyGroup t base size check f).SlotShows l t.slot .finished 4 0 ∧ (p.applyGroup t base size check f).orders.taking = none
          ∧ p.OnlyOrders (p.applyGroup t base size check f)) := by
  obtain ⟨-, -, -, hslot⟩ := hserving
  refine ⟨fun ws e hlen hclean he => ?_, fun i hi hread hbad => ?_, fun ws hlen hclean he hrun => ?_⟩
  · rw [applyGroup_fails hlen hclean (herr ws e he)]
    exact refuse_ends hslot hm .badConfig e
  · rw [applyGroup_spoilt hregion hi hread hbad]
    have hreads := reads_readUntilBad p .config base hregion.1
    obtain ⟨hshows, htaking, -⟩ := refuse_ends (hreads.hasSlot hslot) (hreads.mem hm) .memory i
    exact ⟨hshows, htaking, (setup_readUntilBad p .config base size).trans (setup_refuse _ _ _ _)⟩
  · obtain ⟨g, hg⟩ := hok ws he
    rw [applyGroup_stopping hlen hclean hg hrun]
    exact endTake_ends hslot hm .stopped 0

end

/-- The outcome of a check as the offender's number, or none where it passes. -/
theorem err_of_check {α : Type} {check : List Word → Except Nat α} {err : List Word → Option Nat}
    (herror : ∀ ws e, check ws = .error e → err ws = some e) (hok : ∀ ws g, check ws = .ok g → err ws = none) :
    (∀ ws e, err ws = some e → check ws = .error e) ∧ ∀ ws, err ws = none → ∃ g, check ws = .ok g := by
  refine ⟨fun ws e he => ?_, fun ws he => ?_⟩
  · cases hc : check ws with
    | error i => rw [herror ws i hc] at he; cases he; rfl
    | ok g => rw [hok ws g hc] at he; cases he
  · cases hc : check ws with
    | error i => rw [herror ws i hc] at he; cases he
    | ok g => exact ⟨g, rfl⟩

section
variable {s : State} {l : Layout} {t : Taking}

theorem exec_applyInputs (h : s.part.serving l .apply t) (ht : t.target = 0) : exec .applyInputs s = .next (s.setPart
    (s.part.applyGroup t l.inputs (16 + 6 * l.inputCount) (inputsOf l.inputCount) (fun q g => q.applyInputsOrder t g))) := by
  have ⟨_, _, _, hl, _⟩ := h
  refine (congrArg (done s) (withTaking_of_serving h (by rw [ht]; rfl) _)).trans ?_
  rw [hl]
  rfl

theorem exec_applyGuards (h : s.part.serving l .apply t) (ht : t.target = 1) : exec .applyGuards s = .next (s.setPart
    (s.part.applyGroup t l.guards 32 guardsOf (fun q g => (q.applyGuardsGroup g).endTake t.slot .complete 0))) := by
  have ⟨_, _, _, hl, _⟩ := h
  refine (congrArg (done s) (withTaking_of_serving h (by rw [ht]; rfl) _)).trans ?_
  rw [hl]
  rfl

theorem exec_applyBindings (h : s.part.serving l .apply t) (ht : t.target = 2) : exec .applyBindings s = .next (s.setPart
    (s.part.applyGroup t l.bindings (8 * l.entryCount) (bindingsOf l.entryCount)
      (fun q b => (q.applyBindingsGroup b).endTake t.slot .complete 0))) := by
  have ⟨_, _, _, hl, _⟩ := h
  refine (congrArg (done s) (withTaking_of_serving h (by rw [ht]; rfl) _)).trans ?_
  rw [hl]
  rfl

theorem exec_applyChannel {c : Fin 8} (h : s.part.serving l .apply t) (ht : t.target.toNat = 8 + c.val) :
    exec .applyChannel s = .next (s.setPart
      (s.part.applyGroup t (l.params + 16 * c.val) 16 channelParamsOf (fun q pr => q.applyChannelOrder t c pr))) := by
  have ⟨_, _, _, hl, _⟩ := h
  have hc : Fin.ofNat 8 (t.target.toNat - 8) = c := by
    apply Fin.ext
    simp only [Fin.ofNat, ht]
    omega
  refine (congrArg (done s) (withTaking_of_serving h (by simp only [within, ht, decide_eq_true_eq]; omega) _)).trans ?_
  dsimp only
  rw [hl, hc]
  rfl

end

/-- What a row that applies a group does where the group is not applied. -/
theorem exec_apply_ends {α : Type} {c : Instr} {s : State} {l : Layout} {t : Taking} {base size : Nat} {check : List Word → Except Nat α}
    {f : Part → α → Part} (hserving : s.part.serving l .apply t) (hm : Memory.wf s.part.mem) (hregion : s.part.configRegion base size)
    (hexec : exec c s = .next (s.setPart (s.part.applyGroup t base size check f))) {err : List Word → Option Nat}
    (herr : (∀ ws e, err ws = some e → check ws = .error e) ∧ ∀ ws, err ws = none → ∃ g, check ws = .ok g) :
    (∀ ws e, ws.length = size → s.part.clean base ws → err ws = some e →
      ∃ q, exec c s = .next (s.setPart q) ∧ q.SlotShows l t.slot .refused 8 e ∧ q.orders.taking = none ∧ s.part.OnlyOrders q)
    ∧ (∀ i, i < size → (∀ k, k < i → (s.part.mem.cell (base + k)).readable) → (s.part.mem.cell (base + i)).spoilt →
      ∃ q, exec c s = .next (s.setPart q) ∧ q.SlotShows l t.slot .refused 9 i ∧ q.orders.taking = none ∧ s.part.SameSetup q)
    ∧ (∀ ws, ws.length = size → s.part.clean base ws → err ws = none → s.part.run.state = .stopping →
      ∃ q, exec c s = .next (s.setPart q) ∧ q.SlotShows l t.slot .finished 4 0 ∧ q.orders.taking = none ∧ s.part.OnlyOrders q) := by
  obtain ⟨hfails, hspoilt, hstops⟩ := applyGroup_ends (f := f) hserving hm hregion herr.1 herr.2
  exact ⟨fun ws e hlen hclean he => ⟨_, hexec, hfails ws e hlen hclean he⟩, fun i hi hread hbad => ⟨_, hexec, hspoilt i hi hread hbad⟩,
    fun ws hlen hclean he hrun => ⟨_, hexec, hstops ws hlen hclean he hrun⟩⟩

/-- Settles O39: an APPLY of each of the four kinds goes through `Part.applyGroup`. -/
theorem applyRefused : Obligations.ApplyRefused := by
  unfold Obligations.ApplyRefused
  intro c s l t base size err hserving hm hkind
  have ⟨_, _, _, hl, hv, _, _⟩ := hserving
  obtain ⟨hinputs, hguards, hbindings, hchannel⟩ := configRegion_of_valid hl hv
  rcases hkind with ⟨rfl, ht, rfl, rfl, rfl⟩ | ⟨rfl, ht, rfl, rfl, rfl⟩ | ⟨rfl, ht, rfl, rfl, rfl⟩ | ⟨n, rfl, ht, rfl, rfl, rfl⟩
  · exact exec_apply_ends hserving hm hinputs (exec_applyInputs hserving ht)
      (err_of_check (fun ws e h => by simp only [h]) (fun ws g h => by simp only [h]))
  · exact exec_apply_ends hserving hm hguards (exec_applyGuards hserving ht)
      (err_of_check (fun ws e h => by simp only [h]) (fun ws g h => by simp only [h]))
  · exact exec_apply_ends hserving hm hbindings (exec_applyBindings hserving ht)
      (err_of_check (fun ws e h => by simp only [h]) (fun ws g h => by simp only [h]))
  · exact exec_apply_ends hserving hm (hchannel n) (exec_applyChannel hserving ht)
      (err_of_check (fun ws e h => by simp only [h]) (fun ws g h => by simp only [h]))

end Sys2Proof.Machine
end

