-- ==== Sys2Proof/Proofs/Applications.lean ====
section
/-! Applications of BINDINGS and CHANNEL groups (R44, R61, R62). -/

namespace Sys2Proof.Machine

/-- What leaves the channels but for their status times stands between `p`, given `q`'s own channels, and `q`. -/
theorem Part.OnlyOrders.ownChannels {p q : Part} (h : p.OnlyOrders q) : (p.setChannels q.channels).OnlyOrders q := fun c =>
  { h c with
    others := fun _ _ => rfl
    params := rfl
    pins := rfl
    queue := Nat.le_refl _ }

theorem Part.applyBindingsGroup_chan (p : Part) (store : List Binding) (c : Fin 8) :
    (p.applyBindingsGroup store).chan c = (p.chan c).unmark := by
  simp [Part.applyBindingsGroup, Part.setChannels, Part.chan]

theorem bindingOf_lockout {ws : List Word} {e : Nat} {b : Binding} (h : bindingOf ws e = some b) : b.lockout = none := by
  unfold bindingOf at h
  dsimp only at h
  split at h
  · cases h; rfl
  · split at h
    · cases h
    · split at h
      · cases h
      · cases h; rfl

theorem bindingsOf_lockout {n : Nat} {ws : List Word} {store : List Binding} (h : bindingsOf n ws = .ok store) :
    ∀ b ∈ store, b.lockout = none := by
  unfold bindingsOf at h
  split at h
  · cases h
  · cases h
    intro b hb
    obtain ⟨e, -, he⟩ := List.mem_filterMap.mp hb
    exact bindingOf_lockout he

/-- Settles O37: the store is replaced, every move loses its mark, and the order's end reports. -/
theorem applyBindingsReplacesStore : Obligations.ApplyBindingsReplacesStore := by
  unfold Obligations.ApplyBindingsReplacesStore
  intro s l t ws store hserving hm ht hrun hlen hclean hok
  have ⟨_, _, _, hslot⟩ := hserving
  rw [exec_applyBindings hserving ht, applyGroup_applies hlen hclean hok hrun]
  obtain ⟨hshows, htaking, honly⟩ := endTake_ends (p := s.part.applyBindingsGroup store) hslot hm .complete 0
  have hbindings : ((s.part.applyBindingsGroup store).endTake t.slot .complete 0).bindings = store := (honly 0).bindings
  refine ⟨_, rfl, htaking, hshows, hbindings, ?_, fun c => ?_, honly.ownChannels⟩
  · rw [hbindings]
    exact bindingsOf_lockout hok
  · refine (Channel.eq_of_view (x := (s.part.chan c).unmark) ?_).trans rfl
    rw [view_endTake, Part.applyBindingsGroup_chan]

/-! ### CHANNEL groups (R61, R62) -/

/-- The check at the moment of replacement (R61). -/
theorem Channel.refuses_eq (x : Channel) (pr : Params) : x.refuses pr =
    if ¬ (x.state = .unhomed ∨ x.state = .idle ∨ x.state = .parked ∨ x.state = .fault) then some (.channelBusy, 0)
    else if pr.enable = true ∧ (x.state = .idle ∨ x.state = .parked) ∧ x.lost = false then
      (if x.s < pr.softMin then some (.badConfig, 6) else if pr.softMax < x.s then some (.badConfig, 7) else none)
    else none := by
  unfold Channel.refuses
  simp only [ChanState.replaceable, Bool.or_eq_true, Bool.and_eq_true, Bool.not_eq_true', ← Bool.not_eq_true, beq_iff_eq, and_assoc, or_assoc]

/-- An accepted APPLY CHANNEL, by the enable before and after (R62). -/
theorem applyChannelGroup_eq (p : Part) (c : Fin 8) (pr : Params) : p.applyChannelGroup c pr =
    if (p.chan c).enabled = true ∧ pr.enable = false then
      ((p.endFaults c).setChan c (((p.endFaults c).chan c).disabled pr)).commit c (p.chan c) 0 true
    else if (p.chan c).enabled = false ∧ pr.enable = true then
      if (p.chan c).pins.flt then ((p.setChan c ((p.chan c).enabledBy pr)).commit c (p.chan c) 0 true).faultEntry c .driver
      else (p.setChan c ((p.chan c).enabledBy pr)).commit c (p.chan c) 0 true
    else (p.setChan c { p.chan c with params := some pr }).commit c (p.chan c) 0 true := by
  simp only [Part.applyChannelGroup, Bool.and_eq_true, Bool.not_eq_true']

theorem onlyChannel_applyChannelGroup (p : Part) (c : Fin 8) (pr : Params) : p.OnlyChannel c (p.applyChannelGroup c pr) := by
  have hset (q : Part) (x before : Channel) : q.OnlyChannel c ((q.setChan c x).commit c before 0 true) :=
    (Part.OnlyChannel.setChan q c x).trans (near_commit _ _ _ _ _).onlyChannel
  rw [applyChannelGroup_eq]
  split
  · exact (told_endFaults p c).near.onlyChannel.trans (hset _ _ _)
  · split
    · split
      · exact (hset _ _ _).trans (near_faultEntry _ _).onlyChannel
      · exact hset _ _ _
    · exact hset _ _ _

theorem slotsKept_applyChannelGroup (p : Part) (c : Fin 8) (pr : Params) : p.SlotsKept (p.applyChannelGroup c pr) := by
  rw [applyChannelGroup_eq]
  split
  · exact slotsKept.trans (slotsKept.told (told_endFaults p c)) (slotsKept.committed _ _ _ _ _ _ _)
  · split
    · split
      · exact slotsKept.trans (slotsKept.committed _ _ _ _ _ _ _) (slotsKept.faultEntry _ _)
      · exact slotsKept.committed _ _ _ _ _ _ _
    · exact slotsKept.committed _ _ _ _ _ _ _

theorem Channel.faulted_view {x y : Channel} (h : y.view = x.view) (cause : ChanFault) : (y.faulted cause).view = (x.faulted cause).view := by
  obtain ⟨w, rfl⟩ := exists_of_view h
  cases hm : x.current <;> simp only [Channel.faulted, Channel.finished, Channel.losePosition, hm] <;> rfl

/-- A channel that has entered FAULT, whatever it was doing (R77). -/
theorem Channel.faulted_keeps (x : Channel) (cause : ChanFault) :
    (x.faulted cause).state = .fault ∧ (x.faulted cause).faultCode = some cause ∧ (x.faulted cause).lost = true
      ∧ (x.faulted cause).parkCause = none ∧ (x.faulted cause).queue = [] ∧ (x.faulted cause).en = (x.en && cause != .driver)
      ∧ (x.faulted cause).params = x.params ∧ (x.faulted cause).prof.p = x.prof.p := by
  cases hm : x.current <;> simp only [Channel.faulted, Channel.finished, Channel.losePosition, hm] <;>
    exact ⟨rfl, rfl, rfl, rfl, rfl, rfl, rfl, rfl⟩

/-- The channel that an accepted APPLY CHANNEL leaves, but for the entry to FAULT of one enabled with FLT active (R62). -/
theorem view_applyChannelGroup (p : Part) (c : Fin 8) (pr : Params) :
    ((p.applyChannelGroup c pr).chan c).view =
      (if (p.chan c).enabled = true ∧ pr.enable = false then (p.chan c).disabled pr
      else if (p.chan c).enabled = false ∧ pr.enable = true then
        if (p.chan c).pins.flt then ((p.chan c).enabledBy pr).faulted .driver else (p.chan c).enabledBy pr
      else { p.chan c with params := some pr }).view := by
  rw [applyChannelGroup_eq]
  split
  · obtain ⟨w, hw⟩ := exists_of_view (view_told (told_endFaults p c) c)
    rw [view_commit, Part.setChan_chan_self, hw]
    rfl
  · split
    · split
      · rw [view_faultEntry]
        refine Channel.faulted_view ?_ _
        rw [view_commit, Part.setChan_chan_self]
      · rw [view_commit, Part.setChan_chan_self]
    · rw [view_commit, Part.setChan_chan_self]

theorem applyChannelOrder_refused {p : Part} {t : Taking} {c : Fin 8} {pr : Params} {code : RefusalCode} {r : Int}
    (h : (p.chan c).refuses pr = some (code, r)) : p.applyChannelOrder t c pr = p.refuse t.slot code r := by
  rw [Part.applyChannelOrder, h]

theorem applyChannelOrder_accepted {p : Part} {t : Taking} {c : Fin 8} {pr : Params} (h : (p.chan c).refuses pr = none) :
    p.applyChannelOrder t c pr = (p.applyChannelGroup c pr).endTake t.slot .complete 0 := by
  rw [Part.applyChannelOrder, h]

/-- Settles O38: the channel refuses, or takes the parameters with its enable. -/
theorem applyChannelReplacesParameters : Obligations.ApplyChannelReplacesParameters := by
  unfold Obligations.ApplyChannelReplacesParameters
  intro s l t c ws pr hserving hm ht hrun hlen hclean hok x still known
  have ⟨_, _, _, hslot⟩ := hserving
  have hrefuses := Channel.refuses_eq x pr
  have hstill : known → still := fun h => h.2.1.elim (fun h => .inr (.inl h)) (fun h => .inr (.inr (.inl h)))
  have hrefused {code : RefusalCode} {r : Int} (h : x.refuses pr = some (code, r)) := refuse_ends hslot hm code r
  rw [exec_applyChannel hserving ht, applyGroup_applies hlen hclean hok hrun]
  by_cases hs : still
  · rw [if_neg (not_not_intro hs)] at hrefuses
    by_cases hbad : known ∧ (x.s < pr.softMin ∨ pr.softMax < x.s)
    · obtain ⟨hk, hlim⟩ := hbad
      rw [if_pos hk] at hrefuses
      by_cases hlow : x.s < pr.softMin
      · rw [if_pos hlow] at hrefuses
        obtain ⟨hshows, htaking, honly⟩ := hrefused hrefuses
        rw [applyChannelOrder_refused hrefuses]
        exact ⟨_, rfl, htaking, fun h => absurd hs h, fun _ _ => ⟨hshows, honly⟩, fun _ h => absurd hlow (by omega),
          fun _ h => absurd (h hk).1 (by omega)⟩
      · have hhigh : pr.softMax < x.s := hlim.resolve_left hlow
        rw [if_neg hlow, if_pos hhigh] at hrefuses
        obtain ⟨hshows, htaking, honly⟩ := hrefused hrefuses
        rw [applyChannelOrder_refused hrefuses]
        exact ⟨_, rfl, htaking, fun h => absurd hs h, fun _ h => absurd h hlow, fun _ _ _ => ⟨hshows, honly⟩,
          fun _ h => absurd (h hk).2 (by omega)⟩
    · have hnone : x.refuses pr = none := by
        rw [hrefuses]
        split
        · next hk => rw [if_neg (fun h => hbad ⟨hk, .inl h⟩), if_neg (fun h => hbad ⟨hk, .inr h⟩)]
        · rfl
      rw [applyChannelOrder_accepted hnone]
      have honly := onlyChannel_applyChannelGroup s.part c pr
      obtain ⟨hshows, htaking, hall⟩ := honly.endTake ((slotsKept_applyChannelGroup s.part c pr).hasSlot hslot) hm .complete 0
      have hview := (view_endTake (s.part.applyChannelGroup c pr) t.slot .complete 0 c).trans (view_applyChannelGroup s.part c pr)
      refine ⟨_, rfl, htaking, fun h => absurd hs h, fun hk h => absurd ⟨hk, .inl h⟩ hbad, fun hk _ h => absurd ⟨hk, .inr h⟩ hbad,
        fun _ _ => ⟨hshows, hall, fun he => ?_, fun he hd => ?_, fun he hd hflt => ?_, fun he hd hflt => ?_⟩⟩
      · have he' : x.enabled = pr.enable := he
        rw [if_neg (by rw [he']; rintro ⟨h1, h2⟩; rw [h1] at h2; cases h2), if_neg (by rw [he']; rintro ⟨h1, h2⟩; rw [h1] at h2; cases h2)]
          at hview
        exact Channel.eq_of_view hview
      · rw [if_pos ⟨he, hd⟩] at hview
        exact Channel.eq_of_view hview
      · rw [if_neg (by rintro ⟨-, h⟩; rw [hd] at h; cases h), if_pos ⟨he, hd⟩, if_neg (by rw [hflt]; decide)] at hview
        have hpowered : x.enabledBy pr = { x with params := some pr, state := .unhomed, lost := true, en := true } := by
          rw [Channel.enabledBy, hflt]
          rfl
        exact Channel.eq_of_view (hview.trans (congrArg Channel.view hpowered))
      · rw [if_neg (by rintro ⟨-, h⟩; rw [hd] at h; cases h), if_pos ⟨he, hd⟩, if_pos hflt] at hview
        obtain ⟨w, hw⟩ := exists_of_view hview
        obtain ⟨hst, hcode, hlost, -, -, hen, hparams, -⟩ := Channel.faulted_keeps (x.enabledBy pr) .driver
        rw [hw]
        exact ⟨hparams, hst, hcode, hlost, hen.trans (Bool.and_false _)⟩
  · rw [if_pos hs] at hrefuses
    obtain ⟨hshows, htaking, honly⟩ := hrefused hrefuses
    rw [applyChannelOrder_refused hrefuses]
    exact ⟨_, rfl, htaking, fun _ => ⟨hshows, honly⟩, fun hk => absurd (hstill hk) hs, fun hk => absurd (hstill hk) hs, fun h => absurd h hs⟩

end Sys2Proof.Machine
end

