-- ==== Sys2Proof/Proofs/ModesAndLamps.lean ====
section
/-! SET_MODE and LAMP orders (R136, R159), and the expiries of commanded patterns and lockouts (R15, R42). -/

namespace Sys2Proof.Machine

variable {p q : Part} {t : Taking} {l : Layout}

/-! ### Codes of modes and patterns (13.9) -/

@[simp] theorem Mode.ofCode_code (m : Mode) : Mode.ofCode m.code = some m := by cases m <;> rfl

theorem Mode.exists_code {n : Nat} (h : n ≤ 3) : ∃ m : Mode, m.code = n := by
  interval_cases n
  exacts [⟨.opened, rfl⟩, ⟨.rest, rfl⟩, ⟨.closed, rfl⟩, ⟨.service, rfl⟩]

theorem Mode.ofCode_unnamed {n : Nat} (h : 3 < n) : Mode.ofCode n = none := by
  obtain ⟨k, rfl⟩ := Nat.exists_eq_add_of_le' h
  rfl

@[simp] theorem Lamp.ofCode_code (x : Lamp) : Lamp.ofCode x.code = x := by cases x <;> rfl

theorem Lamp.code_lt (x : Lamp) : x.code < 4 := by cases x <;> decide

/-! ### SET_MODE -/

theorem exec_setMode {s : State} (h : s.part.serving l .setMode t) (ht : t.asked = false) :
    exec .setMode s = .next (s.setPart (s.part.setModeOrder t)) :=
  congrArg (done s) (withTaking_of_serving h (by rw [ht]; rfl) Part.setModeOrder)

theorem setModeOrder_named (p : Part) {m : Mode} (hm : m.code = t.target.toNat) : p.setModeOrder t =
    if p.isRunning then
      (p.setOrders { p.orders with taking := some { t with asked := true } }).pushRequest { mode := m, cause := .order t.slot }
    else p.stoppedTake t := by
  rw [Part.setModeOrder, ← hm, Mode.ofCode_code]

theorem setModeOrder_unnamed (p : Part) (h : 3 < t.target.toNat) : p.setModeOrder t = p.refuse t.slot .badOperand 0 := by
  rw [Part.setModeOrder, Mode.ofCode_unnamed h]

/-- Settles O40: the request joins those that wait, or the order is refused or ends, by its operand and the run state. -/
theorem setModeOrder : Obligations.SetModeOrder := by
  unfold Obligations.SetModeOrder
  intro s l t hserving hwf hasked
  have ⟨_, _, _, hslot⟩ := hserving
  rw [exec_setMode hserving hasked]
  refine ⟨fun m hm hrun => ?_, fun hnamed hstop => ?_, fun hunnamed => ?_⟩
  · rw [setModeOrder_named _ hm, if_pos (by simp [Part.isRunning, hrun])]
    rfl
  · obtain ⟨m, hm⟩ := Mode.exists_code hnamed
    rw [setModeOrder_named _ hm, if_neg (by simp [Part.isRunning, hstop])]
    exact ⟨_, rfl, endTake_ends hslot hwf .stopped 0⟩
  · rw [setModeOrder_unnamed _ hunnamed]
    exact ⟨_, rfl, refuse_ends hslot hwf .badOperand 0⟩

/-! ### LAMP and the expiries -/

theorem exec_lamp {s : State} (h : s.part.serving l .lamp t) : exec .lamp s = .next (s.setPart (s.part.lampOrder t)) :=
  congrArg (done s) (withTaking_of_serving h rfl Part.lampOrder)

/-- A LAMP order commands its pattern, or is refused (R159). -/
theorem lampOrder_eq (p : Part) (t : Taking) : p.lampOrder t =
    if t.target.toNat < p.inputs.length ∧ t.w3.toNat < 4 then
      (p.commandLamp t.target.toNat (.ofCode t.w3.toNat) (p.lampExpiry (min t.w4.toNat 255))).endTake t.slot .complete 0
    else p.refuse t.slot .badOperand 0 := rfl

/-- A pattern commanded for no seconds has no expiry, and one for more than 255 expires after 255 (R159). -/
theorem lampExpiry_eq (p : Part) (w : Word) : p.lampExpiry (min w.toNat 255) =
    if w = 0 then none else some (p.time + BitVec.ofNat 32 (min w.toNat 255 * 1000)) := by
  have hzero : min w.toNat 255 = 0 ↔ w = 0 := by
    rw [← BitVec.toNat_inj]
    simp
  simp only [Part.lampExpiry, hzero, after]

theorem exec_lampExpiry {s : State} {input : Byte} {x : Input} {c : LampCommand} {due : Time}
    (hx : s.part.inputs[input.toNat]? = some x) (hc : x.lamp = some c) (hdue : c.expiry = some due) (hcome : s.part.comesDue due p) :
    exec (.lampExpiry input) s = .next (s.setPart (p.modInput input.toNat (fun y => { y with lamp := none }))) := by
  cases x
  cases hc
  show done s _ = _
  rw [hx]
  dsimp only
  rw [hdue, Part.atTimer_comes hcome]
  rfl

theorem exec_lockoutExpiry {s : State} {entry : Byte} {b : Binding} {due : Time} (hb : s.part.bindings[entry.toNat]? = some b)
    (hdue : b.lockout = some due) (hcome : s.part.comesDue due p) :
    exec (.lockoutExpiry entry) s = .next (s.setPart (p.modBinding entry.toNat (fun y => { y with lockout := none }))) := by
  show done s _ = _
  rw [hb]
  dsimp only
  rw [hdue, Part.atTimer_comes hcome]
  rfl

/-- Settles O41: a LAMP order commands the input it names or is refused, and an expiry at its due time clears its own field. -/
theorem lampsAndLockouts : Obligations.LampsAndLockouts := by
  unfold Obligations.LampsAndLockouts
  refine ⟨fun s l t hserving hwf => ?_, fun input s x c due p hx hc hdue hcome => exec_lampExpiry hx hc hdue hcome,
    fun entry s b due p hb hdue hcome => exec_lockoutExpiry hb hdue hcome⟩
  have ⟨_, _, _, hslot⟩ := hserving
  rw [exec_lamp hserving, lampOrder_eq]
  split
  · next hok =>
    obtain ⟨hin, hpattern⟩ := hok
    rw [lampExpiry_eq]
    obtain ⟨hshows, htaking, honly⟩ := endTake_ends (l := l) (i := t.slot)
      (p := s.part.commandLamp t.target.toNat (.ofCode t.w3.toNat) _) hslot hwf .complete 0
    refine ⟨_, rfl, htaking, fun _ pattern hp => ⟨hshows, ?_⟩, fun hbad => ?_⟩
    · rw [← hp, Lamp.ofCode_code] at honly ⊢
      exact honly
    · omega
  · next hbad =>
    obtain ⟨hshows, htaking, honly⟩ := refuse_ends hslot hwf .badOperand 0
    refine ⟨_, rfl, htaking, fun hin pattern hp => absurd ⟨hin, ?_⟩ hbad, fun _ => ⟨hshows, honly⟩⟩
    rw [← hp]
    exact pattern.code_lt

end Sys2Proof.Machine
end

