-- ==== Sys2Proof/Proofs/LineEvents.lean ====
section
/-! Reception on a station line, and the start of its cycles (R2, R4, R5, R14). -/

namespace Sys2Proof.Machine

variable {p q : Part} {x : Line} {a : Nat} {data : Byte} {framing mark : Bool}

/-! ### What an event makes of the line -/

theorem Line.openWindow_sending {f : PollFrame} (h : x.exchange = .sending a f) : x.openWindow = { x with exchange := .window a } := by
  rw [Line.openWindow, h]

theorem Line.startBit_window (h : x.exchange = .window a) : x.startBit = { x with exchange := .receiving a } := by
  rw [Line.startBit, h]

theorem Line.startBit_gap (h : x.exchange = .gap a) : x.startBit = { x with exchange := .receiving a } := by
  rw [Line.startBit, h]

/-- A character enters a FIFO with room, with the overrun of the one before it; a full FIFO notes the overrun (R4). -/
theorem Line.offer_eq (x : Line) (data : Byte) (framing mark : Bool) : x.offer data framing mark = { x with
    fifo := if x.fifo.length < 16 then x.fifo ++ [{ data := data, framing := framing, mark := mark, overrun := x.overrun }] else x.fifo
    overrun := decide (16 ≤ x.fifo.length) } := by
  unfold Line.offer
  have hdepth : Config.fifoDepth = 16 := rfl
  rw [hdepth]
  split
  · next h => rw [decide_eq_false (Nat.not_le.mpr h)]
  · next h => rw [decide_eq_true (Nat.not_lt.mp h)]

theorem Line.receive_reply (h : x.exchange = .receiving a) :
    x.receive data framing mark = { x.offer data framing mark with exchange := .gap a } := by
  unfold Line.receive
  rw [h]

/-- With no reply open and no test running the receiver takes nothing. -/
theorem Line.receive_off (h : ∀ b, x.exchange ≠ .receiving b) (ht : ∀ slot, x.test ≠ .running slot) : x.receive data framing mark = x := by
  unfold Line.receive
  split
  · next hx => exact absurd hx (h _)
  · next htest _ _ => exact absurd htest (ht _)
  · rfl

/-! ### The cycle -/

theorem Part.setLine_self (p : Part) (l : Fin 4) : p.setLine l (p.line l) = p :=
  congrArg p.setLines (Vector.set_getElem_self _)

theorem polls_iff (p : Part) (l : Fin 4) : p.polls l = true ↔
    p.active = true ∧ (p.line l).record.enable = true ∧ 1 ≤ (p.line l).record.stations ∧ (p.line l).test = .none := by
  have htest : (p.line l).testing = false ↔ (p.line l).test = .none := by
    rw [Bool.eq_false_iff, Ne, Line.testing_iff, not_not]
  simp only [Part.polls, Bool.and_eq_true, decide_eq_true_eq, Bool.not_eq_true', htest, and_assoc]

theorem exec_cycleWaitExpiry {l : Fin 4} {s : State} (h : (s.part.line l).exchange = .waiting)
    (hcome : s.part.comesDue ((s.part.line l).cycleStart + 100) p) :
    exec (.cycleWaitExpiry l) s = .next (s.setPart (p.beginCycle l)) := by
  have hdue : s.part.atDue (after (s.part.line l).cycleStart Config.cycleSpacing) = some p := Part.atDue_comes hcome
  show done s _ = _
  rw [h]
  dsimp only
  rw [hdue]
  rfl

/-- Settles O47: the window, the start bit and the character by the exchange of the line, and the cycle that follows a wait. -/
theorem lineEvents : Obligations.LineEvents := by
  unfold Obligations.LineEvents
  refine ⟨fun l s a f h => ?_, fun l s a h => ?_, fun l data framing mark s a => ⟨fun h => ?_, fun h ht => ?_⟩,
    fun l s p => ?_⟩
  · exact congrArg (fun y => done s (s.part.setLine l y)) (Line.openWindow_sending h)
  · exact congrArg (fun y => done s (s.part.setLine l y)) (h.elim Line.startBit_window Line.startBit_gap)
  · refine congrArg (fun y => done s (s.part.setLine l y)) ((Line.receive_reply h).trans ?_)
    rw [Line.offer_eq]
  · refine (congrArg (fun y => done s (s.part.setLine l y)) (Line.receive_off h ht)).trans ?_
    exact congrArg (done s) (s.part.setLine_self l)
  · intro x hwait hcome henable hstations htest
    obtain ⟨hp, -⟩ := Part.comesDue_eq hcome
    have hline : p.line l = x := by rw [hp]; rfl
    have hactive : p.active = true := by rw [hp]; exact hcome.1
    have hpolls : p.polls l = true := by
      rw [polls_iff, hline]
      exact ⟨hactive, henable, hstations, htest⟩
    rw [exec_cycleWaitExpiry hwait hcome, beginCycle_eq, if_pos hpolls, hline]

end Sys2Proof.Machine
end

