-- ==== Sys2Proof/Proofs/WorkFrames.lean ====
section
/-! The frame of the blocks' ordinary work: what else it takes in, and how it composes. -/

namespace Sys2Proof.Machine

section
variable {β : Type} {f : Input → β} {p q r : Part} {l : Layout} {i code : Nat} {res : Int} {st : SlotState}

/-- What the blocks' ordinary work leaves as it is, they leave whatever of the rest changed. -/
theorem Part.Calm.onlyWork (h : p.Calm f q) : p.OnlyWork q :=
  { h with
    takeQueue := rfl
    lines := fun _ => rfl
    inputs := rfl
    guards := fun _ => rfl }

theorem Part.Told.onlyWork (h : p.Told q) : p.OnlyWork q := (h.calm (f := id)).onlyWork

theorem Part.Near.onlyWork {c : Fin 8} (h : p.Near c q) : p.OnlyWork q := (h.calm (f := id)).onlyWork

theorem Part.OnlyWork.refl (p : Part) : p.OnlyWork p := (Part.Told.refl p).onlyWork

theorem Part.OnlyWork.trans (a : p.OnlyWork q) (b : q.OnlyWork r) : p.OnlyWork r where
  run := by
    have hq : q.run = { p.run with attention := q.run.attention } := a.run
    have hr : r.run = { q.run with attention := r.run.attention } := b.run
    show r.run = { p.run with attention := r.run.attention }
    rw [hr, hq]
  runstate := b.runstate.trans a.runstate
  memerr := b.memerr.trans a.memerr
  time := b.time.trans a.time
  clock := b.clock.trans a.clock
  hostData := b.hostData.trans a.hostData
  prot := by
    have hq : q.prot = { p.prot with injection := { p.prot.injection with armed := q.prot.injection.armed } } := a.prot
    have hr : r.prot = { q.prot with injection := { q.prot.injection with armed := r.prot.injection.armed } } := b.prot
    show r.prot = { p.prot with injection := { p.prot.injection with armed := r.prot.injection.armed } }
    rw [hr, hq]
  takeQueue := rfl
  lines := fun _ => rfl
  inputs := rfl
  bindings := b.bindings.trans a.bindings
  params := fun c => (b.params c).trans (a.params c)
  pins := fun c => (b.pins c).trans (a.pins c)
  guards := fun _ => rfl
  empty := b.empty.trans a.empty
  mem := fun h => b.mem (a.mem h)
  words := fun x h1 h2 => by
    have hrun : q.run = { p.run with attention := q.run.attention } := a.run
    refine (b.words x ?_ ?_).trans (a.words x h1 h2)
    · exact (Part.reportWord_run hrun x).trans h1
    · exact (Part.orderWord_run hrun x).trans h2

theorem Part.OnlyWork.setOrders (p : Part) (o : Orders) : p.OnlyWork (p.setOrders o) := Part.OnlyWork.refl (p.setOrders o)

theorem Part.OnlyWork.setLines (p : Part) (x : Vector Line 4) : p.OnlyWork (p.setLines x) := Part.OnlyWork.refl (p.setLines x)

theorem Part.OnlyWork.setLine (p : Part) (k : Fin 4) (x : Line) : p.OnlyWork (p.setLine k x) := .setLines p _

theorem Part.OnlyWork.setInputs (p : Part) (x : List Input) : p.OnlyWork (p.setInputs x) := Part.OnlyWork.refl (p.setInputs x)

theorem Part.OnlyWork.setGuards (p : Part) (x : Vector Guard 8) : p.OnlyWork (p.setGuards x) := Part.OnlyWork.refl (p.setGuards x)

theorem Part.OnlyOrders.onlyWork (h : p.OnlyOrders q) : p.OnlyWork q :=
  (Part.OnlyWork.setOrders p q.orders).trans (h 0).onlyWork

/-! ### What a line's change leaves -/

theorem Part.SlotShows.setLine (h : p.SlotShows l i st code res) (k : Fin 4) (x : Line) : (p.setLine k x).SlotShows l i st code res :=
  ⟨h.w0, h.w6, h.w7, h.shadow⟩

end

end Sys2Proof.Machine
end

