-- ==== Sys2Proof/Proofs/LineTestRun.lean ====
section
/-! The line test from its begin to its end (R18, R19). -/

namespace Sys2Proof.Machine

section
variable {p q : Part} {x : Line} {k : Fin 4} {l : Layout} {slot i a : Nat} {data : Byte} {framing mark : Bool}

/-! ### The characters of a test -/

/-- Character `i` of the five that a test transmits (R18). -/
def testSent (i : Nat) : RxChar :=
  { data := if i = 0 then 0x55 else if i = 1 then 0xAA else if i = 2 then 0x0F else if i = 3 then 0xF0 else 0xA5
    framing := false, mark := decide (i = 4), overrun := false }

theorem testExpected_eq : testExpected = (List.range 5).map testSent := rfl

theorem testExpected_getElem? (h : i < 5) : testExpected[i]? = some (testSent i) := by
  simp [testExpected_eq, List.getElem?_range h]

/-- A test counts the positions at which the five characters did not come back as sent (R19). -/
theorem mismatches_eq (fifo : List RxChar) : mismatches fifo = (List.range 5).countP (fun i => fifo[i]? ≠ some (testSent i)) := by
  refine List.countP_congr fun i hi => ?_
  rw [testExpected_getElem? (List.mem_range.mp hi)]
  simp

/-- The receiver of a running test takes the next of the five characters (R18). -/
theorem Line.receive_test (ht : x.test = .running slot) (hx : x.exchange = .idle)
    (hloop : x.loop = (List.range' i (5 - i)).map testSent) (hi : i < 5) : x.receive data framing mark =
      { x.offer (testSent i).data framing (testSent i).mark with loop := (List.range' (i + 1) (4 - i)).map testSent } := by
  rw [show 5 - i = (4 - i) + 1 by omega, List.range'_succ, List.map_cons] at hloop
  unfold Line.receive
  rw [ht, hx, hloop]

theorem Line.receive_test_over (ht : x.test = .running slot) (hx : x.exchange = .idle) (hloop : x.loop = []) :
    x.receive data framing mark = x := by
  unfold Line.receive
  rw [ht, hx, hloop]

/-! ### Its begin -/

/-- The line is frozen as its test begins: the agreement counts of its active inputs are 0 (R18). -/
theorem freeze_eq (p : Part) (k : Fin 4) : p.freeze k =
    p.setInputs (p.inputs.map (fun x => { x with agree := if x.d.active = true ∧ x.d.line = k then 0 else x.agree })) := by
  refine congrArg p.setInputs (List.map_congr_left fun x _ => ?_)
  simp only [Bool.and_eq_true, beq_iff_eq]
  split <;> rfl

theorem exec_lineTestBegin_ready {s : State} (ht : (s.part.line k).test = .accepted slot)
    (hx : (s.part.line k).exchange = .idle ∨ (s.part.line k).exchange = .waiting) :
    exec (.lineTestBegin k) s = .next (s.setPart (s.part.testBegin k slot)) := by
  show done s _ = _
  rw [ht]
  rcases hx with hx | hx <;> rw [hx] <;> rfl

theorem exec_lineTestBegin_busy {s : State} (hidle : (s.part.line k).exchange ≠ .idle) (hwait : (s.part.line k).exchange ≠ .waiting) :
    exec (.lineTestBegin k) s = .next s := by
  show done s _ = _
  split
  · next h => exact absurd h hidle
  · next h => exact absurd h hwait
  · rfl

/-! ### Its end -/

theorem exec_lineTestEnd {s : State} (ht : (s.part.line k).test = .running slot) :
    exec (.lineTestEnd k) s = .next (s.setPart (s.part.testEnd k slot)) := by
  show done s _ = _
  rw [ht]
  rfl

/-- A line that its test has left: off the loop, with an empty FIFO (R19). -/
def Line.testLeft (x : Line) : Line := { x with test := .none, fifo := [], overrun := false, loop := [] }

theorem testLeaves_eq (p : Part) (k : Fin 4) : p.testLeaves k = p.setLine k { (p.line k).testLeft with
    cycleStart := if (p.setLine k (p.line k).testLeft).polls k then p.time else (p.line k).cycleStart
    exchange := if (p.setLine k (p.line k).testLeft).polls k then .sending 1 (p.frame k 1) else .idle } := by
  rw [Part.testLeaves, beginCycle_eq, Part.modLine, ← Line.testLeft]
  split <;> rw [Part.setLine_setLine, Part.setLine_line_self] <;> rfl

/-- With no APPLY INPUTS in the hand table there is none to apply (R160). -/
theorem applyAllWaiting_none (h : ∀ e ∈ p.orders.hand, ∀ r d, e.work ≠ .applyInputs r d) : p.applyAllWaiting = p := by
  have hfold : ∀ es : List HandEntry, (∀ e ∈ es, ∀ r d, e.work ≠ .applyInputs r d) → es.foldl Part.applyWaiting p = p := by
    intro es
    induction es with
    | nil => exact fun _ => rfl
    | cons e es ih =>
      intro hes
      have hstays : p.applyWaiting e = p := by
        unfold Part.applyWaiting
        split
        · next hw => exact absurd hw (hes e (List.mem_cons_self ..) _ _)
        · rfl
      rw [List.foldl_cons, hstays]
      exact ih fun e' he' => hes e' (List.mem_cons_of_mem _ he')
  unfold Part.applyAllWaiting
  split
  · rfl
  · exact hfold _ h

/-- The report of a test's end: COMPLETE, or FAILED with the number of positions that differ, which also raises LINE_TEST_FAIL (R19). -/
def Part.testReported (p : Part) (k : Fin 4) (slot n : Nat) : Part :=
  if n = 0 then p.reportDone slot .complete 0
  else (p.reportDone slot .failed n).raiseAlert .lineTestFail (.line k) (.one (p.line k).record.zone) .info

theorem near_testReported (p : Part) (c : Fin 8) (n : Nat) : p.Near c (p.testReported k slot n) :=
  .ite (near_reportDone p slot .complete 0) ((near_reportDone p slot .failed n).told (told_raiseAlert _ _ _ _ _))

theorem testReported_orders (p : Part) (n : Nat) : (p.testReported k slot n).orders =
    { p.orders with slots := p.orders.slots.modify slot (fun s => { s with shadow := .reported }) } := by
  unfold Part.testReported
  split
  · exact orders_report p slot _ _ _
  · rw [(told_raiseAlert _ _ _ _ _).orders]
    exact orders_report p slot _ _ _

theorem testReported_shows (hslot : p.hasSlot l slot) (hm : Memory.wf p.mem) (n : Nat) :
    (p.testReported k slot n).SlotShows l slot .finished (if n = 0 then 1 else 9) n := by
  unfold Part.testReported
  split
  · next h =>
    subst h
    exact report_slotShows hslot hm _ _ _
  · next h =>
    exact (report_slotShows hslot hm .finished Termination.failed.code n).told (slotsKept.report p slot _ _ _ |>.hasSlot hslot)
      (told_raiseAlert _ _ _ _ _)

/-- A test ends: its order is reported, and the line left, or begins its next cycle, with no APPLY INPUTS to apply (R19). -/
theorem testEnd_eq (h : ∀ e ∈ p.orders.hand, ∀ r d, e.work ≠ .applyInputs r d) :
    p.testEnd k slot = ((p.dropHand slot).testReported k slot (mismatches (p.line k).fifo)).testLeaves k := by
  show (((p.dropHand slot).testReported k slot _).testLeaves k).applyAllWaiting = _
  refine applyAllWaiting_none fun e he => h e ?_
  rw [testLeaves_eq] at he
  have hhand : e ∈ ((p.dropHand slot).testReported k slot (mismatches (p.line k).fifo)).orders.hand := he
  rw [testReported_orders] at hhand
  exact List.mem_of_mem_filter hhand

end

/-- Settles O43: the test's begin, its characters and its end, by the state of the line. -/
theorem lineTestRuns : Obligations.LineTestRuns := by
  unfold Obligations.LineTestRuns
  intro sent
  have hsent : sent = testSent := rfl
  rw [hsent]
  refine ⟨fun k s slot ht => ⟨fun hx => ?_, fun hidle hwait => exec_lineTestBegin_busy hidle hwait⟩,
    fun k s slot i data framing mark ht hx hloop => ?_, fun k s l slot ht hslot hm hhand => ?_⟩
  · rw [exec_lineTestBegin_ready ht hx, Part.testBegin, freeze_eq]
    rfl
  · refine congrArg (fun y => done s (s.part.setLine k y)) ?_
    split
    · next hi =>
      refine (Line.receive_test ht hx hloop hi).trans ?_
      rw [Line.offer_eq]
    · next hi =>
      refine Line.receive_test_over ht hx (hloop.trans ?_)
      rw [Nat.sub_eq_zero_of_le (Nat.not_lt.mp hi)]
      rfl
  · intro fifo n
    have hn : n = mismatches (s.part.line k).fifo := (mismatches_eq _).symm
    rw [exec_lineTestEnd ht, testEnd_eq hhand, ← hn, testLeaves_eq]
    have hnear := near_testReported (k := k) (slot := slot) (s.part.dropHand slot) 0 n
    have hshows := testReported_shows (k := k) (p := s.part.dropHand slot) hslot hm n
    have horders := testReported_orders (k := k) (slot := slot) (s.part.dropHand slot) n
    generalize (s.part.dropHand slot).testReported k slot n = r at hnear hshows horders
    have hline : ∀ j, r.line j = s.part.line j := fun j => congrArg (fun v : Vector Line 4 => v[j]) hnear.lines
    have hactive : r.active = s.part.active := by
      rw [Part.active, hnear.run]
      rfl
    have hpolls : (r.setLine k (r.line k).testLeft).polls k = true ↔
        s.part.active = true ∧ (s.part.line k).record.enable = true ∧ 1 ≤ (s.part.line k).record.stations := by
      rw [polls_iff, Part.setLine_line_self, hline]
      show r.active = true ∧ _ ↔ _
      rw [hactive]
      simp [Line.testLeft]
    rw [hline] at hpolls
    refine ⟨_, rfl, ?_, hshows.setLine k _, by rw [Part.setLine_orders, horders]; rfl, by rw [Part.setLine_orders, horders]; rfl,
      hnear.inputs, hnear.guards, fun j hj => (Part.setLine_line_ne _ hj _).trans (hline j), ?_⟩
    · exact ((Part.OnlyWork.setOrders s.part _).trans hnear.onlyWork).trans (.setLine r k _)
    · rw [Part.setLine_line_self, hline]
      refine ⟨rfl, rfl, rfl, rfl, rfl, rfl, ?_⟩
      exact ite_congr (propext hpolls) (fun _ => rfl) (fun _ => rfl)

end Sys2Proof.Machine
end

