-- ==== Sys2Proof/Proofs/Ring.lean ====
section
/-! The journal ring (10.2 to 10.4): where a record is placed, and what its placement leaves. -/

namespace Sys2Proof.Machine

/-! ### Pointers in the ring (R166) -/

theorem mod_of_lt_twice {a n : Nat} (h : a < 2 * n) : a % n = if a < n then a else a - n := by
  split
  · exact Nat.mod_eq_of_lt ‹_›
  · rw [Nat.mod_eq_sub_mod (by omega), Nat.mod_eq_of_lt (by omega)]

/-- The occupancy after a placement is the words it uses more (R166). -/
theorem occupancy_placed {fill empty size used : Nat} (hf : fill < size) (he : empty < size)
    (hu : used ≤ size - 1 - (fill + size - empty) % size) :
    ((fill + used) % size + size - empty) % size = (fill + size - empty) % size + used := by
  have hocc := mod_of_lt_twice (a := fill + size - empty) (n := size) (by omega)
  have hfill := mod_of_lt_twice (a := fill + used) (n := size) (by omega)
  have hlt : (fill + used) % size < size := Nat.mod_lt _ (by omega)
  have hnow := mod_of_lt_twice (a := (fill + used) % size + size - empty) (n := size) (by omega)
  split_ifs at hocc hfill hnow <;> omega

theorem occupancy_eq_zero_iff {fill empty size : Nat} (hf : fill < size) (he : empty < size) :
    (fill + size - empty) % size = 0 ↔ fill = empty := by
  rw [mod_of_lt_twice (by omega)]
  split <;> omega

/-! ### What a placement does after the record's words stand (R170 to R172) -/

section
variable {p : Part} {l : Layout}

theorem Part.writeRegion_eq (hl : p.run.layout = some l) (base : Layout → Nat) (ws : List Word) :
    p.writeRegion base ws = p.writeAll (base l) ws := by rw [Part.writeRegion, hl]

theorem writeAll_frame (p : Part) (a : Nat) (ws : List Word) : p.writeAll a ws = { p with
    mem := (p.writeAll a ws).mem
    prot := { p.prot with injection := { p.prot.injection with armed := (p.writeAll a ws).prot.injection.armed } } } := by
  obtain ⟨m, arm, h⟩ := writeAll_eq p a ws
  rw [h]
  rfl

theorem writeRegion_frame (p : Part) (base : Layout → Nat) (ws : List Word) : p.writeRegion base ws = { p with
    mem := (p.writeRegion base ws).mem
    prot := { p.prot with injection := { p.prot.injection with armed := (p.writeRegion base ws).prot.injection.armed } } } := by
  unfold Part.writeRegion
  split
  · exact writeAll_frame p _ ws
  · rfl

theorem wf_writeRegion (p : Part) (base : Layout → Nat) (ws : List Word) (h : Memory.wf p.mem) :
    Memory.wf (p.writeRegion base ws).mem := by
  unfold Part.writeRegion
  split
  · exact wf_writeAll p _ ws h
  · exact h

/-- One word written in the pointer block: it stands as written, no other word changes, and neither does anything else but an injection
carried out. -/
theorem writePointer_shows (hl : p.run.layout = some l) {i : Nat} (hi : i < 8) (w : Word) :
    ∃ m arm, p.writeRegion (fun l => l.pointers + i) [w]
        = { p with mem := m, prot := { p.prot with injection := { p.prot.injection with armed := arm } } }
      ∧ (l.valid = true → Memory.wf p.mem → Memory.wf m ∧ (m.cell (l.pointers + i)).written = w)
      ∧ ∀ x, x ≠ l.pointers + i → m.cell x = p.mem.cell x := by
  refine ⟨_, _, writeRegion_frame p _ _, fun hv hm => ⟨wf_writeRegion p _ _ hm, ?_⟩, fun x hx => ?_⟩
  · have := Layout.valid_pointers_fit hv
    rw [Part.writeRegion_eq hl]
    exact written_storeFrom_self p true _ w hm (by omega)
  · rw [Part.writeRegion_eq hl]
    exact cell_storeFrom_ne p true _ x w hx

theorem Journal.startStale_eq (j : Journal) (now : Time) (n : Nat) :
    j.startStale now n = { j with staleDue := if n ≠ 0 ∧ j.staleDue = none then some (after now n) else j.staleDue } := by
  unfold Journal.startStale
  obtain ⟨fill, empty, throttled, coalesced, gap, raises, stale⟩ := j
  split
  · next hn => rw [if_neg (fun h => h.1 hn)]
  · next hn =>
    cases stale with
    | some d => rw [if_neg (fun h => nomatch h.2)]
    | none => rw [if_pos ⟨hn, rfl⟩]

/-- The journal's state after a placement that moves its fill pointer (R170 to R172). -/
def Journal.placed (j : Journal) (l : Layout) (fill : Nat) (now : Time) : Journal :=
  { j with
    fill := fill
    throttled := j.throttled || decide (l.highMark ≤ (fill + l.journalSize - j.empty) % l.journalSize)
    staleDue := if (j.occupancy l.journalSize = 0 ∧ 0 < (fill + l.journalSize - j.empty) % l.journalSize)
        ∧ l.staleTime ≠ 0 ∧ j.staleDue = none
      then some (after now l.staleTime) else j.staleDue }

/-- What a placement does once the record's words stand (R170 to R172): the pointer's word and, where it becomes THROTTLED, J_STATE are
shown. -/
structure Part.Shown (p : Part) (l : Layout) (fill : Nat) (imm : Bool) (q : Part) : Prop where
  journal : q.journal = p.journal.placed l fill p.time
  board : q.board = p.board
  run : q.run = { p.run with attention := { p.run.attention with journal := p.run.attention.journal || decide (
    (p.journal.occupancy l.journalSize < l.trigger ∧ l.trigger ≤ (fill + l.journalSize - p.journal.empty) % l.journalSize)
      ∨ imm = true) } }
  word : l.valid = true → Memory.wf p.mem → (q.mem.cell l.pointers).written = word fill
  kept : ∀ x, x ≠ l.pointers → x ≠ l.pointers + 3 → q.mem.cell x = p.mem.cell x

/-- The journal as its fill pointer has moved and a stopped stale timer has started (R171). -/
theorem Journal.filled_eq (j : Journal) (l : Layout) (fill : Nat) (now : Time) :
    (if j.occupancy l.journalSize = 0 ∧ 0 < ({ j with fill := fill } : Journal).occupancy l.journalSize
      then ({ j with fill := fill } : Journal).startStale now l.staleTime else { j with fill := fill })
      = { j.placed l fill now with throttled := j.throttled } := by
  simp only [Journal.startStale_eq, Journal.placed, Journal.occupancy]
  split
  · next h => simp only [h, true_and, ne_eq]
  · next h => simp only [h, false_and, if_false]

theorem attendJournal_ite (p : Part) (c : Prop) [Decidable c] : (if c then p.attendJournal else p)
    = p.setRun { p.run with attention := { p.run.attention with journal := p.run.attention.journal || decide c } } := by
  split
  · next h => simp only [Part.attendJournal, h, decide_true, Bool.or_true]
  · next h => simp only [h, decide_false, Bool.or_false, Part.setRun]

theorem placed_shows (hl : p.run.layout = some l) (fill : Nat) (imm : Bool) : p.Shown l fill imm (p.placed l fill imm) := by
  unfold Part.placed
  dsimp only
  rw [Journal.filled_eq, attendJournal_ite]
  obtain ⟨m, arm, hfill, hword, hkept⟩ := writePointer_shows
    (p := p.setJournal { p.journal.placed l fill p.time with throttled := p.journal.throttled }) hl (i := 0) (by decide) (word fill)
  have hfill' : (p.setJournal { p.journal.placed l fill p.time with throttled := p.journal.throttled }).writeJFill = _ := hfill
  rw [hfill']
  split
  · next h =>
    obtain ⟨-, hmark⟩ := h
    generalize hr : Part.setJournal _ _ = r
    obtain ⟨m', arm', hstate, -, hkept'⟩ := writePointer_shows (p := r) (l := l) (by rw [← hr]; exact hl) (i := 3) (by decide)
      (word (flag r.journal.throttled))
    have hstate' : r.writeJState = _ := hstate
    rw [hstate']
    subst hr
    refine ⟨?_, rfl, rfl, fun hv hm => ?_, fun x h0 h3 => (hkept' x h3).trans (hkept x h0)⟩
    · have hmark' : l.highMark ≤ (fill + l.journalSize - p.journal.empty) % l.journalSize := hmark
      show ({ p.journal.placed l fill p.time with throttled := true } : Journal) = p.journal.placed l fill p.time
      rw [Journal.placed, decide_eq_true hmark', Bool.or_true]
    · rw [hkept' _ (by omega)]
      exact (hword hv hm).2
  · next h =>
    refine ⟨?_, rfl, rfl, fun hv hm => (hword hv hm).2, fun x h0 _ => hkept x h0⟩
    show ({ p.journal.placed l fill p.time with throttled := p.journal.throttled } : Journal) = p.journal.placed l fill p.time
    have hthrottled : (p.journal.throttled || decide (l.highMark ≤ (fill + l.journalSize - p.journal.empty) % l.journalSize))
        = p.journal.throttled := by
      cases hj : p.journal.throttled with
      | true => rfl
      | false => exact decide_eq_false fun hmark => h ⟨hj, hmark⟩
    rw [Journal.placed, hthrottled]

/-! ### A record that fits (R166) -/

/-- There is room at the fill pointer, on a wrap behind a PAD, for a record of `n` words in a ring of `size` (R166). -/
def Journal.holds (j : Journal) (size n : Nat) : Prop := j.fill < size ∧ j.empty < size ∧ j.used size n ≤ j.free size

/-- The memory as a placed record's words stand, before the pointers' words are shown (R166). -/
def Part.laid (p : Part) (l : Layout) (r : Record) : Part :=
  if p.journal.fill + r.length ≤ l.journalSize then p.writeAll (l.journal + p.journal.fill) r.words
  else (p.write (l.journal + p.journal.fill) padWord).writeAll l.journal r.words

theorem laid_eq (p : Part) (l : Layout) (r : Record) : ∃ m arm, p.laid l r
    = (p.setMem m).setProt { p.prot with injection := { p.prot.injection with armed := arm } } := by
  unfold Part.laid
  split
  · exact writeAll_eq p _ _
  · obtain ⟨m1, arm1, h1⟩ := storeFrom_eq p true (l.journal + p.journal.fill) padWord
    obtain ⟨m2, arm2, h2⟩ := writeAll_eq (p.write (l.journal + p.journal.fill) padWord) l.journal r.words
    have h1' : p.write (l.journal + p.journal.fill) padWord = _ := h1
    rw [h2, h1']
    exact ⟨m2, arm2, rfl⟩

/-- A record that the ring holds is placed (R166). -/
theorem place_eq {r : Record} (hl : p.run.layout = some l) (hroom : p.journal.holds l.journalSize r.length) : p.place r =
    some ((p.laid l r).placed l ((p.journal.fill + p.journal.used l.journalSize r.length) % l.journalSize) r.immediate) := by
  obtain ⟨hfill, hempty, hused⟩ := hroom
  have hlen : 3 ≤ r.length := by unfold Record.length; omega
  have hfree : p.journal.free l.journalSize ≤ l.journalSize - 1 := Nat.sub_le _ _
  unfold Part.place Part.laid
  unfold Journal.used at *
  rw [hl]
  dsimp only
  by_cases hfits : p.journal.fill + r.length ≤ l.journalSize
  · rw [if_pos hfits] at hused
    rw [if_pos ⟨hfits, hused⟩, if_pos hfits, if_pos hfits]
  · rw [if_neg hfits] at hused
    have hwrap : (p.journal.fill + (l.journalSize - p.journal.fill + r.length)) % l.journalSize = r.length := by
      rw [show p.journal.fill + (l.journalSize - p.journal.fill + r.length) = r.length + l.journalSize by omega, Nat.add_mod_right]
      exact Nat.mod_eq_of_lt (by omega)
    rw [if_neg (fun h => hfits h.1), if_pos ⟨hfill, by omega, hused⟩, if_neg hfits, if_neg hfits, hwrap]

/-- A placement of a record: the pointers and the causes move, and all but they and the words is left (R166, R170 to R172). -/
theorem place_shows {r : Record} (hl : p.run.layout = some l) (hroom : p.journal.holds l.journalSize r.length) :
    ∃ q, p.place r = some q
      ∧ (p.laid l r).Shown l ((p.journal.fill + p.journal.used l.journalSize r.length) % l.journalSize) r.immediate q
      ∧ q.journal = p.journal.placed l ((p.journal.fill + p.journal.used l.journalSize r.length) % l.journalSize) p.time
      ∧ q.board = p.board
      ∧ q.run = { p.run with attention := { p.run.attention with journal := q.run.attention.journal } } := by
  obtain ⟨m, arm, hlaid⟩ := laid_eq p l r
  have hshown := placed_shows (p := p.laid l r) (l := l) (by rw [hlaid]; exact hl)
    ((p.journal.fill + p.journal.used l.journalSize r.length) % l.journalSize) r.immediate
  refine ⟨_, place_eq hl hroom, hshown, ?_, ?_, ?_⟩
  · rw [hshown.journal, hlaid]; rfl
  · rw [hshown.board, hlaid]; rfl
  · have hrun : (p.laid l r).run = p.run := by rw [hlaid]; rfl
    rw [hshown.run, hrun]

/-- A record takes at most one word fewer than twice its own: a PAD's gap is shorter than the record. -/
theorem Journal.used_le (j : Journal) {size n : Nat} (hn : 1 ≤ n) : j.used size n ≤ 2 * n - 1 := by
  unfold Journal.used
  split <;> omega

theorem Journal.used_pos (j : Journal) {size n : Nat} (hn : 1 ≤ n) : 1 ≤ j.used size n := by
  unfold Journal.used
  split <;> omega

/-! ### The journal's room -/

theorem Part.room_mono {n m : Nat} (h : p.room l n) (hm : m ≤ n) : p.room l m := by
  obtain ⟨ha, hl, hgap, hraises, hfill, hempty, hfree⟩ := h
  exact ⟨ha, hl, hgap, hraises, hfill, hempty, hm.trans hfree⟩

/-- Room for the words that a record may take is room to place it: the rest of the room is left, the board is, and so is run control but
for the cause JOURNAL. -/
theorem writeRecord_room {r : Record} {n : Nat} (h : p.room l (2 * r.length - 1 + n)) :
    (p.writeRecord r).room l n ∧ (p.writeRecord r).board = p.board ∧ (p.writeRecord r).run
      = { p.run with attention := { p.run.attention with journal := (p.writeRecord r).run.attention.journal } } := by
  obtain ⟨ha, hl, hgap, hraises, hfill, hempty, hfree⟩ := h
  have hlen : 1 ≤ r.length := by unfold Record.length; omega
  have hle := p.journal.used_le (size := l.journalSize) hlen
  have hfits : p.journal.used l.journalSize r.length ≤ p.journal.free l.journalSize := by omega
  obtain ⟨q, hplace, -, hjournal, hboard, hrun⟩ := place_shows (r := r) hl ⟨hfill, hempty, hfits⟩
  have hwrite : p.writeRecord r = q := by
    rw [Part.writeRecord, if_neg (by simp [ha]), if_pos hgap, Part.placeOrDrop, hplace]
    rfl
  rw [hwrite]
  refine ⟨⟨?_, ?_, ?_, ?_, ?_, ?_, ?_⟩, hboard, hrun⟩
  · rw [Part.active, hrun]; exact ha
  · rw [hrun]; exact hl
  · rw [hjournal]; exact hgap
  · rw [hjournal]; exact hraises
  · rw [hjournal]; exact Nat.mod_lt _ (by omega)
  · rw [hjournal]; exact hempty
  · rw [hjournal]
    show n ≤ l.journalSize - 1 - ((p.journal.fill + p.journal.used l.journalSize r.length) % l.journalSize + l.journalSize
      - p.journal.empty) % l.journalSize
    rw [occupancy_placed hfill hempty hfits]
    unfold Journal.free Journal.occupancy at hfree
    omega

theorem hand_room {r : Record} {n : Nat} (h : p.room l (2 * r.length - 1 + n)) : p.hand r = p.writeRecord r := by
  obtain ⟨⟨-, -, -, hraises, -⟩, -⟩ := writeRecord_room h
  exact Part.whole_of hraises

end

end Sys2Proof.Machine
end

