-- ==== Sys2Proof/Proofs/Boarding.lean ====
section
/-! The alert board where the journal has room: what a raise, a merge and an escalation leave on it (7.2, 7.3, 7.5). -/

namespace Sys2Proof.Machine

section
variable {p q : Part} {l : Layout} {n : Nat} {b : Board} {i : Fin 32} {e : Entry} {code : AlertCode} {src : Source} {zone : Zone}
  {sev : Severity}

/-! ### Looking an entry up (R116, R118) -/

theorem find?_finRange {m : Nat} {t : Fin m → Bool} {i : Fin m} (hi : t i = true) (hlt : ∀ j, j < i → t j = false) :
    (List.finRange m).find? t = some i := by
  rw [List.find?_eq_some_iff_getElem]
  refine ⟨hi, i.val, by simp, by simp, fun j hj => ?_⟩
  simpa using hlt ⟨j, by omega⟩ hj

/-- The entry in use at an index has a code and source. -/
def Board.shows (b : Board) (code : AlertCode) (src : Source) (i : Fin 32) : Bool :=
  match b.entries[i] with
  | some e => e.code == code && e.source == src
  | none => false

theorem Board.shows_iff : b.shows code src i = true ↔ ∃ e, b.entries[i] = some e ∧ e.code = code ∧ e.source = src := by
  unfold Board.shows
  cases b.entries[i] <;> simp

theorem Board.find_eq (b : Board) (code : AlertCode) (src : Source) : b.find code src = (List.finRange 32).find? (b.shows code src) := rfl

theorem Board.find_eq_none (h : ∀ (j : Fin 32) e, b.entries[j] = some e → e.code = code → e.source ≠ src) : b.find code src = none := by
  rw [Board.find_eq, List.find?_eq_none]
  intro j _ hj
  obtain ⟨e, he, hcode, hsrc⟩ := Board.shows_iff.mp hj
  exact h j e he hcode hsrc

theorem Board.find_eq_some (he : b.entries[i] = some e) (hcode : e.code = code) (hsrc : e.source = src)
    (honly : ∀ (j : Fin 32) e', b.entries[j] = some e' → e'.code = code → e'.source = src → j = i) : b.find code src = some i := by
  refine find?_finRange (Board.shows_iff.mpr ⟨e, he, hcode, hsrc⟩) fun j hj => ?_
  rw [Bool.eq_false_iff]
  intro h
  obtain ⟨e', he', hcode', hsrc'⟩ := Board.shows_iff.mp h
  exact absurd (honly j e' he' hcode' hsrc') hj.ne

theorem Board.freeIndex_eq (hi : b.entries[i] = none) (hlt : ∀ j : Fin 32, j < i → b.entries[j] ≠ none) : b.freeIndex = some i := by
  refine find?_finRange (by simp [hi]) fun j hj => ?_
  rw [Option.isNone_eq_false_iff, Option.isSome_iff_ne_none]
  exact hlt j hj

theorem Board.mem_used : e ∈ b.used ↔ ∃ i : Fin 32, b.entries[i] = some e := by
  simp only [Board.used, List.mem_filterMap, id, Vector.mem_toList_iff, exists_eq_right]
  rw [Vector.mem_iff_getElem]
  exact ⟨fun ⟨i, hi, he⟩ => ⟨⟨i, hi⟩, he⟩, fun ⟨i, he⟩ => ⟨i.val, i.isLt, he⟩⟩

/-! ### A change of the board -/

/-- Room is of the writer's state, the run state and the snapshot. -/
theorem Part.room_of_journal (h : p.room l n) (hrun : q.run = { p.run with attention := q.run.attention }) (hj : q.journal = p.journal) :
    q.room l n := by
  unfold Part.room Part.active at *
  rw [hrun, hj]
  exact h

/-- Beside words of memory, an injection carried out and the rest timer nothing stands between `p` and `q`. -/
abbrev Part.Writes (p q : Part) : Prop := q = { p with
  mem := q.mem
  prot := { p.prot with injection := { p.prot.injection with armed := q.prot.injection.armed } }
  modes := { p.modes with restDue := q.modes.restDue } }

theorem Part.Writes.trans (a : p.Writes q) {r : Part} (b : q.Writes r) : p.Writes r := by
  have hb : r = _ := b
  have ha : q = _ := a
  rw [ha] at hb
  exact hb

theorem writes_writeRegion (p : Part) (base : Layout → Nat) (ws : List Word) : p.Writes (p.writeRegion base ws) := by
  unfold Part.Writes
  rw [writeRegion_frame]

theorem writes_restEval (p : Part) : p.Writes p.restEval := by
  unfold Part.restEval
  split
  · split <;> rfl
  · rfl

/-- A change of the board shows it, and beside it only the rest timer and words of memory change. -/
theorem changeBoard_writes (p : Part) (b : Board) (i : Fin 32) (always : Bool) : (p.setBoard b).Writes (p.changeBoard b i always) := by
  have hentry : (p.setBoard b).Writes ((p.setBoard b).writeEntry i) := writes_writeRegion _ _ _
  have hheader : (p.setBoard b).Writes (((p.setBoard b).writeEntry i).writeHeader p.board.header always) := by
    unfold Part.writeHeader
    split
    · exact hentry.trans (writes_writeRegion _ _ _)
    · exact hentry
  unfold Part.changeBoard
  dsimp only
  split
  · exact hheader
  · exact hheader.trans (writes_restEval _)

theorem Part.Writes.board (h : p.Writes q) : q.board = p.board := by rw [h]

theorem Part.Writes.run (h : p.Writes q) : q.run = p.run := by rw [h]

theorem Part.Writes.journal (h : p.Writes q) : q.journal = p.journal := by rw [h]

theorem Part.Writes.time (h : p.Writes q) : q.time = p.time := by rw [h]

/-- A change of the board keeps the journal's room, and run control. -/
theorem changeBoard_room (h : p.room l n) (b : Board) (i : Fin 32) (always : Bool) : (p.changeBoard b i always).room l n
    ∧ (p.changeBoard b i always).board = b ∧ (p.changeBoard b i always).run = p.run ∧ (p.changeBoard b i always).time = p.time :=
  have hw := changeBoard_writes p b i always
  ⟨Part.room_of_journal h (by rw [hw.run]; rfl) hw.journal, hw.board, hw.run, hw.time⟩

/-- An ALERT record where the journal has room: it is placed, and the board is left. -/
theorem writeAlert_room (h : p.room l (13 + n)) (index : Option (Fin 32)) (cause : AlertCause) (e : Entry) (state : Nat) (overflow : Bool)
    (t : Time) : (p.writeRecord (alertRecord index cause e state overflow t)).room l n
      ∧ (p.writeRecord (alertRecord index cause e state overflow t)).board = p.board
      ∧ (p.writeRecord (alertRecord index cause e state overflow t)).run.attention.alert = p.run.attention.alert := by
  obtain ⟨hroom, hboard, hrun⟩ := writeRecord_room (n := n) (r := alertRecord index cause e state overflow t) h
  exact ⟨hroom, hboard, (congrArg (fun r => r.attention.alert) hrun :)⟩

/-- An entry that escalates where the journal has room: it is ESCALATED on the board, and the cause ALERT is set (R127). -/
theorem escalate_room (h : p.room l (13 + n)) (i : Fin 32) (e : Entry) : (p.escalate i e).room l n
    ∧ (p.escalate i e).board = p.board.change i { e with escalated := true, last := p.time }
    ∧ (p.escalate i e).run.attention.alert = true := by
  unfold Part.escalate
  dsimp only
  obtain ⟨hroom, hboard, -⟩ := changeBoard_room h (p.board.change i { e with escalated := true, last := p.time }) i false
  generalize p.changeBoard _ i false = q at hroom hboard ⊢
  obtain ⟨hroom', hboard', halert⟩ := writeAlert_room (p := q.attendAlert) hroom (some i) .escalated
    { e with escalated := true, last := p.time } e.state.code q.board.overflow q.time
  exact ⟨hroom', hboard'.trans hboard, halert⟩

/-- An entry made where the journal has room (R118). -/
theorem makeEntry_room (h : p.room l (13 + n)) (i : Fin 32) (e : Entry) : (p.makeEntry i e).room l n
    ∧ (p.makeEntry i e).board = p.board.make i e
    ∧ (p.makeEntry i e).run.attention.alert = (p.run.attention.alert || e.severity.calls) := by
  unfold Part.makeEntry
  dsimp only
  obtain ⟨hroom, hboard, hrun, -⟩ := changeBoard_room h (p.board.make i e) i true
  generalize p.changeBoard _ i true = q at hroom hboard hrun ⊢
  split
  · next hcalls =>
    obtain ⟨hroom', hboard', halert⟩ := writeAlert_room (p := q.attendAlert) hroom (some i) .raised e e.state.code q.board.overflow q.time
    refine ⟨hroom', hboard'.trans hboard, halert.trans ?_⟩
    rw [hcalls, Bool.or_true]
    rfl
  · next hcalls =>
    obtain ⟨hroom', hboard', halert⟩ := writeAlert_room (p := q) hroom (some i) .raised e e.state.code q.board.overflow q.time
    refine ⟨hroom', hboard'.trans hboard, halert.trans ?_⟩
    rw [hrun, Bool.eq_false_iff.mpr hcalls, Bool.or_false]

/-- With the journal's room no JOURNAL_GAP raise waits. -/
theorem Part.whole_of_room (h : p.room l n) : p.whole = p := by
  obtain ⟨-, -, -, hraises, -⟩ := h
  exact Part.whole_of hraises

theorem Part.room_active (h : p.room l n) : p.active = true := h.1

/-- A raise of a code and source that no entry has makes one at the free index with the lowest number (R118). -/
theorem raiseFull_makes (h : p.room l (13 + n)) (hfind : p.board.find code src = none) (hfree : p.board.freeIndex = some i) :
    p.raiseFull code src zone sev = (p.makeEntry i (.fresh code src zone sev p.time), some i) := by
  have hone : p.raiseOne code src zone sev = (p.makeEntry i (.fresh code src zone sev p.time), some i) := by
    unfold Part.raiseOne
    rw [if_neg (by simp [Part.room_active h]), hfind]
    dsimp only
    rw [hfree]
  rw [Part.raiseFull, hone, Part.whole_of_room (makeEntry_room h i _).1]

end

end Sys2Proof.Machine
end

