-- ==== Sys2Proof/Proofs/BoardTimers.lean ====
section
/-! The timers of the board, the modes and the journal (R127 to R129, R145, R147, R171). -/

namespace Sys2Proof.Machine

section
variable {s : State} {p q : Part} {l : Layout} {i : Fin 32} {e : Entry} {b : Board} {due : Time}

/-! ### Escalation -/

theorem Severity.calls_iff (x : Severity) : x.calls = true ↔ x ≠ .info := by simp [Severity.calls]

theorem Entry.unacked_iff (e : Entry) : e.unacked = true ↔ e.state ≠ .held := by
  cases h : e.state <;> simp [Entry.unacked, h]

theorem Entry.mayEscalate_iff (e : Entry) (n : Nat) :
    e.mayEscalate n = true ↔ ¬ (n = 0 ∨ e.severity = .info ∨ e.state = .held ∨ e.escalated = true) := by
  simp only [Entry.mayEscalate, Bool.and_eq_true, decide_eq_true_eq, Severity.calls_iff, Entry.unacked_iff, Bool.not_eq_true',
    Bool.eq_false_iff]
  tauto

theorem exec_escalation_stays (hl : s.part.run.layout = some l) (he : s.part.board.entries[i] = some e)
    (hnot : e.mayEscalate l.escalateTime = false) : exec (.escalation i) s = .next s := by
  show done s _ = _
  rw [he, hl]
  dsimp only
  rw [hnot]
  rfl

theorem exec_escalation (hl : s.part.run.layout = some l) (he : s.part.board.entries[i] = some e)
    (hmay : e.mayEscalate l.escalateTime = true)
    (hcome : s.part.comesDue (e.first + BitVec.ofNat 32 (l.escalateTime * 1000)) p) :
    exec (.escalation i) s = .next (s.setPart (p.escalate i e).whole) := by
  have hdue : s.part.atDue (e.escalateDue l.escalateTime) = some p := Part.atDue_comes hcome
  show done s _ = _
  rw [he, hl]
  dsimp only
  rw [hmay, if_pos rfl, hdue]
  rfl

theorem exec_escalation_none (h : s.part.board.entries[i] = none) : exec (.escalation i) s = .next s := by
  show done s _ = _
  rw [h]
  rfl

/-- An entry of the board that has escalated and is not acknowledged asserts CALL (R129). -/
theorem callPin_of_escalated (he : p.board.entries[i] = some e) (hesc : e.escalated = true) (hun : e.unacked = true) :
    p.callPin = true := by
  have hin : e ∈ p.board.used := Board.mem_used.mpr ⟨i, he⟩
  have hany : p.board.used.any (fun e => e.unacked && (e.severity == .urgent || e.escalated)) = true :=
    List.any_eq_true.mpr ⟨e, hin, by rw [hesc, hun]; simp⟩
  rw [Part.callPin, hany, Bool.or_true]

theorem Zone.covers_of {z : Zone} {k : Fin 4} (h : z = .one k ∨ z = .all) : z.covers k = true := by
  rcases h with rfl | rfl <;> simp [Zone.covers]

/-- An entry of the board that has escalated shows FAST in the zones it covers (R128). -/
theorem pattern_of_escalated {z : Fin 4} (he : b.entries[i] = some e) (hesc : e.escalated = true) (hz : e.zone.covers z = true) :
    b.pattern z = .fast := by
  have hin : e ∈ b.used.filter (fun e => e.zone.covers z) := List.mem_filter.mpr ⟨Board.mem_used.mpr ⟨i, he⟩, hz⟩
  have hany : (b.used.filter (fun e => e.zone.covers z)).any
      (fun e => (e.unacked && e.severity == .urgent) || e.escalated) = true :=
    List.any_eq_true.mpr ⟨e, hin, by rw [hesc, Bool.or_true]⟩
  unfold Board.pattern
  dsimp only
  rw [hany, Bool.or_true, if_pos rfl]

/-- The room of the journal is the same at the start of the next millisecond. -/
theorem Part.room_comesDue {n : Nat} (h : p.room l n) (hcome : p.comesDue due q) : q.room l n := by
  obtain ⟨hq, -⟩ := Part.comesDue_eq hcome
  rw [hq]
  exact h

/-! ### The rest timer, the host watch and the stale timer -/

theorem exec_restTimerExpiry (hdue : s.part.modes.restDue = some due) (hcome : s.part.comesDue due p) : exec .restTimerExpiry s
    = .next (s.setPart ((p.setModes { p.modes with restDue := none }).pushRequest { mode := .rest, cause := .restTimer })) := by
  show done s _ = _
  rw [hdue, Part.atTimer_comes hcome]
  rfl

theorem exec_hostWatchExpiry (hsilent : s.part.modes.silent = false) (hdue : s.part.modes.watchDue = some due)
    (hcome : s.part.comesDue due p) : exec .hostWatchExpiry s = .next (s.setPart p.fallSilent) := by
  show done s _ = _
  rw [hsilent, hdue, Part.atTimer_comes hcome]
  rfl

theorem exec_staleTimerExpiry (hl : s.part.run.layout = some l) (hdue : s.part.journal.staleDue = some due)
    (hcome : s.part.comesDue due p) : exec .staleTimerExpiry s
    = .next (s.setPart ((p.attendJournal).setJournal { p.journal with staleDue := some (after p.time l.staleTime) })) := by
  show done s _ = _
  rw [hdue, Part.atTimer_comes hcome, hl]
  rfl

/-- The watch as it falls silent, before its alert (R147). -/
def Part.silenced (p : Part) : Part := p.setModes { p.modes with silent := true, watchDue := none }

/-- Requests that wait differ on both sides of reports alike. -/
theorem Part.Told.setRequests (h : p.Told q) (rs : List ModeRequest) :
    (p.setModes { p.modes with requests := rs }).Told (q.setModes { q.modes with requests := rs }) :=
  { h with modes := by simp only [Part.setModes_modes]; rw [h.modes] }

/-- The silence raises HOST_SILENT, and asks for REST where the silent action, the mode and the run state say so (R147). -/
theorem fallSilent_eq (hl : p.run.layout = some l) : p.fallSilent =
    (p.silenced.raiseAlert .hostSilent .none .all .attend).setModes {
      (p.silenced.raiseAlert .hostSilent .none .all .attend).modes with
      requests := if l.silentRest = true ∧ p.modes.mode = .opened ∧ p.run.state = .running
        then p.modes.requests ++ [{ mode := .rest, cause := .silent }] else p.modes.requests } := by
  have htold := told_raiseAlert p.silenced .hostSilent .none .all .attend
  have hfall : p.fallSilent = (if (p.silenced.raiseAlert .hostSilent .none .all .attend).silentRest
      && (p.silenced.raiseAlert .hostSilent .none .all .attend).modes.mode == .opened
      && (p.silenced.raiseAlert .hostSilent .none .all .attend).isRunning
    then (p.silenced.raiseAlert .hostSilent .none .all .attend).pushRequest { mode := .rest, cause := .silent }
    else p.silenced.raiseAlert .hostSilent .none .all .attend) := rfl
  rw [hfall]
  generalize p.silenced.raiseAlert .hostSilent .none .all .attend = q at htold
  have hsilent : q.silentRest = l.silentRest := by rw [Part.silentRest, htold.layout.trans hl]
  have hmode : q.modes.mode = p.modes.mode := by rw [htold.modes]; rfl
  have hrequests : q.modes.requests = p.modes.requests := by rw [htold.modes]; rfl
  have hrun : q.isRunning = p.isRunning := by rw [Part.isRunning, htold.run]; rfl
  have hcond : (q.silentRest && q.modes.mode == .opened && q.isRunning) = true
      ↔ l.silentRest = true ∧ p.modes.mode = .opened ∧ p.run.state = .running := by
    rw [hsilent, hmode, hrun]
    simp [Part.isRunning, and_assoc]
  by_cases h : l.silentRest = true ∧ p.modes.mode = .opened ∧ p.run.state = .running
  · rw [if_pos (hcond.mpr h), if_pos h, ← hrequests]
    rfl
  · rw [if_neg (fun hc => h (hcond.mp hc)), if_neg h, ← hrequests]
    rfl

end

/-- Settles O57: each timer at its due time, on the board where the journal has room. -/
theorem boardAndModeTimers : Obligations.BoardAndModeTimers := by
  unfold Obligations.BoardAndModeTimers
  intro s l due p' p hl
  refine ⟨fun i e he => ?_, fun hnone i => exec_escalation_none ?_, fun hdue hcome => ?_,
    fun hsilent hdue hcome => ?_, fun hdue hcome => ?_⟩
  · intro e' mayNot
    refine ⟨fun hnot => ?_, fun hmay hcome => ?_⟩
    · refine exec_escalation_stays hl he (Bool.eq_false_iff.mpr fun h => ?_)
      exact (Entry.mayEscalate_iff e _).mp h hnot
    · have hmay' := (Entry.mayEscalate_iff e l.escalateTime).mpr hmay
      refine ⟨_, exec_escalation hl he hmay' hcome, (told_escalate p' i e).trans (told_whole _), fun hroom => ?_⟩
      obtain ⟨hroom', hboard, halert⟩ := escalate_room (n := 1) (Part.room_comesDue hroom hcome) i e
      rw [Part.whole_of_room hroom']
      have hshows : (p'.escalate i e).board.entries[i] = some e' := by
        rw [hboard]
        simp [Board.change, e']
      have hun : e'.unacked = true := (Entry.unacked_iff e').mpr fun h => hmay (.inr (.inr (.inl h)))
      obtain ⟨hp', -⟩ := Part.comesDue_eq hcome
      refine ⟨?_, halert, callPin_of_escalated hshows rfl hun, fun z hz => pattern_of_escalated hshows rfl (Zone.covers_of hz)⟩
      rw [hboard, show p'.board = p.board by rw [hp']]
      rfl
  · show p.board.entries[i] = none
    rw [hnone]
    simp
  · obtain ⟨hp', -⟩ := Part.comesDue_eq hcome
    rw [exec_restTimerExpiry hdue hcome, hp']
    rfl
  · obtain ⟨hp', -⟩ := Part.comesDue_eq hcome
    have hl' : p'.run.layout = some l := by rw [hp']; exact hl
    have hmodes : p'.modes = p.modes := by rw [hp']
    have hrun : p'.run = p.run := by rw [hp']
    have hboard : p'.board = p.board := by rw [hp']
    refine ⟨_, exec_hostWatchExpiry hsilent hdue hcome, ?_, ?_, fun i hroom hnew hi hfirst => ?_⟩
    · rw [fallSilent_eq hl', ← hmodes]
      exact (told_raiseAlert p'.silenced .hostSilent .none .all .attend).setRequests _
    · rw [fallSilent_eq hl', hmodes, hrun]
      rfl
    · have hroom' : p'.silenced.room l (13 + 1) := Part.room_of_journal (Part.room_comesDue hroom hcome) rfl rfl
      have hfind : p'.silenced.board.find .hostSilent .none = none := by
        refine Board.find_eq_none fun j e he hcode => absurd hcode (hnew j e ?_)
        rw [← hboard]
        exact he
      have hfree : p'.silenced.board.freeIndex = some i := by
        refine Board.freeIndex_eq ?_ ?_
        all_goals rw [show p'.silenced.board = p.board from hboard]
        · exact hi
        · exact hfirst
      obtain ⟨-, hmade, halert⟩ := makeEntry_room hroom' i (.fresh .hostSilent .none .all .attend p'.silenced.time)
      have hraise : p'.silenced.raiseAlert .hostSilent .none .all .attend
          = p'.silenced.makeEntry i (.fresh .hostSilent .none .all .attend p'.silenced.time) := by
        rw [Part.raiseAlert, raiseFull_makes hroom' hfind hfree]
      rw [fallSilent_eq hl', hraise]
      refine ⟨halert.trans (Bool.or_true _), hmade.trans ?_⟩
      rw [show p'.silenced.board = p.board from hboard]
      rfl
  · obtain ⟨hp', -⟩ := Part.comesDue_eq hcome
    rw [exec_staleTimerExpiry hl hdue hcome, hp']
    rfl

end Sys2Proof.Machine
end

