-- ==== Sys2Proof/Proofs/AlertOrders.lean ====
section
/-! ORDER_ALERT orders (R117, R118, R130). -/

namespace Sys2Proof.Machine

section
variable {p q r : Part} {l : Layout} {t : Taking} {n : Nat} {i : Fin 32} {e : Entry} {code : AlertCode} {src : Source} {zone : Zone}
  {sev : Severity}

/-! ### A report where the journal has room -/

theorem writes_writeSlot (p : Part) (i k : Nat) (ws : List Word) : p.Writes (p.writeSlot i k ws) := by
  obtain ⟨m, arm, h⟩ := writeSlot_eq p i k ws
  rw [h]
  rfl

/-- A report's SLOT record is placed where the journal has room, and the board is left. -/
theorem report_room (h : p.room l (13 + n)) (i : Nat) (st : SlotState) (code : Nat) (res : Int) : (p.report i st code res).room l n
    ∧ (p.report i st code res).board = p.board
    ∧ (p.report i st code res).run = { p.run with attention := { p.run.attention with
        journal := (p.report i st code res).run.attention.journal } } := by
  have hw : p.Writes ((p.writeSlotResult i res).writeSlotState i st code) := (writes_writeSlot _ _ _ _).trans (writes_writeSlot _ _ _ _)
  unfold Part.report
  dsimp only
  generalize (p.writeSlotResult i res).writeSlotState i st code = q at hw ⊢
  have hroom : (q.modSlot i (fun s => { s with shadow := .reported })).room l (13 + n) :=
    Part.room_of_journal h (show q.run = { p.run with attention := q.run.attention } by rw [hw.run]) hw.journal
  generalize hrec : slotRecord i _ _ _ _ _ _ = rec
  have hlen : rec.length = 7 := by rw [← hrec]; rfl
  have hroom' : (q.modSlot i (fun s => { s with shadow := .reported })).room l (2 * rec.length - 1 + n) := by rw [hlen]; exact hroom
  obtain ⟨hrest, hboard, hrun⟩ := writeRecord_room hroom'
  rw [hand_room hroom']
  refine ⟨hrest, hboard.trans hw.board, hrun.trans ?_⟩
  have hq : (q.modSlot i (fun s => { s with shadow := .reported })).run = p.run := hw.run
  rw [hq]

theorem endTake_room (h : p.room l (13 + n)) (i : Nat) (tm : Termination) (res : Int) : (p.endTake i tm res).room l n
    ∧ (p.endTake i tm res).board = p.board ∧ (p.endTake i tm res).run.attention.alert = p.run.attention.alert := by
  obtain ⟨hroom, hboard, hrun⟩ := report_room (p := p.takePlaced) (n := n) h i .finished tm.code res
  exact ⟨hroom, hboard, (congrArg (fun r => r.attention.alert) hrun :)⟩

/-! ### A merge -/

theorem Severity.max_of_le {a b : Severity} (h : b.code ≤ a.code) : a.max b = a := by
  rw [Severity.max, if_neg (by omega)]

theorem satInc_byte (x : Byte) : satInc x = if x = 255 then 255 else x + 1 := by
  have hones : BitVec.allOnes 8 = 255 := by decide
  unfold satInc
  rw [hones]
  exact ite_congr rfl id (fun _ => rfl)

/-- A raise of a code that is no condition's merges, at a severity no higher than the entry's, by its count and its last-change time
(R117). -/
theorem merge_room (h : p.room l (13 + n)) (i : Fin 32) (hcond : e.code.condition = false) (hsev : sev.code ≤ e.severity.code) :
    (p.merge i e sev).room l n ∧ (p.merge i e sev).board = p.board.change i { e with count := satInc e.count, last := p.time } := by
  unfold Part.merge
  dsimp only
  rw [Severity.max_of_le hsev, hcond]
  have hrose : (e.severity != e.severity) = false := bne_self_eq_false ..
  simp only [Bool.and_false, hrose, Bool.false_and, Bool.or_false, if_neg Bool.false_ne_true]
  obtain ⟨hroom, hboard, -⟩ := changeBoard_room h (p.board.change i { e with count := satInc e.count, last := p.time }) i false
  generalize p.changeBoard _ i false = q at hroom hboard ⊢
  obtain ⟨hroom', hboard', -⟩ := writeAlert_room (p := q) hroom (some i) .merged
    { e with count := satInc e.count, last := p.time } e.state.code q.board.overflow q.time
  split <;> exact ⟨hroom', hboard'.trans hboard⟩

/-- A raise of a code and source that an entry has merges into it (R117). -/
theorem raiseFull_merges (h : p.room l (13 + n)) (hfind : p.board.find code src = some i) (he : p.board.entries[i] = some e)
    (hcond : e.code.condition = false) (hsev : sev.code ≤ e.severity.code) :
    p.raiseFull code src zone sev = (p.merge i e sev, some i) := by
  have hone : p.raiseOne code src zone sev = (p.merge i e sev, some i) := by
    unfold Part.raiseOne
    rw [if_neg (by simp [Part.room_active h]), hfind]
    dsimp only
    rw [he]
  rw [Part.raiseFull, hone, Part.whole_of_room (merge_room h i hcond hsev).1]

/-! ### The order -/

theorem Zone.ofCode_of {z : Zone} {n : Nat} (h : n = z.code) : Zone.ofCode n = some z := by
  subst h
  cases z with
  | all => rfl
  | one z =>
    rw [Zone.code, Zone.ofCode, if_pos z.isLt]
    exact congrArg (fun k => some (Zone.one k)) (Fin.ext (Nat.mod_eq_of_lt z.isLt))

theorem Zone.ofCode_none {n : Nat} (h : 4 ≤ n) (h' : n ≠ 15) : Zone.ofCode n = none := by
  rw [Zone.ofCode, if_neg (by omega), if_neg h']

theorem Zone.exists_ofCode {n : Nat} (h : ¬ (4 ≤ n ∧ n ≠ 15)) : ∃ z, Zone.ofCode n = some z := by
  unfold Zone.ofCode
  split_ifs with h1 h2
  · exact ⟨_, rfl⟩
  · exact ⟨_, rfl⟩
  · exact absurd ⟨by omega, h2⟩ h

theorem Severity.ofCode_code (x : Severity) : Severity.ofCode x.code = some x := by cases x <;> rfl

theorem Severity.ofCode_none {n : Nat} (h : 2 < n) : Severity.ofCode n = none := by
  obtain ⟨k, rfl⟩ := Nat.exists_eq_add_of_le' h
  rfl

theorem Severity.code_le (x : Severity) : x.code ≤ 2 := by cases x <;> decide

theorem Severity.exists_code {n : Nat} (h : n ≤ 2) : ∃ x : Severity, x.code = n := by
  interval_cases n
  exacts [⟨.info, rfl⟩, ⟨.attend, rfl⟩, ⟨.urgent, rfl⟩]

theorem exec_orderAlert {s : State} (h : s.part.serving l .orderAlert t) :
    exec .orderAlert s = .next (s.setPart (s.part.alertOrder t)) :=
  congrArg (done s) (withTaking_of_serving h rfl Part.alertOrder)

/-- The part with the raise of an ORDER_ALERT made, and the board index that it answers with, 32 for none (R130). -/
def Part.orderRaised (p : Part) (t : Taking) (zone : Zone) (sev : Severity) : Part × Option (Fin 32) :=
  p.raiseFull .orderAlert (.host (lowByte t.w4)) zone sev

def boardIndex (i : Option (Fin 32)) : Nat := i.elim 32 Fin.val

theorem boardIndex_le (i : Option (Fin 32)) : boardIndex i ≤ 32 := by
  cases i with
  | none => exact Nat.le_refl _
  | some i => exact i.isLt.le

theorem alertOrder_raises (p : Part) (hz : Zone.ofCode t.target.toNat = some zone) (hs : Severity.ofCode t.w3.toNat = some sev) :
    p.alertOrder t = (p.orderRaised t zone sev).1.endTake t.slot .complete (boardIndex (p.orderRaised t zone sev).2) := by
  rw [Part.alertOrder, hz, hs]
  unfold Part.orderRaised
  dsimp only
  generalize p.raiseFull .orderAlert (.host (lowByte t.w4)) zone sev = r
  obtain ⟨q, index⟩ := r
  cases index <;> rfl

theorem alertOrder_refused (p : Part) (h : 4 ≤ t.target.toNat ∧ t.target.toNat ≠ 15 ∨ 2 < t.w3.toNat) :
    p.alertOrder t = p.refuse t.slot .badOperand 0 := by
  rw [Part.alertOrder]
  rcases h with ⟨h1, h2⟩ | h
  · rw [Zone.ofCode_none h1 h2]
  · rw [Severity.ofCode_none h]
    cases Zone.ofCode t.target.toNat <;> rfl

theorem told_orderRaised (p : Part) (t : Taking) (zone : Zone) (sev : Severity) : p.Told (p.orderRaised t zone sev).1 :=
  told_raiseFull p _ _ zone sev

/-- Reports before an order's end are among what the frame of its end allows. -/
theorem Part.Told.onlyOrders (h : p.Told q) (hr : q.OnlyOrders r) : p.OnlyOrders r := by
  intro c
  have hq : (p.setOrders r.orders).Told (q.setOrders r.orders) := { h with orders := rfl }
  exact (hq.near (c := c)).trans (hr c)

end

/-- Settles O46: the order's raise is made whole, and the order ends with its index; by its codes it may be refused. -/
theorem orderAlertOrder : Obligations.OrderAlertOrder := by
  unfold Obligations.OrderAlertOrder
  intro s l t hserving hm source
  have ⟨_, _, _, hslot⟩ := hserving
  rw [exec_orderAlert hserving]
  by_cases hbad : 4 ≤ t.target.toNat ∧ t.target.toNat ≠ 15 ∨ 2 < t.w3.toNat
  · rw [alertOrder_refused _ hbad]
    obtain ⟨hshows, htaking, honly⟩ := refuse_ends hslot hm .badOperand 0
    refine ⟨_, rfl, htaking, honly, fun _ => hshows, fun zone sev hz hs => absurd hbad ?_⟩
    have hsev := sev.code_le
    cases zone <;> dsimp only at hz <;> omega
  · obtain ⟨hzone, hsev⟩ := not_or.mp hbad
    obtain ⟨zone, hz⟩ := Zone.exists_ofCode hzone
    obtain ⟨sev, hs⟩ := Severity.exists_code (Nat.not_lt.mp hsev)
    have hs' : Severity.ofCode t.w3.toNat = some sev := hs ▸ sev.ofCode_code
    have htold := told_orderRaised s.part t zone sev
    obtain ⟨hshows, htaking, honly⟩ := endTake_ends ((slotsKept.told htold).hasSlot hslot) (htold.mem hm) .complete
      (boardIndex (s.part.orderRaised t zone sev).2)
    rw [alertOrder_raises _ hz hs']
    refine ⟨_, rfl, htaking, htold.onlyOrders honly, fun h => absurd ?_ hbad, fun zone' sev' hz' hs'' => ?_⟩
    · exact h.imp (fun ⟨h1, h2⟩ => ⟨h1, fun h => h2 (BitVec.eq_of_toNat_eq h)⟩) id
    have hzones : zone' = zone := by
      have := Zone.ofCode_of (z := zone') (n := t.target.toNat) (by rw [hz']; cases zone' <;> rfl)
      exact Option.some.inj (this.symm.trans hz)
    have hsevs : sev' = sev := Option.some.inj ((Severity.ofCode_code sev').symm.trans (by rw [hs'']; exact hs'))
    subst hzones hsevs
    refine ⟨⟨_, Int.natCast_nonneg _, by exact_mod_cast boardIndex_le _, hshows⟩, fun hroom i => ⟨fun hnew hi hfirst => ?_,
      fun e he hcode hsrc honly' hle => ?_⟩⟩
    · have hfind : s.part.board.find .orderAlert source = none :=
        Board.find_eq_none fun j e he hcode hsrc => hnew j e he ⟨hcode, hsrc⟩
      have hraise : s.part.orderRaised t zone' sev' = _ := raiseFull_makes (n := 15) hroom hfind (Board.freeIndex_eq hi hfirst)
      obtain ⟨hroom', hboard, halert⟩ := makeEntry_room (n := 13 + 2) hroom i (.fresh .orderAlert source zone' sev' s.part.time)
      rw [hraise] at hshows ⊢
      obtain ⟨-, hboard', halert'⟩ := endTake_room hroom' t.slot .complete (boardIndex (some i))
      refine ⟨hshows, fun hinfo => ?_, hboard'.trans hboard⟩
      have hcalls : (s.part.run.attention.alert || sev'.calls) = true := by rw [(Severity.calls_iff sev').mpr hinfo, Bool.or_true]
      exact (halert'.trans halert).trans hcalls
    · have hfind : s.part.board.find .orderAlert source = some i := Board.find_eq_some he hcode hsrc honly'
      have hcond : e.code.condition = false := by rw [hcode]; rfl
      have hraise : s.part.orderRaised t zone' sev' = _ := raiseFull_merges (n := 15) hroom hfind he hcond hle
      obtain ⟨hroom', hboard⟩ := merge_room (n := 13 + 2) hroom i hcond hle
      rw [hraise] at hshows ⊢
      obtain ⟨-, hboard', -⟩ := endTake_room hroom' t.slot .complete (boardIndex (some i))
      rw [satInc_byte] at hboard
      exact ⟨hshows, hboard'.trans hboard⟩

end Sys2Proof.Machine
end

