-- ==== Sys2Proof/Proofs/GuardRules.lean ====
section
/-! The guard monitor (6.3 to 6.6): what a guard's change of state makes of the guard and of the channels it covers. -/

namespace Sys2Proof.Machine

section
variable {p q r : Part} {g : Fin 8} {c : Fin 8} {cause : GuardCause}

/-! ### What the work of a guard leaves -/

/-- Beside guards nothing but the work of the blocks on the channels stands between `p` and `q`. -/
def Part.GuardWork (p q : Part) : Prop := (p.setGuards q.guards).Working q

theorem Part.Working.guardWork (h : p.Working q) : p.GuardWork q := { h with guards := rfl }

theorem Part.Told.guardWork (h : p.Told q) : p.GuardWork q := h.working.guardWork

theorem Part.GuardWork.setGuard (p : Part) (g : Fin 8) (x : Guard) : p.GuardWork (p.setGuard g x) := Part.Working.refl (p.setGuard g x)

theorem Part.GuardWork.trans (a : p.GuardWork q) (b : q.GuardWork r) : p.GuardWork r := by
  have hq : (p.setGuards r.guards).Working (q.setGuards r.guards) := { a with guards := rfl }
  exact hq.trans b

theorem Part.GuardWork.told (a : p.GuardWork q) (b : q.Told r) : p.GuardWork r := a.trans b.guardWork

theorem Part.GuardWork.lines (h : p.GuardWork q) : q.lines = p.lines := Part.Working.lines (p := p.setGuards q.guards) h
theorem Part.GuardWork.inputs (h : p.GuardWork q) : q.inputs = p.inputs := Part.Working.inputs (p := p.setGuards q.guards) h
theorem Part.GuardWork.time (h : p.GuardWork q) : q.time = p.time := Part.Working.time (p := p.setGuards q.guards) h
theorem Part.GuardWork.mode (h : p.GuardWork q) : q.modes.mode = p.modes.mode := Part.Working.mode (p := p.setGuards q.guards) h
theorem Part.GuardWork.wantsPark (h : p.GuardWork q) : q.wantsPark = p.wantsPark := Part.Working.wantsPark (p := p.setGuards q.guards) h
theorem Part.GuardWork.layout (h : p.GuardWork q) : q.run.layout = p.run.layout := Part.Working.layout (p := p.setGuards q.guards) h
theorem Part.GuardWork.active (h : p.GuardWork q) : q.active = p.active := Part.Working.active (p := p.setGuards q.guards) h
theorem Part.GuardWork.wf (h : p.GuardWork q) (hm : Memory.wf p.mem) : Memory.wf q.mem := Part.Working.mem (p := p.setGuards q.guards) h hm

theorem Part.Working.calm {β : Type} {f : Input → β} (h : p.Working q) : p.Calm f q :=
  { h with
    lines := fun l => by rw [Part.line, h.lines]; rfl
    inputs := by rw [h.inputs]
    bindings := by rw [h.bindings]
    guards := fun g => by rw [Part.guard, h.guards]; rfl }

theorem Part.GuardWork.onlyWork (h : p.GuardWork q) : p.OnlyWork q :=
  (Part.OnlyWork.setGuards p q.guards).trans (Part.Working.calm (p := p.setGuards q.guards) (f := id) h).onlyWork

theorem Part.Told.guard (h : p.Told q) (k : Fin 8) : q.guard k = p.guard k := by rw [Part.guard, h.guards]; rfl

theorem Part.Working.guard (h : p.Working q) (k : Fin 8) : q.guard k = p.guard k := by rw [Part.guard, h.guards]; rfl

/-- Guard `g` has become `x`, no other guard has changed, and beside them only the channels have been worked on. -/
structure Part.Guards (p : Part) (g : Fin 8) (x : Guard) (q : Part) : Prop where
  work : p.GuardWork q
  guard : q.guard g = x
  others : ∀ k, k ≠ g → q.guard k = p.guard k

theorem Part.Guards.setGuard (p : Part) (g : Fin 8) (x : Guard) : p.Guards g x (p.setGuard g x) :=
  ⟨.setGuard p g x, p.setGuard_guard_self g x, fun _ hk => p.setGuard_guard_ne hk x⟩

theorem Part.Guards.trans {x y : Guard} (a : p.Guards g x q) (b : q.Guards g y r) : p.Guards g y r :=
  ⟨a.work.trans b.work, b.guard, fun k hk => (b.others k hk).trans (a.others k hk)⟩

theorem Part.Guards.working {x : Guard} (a : p.Guards g x q) (b : q.Working r) : p.Guards g x r :=
  ⟨a.work.trans b.guardWork, (b.guard g).trans a.guard, fun k hk => (b.guard k).trans (a.others k hk)⟩

theorem Part.Guards.told {x : Guard} (a : p.Guards g x q) (b : q.Told r) : p.Guards g x r := a.working b.working

/-! ### A guard's change of state -/

theorem enterGuard_told (p : Part) (g : Fin 8) (st : GuardState) (cause : GuardCause) :
    (p.setGuard g { p.guard g with state := st }).Told (p.enterGuard g st cause) := told_hand _ _

/-- A guard's fields are set and it enters a state: reports, and the guard. -/
theorem modEnter_told (p : Part) (g : Fin 8) (f : Guard → Guard) (st : GuardState) (cause : GuardCause) :
    (p.setGuard g { f (p.guard g) with state := st }).Told ((p.modGuard g f).enterGuard g st cause) := by
  have h := enterGuard_told (p.modGuard g f) g st cause
  have hset : ((p.modGuard g f).setGuard g { (p.modGuard g f).guard g with state := st }) = p.setGuard g { f (p.guard g) with state := st } := by
    rw [Part.modGuard, Part.setGuard_guard_self]
    simp [Part.setGuard, Part.setGuards]
  rw [hset] at h
  exact h

/-! ### The trip action (R106) -/

theorem view_holdAtRest (p : Part) (c : Fin 8) : ((p.holdAtRest c).chan c).view
    = { p.chan c with state := .held, heldPark := (p.chan c).parkCause, parkCause := none }.superseded.view := by
  unfold Part.holdAtRest
  dsimp only
  rw [view_commit, view_supersedeQueue, Part.setChan_chan_self]

/-- In motion a cut or a controlled stop is the trip action (R106). -/
theorem tripAction_motion (h : (p.chan c).state.inMotion = true) (cut : Bool) :
    p.tripAction cut c = if cut then p.cut c .guarded else p.controlledStop c .guarded := by
  unfold Part.tripAction
  split
  case h_1 | h_2 | h_3 => rfl
  all_goals
    next hs => rw [hs] at h; cases h

theorem tripAction_rest (h : (p.chan c).state = .idle ∨ (p.chan c).state = .parked) (cut : Bool) :
    p.tripAction cut c = p.holdAtRest c := by
  unfold Part.tripAction
  rcases h with h | h <;> rw [h]

theorem tripAction_off (h : (p.chan c).state = .held ∨ (p.chan c).state = .unhomed ∨ (p.chan c).state = .fault) (cut : Bool) :
    p.tripAction cut c = p := by
  unfold Part.tripAction
  rcases h with h | h | h <;> rw [h]

/-- The controlled stop that a guard asks for of a channel in motion, by its state (R71, R72). -/
def Channel.stoppedByGuard (x : Channel) : Channel :=
  match x.state with
  | .moving => x.superseded.stopBegun .guarded
  | .stopping => x.superseded.stopAgain .guarded
  | _ => x.superseded.halt.rested true .guarded

theorem view_stoppedByGuard (hg : p.guarded c = true) (h : (p.chan c).state.inMotion = true) :
    ((p.controlledStop c .guarded).chan c).view = (p.chan c).stoppedByGuard.view := by
  unfold Channel.stoppedByGuard
  split
  · next hs => exact view_controlledStop_moving hs .guarded
  · next hs => exact view_controlledStop_stopping hs .guarded
  · next h1 h2 =>
    have hs : (p.chan c).state = .homing := by
      rcases (ChanState.inMotion_iff _).mp h with h | h | h
      · exact absurd h h1
      · exact absurd h h2
      · exact h
    have hview := view_controlledStop_homing hs (.inl hg) .guarded
    rw [hg] at hview
    exact hview

/-- A channel after the trip action of a guard that covers it, by its state (R106, R107). -/
def Channel.trippedAs (x : Channel) (cut : Bool) : Channel :=
  if x.state.inMotion then (if cut then x.cutAs true .guarded else x.stoppedByGuard)
  else if x.state = .idle ∨ x.state = .parked then { x with state := .held, heldPark := x.parkCause, parkCause := none }.superseded
  else x

theorem view_tripAction (hg : p.guarded c = true) (cut : Bool) :
    ((p.tripAction cut c).chan c).view = ((p.chan c).trippedAs cut).view := by
  unfold Channel.trippedAs
  split
  · next h =>
    rw [tripAction_motion h]
    split
    · exact hg ▸ view_cut p c .guarded
    · exact view_stoppedByGuard hg h
  · split
    · next h => rw [tripAction_rest h, view_holdAtRest]
    · next hmotion hrest =>
      rw [tripAction_off]
      cases hs : (p.chan c).state <;> simp_all [ChanState.inMotion]

theorem mem_maskChannels {mask : BitVec 8} : c ∈ maskChannels mask ↔ mask.getLsbD c.val = true := by
  simp [maskChannels]

theorem nodup_maskChannels (mask : BitVec 8) : (maskChannels mask).Nodup := (List.nodup_finRange 8).filter _

theorem Channel.cutAs_of_motion {x : Channel} (h : x.state.inMotion = true) (guarded : Bool) (t : Termination) :
    x.cutAs guarded t = x.cutShort.rested guarded t := by
  unfold Channel.cutAs
  split
  case h_1 | h_2 | h_3 => rfl
  all_goals
    next hs => rw [hs] at h; cases h

theorem Channel.cutShort_view {x y : Channel} (h : y.view = x.view) : y.cutShort.view = x.cutShort.view := by
  obtain ⟨w, rfl⟩ := exists_of_view h
  rfl

theorem Channel.cutAs_view {x y : Channel} (h : y.view = x.view) (guarded : Bool) (t : Termination) :
    (y.cutAs guarded t).view = (x.cutAs guarded t).view := by
  have hstate : y.state = x.state := state_of_view h
  by_cases hm : x.state.inMotion = true
  · rw [Channel.cutAs_of_motion hm, Channel.cutAs_of_motion (hstate ▸ hm)]
    exact Channel.rested_view (Channel.cutShort_view h) guarded t
  · obtain ⟨w, rfl⟩ := exists_of_view h
    obtain ⟨params, state, _⟩ := x
    cases state
    case moving | stopping | homing => exact absurd rfl hm
    all_goals rfl

theorem Channel.stoppedByGuard_view {x y : Channel} (h : y.view = x.view) : y.stoppedByGuard.view = x.stoppedByGuard.view := by
  obtain ⟨w, rfl⟩ := exists_of_view h
  have hhome : ({ x with lastWrite := w }.superseded.halt.rested true .guarded).view = (x.superseded.halt.rested true .guarded).view :=
    Channel.rested_view (x := x.superseded.halt) (y := { x with lastWrite := w }.superseded.halt) rfl true .guarded
  obtain ⟨params, state, _⟩ := x
  cases state
  case moving | stopping => rfl
  all_goals exact hhome

theorem Channel.trippedAs_view {x y : Channel} (h : y.view = x.view) (cut : Bool) : (y.trippedAs cut).view = (x.trippedAs cut).view := by
  have hcut := Channel.cutAs_view h true .guarded
  have hstop := Channel.stoppedByGuard_view h
  obtain ⟨w, rfl⟩ := exists_of_view h
  unfold Channel.trippedAs
  dsimp only
  split
  · split
    · exact hcut
    · exact hstop
  · split <;> rfl

/-- The trip actions of a guard that is not CLEAR: each covered channel takes its own, and no other changes (R106 step 3). -/
theorem tripActions_spec (p : Part) (g : Fin 8) (hc : ∀ c : Fin 8, (p.guard g).record.mask.getLsbD c.val = true → p.guarded c = true) :
    p.Working (p.tripActions g) ∧ ∀ c : Fin 8, ((p.tripActions g).chan c).view
      = (if (p.guard g).record.mask.getLsbD c.val then (p.chan c).trippedAs (p.guard g).record.cut else p.chan c).view := by
  obtain ⟨hwork, hout, hin⟩ := fold_visits (fun d q => q.tripAction (p.guard g).record.cut d) (fun d q => near_tripAction _ q)
    (nodup_maskChannels (p.guard g).record.mask) p
  refine ⟨hwork, fun c => ?_⟩
  split
  · next h =>
    obtain ⟨q, hq, hview, hend⟩ := hin c (mem_maskChannels.mpr h)
    exact (hend.trans (view_tripAction ((hq.guarded c).trans (hc c h)) _)).trans (Channel.trippedAs_view hview _)
  · next h => exact hout c (fun hm => h (mem_maskChannels.mp hm))

/-! ### Trips and returns (R106, R108, R110) -/

theorem covers_eq (p : Part) (g c : Fin 8) : p.covers g c = true ↔ (p.guard g).record.enable = true
    ∧ (p.guard g).record.mask.getLsbD c.val = true ∧ (p.guard g).state ≠ .clear := by
  simp [Part.covers, and_assoc]

/-- What a guard that is not CLEAR does to each channel: its trip action to those it covers, nothing to the others. -/
def Part.Trips (p : Part) (x : GuardRecord) (q : Part) : Prop :=
  ∀ c : Fin 8, (q.chan c).view = (if x.mask.getLsbD c.val then (p.chan c).trippedAs x.cut else p.chan c).view

theorem Part.Trips.of_views {x : GuardRecord} (hview : ∀ c, (q.chan c).view = (p.chan c).view) (h : q.Trips x r) : p.Trips x r := by
  intro c
  refine (h c).trans ?_
  split
  · exact Channel.trippedAs_view (hview c) _
  · exact hview c

/-- A guard that stands as an enabled one other than CLEAR takes its trip actions. -/
theorem tripActions_trips {x : Guard} (h : p.guard g = x) (he : x.record.enable = true) (hs : x.state ≠ .clear) :
    p.Working (p.tripActions g) ∧ p.Trips x.record (p.tripActions g) := by
  subst h
  exact tripActions_spec p g fun c hm => (guarded_iff p c).mpr ⟨g, (covers_eq p g c).mpr ⟨he, hm, hs⟩⟩

/-- A guard trips: TRIPPED, not acknowledged, and boarded or not (R106). -/
theorem guardTrip_spec (p : Part) (g : Fin 8) (cause : GuardCause) (he : (p.guard g).record.enable = true) :
    (∃ b, p.Guards g { p.guard g with state := .tripped, acked := false, boarded := b } (p.guardTrip g cause))
      ∧ p.Trips (p.guard g).record (p.guardTrip g cause) := by
  have htold := modEnter_told p g (fun x => { x with acked := false }) .tripped cause
  unfold Part.guardTrip
  dsimp only
  generalize (p.modGuard g fun x => { x with acked := false }).enterGuard g .tripped cause = q at htold ⊢
  have hraise := told_raiseFull q .guardTrip (.guard g) (.one (p.guard g).record.zone) .urgent
  generalize q.raiseFull .guardTrip (.guard g) (.one (p.guard g).record.zone) .urgent = r at hraise ⊢
  obtain ⟨r, index⟩ := r
  have hguards := ((Part.Guards.setGuard p g _).told htold).told hraise
  have hset := hguards.trans (Part.Guards.setGuard r g { r.guard g with boarded := index.isSome })
  have hboarded : p.Guards g { p.guard g with state := .tripped, acked := false, boarded := index.isSome }
      (r.modGuard g fun x => { x with boarded := index.isSome }) :=
    ⟨hset.work, hset.guard.trans (by rw [hguards.guard]), hset.others⟩
  have hchan (c : Fin 8) : ((r.modGuard g fun x => { x with boarded := index.isSome }).chan c).view = (p.chan c).view :=
    view_told (htold.trans hraise) c
  generalize r.modGuard g (fun x => { x with boarded := index.isSome }) = r' at hboarded hchan ⊢
  obtain ⟨hwork, htrips⟩ := tripActions_trips hboarded.guard he (by simp)
  exact ⟨⟨index.isSome, hboarded.working hwork⟩, htrips.of_views hchan⟩

/-- A guard returns to TRIPPED, and takes its trip actions again (R108, R110). -/
theorem returnToTripped_spec (p : Part) (g : Fin 8) (cause : GuardCause) (he : (p.guard g).record.enable = true) :
    p.Guards g { p.guard g with state := .tripped, clearDue := none } (p.returnToTripped g cause)
      ∧ p.Trips (p.guard g).record (p.returnToTripped g cause) := by
  have htold := modEnter_told p g (fun x => { x with clearDue := none }) .tripped cause
  unfold Part.returnToTripped
  generalize (p.modGuard g fun x => { x with clearDue := none }).enterGuard g .tripped cause = q at htold ⊢
  have hguards := (Part.Guards.setGuard p g _).told htold
  obtain ⟨hwork, htrips⟩ := tripActions_trips hguards.guard he (by simp)
  exact ⟨hguards.working hwork, htrips.of_views fun c => view_told htold c⟩

/-! ### CLEAR (R111, R112) -/

/-- A guard that becomes CLEAR. -/
def Guard.cleared (x : Guard) (now : Time) : Guard :=
  { x with state := .clear, clearDue := none, acked := false, boarded := false, filterDue := x.filterAtClear now }

/-- Channel `c` leaves HELD as guard `g` becomes CLEAR: the guard covers it, and no other guard holds it (R112). -/
def Part.leavesHeld (p : Part) (g c : Fin 8) : Prop :=
  (p.guard g).record.mask.getLsbD c.val = true ∧ (p.chan c).state = .held ∧ ∀ k, k ≠ g → p.covers k c = false

theorem leaveHeld_stays (h : ¬ ((p.chan c).state = .held ∧ p.guarded c = false)) : p.leaveHeld c = p := if_neg h

theorem view_leaveHeld (hs : (p.chan c).state = .held) (hg : p.guarded c = false) (hw : p.wantsPark = false) :
    ((p.leaveHeld c).chan c).view = ((p.chan c).released false).view := by
  obtain ⟨hparams, hpins, -⟩ := (p.chan c).released_keeps p.wantsPark
  have hwork := (working_setChan p c hparams hpins).trans
    (told_commit (p.setChan c ((p.chan c).released p.wantsPark)) c (p.chan c) 0 true).working
  unfold Part.leaveHeld
  dsimp only
  rw [if_pos ⟨hs, hg⟩, modePark_of_not_wantsPark (hwork.wantsPark.trans hw), view_commit, Part.setChan_chan_self, hw]

theorem Channel.released_view {x y : Channel} (h : y.view = x.view) (w : Bool) : (y.released w).view = (x.released w).view := by
  obtain ⟨v, rfl⟩ := exists_of_view h
  unfold Channel.released
  dsimp only
  split
  · rfl
  · split
    · rfl
    · split <;> rfl
    · rfl

/-- Once guard `g` is CLEAR a channel is free where no other guard holds it. -/
theorem guarded_cleared (hclear : (q.guard g).state = .clear) (hothers : ∀ k, k ≠ g → q.guard k = p.guard k) :
    q.guarded c = false ↔ ∀ k, k ≠ g → p.covers k c = false := by
  rw [Bool.eq_false_iff, Ne, guarded_iff, not_exists]
  refine forall_congr' fun k => ?_
  by_cases hk : k = g
  · subst hk
    simp [Part.covers, hclear]
  · simp [Part.covers, hothers k hk, hk]

theorem guardClear_spec (p : Part) (g : Fin 8) (cause : GuardCause) :
    p.Guards g ((p.guard g).cleared p.time) (p.guardClear g cause)
      ∧ ∀ c, (¬ p.leavesHeld g c → ((p.guardClear g cause).chan c).view = (p.chan c).view)
        ∧ (p.wantsPark = false → p.leavesHeld g c → ((p.guardClear g cause).chan c).view = ((p.chan c).released false).view) := by
  have htold := modEnter_told p g (fun x => { x with clearDue := none, filterDue := x.filterAtClear p.time }) .clear cause
  unfold Part.guardClear
  dsimp only
  generalize (p.modGuard g fun x => { x with clearDue := none, filterDue := x.filterAtClear p.time }).enterGuard g .clear cause = q
    at htold ⊢
  have htold' := htold.trans (told_condEnd q .guardTrip (.guard g))
  generalize q.condEnd .guardTrip (.guard g) = q at htold' ⊢
  have hguards := (Part.Guards.setGuard p g _).told htold'
  have hmask : (q.guard g).record.mask = (p.guard g).record.mask := by rw [hguards.guard]
  have hview (c : Fin 8) : (q.chan c).view = (p.chan c).view := view_told htold' c
  have hfree (c : Fin 8) : q.guarded c = false ↔ ∀ k, k ≠ g → p.covers k c = false :=
    guarded_cleared (by rw [hguards.guard]) hguards.others
  rw [hmask]
  obtain ⟨hwork, hout, hin⟩ := fold_visits (fun d r => r.leaveHeld d) (fun d r => near_leaveHeld r)
    (nodup_maskChannels (p.guard g).record.mask) q
  generalize hr : (maskChannels (p.guard g).record.mask).foldl (fun r d => r.leaveHeld d) q = r at hwork hout hin
  have hend := (hguards.working hwork).trans (Part.Guards.setGuard r g { r.guard g with acked := false, boarded := false })
  refine ⟨⟨hend.work, hend.guard.trans (by rw [(hguards.working hwork).guard]; rfl), hend.others⟩, fun c => ⟨fun hstays => ?_, fun hw hleaves => ?_⟩⟩
  · show (r.chan c).view = _
    by_cases hm : c ∈ maskChannels (p.guard g).record.mask
    · obtain ⟨u, hu, huview, hend⟩ := hin c hm
      have hnot : ¬ ((u.chan c).state = .held ∧ u.guarded c = false) := by
        rintro ⟨hs, hg⟩
        rw [state_of_view (huview.trans (hview c))] at hs
        rw [hu.guarded, hfree] at hg
        exact hstays ⟨mem_maskChannels.mp hm, hs, hg⟩
      rw [hend, leaveHeld_stays hnot, huview, hview]
    · rw [hout c hm, hview]
  · show (r.chan c).view = _
    obtain ⟨hm, hs, hothers⟩ := hleaves
    obtain ⟨u, hu, huview, hend⟩ := hin c (mem_maskChannels.mpr hm)
    have hwants : u.wantsPark = false := (hu.wantsPark.trans hguards.work.wantsPark).trans hw
    rw [hend, view_leaveHeld ((state_of_view (huview.trans (hview c))).trans hs) ((hu.guarded c).trans ((hfree c).mpr hothers)) hwants]
    exact Channel.released_view (huview.trans (hview c)) false

end

end Sys2Proof.Machine
end

