-- ==== Sys2Proof/Proofs/GuardInputs.lean ====
section
/-! The guards' inputs and timers (R105 to R108, R110 to R112). -/

namespace Sys2Proof.Machine

section
variable {s : State} {p q : Part} {g c : Fin 8} {cause : GuardCause} {due : Time} {x y z : Channel}

/-! ### The clear timer and settling (R108, R111) -/

theorem modGuard_leavesHeld (p : Part) (g c : Fin 8) (f : Guard → Guard) (hf : (f (p.guard g)).record = (p.guard g).record) :
    (p.modGuard g f).leavesHeld g c ↔ p.leavesHeld g c := by
  have hothers (k : Fin 8) (hk : k ≠ g) : (p.modGuard g f).covers k c = p.covers k c := by
    rw [Part.covers, Part.modGuard, p.setGuard_guard_ne hk]
    rfl
  unfold Part.leavesHeld
  rw [Part.modGuard, Part.setGuard_guard_self, hf]
  exact and_congr_right fun _ => and_congr_right fun _ => forall₂_congr fun k hk => by rw [← Part.modGuard, hothers k hk]

/-- At its clear time an attended guard whose trip is not acknowledged awaits the acknowledgement (R108). -/
theorem clearExpire_awaits (p : Part) (g : Fin 8) (ha : (p.guard g).record.attended = true) (hn : (p.guard g).acked = false) :
    (p.setGuard g { p.guard g with state := .awaitAck, clearDue := none }).Told (p.clearExpire g) := by
  unfold Part.clearExpire
  dsimp only
  rw [if_neg (by simp [ha, hn])]
  exact modEnter_told p g (fun x => { x with clearDue := none }) .awaitAck .timer

/-- Any other becomes CLEAR (R108). -/
theorem clearExpire_clears (p : Part) (g : Fin 8) (h : (p.guard g).record.attended = false ∨ (p.guard g).acked = true) :
    p.Guards g ((p.guard g).cleared p.time) (p.clearExpire g)
      ∧ ∀ c, (¬ p.leavesHeld g c → ((p.clearExpire g).chan c).view = (p.chan c).view)
        ∧ (p.wantsPark = false → p.leavesHeld g c → ((p.clearExpire g).chan c).view = ((p.chan c).released false).view) := by
  obtain ⟨hguards, hchans⟩ := guardClear_spec (p.modGuard g fun x => { x with clearDue := none }) g .timer
  have heq : p.clearExpire g = (p.modGuard g fun x => { x with clearDue := none }).guardClear g .timer := by
    unfold Part.clearExpire
    dsimp only
    rw [if_pos (by rcases h with h | h <;> simp [h])]
  rw [heq]
  have hend := (Part.Guards.setGuard p g { p.guard g with clearDue := none }).trans hguards
  refine ⟨⟨hend.work, hend.guard.trans ?_, hend.others⟩, fun c => ?_⟩
  · rw [Part.modGuard, Part.setGuard_guard_self]
    rfl
  · have hleaves := modGuard_leavesHeld p g c (fun x => { x with clearDue := none }) rfl
    obtain ⟨hstays, hgoes⟩ := hchans c
    exact ⟨fun h => hstays (fun h' => h (hleaves.mp h')), fun hw h => hgoes hw (hleaves.mpr h)⟩

/-- A guard that settles waits for its clear time (R108). -/
theorem settleGuard_waits (p : Part) (g : Fin 8) (cause : GuardCause) (h : (p.guard g).record.clearTime ≠ 0) :
    (p.setGuard g { p.guard g with
      state := .settling, clearDue := some (after p.time (p.guard g).record.clearTime) }).Told (p.settleGuard g cause) := by
  unfold Part.settleGuard
  dsimp only
  rw [if_neg h]
  exact modEnter_told p g (fun x => { x with clearDue := some (after p.time (p.guard g).record.clearTime) }) .settling cause

/-- With a clear time of 0 it goes on within the event (R108). -/
theorem settleGuard_goes (p : Part) (g : Fin 8) (cause : GuardCause) (h : (p.guard g).record.clearTime = 0) :
    ∃ y, p.Guards g y (p.settleGuard g cause) ∧ y.record = (p.guard g).record ∧ y.pin = (p.guard g).pin
      ∧ y.filteredOpen = (p.guard g).filteredOpen ∧ y.clearDue = none
      ∧ y.filterDue = (if y.state = .clear then (p.guard g).filterAtClear p.time else (p.guard g).filterDue)
      ∧ y.state = if (p.guard g).record.attended = true ∧ (p.guard g).acked = false then .awaitAck else .clear := by
  have htold := modEnter_told p g (fun x => { x with clearDue := some (after p.time (p.guard g).record.clearTime) }) .settling cause
  have heq : p.settleGuard g cause = ((p.modGuard g fun x => { x with clearDue := some (after p.time (p.guard g).record.clearTime) }).enterGuard
      g .settling cause).clearExpire g := by
    unfold Part.settleGuard
    dsimp only
    rw [if_pos h]
  rw [heq]
  generalize (p.modGuard g fun x => { x with clearDue := some (after p.time (p.guard g).record.clearTime) }).enterGuard g .settling cause = q
    at htold ⊢
  have hguards := (Part.Guards.setGuard p g _).told htold
  have hg := hguards.guard
  split
  · next hawaits =>
    obtain ⟨ha, hn⟩ := hawaits
    have hends := clearExpire_awaits q g (by rw [hg]; exact ha) (by rw [hg]; exact hn)
    refine ⟨_, (hguards.trans (Part.Guards.setGuard q g _)).told hends, ?_⟩
    rw [hg]
    exact ⟨rfl, rfl, rfl, rfl, rfl, rfl⟩
  · next hnot =>
    obtain ⟨hends, -⟩ := clearExpire_clears q g (by
      rw [hg]
      cases ha : (p.guard g).record.attended with
      | false => exact .inl rfl
      | true => exact .inr (Bool.eq_true_of_not_eq_false fun hn => hnot ⟨ha, hn⟩))
    refine ⟨_, hguards.trans hends, ?_⟩
    rw [hg, htold.time]
    exact ⟨rfl, rfl, rfl, rfl, rfl, rfl⟩

/-! ### The commands -/

theorem exec_guardFilterExpiry (hdue : (s.part.guard g).filterDue = some due) (hcome : s.part.comesDue due p) :
    exec (.guardFilterExpiry g) s
      = .next (s.setPart ((p.modGuard g (fun x => { x with filterDue := none, filteredOpen := x.pinOpen })).guardTakes g .input)) := by
  show done s _ = _
  rw [hdue, Part.atTimer_comes hcome]
  rfl

theorem exec_clearTimerExpiry (hs : (s.part.guard g).state = .settling) (hdue : (s.part.guard g).clearDue = some due)
    (hcome : s.part.comesDue due p) : exec (.clearTimerExpiry g) s = .next (s.setPart (p.clearExpire g)) := by
  show done s _ = _
  rw [if_pos hs, hdue, Part.atTimer_comes hcome]
  rfl

theorem exec_guardPinChange {level : Bool} (h : (s.part.guard g).pin ≠ level) :
    exec (.guardPinChange g level) s = .next (s.setPart (s.part.setGuard g
      (if s.part.active && (s.part.guard g).record.enable then { s.part.guard g with pin := level }.filtered s.part.time
        else { s.part.guard g with pin := level }))) := congrArg (done s) (if_neg h)

/-- The filtered level takes the pin's level, as its timer comes due (R105). -/
def Guard.takesPin (x : Guard) : Guard := { x with filterDue := none, filteredOpen := x.pinOpen }

/-- A guard takes a filtered level that it acts on, by its state (R105), or does nothing. -/
theorem guardTakes_clear (h : (p.guard g).state = .clear) (ho : (p.guard g).filteredOpen = true) : p.guardTakes g cause = p.guardTrip g cause := by
  rw [Part.guardTakes, h, ho]

theorem guardTakes_tripped (h : (p.guard g).state = .tripped) (ho : (p.guard g).filteredOpen = false) :
    p.guardTakes g cause = p.settleGuard g cause := by
  rw [Part.guardTakes, h, ho]

theorem guardTakes_returns (h : (p.guard g).state = .settling ∨ (p.guard g).state = .awaitAck) (ho : (p.guard g).filteredOpen = true) :
    p.guardTakes g cause = p.returnToTripped g cause := by
  rw [Part.guardTakes, ho]
  rcases h with h | h <;> rw [h]

theorem guardTakes_stays (h : (p.guard g).state = .tripped ∧ (p.guard g).filteredOpen = true
    ∨ (p.guard g).state ≠ .tripped ∧ (p.guard g).filteredOpen = false) : p.guardTakes g cause = p := by
  rw [Part.guardTakes]
  rcases h with ⟨h, ho⟩ | ⟨h, ho⟩
  · rw [h, ho]
  · rw [ho]
    cases hs : (p.guard g).state
    case tripped => exact absurd hs h
    all_goals rfl

end

/-! ### A channel after a trip action, field by field (R106, R107) -/

section
variable {x : Channel}

/-- A channel in motion whose move a guard ends at once stands HELD at S. -/
theorem Channel.rested_held {m : Move} (hm : x.current = some m) (t : Termination) : x.rested true t = { x with
    current := none, moveCount := x.moveCount + 1 + BitVec.ofNat 16 x.queue.length, prof := x.prof.atRest, pendingTerm := none
    heldMove := m.source.heldAfter x.heldMove, state := .held, heldPark := none, parkCause := none, queue := [] } := by
  rw [Channel.rested, if_pos rfl, Channel.finished_of_current hm]
  rfl

theorem Channel.trippedAs_cut (h : x.state.inMotion = true) : x.trippedAs true = x.cutAs true .guarded := by
  rw [Channel.trippedAs, if_pos h, if_pos rfl]

theorem Channel.trippedAs_moving (h : x.state = .moving) : x.trippedAs false = x.superseded.stopBegun .guarded := by
  rw [Channel.trippedAs, if_pos (by rw [h]; rfl), if_neg Bool.false_ne_true, Channel.stoppedByGuard, h]

theorem Channel.trippedAs_stopping (h : x.state = .stopping) : x.trippedAs false = x.superseded.stopAgain .guarded := by
  rw [Channel.trippedAs, if_pos (by rw [h]; rfl), if_neg Bool.false_ne_true, Channel.stoppedByGuard, h]

theorem Channel.trippedAs_homing (h : x.state = .homing) : x.trippedAs false = x.superseded.halt.rested true .guarded := by
  rw [Channel.trippedAs, if_pos (by rw [h]; rfl), if_neg Bool.false_ne_true, Channel.stoppedByGuard, h]

theorem Channel.trippedAs_rest (h : x.state = .idle ∨ x.state = .parked) (cut : Bool) :
    x.trippedAs cut = { x with state := .held, heldPark := x.parkCause, parkCause := none }.superseded := by
  rw [Channel.trippedAs, if_neg (by rcases h with h | h <;> rw [h] <;> decide), if_pos h]

theorem Channel.trippedAs_off (h : x.state = .held ∨ x.state = .unhomed ∨ x.state = .fault) (cut : Bool) : x.trippedAs cut = x := by
  rw [Channel.trippedAs, if_neg (by rcases h with h | h | h <;> rw [h] <;> decide),
    if_neg (by rcases h with h | h | h <;> rw [h] <;> decide)]

end

/-- Where the mode wants no park a channel leaves HELD by what it remembers: UNHOMED, PARKED by the host, or IDLE (R112). -/
theorem Channel.released_free (x : Channel) : x.released false = { x with
    heldPark := none
    state := if x.lost then .unhomed else if x.heldPark = some .host then .parked else .idle
    parkCause := if x.lost = false ∧ x.heldPark = some .host then some .host else x.parkCause } := by
  unfold Channel.released
  cases hl : x.lost
  · cases hk : x.heldPark with
    | none => simp
    | some k => cases k <;> simp
  · simp

/-- Settles O56: each input and timer of a guard, by its state and its filtered level, with what each channel does. -/
theorem guardInputs : Obligations.GuardInputs := by
  unfold Obligations.GuardInputs
  intro s g level p' p x opens same halted tripsOn trips keeps leaves after
  have hcutHalts (y z : Channel) (h : y.state.inMotion = true) (hz : z.view = (y.trippedAs true).view) (hc : y.current ≠ none) :
      halted y z ∧ z.en = false ∧ z.lost = true := by
    obtain ⟨m, hm⟩ := Option.ne_none_iff_exists'.mp hc
    obtain ⟨w, rfl⟩ := exists_of_view hz
    rw [Channel.trippedAs_cut h, Channel.cutAs_motion h hm]
    exact ⟨⟨rfl, rfl, rfl, rfl, rfl, rfl⟩, rfl, rfl⟩
  have htripsOn (y z : Channel) (hz : z.view = (y.trippedAs x.record.cut).view) : tripsOn y z := by
    dsimp only [tripsOn]
    cases hs : y.state
    case moving =>
      cases hcut : x.record.cut
      all_goals rw [hcut] at hz
      case true => exact hcutHalts y z (by rw [hs]; rfl) hz
      case false =>
        rw [Channel.trippedAs_moving hs] at hz
        obtain ⟨w, rfl⟩ := exists_of_view hz
        exact ⟨rfl, rfl, rfl, rfl, rfl, rfl⟩
    case stopping =>
      cases hcut : x.record.cut
      all_goals rw [hcut] at hz
      case true => exact hcutHalts y z (by rw [hs]; rfl) hz
      case false =>
        rw [Channel.trippedAs_stopping hs] at hz
        obtain ⟨w, rfl⟩ := exists_of_view hz
        exact ⟨hs, rfl, rfl, rfl, rfl, rfl⟩
    case homing =>
      cases hcut : x.record.cut
      all_goals rw [hcut] at hz
      case true => exact hcutHalts y z (by rw [hs]; rfl) hz
      case false =>
        intro hc
        obtain ⟨m, hm⟩ := Option.ne_none_iff_exists'.mp hc
        rw [Channel.trippedAs_homing hs, Channel.rested_held (x := y.superseded.halt) hm] at hz
        obtain ⟨w, rfl⟩ := exists_of_view hz
        exact ⟨⟨rfl, rfl, rfl, rfl, rfl, rfl⟩, rfl, rfl⟩
    case idle | parked =>
      rw [Channel.trippedAs_rest (by rw [hs]; simp)] at hz
      obtain ⟨w, rfl⟩ := exists_of_view hz
      exact ⟨rfl, rfl, rfl, rfl, rfl, rfl, rfl, rfl⟩
    case held | unhomed | fault =>
      rw [Channel.trippedAs_off (by rw [hs]; simp)] at hz
      exact Channel.eq_of_view hz
  have htrips {r q : Part} (hr : ∀ c, (r.chan c).view = (p'.chan c).view) (h : r.Trips x.record q) : trips q := by
    intro c
    have hc := h.of_views hr c
    split
    · next hm =>
      rw [if_pos hm] at hc
      exact htripsOn _ _ hc
    · next hm =>
      rw [if_neg hm] at hc
      exact Channel.eq_of_view hc
  refine ⟨fun hpin => ?_, fun due he hdue hcome => ?_, fun due hs hdue hcome => ?_⟩
  · rw [exec_guardPinChange hpin]
    refine congrArg (fun y => Host.Outcome.next (s.setPart (p.setGuard g y))) ?_
    by_cases hworks : p.active = true ∧ x.record.enable = true
    · rw [if_pos hworks, if_pos (by rw [Bool.and_eq_true]; exact hworks)]
      rfl
    · rw [if_neg hworks, if_neg (by rw [Bool.and_eq_true]; exact hworks)]
  · obtain ⟨hp', -⟩ := Part.comesDue_eq hcome
    have hg : p'.guard g = x := by rw [hp']; rfl
    have hg1 : (p'.modGuard g Guard.takesPin).guard g = { x with filterDue := none, filteredOpen := opens } := by
      rw [Part.modGuard, Part.setGuard_guard_self, hg]
      rfl
    have hviews (c : Fin 8) : ((p'.modGuard g Guard.takesPin).chan c).view = (p'.chan c).view := rfl
    have hset : p'.modGuard g Guard.takesPin = p'.setGuard g { x with filterDue := none, filteredOpen := opens } := by
      rw [Part.modGuard, hg]
      rfl
    have htime : (p'.modGuard g Guard.takesPin).time = p'.time := rfl
    have hbegin : p'.Guards g (p'.guard g).takesPin (p'.modGuard g Guard.takesPin) := Part.Guards.setGuard p' g _
    have hexec : exec (.guardFilterExpiry g) s = .next (s.setPart ((p'.modGuard g Guard.takesPin).guardTakes g .input)) :=
      exec_guardFilterExpiry hdue hcome
    rw [hexec]
    generalize p'.modGuard g Guard.takesPin = r at hg1 hviews hset htime hbegin
    have hafter {y : Guard} {q : Part} (h : r.Guards g y q) (h1 : y.record = x.record) (h2 : y.pin = x.pin) (h3 : y.filteredOpen = opens)
        (h4 : y.filterDue = none) : after q := by
      have hq := hbegin.trans h
      refine ⟨hq.work.onlyWork, hq.work.lines.trans (by rw [hp']), hq.work.inputs.trans (by rw [hp']), fun k hk => (hq.others k hk).trans (by rw [hp']; rfl), ?_⟩
      rw [hq.guard]
      exact ⟨h1, h2, h3, h4⟩
    have hrstate : (r.guard g).state = x.state := by rw [hg1]
    have hropen : (r.guard g).filteredOpen = opens := by rw [hg1]
    have hrrecord : (r.guard g).record = x.record := by rw [hg1]
    by_cases htrip : x.state = .clear ∧ opens = true
    · obtain ⟨hst, hop⟩ := htrip
      obtain ⟨⟨b, hguards⟩, hacts⟩ := guardTrip_spec r g .input (by rw [hrrecord]; exact he)
      rw [hrrecord] at hacts
      rw [hg1] at hguards
      rw [guardTakes_clear (hrstate.trans hst) (hropen.trans hop)]
      refine ⟨_, rfl, hafter hguards rfl rfl rfl rfl, fun _ _ => ?_, fun h => ?_, fun h => ?_, fun h => ?_, fun h => ?_⟩
      · rw [hguards.guard]
        exact ⟨rfl, rfl, rfl, htrips hviews hacts⟩
      · rw [hst] at h; rcases h with h | h <;> cases h
      · rw [hst] at h; cases h
      · rw [hst] at h; cases h
      · rw [hst, hop] at h; rcases h with ⟨h, -⟩ | ⟨-, h⟩ <;> cases h
    by_cases hreturn : (x.state = .settling ∨ x.state = .awaitAck) ∧ opens = true
    · obtain ⟨hst, hop⟩ := hreturn
      obtain ⟨hguards, hacts⟩ := returnToTripped_spec r g .input (by rw [hrrecord]; exact he)
      rw [hrrecord] at hacts
      rw [hg1] at hguards
      rw [guardTakes_returns (by rw [hrstate]; exact hst) (hropen.trans hop)]
      refine ⟨_, rfl, hafter hguards rfl rfl rfl rfl, fun h => absurd ⟨h, hop⟩ htrip, fun _ _ => ?_, fun _ h => ?_, fun _ h => ?_, fun h => ?_⟩
      · rw [hguards.guard]
        exact ⟨rfl, rfl, rfl, rfl, htrips hviews hacts⟩
      · rw [hop] at h; cases h
      · rw [hop] at h; cases h
      · rcases h with ⟨h, -⟩ | ⟨-, h⟩
        · rw [h] at hst; rcases hst with hst | hst <;> cases hst
        · rw [hop] at h; cases h
    by_cases hsettle : x.state = .tripped ∧ opens = false
    · obtain ⟨hst, hop⟩ := hsettle
      rw [guardTakes_tripped (hrstate.trans hst) (hropen.trans hop)]
      by_cases hms : x.record.clearTime = 0
      · obtain ⟨y, hguards, h1, h2, h3, h4, h5, h6⟩ := settleGuard_goes r g .input (by rw [hrrecord]; exact hms)
        rw [hg1] at h1 h2 h3 h5 h6
        refine ⟨_, rfl, hafter hguards h1 h2 h3 ?_, fun h => absurd (h.symm.trans hst) (by decide), fun _ h => ?_, fun _ _ h => absurd hms h,
          fun _ _ _ => ?_, fun h => ?_⟩
        · rw [h5]; split <;> rfl
        · rw [hop] at h; cases h
        · rw [hguards.guard]
          exact ⟨h4, h6⟩
        · rw [hst, hop] at h; rcases h with ⟨-, h⟩ | ⟨h, -⟩
          · cases h
          · exact absurd rfl h
      · have htold := settleGuard_waits r g .input (by rw [hrrecord]; exact hms)
        have hguards := (Part.Guards.setGuard r g _).told htold
        rw [hg1] at hguards
        refine ⟨_, rfl, hafter hguards rfl rfl rfl rfl, fun h => absurd (h.symm.trans hst) (by decide), fun _ h => ?_, fun _ _ _ => ?_,
          fun _ _ h => absurd h hms, fun h => ?_⟩
        · rw [hop] at h; cases h
        · rw [hguards.guard]
          refine ⟨rfl, by rw [htime]; rfl, rfl, fun c => ?_⟩
          exact Channel.eq_of_view ((view_told htold c).trans (hviews c))
        · rw [hst, hop] at h; rcases h with ⟨-, h⟩ | ⟨h, -⟩
          · cases h
          · exact absurd rfl h
    · have hstays : x.state = .tripped ∧ opens = true ∨ x.state ≠ .tripped ∧ opens = false := by
        cases hop : opens
        · exact .inr ⟨fun h => hsettle ⟨h, hop⟩, rfl⟩
        · refine .inl ⟨?_, rfl⟩
          cases hst : x.state
          case tripped => rfl
          case clear => exact absurd ⟨hst, hop⟩ htrip
          case settling => exact absurd ⟨.inl hst, hop⟩ hreturn
          case awaitAck => exact absurd ⟨.inr hst, hop⟩ hreturn
      have hend : after r := hafter ⟨(Part.Working.refl r).guardWork, hg1, fun _ _ => rfl⟩ rfl rfl rfl rfl
      rw [guardTakes_stays (by rw [hrstate, hropen]; exact hstays)]
      rw [hset] at hend ⊢
      refine ⟨_, rfl, hend, fun h1 h2 => absurd ⟨h1, h2⟩ htrip, fun h1 h2 => absurd ⟨h1, h2⟩ hreturn, fun h1 h2 => absurd ⟨h1, h2⟩ hsettle,
        fun h1 h2 => absurd ⟨h1, h2⟩ hsettle, fun _ => rfl⟩
  · obtain ⟨hp', -⟩ := Part.comesDue_eq hcome
    have hg : p'.guard g = x := by rw [hp']; rfl
    rw [exec_clearTimerExpiry hs hdue hcome]
    by_cases hawait : x.record.attended = true ∧ x.acked = false
    · obtain ⟨ha, hn⟩ := hawait
      have htold := clearExpire_awaits p' g (by rw [hg]; exact ha) (by rw [hg]; exact hn)
      have hguards := (Part.Guards.setGuard p' g _).told htold
      refine ⟨_, rfl, hguards.work.onlyWork, hguards.work.lines.trans (by rw [hp']), hguards.work.inputs.trans (by rw [hp']),
        fun k hk => (hguards.others k hk).trans (by rw [hp']; rfl), fun _ _ => ⟨hguards.guard.trans (by rw [hg]), fun c => ?_⟩, fun h => ?_⟩
      · exact Channel.eq_of_view (view_told htold c)
      · rw [ha, hn] at h; rcases h with h | h <;> cases h
    · have hclears : x.record.attended = false ∨ x.acked = true := by
        cases ha : x.record.attended with
        | false => exact .inl rfl
        | true => exact .inr (Bool.eq_true_of_not_eq_false fun hn => hawait ⟨ha, hn⟩)
      obtain ⟨hguards, hchans⟩ := clearExpire_clears p' g (by rw [hg]; exact hclears)
      refine ⟨_, rfl, hguards.work.onlyWork, hguards.work.lines.trans (by rw [hp']), hguards.work.inputs.trans (by rw [hp']),
        fun k hk => (hguards.others k hk).trans (by rw [hp']; rfl), fun ha hn => absurd ⟨ha, hn⟩ hawait,
        fun _ => ⟨hguards.guard.trans (by rw [hg]; rfl), fun hmode c => ?_⟩⟩
      intro y z
      obtain ⟨hstays, hgoes⟩ := hchans c
      have hleaves : p'.leavesHeld g c ↔ x.record.mask.getLsbD c.val = true ∧ y.state = .held ∧ ∀ k, k ≠ g → p.covers k c = false := by
        have hcovers (k : Fin 8) : p'.covers k c = p.covers k c := by rw [hp']; rfl
        simp only [Part.leavesHeld, hg, hcovers]
        rfl
      have hwants : p'.wantsPark = false := wantsPark_of_quick (by rw [hp']; exact hmode)
      split
      · next h =>
        obtain ⟨w, hw⟩ := exists_of_view (hgoes hwants (hleaves.mpr h))
        rw [Channel.released_free] at hw
        have hz : z = _ := hw
        rw [hz]
        exact ⟨rfl, rfl, rfl, rfl, rfl, rfl⟩
      · next h => exact Channel.eq_of_view (hstays fun h' => h (hleaves.mp h'))

end Sys2Proof.Machine
end

