-- ==== Sys2Proof/Proofs/AckOrders.lean ====
section
/-! ACK orders (R109, R123, R124). -/

namespace Sys2Proof.Machine

section
variable {s : State} {p q r : Part} {l : Layout} {t : Taking} {n : Nat} {i : Fin 32} {e : Entry} {g : Fin 8}

/-! ### The board -/

/-- An entry that is not HELD is acknowledged where the journal has room: OPEN becomes HELD, and LAPSED leaves the board (R123). -/
theorem ackBoard_room (h : p.room l (13 + n)) (i : Fin 32) (hs : e.state ≠ .held) : (p.ackBoard i e).room l n
    ∧ (p.ackBoard i e).board = if e.state = .opened then
        p.board.change i { e with state := .held, escalated := false, last := p.time } else p.board.drop i true := by
  have hplaced (b : Board) (e' : Entry) (state : Nat) (o : Bool) :
      ((p.changeBoard b i true).hand (alertRecord (some i) .acked e' state o (p.changeBoard b i true).time)).room l n
      ∧ ((p.changeBoard b i true).hand (alertRecord (some i) .acked e' state o (p.changeBoard b i true).time)).board = b := by
    obtain ⟨hroom, hboard, -⟩ := changeBoard_room h b i true
    generalize p.changeBoard b i true = q at hroom hboard
    rw [hand_room (n := n) hroom]
    obtain ⟨hroom', hboard', -⟩ := writeAlert_room (n := n) hroom (some i) .acked e' state o q.time
    exact ⟨hroom', hboard'.trans hboard⟩
  unfold Part.ackBoard
  split
  · next ho =>
    rw [if_pos ho]
    exact hplaced _ _ _ _
  · next hl =>
    rw [if_neg (by rw [hl]; decide)]
    exact hplaced _ _ _ _
  · next hh => exact absurd hh hs

/-! ### The guard that is told -/

/-- A guard whose trip is acknowledged (R109). -/
def Guard.acknowledged (x : Guard) (now : Time) : Guard :=
  if x.state = .clear then x else if x.state = .awaitAck then x.cleared now else { x with acked := true }

theorem ackGuard_clear (h : (p.guard g).state = .clear) : p.ackGuard g = p := by rw [Part.ackGuard, h]

theorem ackGuard_awaiting (h : (p.guard g).state = .awaitAck) :
    p.ackGuard g = (p.modGuard g (fun x => { x with acked := true })).guardClear g .ack := by rw [Part.ackGuard, h]

theorem ackGuard_flags (h1 : (p.guard g).state ≠ .clear) (h2 : (p.guard g).state ≠ .awaitAck) :
    p.ackGuard g = p.setGuard g { p.guard g with acked := true } := by
  unfold Part.ackGuard
  split
  · next h => exact absurd h h1
  · next h => exact absurd h h2
  · rfl

theorem ackGuard_guards (p : Part) (g : Fin 8) : p.Guards g ((p.guard g).acknowledged p.time) (p.ackGuard g) := by
  unfold Guard.acknowledged
  split
  · next h =>
    rw [ackGuard_clear h]
    exact ⟨(Part.Working.refl p).guardWork, rfl, fun _ _ => rfl⟩
  · next h1 =>
    split
    · next h2 =>
      rw [ackGuard_awaiting h2]
      obtain ⟨hclear, -⟩ := guardClear_spec (p.modGuard g fun x => { x with acked := true }) g .ack
      have hend := (Part.Guards.setGuard p g { p.guard g with acked := true }).trans hclear
      refine ⟨hend.work, hend.guard.trans ?_, hend.others⟩
      rw [Part.modGuard, Part.setGuard_guard_self]
      rfl
    · next h2 =>
      rw [ackGuard_flags h1 h2]
      exact .setGuard p g _

/-- The guard of a GUARD_TRIP entry. -/
def Entry.tells (e : Entry) (g : Fin 8) : Prop := e.code = .guardTrip ∧ e.source = .guard g

theorem ackEntry_tells (h : e.tells g) (p : Part) (i : Fin 32) : p.ackEntry i e = (p.ackBoard i e).ackGuard g := by
  obtain ⟨hcode, hsrc⟩ := h
  rw [Part.ackEntry, hcode, hsrc]

theorem ackEntry_quiet (h : ∀ g, ¬ e.tells g) (p : Part) (i : Fin 32) : p.ackEntry i e = p.ackBoard i e := by
  unfold Part.ackEntry
  dsimp only
  split
  · next hcode hsrc => exact absurd ⟨hcode, hsrc⟩ (h _)
  · rfl

/-- An acknowledged entry's guard takes the acknowledgement, and no other guard changes (R109, R123). -/
theorem ackEntry_guards (p : Part) (i : Fin 32) (e : Entry) : p.GuardWork (p.ackEntry i e)
    ∧ ∀ k, (e.tells k → (p.ackEntry i e).guard k = (p.guard k).acknowledged p.time) ∧ (¬ e.tells k → (p.ackEntry i e).guard k = p.guard k) := by
  have htold := told_ackBoard p i e
  by_cases h : ∃ g, e.tells g
  · obtain ⟨g, hg⟩ := h
    have hguards := ackGuard_guards (p.ackBoard i e) g
    rw [ackEntry_tells hg]
    refine ⟨htold.guardWork.trans hguards.work, fun k => ⟨fun hk => ?_, fun hk => ?_⟩⟩
    · obtain rfl : g = k := by
        obtain ⟨-, hsrc⟩ := hg
        obtain ⟨-, hsrc'⟩ := hk
        exact Source.guard.inj (hsrc.symm.trans hsrc')
      rw [hguards.guard, htold.guard, htold.time]
    · exact (hguards.others k fun he => hk (he ▸ hg)).trans (htold.guard k)
  · have hnone : ∀ g, ¬ e.tells g := not_exists.mp h
    rw [ackEntry_quiet hnone]
    exact ⟨htold.guardWork, fun k => ⟨fun hk => absurd hk (hnone k), fun _ => htold.guard k⟩⟩

/-- Where no guard becomes CLEAR, an acknowledgement is its board's change and a flag of a guard. -/
theorem ackEntry_flags (h : ∀ g, e.tells g → (p.guard g).state ≠ .awaitAck) (i : Fin 32) :
    ∃ gs, p.ackEntry i e = (p.ackBoard i e).setGuards gs := by
  have htold := told_ackBoard p i e
  by_cases hg : ∃ g, e.tells g
  · obtain ⟨g, hg⟩ := hg
    rw [ackEntry_tells hg]
    by_cases hclear : ((p.ackBoard i e).guard g).state = .clear
    · exact ⟨(p.ackBoard i e).guards, ackGuard_clear hclear⟩
    · exact ⟨_, ackGuard_flags hclear (by rw [htold.guard]; exact h g hg)⟩
  · rw [ackEntry_quiet (not_exists.mp hg)]
    exact ⟨(p.ackBoard i e).guards, rfl⟩

/-- A relation that the operations on the channels and a change of a guard keep, an acknowledgement keeps. -/
theorem ChannelSteps.guardClear {R : Part → Part → Prop} (h : ChannelSteps R) (hg : ∀ (p : Part) g x, R p (p.setGuard g x)) (p : Part)
    (g : Fin 8) (cause : GuardCause) : R p (p.guardClear g cause) := by
  unfold Part.guardClear
  dsimp only
  have hbegin := h.trans (h.trans (hg p g _) (h.told (modEnter_told p g (fun x => { x with
    clearDue := none, filterDue := x.filterAtClear p.time }) .clear cause))) (h.told (told_condEnd _ .guardTrip (.guard g)))
  exact h.trans (h.trans hbegin (h.fold _ (fun q c => h.leaveHeld q) _ _)) (hg _ g _)

theorem ChannelSteps.ackGuard {R : Part → Part → Prop} (h : ChannelSteps R) (hg : ∀ (p : Part) g x, R p (p.setGuard g x)) (p : Part)
    (g : Fin 8) : R p (p.ackGuard g) := by
  unfold Part.ackGuard
  split
  · exact h.refl p
  · exact h.trans (hg p g _) (h.guardClear hg _ g .ack)
  · exact hg p g _

theorem ChannelSteps.ackEntry {R : Part → Part → Prop} (h : ChannelSteps R) (hg : ∀ (p : Part) g x, R p (p.setGuard g x)) (p : Part)
    (i : Fin 32) (e : Entry) : R p (p.ackEntry i e) := by
  have hboard := h.told (told_ackBoard p i e)
  unfold Part.ackEntry
  dsimp only
  split
  · exact h.trans hboard (h.ackGuard hg _ _)
  · exact hboard

/-! ### The order -/

theorem exec_ack (h : s.part.serving l .ack t) : exec .ack s = .next (s.setPart (s.part.ackOrder t)) :=
  congrArg (done s) (withTaking_of_serving h rfl Part.ackOrder)

theorem ackOrder_beyond (p : Part) (h : 32 ≤ t.w3.toNat) : p.ackOrder t = p.refuse t.slot .badOperand 0 := if_pos h

theorem ackOrder_noAlert (hi : i.val = t.w3.toNat) (h : ∀ e, p.board.entries[i] = some e → e.code.code ≠ t.w4.toNat) :
    p.ackOrder t = p.refuse t.slot .noAlert 0 := by
  have hlt : t.w3.toNat < 32 := hi ▸ i.isLt
  obtain rfl : i = Fin.ofNat 32 t.w3.toNat := Fin.ext (hi.trans (Nat.mod_eq_of_lt hlt).symm)
  unfold Part.ackOrder
  rw [if_neg (by omega)]
  dsimp only
  split
  · rfl
  · next e he => exact if_pos (h e he)

theorem ackOrder_entry (hi : i.val = t.w3.toNat) (he : p.board.entries[i] = some e) (hcode : e.code.code = t.w4.toNat) :
    p.ackOrder t = if e.unacked then ((p.ackEntry i e).endTake t.slot .complete 1).restNotice else p.endTake t.slot .complete 0 := by
  have hlt : t.w3.toNat < 32 := hi ▸ i.isLt
  obtain rfl : i = Fin.ofNat 32 t.w3.toNat := Fin.ext (hi.trans (Nat.mod_eq_of_lt hlt).symm)
  unfold Part.ackOrder
  rw [if_neg (by omega)]
  dsimp only
  rw [he]
  exact if_neg (not_not.mpr hcode)

theorem writes_restNotice (p : Part) : p.Writes p.restNotice := by
  unfold Part.restNotice
  split <;> rfl

end

/-- Settles O45: the order is refused, or finds the entry HELD, or acknowledges it and tells the guard of a GUARD_TRIP. -/
theorem ackOrder : Obligations.AckOrder := by
  unfold Obligations.AckOrder
  intro s l t hserving hm
  have ⟨_, _, _, hslot⟩ := hserving
  rw [exec_ack hserving]
  obtain ⟨hbad, hbadTaking, hbadOnly⟩ := refuse_ends hslot hm .badOperand 0
  obtain ⟨hnone, hnoneTaking, hnoneOnly⟩ := refuse_ends hslot hm .noAlert 0
  obtain ⟨hheld, hheldTaking, hheldOnly⟩ := endTake_ends hslot hm .complete 0
  have hframe {q : Part} (h : s.part.OnlyOrders q) : s.part.OnlyWork q ∧ q.lines = s.part.lines ∧ q.inputs = s.part.inputs :=
    ⟨h.onlyWork, (h 0).lines, (h 0).inputs⟩
  by_cases hbeyond : 32 ≤ t.w3.toNat
  · rw [ackOrder_beyond _ hbeyond]
    obtain ⟨hwork, hlines, hinputs⟩ := hframe hbadOnly
    exact ⟨_, rfl, hbadTaking, hwork, hlines, hinputs, fun _ => ⟨hbad, hbadOnly⟩, fun i hi => absurd i.isLt (by omega)⟩
  obtain ⟨i, hi⟩ : ∃ i : Fin 32, i.val = t.w3.toNat := ⟨⟨t.w3.toNat, by omega⟩, rfl⟩
  by_cases hentry : ∀ e, s.part.board.entries[i] = some e → e.code.code ≠ t.w4.toNat
  · rw [ackOrder_noAlert hi hentry]
    obtain ⟨hwork, hlines, hinputs⟩ := hframe hnoneOnly
    refine ⟨_, rfl, hnoneTaking, hwork, hlines, hinputs, fun h => absurd h hbeyond, fun j hj => ?_⟩
    obtain rfl : i = j := Fin.ext (hi.trans hj.symm)
    exact ⟨fun _ => ⟨hnone, hnoneOnly⟩, fun e he hcode => absurd hcode (hentry e he)⟩
  push Not at hentry
  obtain ⟨e, he, hcode⟩ := hentry
  rw [ackOrder_entry hi he hcode]
  by_cases hs : e.state = .held
  · rw [if_neg (by rw [Entry.unacked_iff]; exact not_not.mpr hs)]
    obtain ⟨hwork, hlines, hinputs⟩ := hframe hheldOnly
    refine ⟨_, rfl, hheldTaking, hwork, hlines, hinputs, fun h => absurd h hbeyond, fun j hj => ?_⟩
    obtain rfl : i = j := Fin.ext (hi.trans hj.symm)
    refine ⟨fun h => absurd hcode (h e he), fun e' he' _ => ?_⟩
    obtain rfl : e = e' := Option.some.inj (he.symm.trans he')
    exact ⟨fun _ => ⟨hheld, hheldOnly⟩, fun h => absurd hs h⟩
  rw [if_pos ((Entry.unacked_iff e).mpr hs)]
  obtain ⟨hwork, hguards⟩ := ackEntry_guards s.part i e
  have hkept : (s.part.ackEntry i e).hasSlot l t.slot := (slotsKept.ackEntry (fun _ _ _ => ⟨rfl, rfl⟩) s.part i e).hasSlot hslot
  obtain ⟨hshows, htaking, honly⟩ := endTake_ends hkept (hwork.wf hm) .complete 1
  have hnotice := told_restNotice ((s.part.ackEntry i e).endTake t.slot .complete 1)
  have hend : s.part.OnlyWork ((s.part.ackEntry i e).endTake t.slot .complete 1).restNotice :=
    (hwork.onlyWork.trans honly.onlyWork).trans hnotice.onlyWork
  have hguard (k : Fin 8) : ((s.part.ackEntry i e).endTake t.slot .complete 1).restNotice.guard k = (s.part.ackEntry i e).guard k :=
    (hnotice.guard k).trans ((honly 0).working.guard k)
  refine ⟨_, rfl, by rw [hnotice.orders]; exact htaking, hend, (hnotice.lines.trans (honly 0).lines).trans hwork.lines,
    (hnotice.inputs.trans (honly 0).inputs).trans hwork.inputs, fun h => absurd h hbeyond, fun j hj => ?_⟩
  obtain rfl : i = j := Fin.ext (hi.trans hj.symm)
  refine ⟨fun h => absurd hcode (h e he), fun e' he' _ => ?_⟩
  obtain rfl : e = e' := Option.some.inj (he.symm.trans he')
  refine ⟨fun h => absurd h hs, fun _ => ⟨?_, fun k => ?_, fun hflags => ⟨fun c => ?_, fun hroom => ?_⟩⟩⟩
  · exact hshows.told ((slotsKept.report (s.part.ackEntry i e).takePlaced t.slot _ _ _).hasSlot hkept) hnotice
  · rw [hguard]
    obtain ⟨htells, hquiet⟩ := hguards k
    split
    · next hk =>
      rw [htells hk]
      cases hst : (s.part.guard k).state <;> simp only [Guard.acknowledged, hst] <;> rfl
    · next hk => exact hquiet hk
  · obtain ⟨gs, hflag⟩ := ackEntry_flags (p := s.part) (fun g hg => hflags g hg.1 hg.2) i
    have hview : ((s.part.ackEntry i e).chan c).view = (s.part.chan c).view := by
      rw [hflag]
      exact view_told (told_ackBoard s.part i e) c
    exact Channel.eq_of_view ((view_told hnotice c).trans ((view_endTake _ _ _ _ c).trans hview))
  · obtain ⟨gs, hflag⟩ := ackEntry_flags (p := s.part) (fun g hg => hflags g hg.1 hg.2) i
    obtain ⟨hroom', hboard⟩ := ackBoard_room (n := 13 + 2) hroom i hs
    have hroom'' : (s.part.ackEntry i e).room l (13 + 2) := by
      rw [hflag]
      exact hroom'
    have hboard' : (s.part.ackEntry i e).board = (s.part.ackBoard i e).board := by
      rw [hflag]
      rfl
    obtain ⟨-, hend, -⟩ := endTake_room hroom'' t.slot .complete 1
    rw [(writes_restNotice _).board, hend, hboard', hboard]
    split
    · rfl
    · simp [Board.drop]

end Sys2Proof.Machine
end

