-- ==== Sys2Proof/Proofs/ModeChanges.lean ====
section
/-! The mode controller takes a request (R135 to R141): what a change of mode makes of each channel. -/

namespace Sys2Proof.Machine

/-! ### What every operation on the channels keeps, a change of mode keeps -/

section
variable {R : Part → Part → Prop} (h : ChannelSteps R) {c : Fin 8}
include h

theorem ChannelSteps.emptyQueue (p : Part) : R p (p.emptyQueue c) := h.trans (h.supersedeQueue p) (h.commit _ _ _ _ _)

theorem ChannelSteps.unpark (p : Part) : R p (p.unpark c) := by
  unfold Part.unpark
  exact Part.rel_ite (h.committed _ _ _ _ _ _ _) (h.refl p)

theorem ChannelSteps.intoRest (p : Part) : R p (p.intoRest c) := by
  unfold Part.intoRest
  split
  · exact Part.rel_ite (h.emptyQueue p) (h.controlledStop p _)
  · exact h.emptyQueue p
  · exact h.controlledStop p _
  · exact h.modePark p
  all_goals exact h.emptyQueue p

theorem ChannelSteps.intoOpen (p : Part) : R p (p.intoOpen c) := by
  unfold Part.intoOpen
  split
  · exact h.unpark p
  · exact Part.rel_ite (h.controlledStop p _) (h.refl p)
  · exact Part.rel_ite (h.controlledStop p _) (h.refl p)
  · exact h.refl p

theorem ChannelSteps.aboutService (n : Mode) (p : Part) : R p (p.aboutService n c) := by
  have hstop := h.controlledStop (c := c) p .superseded
  unfold Part.aboutService
  dsimp only
  split
  · exact h.trans hstop (h.unpark _)
  · exact h.trans hstop (h.modePark _)
  · exact h.trans hstop (h.modePark _)
  · exact hstop

theorem ChannelSteps.channelChange (m n : Mode) (p : Part) : R p (p.channelChange m n c) := by
  unfold Part.channelChange
  split
  · exact h.aboutService _ p
  · exact h.aboutService _ p
  · exact h.intoOpen p
  · exact h.intoRest p
  · exact h.intoRest p

end

section
variable {p q r : Part} {c : Fin 8} {m n : Mode}

theorem near_emptyQueue (p : Part) : p.Near c (p.emptyQueue c) := (near_supersedeQueue p).trans (near_commit _ _ _ _ _)

theorem near_unpark (p : Part) : p.Near c (p.unpark c) :=
  .ite ((near_setChan p _ (by rfl) (by rfl) (by exact Nat.le_refl _)).trans (near_commit _ _ _ _ _)) (.refl p)

theorem near_intoRest (p : Part) : p.Near c (p.intoRest c) := by
  unfold Part.intoRest
  split
  · exact .ite (near_emptyQueue p) (near_controlledStop p _)
  · exact near_emptyQueue p
  · exact near_controlledStop p _
  · exact near_modePark p
  all_goals exact near_emptyQueue p

theorem near_intoOpen (p : Part) : p.Near c (p.intoOpen c) := by
  unfold Part.intoOpen
  split
  · exact near_unpark p
  · exact .ite (near_controlledStop p _) (.refl p)
  · exact .ite (near_controlledStop p _) (.refl p)
  · exact .refl p

theorem near_aboutService (n : Mode) (p : Part) : p.Near c (p.aboutService n c) := by
  have hstop := near_controlledStop (c := c) p .superseded
  unfold Part.aboutService
  dsimp only
  split
  · exact hstop.trans (near_unpark _)
  · exact hstop.trans (near_modePark _)
  · exact hstop.trans (near_modePark _)
  · exact hstop

theorem near_channelChange (m n : Mode) (p : Part) : p.Near c (p.channelChange m n c) := by
  unfold Part.channelChange
  split
  · exact near_aboutService _ p
  · exact near_aboutService _ p
  · exact near_intoOpen p
  · exact near_intoRest p
  · exact near_intoRest p

/-! ### One channel's change (R138 to R141) -/

theorem channelChange_rest (hn : n = .rest ∨ n = .closed) (hm : m ≠ .service) : p.channelChange m n c = p.intoRest c := by
  cases m
  case service => exact absurd rfl hm
  all_goals rcases hn with rfl | rfl <;> rfl

theorem channelChange_open (hm : m ≠ .service) : p.channelChange m .opened c = p.intoOpen c := by
  cases m
  case service => exact absurd rfl hm
  all_goals rfl

theorem channelChange_service (h : m = .service ∨ n = .service) : p.channelChange m n c = p.aboutService n c := by
  rcases h with rfl | rfl
  · rfl
  · cases m <;> rfl

theorem view_emptyQueue (p : Part) (c : Fin 8) : ((p.emptyQueue c).chan c).view = (p.chan c).superseded.view := by
  rw [Part.emptyQueue, view_commit, view_supersedeQueue]

/-- A channel that a mode has parked is IDLE once the mode lets it go (R139). -/
theorem view_unpark (h : (p.chan c).state = .parked ∧ (p.chan c).parkCause = some .mode) :
    ((p.unpark c).chan c).view = { p.chan c with state := .idle, parkCause := none }.view := by
  unfold Part.unpark
  dsimp only
  rw [if_pos h, view_commit, Part.setChan_chan_self]

theorem unpark_stays (h : ¬ ((p.chan c).state = .parked ∧ (p.chan c).parkCause = some .mode)) : p.unpark c = p := if_neg h

theorem modePark_stays (h : (p.chan c).state ≠ .idle) : p.modePark c = p := by
  unfold Part.modePark
  split
  · rw [if_neg (fun hc => h hc.1)]
  · rfl

theorem Params.limit_within {pr : Params} {x : Int} (h1 : pr.softMin ≤ x) (h2 : x ≤ pr.softMax) : pr.limit x = x := by
  rw [Params.limit, min_eq_right h2, max_eq_right h1]

/-- The park of the mode controller on an IDLE channel with an empty queue: PARKED where it stands there, and else on its way (R141). -/
theorem view_modePark {pr : Params} (hs : (p.chan c).state = .idle) (hl : (p.chan c).lost = false) (hq : (p.chan c).queue = [])
    (hg : p.guarded c = false) (hrun : p.isRunning = true) (hw : p.wantsPark = true) (hp : (p.chan c).params = some pr)
    (h1 : pr.softMin ≤ pr.parkPosition) (h2 : pr.parkPosition ≤ pr.softMax) :
    if pr.parkPosition * 16777216 = (p.chan c).prof.p then
      ((p.modePark c).chan c).state = .parked ∧ ((p.modePark c).chan c).parkCause = some .mode ∧ ((p.modePark c).chan c).current = none
    else ((p.modePark c).chan c).state = .moving ∧ ((p.modePark c).chan c).prof.target = some (pr.parkPosition * 16777216)
      ∧ ((p.modePark c).chan c).current = some { kind := .park, source := .mode, target := .absolute pr.parkPosition, scale := 100 } := by
  have hgive : p.modePark c = p.giveMove c (modeParkMove pr) := by
    unfold Part.modePark
    rw [hp]
    exact if_pos ⟨hs, hl, hrun, hw⟩
  have hlimit : pr.limit ((modeParkMove pr).asked (p.chan c).s) = pr.parkPosition := Params.limit_within h1 h2
  rw [hgive, giveMove_aims hp (m := modeParkMove pr) nofun, hlimit]
  show if pr.parkPosition * Config.step = (p.chan c).prof.p then _ else _
  split
  · obtain ⟨y, hy⟩ : ∃ y, y = (p.chan c).moveBegun pr (modeParkMove pr) (p.modes.mode == .service) := ⟨_, rfl⟩
    rw [← hy]
    have harrives : y.prof.arrival = .complete := by
      have hclamped : y.prof.clamped = false := by
        rw [hy]
        exact decide_eq_false (not_not.mpr hlimit)
      rw [Profile.arrival, hclamped]
      rfl
    have hcurrent : y.current = some { modeParkMove pr with target := .absolute ((modeParkMove pr).asked (p.chan c).s) } := by rw [hy]; rfl
    have hparks : y.parks y.prof.arrival := ⟨harrives, _, hcurrent, rfl⟩
    have hview := view_ends (p := p.setChan c y) (c := c) (t := y.prof.arrival)
      (.inr (.inr ⟨by rw [Part.setChan_chan_self, hy]; exact hp ▸ rfl, .inr ⟨by rw [Part.setChan_chan_self, hy]; exact hq,
        .inr (by rw [Part.setChan_chan_self]; exact hparks)⟩⟩)) (4 * (p.chan c).queue.length + 6) (p.chan c)
    have hguard : (p.setChan c y).guarded c = false := hg
    rw [hguard, Part.setChan_chan_self] at hview
    obtain ⟨w, hw⟩ := exists_of_view hview
    have hrested : y.rested false y.prof.arrival = { y.finished with state := .parked, parkCause := some .mode } := by
      rw [Channel.rested, if_neg Bool.false_ne_true, if_neg (by rw [hy]; exact ne_true_of_eq_false hl), harrives, hcurrent]
      rfl
    rw [hw, hrested]
    exact ⟨rfl, rfl, by rw [Channel.finished_of_current hcurrent]⟩
  · obtain ⟨w, hw⟩ := exists_of_view ((view_commit (p.setChan c ((p.chan c).moveStarted pr (modeParkMove pr) (p.modes.mode == .service)))
      c (p.chan c) 0 true c).trans (by rw [Part.setChan_chan_self]))
    rw [hw]
    refine ⟨rfl, ?_, rfl⟩
    show some (pr.limit _ * Config.step) = _
    rw [hlimit]
    rfl

/-! ### The change of mode (R137) -/

theorem eachLine_setLines (f : Fin 4 → Part → Part) (hf : ∀ l (p : Part), ∃ x, f l p = p.setLine l x) (p : Part) :
    ∃ ls, p.eachLine f = p.setLines ls := by
  have hfold : ∀ (is : List (Fin 4)) (p : Part), ∃ ls, is.foldl (fun q l => f l q) p = p.setLines ls := by
    intro is
    induction is with
    | nil => exact fun p => ⟨p.lines, rfl⟩
    | cons i is ih =>
      intro p
      obtain ⟨x, hx⟩ := hf i p
      obtain ⟨ls, hls⟩ := ih (f i p)
      exact ⟨ls, by rw [List.foldl_cons, hls, hx]; rfl⟩
  exact hfold _ p

theorem endWait_setLine (l : Fin 4) (p : Part) : ∃ x, Part.endWait l p = p.setLine l x := by
  unfold Part.endWait
  split
  · split
    · rw [beginCycle_eq]
      split <;> exact ⟨_, rfl⟩
    · exact ⟨_, (p.setLine_self l).symm⟩
  · exact ⟨_, (p.setLine_self l).symm⟩

/-- A part whose mode has become `n`, before anything follows from it (R137 step 1). -/
def Part.inMode (p : Part) (n : Mode) : Part := p.setModes { p.modes with mode := n, settling := n == .rest || n == .closed }

/-- A change of mode: each channel takes its own, reports follow, and lines go on (R137). -/
theorem changeMode_spec (p : Part) (n : Mode) (cause : ModeCause) : ∃ r ls, p.changeMode n cause = r.setLines ls
    ∧ (p.inMode n).Working r ∧ p.SlotsKept r
    ∧ ∀ c, ∃ q, (p.inMode n).Working q ∧ (q.chan c).view = (p.chan c).view
        ∧ (r.chan c).view = ((q.channelChange p.modes.mode n c).chan c).view := by
  have hbegin : (p.inMode n).Told ((p.inMode n).writeModeNow.hand
      (modeRecord p.modes.mode n cause (n == .rest || n == .closed) (p.inMode n).writeModeNow.time)) :=
    (told_writeModeNow _).trans (told_hand _ _)
  have hslots : p.SlotsKept (p.inMode n) := ⟨rfl, rfl⟩
  unfold Part.changeMode
  dsimp only
  rw [← Part.inMode]
  generalize (p.inMode n).writeModeNow.hand _ = u at hbegin ⊢
  obtain ⟨hwork, hvisits⟩ := eachChannel_visits (Part.channelChange p.modes.mode n) (fun d q => near_channelChange _ _ q) u
  have hend : (u.eachChannel (Part.channelChange p.modes.mode n)).Told
      (u.eachChannel (Part.channelChange p.modes.mode n)).settleExam.restEval := (told_settleExam _).trans (told_restEval _)
  obtain ⟨ls, hls⟩ := eachLine_setLines Part.endWait endWait_setLine (u.eachChannel (Part.channelChange p.modes.mode n)).settleExam.restEval
  refine ⟨_, ls, hls, (hbegin.working.trans hwork).trans hend.working, ?_, fun c => ?_⟩
  · exact slotsKept.trans (slotsKept.trans (slotsKept.trans hslots (slotsKept.told hbegin))
      (slotsKept.fold _ (fun q c => slotsKept.channelChange _ _ q) _ _)) (slotsKept.told hend)
  · obtain ⟨q, hq, hview, hgoes⟩ := hvisits c
    exact ⟨q, hbegin.working.trans hq, hview.trans (view_told hbegin c), (view_told hend c).trans hgoes⟩

/-! ### What becomes of a channel, by its state -/

/-- The current move is a PARK of the mode controller. -/
def Channel.onModePark (x : Channel) : Prop := ∃ mv, x.current = some mv ∧ mv.kind = .park ∧ mv.source = .mode

theorem Channel.modeParking_iff (x : Channel) : x.modeParking = true ↔ x.onModePark := by
  unfold Channel.modeParking Channel.onModePark
  cases x.current <;> simp

/-- A moving channel that the change does not let go on begins its stop, SUPERSEDED (R138 to R140). -/
theorem view_change_stops (hs : (p.chan c).state = .moving) (h : m = .service ∨ n = .service ∨ (n = .rest ∨ n = .closed) ∧ ¬ (p.chan c).onModePark
    ∨ n = .opened ∧ (p.chan c).onModePark) :
    ((p.channelChange m n c).chan c).view = ((p.chan c).superseded.stopBegun .superseded).view := by
  have hstop := view_controlledStop_moving hs .superseded
  have hstopping : ((p.controlledStop c .superseded).chan c).state = .stopping := state_of_view hstop
  by_cases hservice : m = .service ∨ n = .service
  · rw [channelChange_service hservice]
    unfold Part.aboutService
    dsimp only
    split
    · rw [unpark_stays (by rw [hstopping]; exact fun h => nomatch h.1)]; exact hstop
    · rw [modePark_stays (by rw [hstopping]; decide)]; exact hstop
    · rw [modePark_stays (by rw [hstopping]; decide)]; exact hstop
    · exact hstop
  · obtain ⟨hm, hn⟩ := not_or.mp hservice
    rcases h with h | h | ⟨h, hpark⟩ | ⟨rfl, hpark⟩
    · exact absurd h hm
    · exact absurd h hn
    · rw [channelChange_rest h hm, Part.intoRest, hs]
      dsimp only
      rw [if_neg (by rw [Channel.modeParking_iff]; exact hpark)]
      exact hstop
    · rw [channelChange_open hm, Part.intoOpen, hs]
      dsimp only
      rw [if_pos ((Channel.modeParking_iff _).mpr hpark)]
      exact hstop

/-- Into REST or CLOSED a channel that is not to be parked or stopped loses its queue (R138). -/
theorem view_change_empties (hn : n = .rest ∨ n = .closed) (hm : m ≠ .service)
    (h : (p.chan c).state = .moving ∧ (p.chan c).onModePark ∨ (p.chan c).state = .homing ∨ (p.chan c).state = .parked
      ∨ (p.chan c).state = .unhomed ∨ (p.chan c).state = .held ∨ (p.chan c).state = .fault) :
    ((p.channelChange m n c).chan c).view = (p.chan c).superseded.view := by
  rw [channelChange_rest hn hm]
  unfold Part.intoRest
  rcases h with ⟨hs, hpark⟩ | hs | hs | hs | hs | hs <;> rw [hs] <;> dsimp only
  case inl =>
    rw [if_pos ((Channel.modeParking_iff _).mpr hpark)]
    exact view_emptyQueue p c
  all_goals exact view_emptyQueue p c

/-- Into OPEN a channel that the mode parked becomes IDLE (R139). -/
theorem view_change_unparks (hs : (p.chan c).state = .parked) (hk : (p.chan c).parkCause = some .mode) :
    ((p.channelChange m .opened c).chan c).state = .idle ∧ ((p.channelChange m .opened c).chan c).parkCause = none := by
  have hfree {q : Part} (h1 : (q.chan c).state = .parked) (h2 : (q.chan c).parkCause = some .mode) :
      ((q.unpark c).chan c).state = .idle ∧ ((q.unpark c).chan c).parkCause = none := by
    obtain ⟨w, hw⟩ := exists_of_view (view_unpark ⟨h1, h2⟩)
    rw [hw]
    exact ⟨rfl, rfl⟩
  by_cases hm : m = .service
  · rw [channelChange_service (.inl hm)]
    obtain ⟨w, hw⟩ := exists_of_view (view_controlledStop_still (p := p) (c := c) (by rw [hs]; rfl) .superseded)
    exact hfree (by rw [hw]; exact hs) (by rw [hw]; exact hk)
  · rw [channelChange_open hm, Part.intoOpen, hs]
    exact hfree hs hk

/-- Into OPEN out of REST or CLOSED any other channel that is not stopping stays (R139). -/
theorem change_open_stays (hm : m ≠ .service) (h1 : (p.chan c).state ≠ .stopping)
    (h2 : ¬ ((p.chan c).state = .parked ∧ (p.chan c).parkCause = some .mode))
    (h3 : ¬ ((p.chan c).state = .moving ∧ (p.chan c).onModePark)) : p.channelChange m .opened c = p := by
  rw [channelChange_open hm]
  unfold Part.intoOpen
  split
  · exact unpark_stays h2
  · next hs => exact if_neg fun hpark => h3 ⟨hs, (Channel.modeParking_iff _).mp hpark⟩
  · next hs => exact absurd hs h1
  · rfl

/-! ### The request (R135, R136) -/

theorem exec_modeRequest {s : State} {r : ModeRequest} {rest : List ModeRequest} (ha : s.part.active = true)
    (h : s.part.modes.requests = r :: rest) :
    exec .modeRequest s = .next (s.setPart ((s.part.setModes { s.part.modes with requests := rest }).takeRequest r)) := by
  show done s _ = _
  rw [h]
  dsimp only
  rw [if_pos ha]
  rfl

theorem Part.OnlyOrders.refl (p : Part) : p.OnlyOrders p := fun _ => Part.Near.refl p

/-- The end of the order that asked leaves everything but its own report (R136). -/
theorem requestDone_onlyOrders (p : Part) (r : ModeRequest) (b : Bool) : p.OnlyOrders (p.requestDone r b) := by
  unfold Part.requestDone
  split
  · split
    · exact Part.onlyOrders_of_near (o := { p.orders with taking := none }) fun _ => near_report _ _ _ _ _
    · exact .refl p
  · exact .refl p

theorem requestDone_quiet {r : ModeRequest} (h : ∀ slot, r.cause ≠ .order slot) (p : Part) (b : Bool) : p.requestDone r b = p := by
  unfold Part.requestDone
  split
  · next hc _ => exact absurd hc (h _)
  · rfl

theorem requestDone_ends {r : ModeRequest} {t : Taking} (hc : r.cause = .order t.slot) (ht : p.orders.taking = some t) (ha : t.asked = true)
    (b : Bool) : p.requestDone r b = p.endTake t.slot .complete (if b then 1 else 0) := by
  unfold Part.requestDone
  rw [hc, ht]
  exact if_pos ⟨rfl, ha⟩

theorem view_onlyOrders (h : p.OnlyOrders q) (c : Fin 8) : (q.chan c).view = (p.chan c).view := view_nearAll h c

theorem requestActs_iff (p : Part) (r : ModeRequest) : p.requestActs r = true ↔ p.run.state = .running ∧ r.mode ≠ p.modes.mode
    ∧ (r.cause = .wake → p.modes.mode = .rest) ∧ (r.cause = .restTimer → p.restOk = true)
    ∧ (r.cause = .silent → p.silentRest = true ∧ p.modes.mode = .opened) := by
  unfold Part.requestActs Part.stillHolds
  cases r.cause <;> simp [Part.isRunning, and_assoc]

end

/-- Settles O44: a request that acts changes the mode and each channel by its state; one that does not changes nothing; the order that
asked ends. -/
theorem modeRequestTaken : Obligations.ModeRequestTaken := by
  unfold Obligations.ModeRequestTaken
  intro s r rest hactive hrequests hm m parks acts
  obtain ⟨p, hp⟩ : ∃ p, p = s.part.setModes { s.part.modes with requests := rest } := ⟨_, rfl⟩
  rw [exec_modeRequest hactive hrequests, ← hp]
  have hwork : s.part.OnlyWork (p.takeRequest r) := by
    rw [hp]
    exact ((calm_setModes (f := id) s.part _).trans (calm_takeRequest _ r)).onlyWork
  have hwf : Memory.wf p.mem := by rw [hp]; exact hm
  have hacts : p.requestActs r = true ↔ acts := by
    rw [requestActs_iff, hp]
    exact Iff.rfl
  have hchan (c : Fin 8) : p.chan c = s.part.chan c := by rw [hp]; rfl
  by_cases ha : acts
  · obtain ⟨u, ls, hu, hworking, hkept, hvisits⟩ := changeMode_spec p r.mode r.cause
    have htake : p.takeRequest r = (u.setLines ls).requestDone r true := by
      rw [Part.takeRequest, if_pos (hacts.mpr ha), hu]
    have honly := requestDone_onlyOrders (u.setLines ls) r true
    rw [htake] at hwork ⊢
    have hmodes : ((u.setLines ls).requestDone r true).modes = { p.modes with
        mode := r.mode, settling := ((u.setLines ls).requestDone r true).modes.settling
        restDue := ((u.setLines ls).requestDone r true).modes.restDue } := by
      have hnear := (honly 0).modes
      have hu' := hworking.modes
      have hset : ((u.setLines ls).setOrders ((u.setLines ls).requestDone r true).orders).modes = u.modes := rfl
      rw [hset, hu'] at hnear
      exact hnear
    refine ⟨_, rfl, hwork, by rw [hmodes, hp]; rfl, by rw [hmodes, if_pos ha], ?_, ?_, fun l t hc ht hasked hslot => ?_, fun h => absurd ha h,
      fun _ c => ?_⟩
    · exact (honly 0).inputs.trans (hworking.inputs.trans (by rw [hp]; rfl))
    · exact (honly 0).guards.trans (hworking.guards.trans (by rw [hp]; rfl))
    · have htaking : (u.setLines ls).orders.taking = some t := hworking.taking.trans (by rw [hp]; exact ht)
      have hslot' : (u.setLines ls).hasSlot l t.slot := hkept.hasSlot (by rw [hp]; exact hslot)
      rw [requestDone_ends hc htaking hasked, if_pos ha]
      obtain ⟨hshows, hnone, -⟩ := endTake_ends hslot' (hworking.mem hwf) .complete 1
      exact ⟨hshows, hnone⟩
    · intro x y modePark
      obtain ⟨q, hq, hview, hgoes⟩ := hvisits c
      rw [hchan] at hview
      have hmode : p.modes.mode = m := by rw [hp]; rfl
      rw [hmode] at hgoes
      have hy : y.view = ((q.channelChange m r.mode c).chan c).view := (view_onlyOrders honly c).trans hgoes
      obtain ⟨w, hw⟩ := exists_of_view hview
      have hstate : (q.chan c).state = x.state := state_of_view hview
      have hpark : (q.chan c).onModePark ↔ modePark := by rw [hw]; exact Iff.rfl
      have hqmode : q.modes.mode = r.mode := hq.mode
      have hqrun : q.isRunning = true := by
        rw [hq.isRunning, hp]
        exact beq_iff_eq.mpr ha.1
      refine ⟨fun hparks hms hs hl hqueue hg pr hpr h1 h2 => ?_, fun hs hstops => ?_, fun hparks hms hs => ?_, fun ho hs hk => ?_,
        fun ho hms h1 h2 h3 => ?_⟩
      · have hwants : q.wantsPark = true := by
          rw [Part.wantsPark, hqmode]
          rcases hparks with h | h <;> rw [h] <;> rfl
        have hguard : q.guarded c = false := by
          rw [hq.guarded, hp]
          exact guarded_eq_false hg
        have hend := view_modePark (p := q) (c := c) (hstate.trans hs) (by rw [hw]; exact hl) (by rw [hw]; exact hqueue) hguard hqrun hwants
          (by rw [hw]; exact hpr) h1 h2
        have hchange : q.channelChange m r.mode c = q.modePark c := by
          rw [channelChange_rest hparks hms, Part.intoRest, hstate.trans hs]
        rw [hchange] at hy
        obtain ⟨v, hv⟩ := exists_of_view hy
        rw [hw] at hend
        rw [hv]
        exact hend
      · have hend := view_change_stops (m := m) (n := r.mode) (hstate.trans hs) (by rw [hpark]; exact hstops)
        obtain ⟨v, hv⟩ := exists_of_view (hy.trans hend)
        rw [hv, hw]
        rfl
      · have hend := view_change_empties (p := q) (c := c) hparks hms (by rw [hpark, hstate]; exact hs)
        obtain ⟨v, hv⟩ := exists_of_view (hy.trans hend)
        rw [hv, hw]
        rfl
      · rw [ho] at hy
        obtain ⟨h1, h2⟩ := view_change_unparks (p := q) (c := c) (m := m) (hstate.trans hs) (by rw [hw]; exact hk)
        obtain ⟨v, hv⟩ := exists_of_view hy
        rw [hv]
        exact ⟨h1, h2⟩
      · rw [ho, change_open_stays hms (by rw [hstate]; exact h1) (by rw [hw]; exact h2) (by rw [hpark, hstate]; exact h3)] at hy
        exact Channel.eq_of_view (hy.trans hview)
  · have htake : p.takeRequest r = p.requestDone r false := by
      rw [Part.takeRequest, if_neg (fun h => ha (hacts.mp h))]
    have honly := requestDone_onlyOrders p r false
    rw [htake] at hwork ⊢
    have hmodes : (p.requestDone r false).modes = { p.modes with
        settling := (p.requestDone r false).modes.settling, restDue := (p.requestDone r false).modes.restDue } := (honly 0).modes
    refine ⟨_, rfl, hwork, by rw [hmodes, hp]; rfl, by rw [hmodes, if_neg ha, hp]; rfl, (honly 0).inputs.trans (by rw [hp]; rfl),
      (honly 0).guards.trans (by rw [hp]; rfl), fun l t hc ht hasked hslot => ?_, fun _ => ⟨fun c => ?_, fun hc => ?_⟩, fun h => absurd h ha⟩
    · rw [requestDone_ends hc (by rw [hp]; exact ht) hasked, if_neg ha]
      obtain ⟨hshows, hnone, -⟩ := endTake_ends (p := p) (l := l) (i := t.slot) (by rw [hp]; exact hslot) hwf .complete 0
      exact ⟨hshows, hnone⟩
    · exact Channel.eq_of_view ((view_onlyOrders honly c).trans (by rw [hchan]))
    · rw [requestDone_quiet hc, hp]
      rfl

end Sys2Proof.Machine
end

-- ==== Sys2Proof/Proofs/ChannelInputs.lean ====
-- ==== Sys2Proof/Proofs/ChannelInputs.lean ====
section
/-! Rules for the counted levels of a channel's inputs (R59): what each acts on (R68, R75, R76), the fault that stops a channel within a
tick (R85), and the refresh of a status record (R80). -/

namespace Sys2Proof.Machine

variable {p q u w : Part} {c : Fin 8}

/-! ### What a level acts on -/

/-- What an input that has become active acts on: FLT always, a limit switch in the direction of travel, LIMIT_LO and HOME on a search
(R68, R75, R76). -/
def Channel.actsOn (x : Channel) : ChannelPin → Prop
  | .flt => True
  | .limitHi => (x.state = .moving ∨ x.state = .stopping) ∧ x.heading = true
  | .limitLo => (x.state = .moving ∨ x.state = .stopping) ∧ x.heading = false ∨ x.state = .homing
  | .home => x.state = .homing

theorem inputActs_still {pin : ChannelPin} (h : ¬ (p.chan c).actsOn pin) : p.inputActs c pin = p := by
  unfold Part.inputActs
  dsimp only
  split
  · exact absurd trivial h
  · next hs => exact if_neg (fun hh => h ⟨.inl hs, hh⟩)
  · next hs => exact if_neg (fun hh => h ⟨.inr hs, hh⟩)
  · next hs => exact if_pos (by simpa using fun hh => h (.inl ⟨.inl hs, hh⟩))
  · next hs => exact if_pos (by simpa using fun hh => h (.inl ⟨.inr hs, hh⟩))
  · next hs => exact absurd (.inr hs) h
  · next hs => exact absurd hs h
  · rfl

theorem inputActs_limitHi (h : (p.chan c).state = .moving ∨ (p.chan c).state = .stopping) (hh : (p.chan c).heading = true) :
    p.inputActs c .limitHi = p.faultNow c .limit := by
  rcases h with h | h <;> simp only [Part.inputActs, h, hh, if_true]

theorem inputActs_limitLo (h : (p.chan c).state = .moving ∨ (p.chan c).state = .stopping) (hh : (p.chan c).heading = false) :
    p.inputActs c .limitLo = p.faultNow c .limit := by
  rcases h with h | h <;> simp only [Part.inputActs, h, hh, Bool.false_eq_true, if_false]

theorem inputActs_limitLo_homing (h : (p.chan c).state = .homing) : p.inputActs c .limitLo = p.faultNow c .homeFail := by
  simp only [Part.inputActs, h]

theorem inputActs_home (h : (p.chan c).state = .homing) : p.inputActs c .home = p.homeFound c := by
  simp only [Part.inputActs, h]

/-! ### A level counts -/

/-- The part once an input's new level counts, before anything acts on it. -/
def Part.pinned (p : Part) (c : Fin 8) (pin : ChannelPin) (level : Bool) : Part :=
  p.setChan c { p.chan c with pins := (p.chan c).pins.put pin level }

theorem pinned_chan (p : Part) (c : Fin 8) (pin : ChannelPin) (level : Bool) :
    (p.pinned c pin level).chan c = { p.chan c with pins := (p.chan c).pins.put pin level } := by
  rw [Part.pinned, Part.setChan_chan_self]

theorem inputChange_same {pin : ChannelPin} {level : Bool} (h : (p.chan c).pins.get pin = level) : p.inputChange c pin level = p := by
  rw [Part.inputChange]
  exact if_pos h

theorem inputChange_kept {pin : ChannelPin} {level : Bool} (h : (p.chan c).pins.get pin ≠ level) (ha : p.active = false) :
    p.inputChange c pin level = p.pinned c pin level := by
  rw [Part.inputChange]
  refine (if_neg h).trans (if_neg ?_)
  show ¬ p.active = true
  rw [ha]
  decide

/-- While the blocks work a new level is published, and then acts on an enabled channel. -/
theorem inputChange_published {pin : ChannelPin} {level : Bool} (h : (p.chan c).pins.get pin ≠ level) (ha : p.active = true) :
    ∃ u, (p.pinned c pin level).Told u
      ∧ p.inputChange c pin level = if level && (p.chan c).enabled then u.inputActs c pin else u := by
  refine ⟨(p.pinned c pin level).commit c (p.chan c) 0 false, told_commit _ _ _ _ _, ?_⟩
  rw [Part.inputChange]
  exact (if_neg h).trans (if_pos ha)

/-- A level that acts on nothing is only published (R59). -/
theorem inputChange_shows {pin : ChannelPin} {level : Bool} (h : (p.chan c).pins.get pin ≠ level)
    (hinert : p.active = true → level = true → (p.chan c).enabled = true → ¬ (p.chan c).actsOn pin) :
    (p.active = true → (p.pinned c pin level).Told (p.inputChange c pin level))
      ∧ (p.active = false → p.inputChange c pin level = p.pinned c pin level) := by
  refine ⟨fun ha => ?_, inputChange_kept h⟩
  obtain ⟨u, htold, heq⟩ := inputChange_published h ha
  rw [heq]
  split
  · next hacts =>
    obtain ⟨hlevel, hen⟩ := (Bool.and_eq_true _ _).mp hacts
    rw [inputActs_still]
    · exact htold
    · intro hacts
      obtain ⟨v, hv⟩ := exists_of_view (view_told htold c)
      rw [hv, pinned_chan] at hacts
      exact hinert ha hlevel hen hacts
  · exact htold

/-- A level that has become active on an enabled channel acts on the part that shows it. -/
theorem inputChange_acts {pin : ChannelPin} (h : (p.chan c).pins.get pin = false) (ha : p.active = true) (hen : (p.chan c).enabled = true) :
    ∃ u, (p.pinned c pin true).Told u ∧ p.inputChange c pin true = u.inputActs c pin := by
  obtain ⟨u, htold, heq⟩ := inputChange_published (level := true) (h.trans_ne (by decide)) ha
  exact ⟨u, htold, heq.trans (if_pos (by rw [hen]; rfl))⟩

/-! ### The present microsecond (log entry 4) -/

theorem goTo_active (h : p.active = true) (us : Nat) : p.goTo us = { p with
    clock := { p.clock with us := max p.clock.us (min us 999) }
    channels := p.channels.map (fun y =>
      let k := ((y.prof.p + 8388608) / 16777216 - y.tickS).natAbs
      { y with unissued := min y.unissued (k - max p.clock.us (min us 999) / (1000 / (k + 1))) }) } := by
  rw [Part.goTo]
  exact if_pos h

theorem goTo_idle (h : p.active = false) (us : Nat) : p.goTo us = p := by
  rw [Part.goTo]
  refine if_neg ?_
  rw [h]
  decide

/-! ### The fault that stops a channel within a tick (R75 to R77) -/

/-- The channel as a fault finds it: stepping has stopped at S. -/
def Channel.stilledNow (x : Channel) : Channel := if x.state.inMotion then x.halt else x

theorem Channel.stilledNow_view {x y : Channel} (h : y.view = x.view) : y.stilledNow.view = x.stilledNow.view := by
  obtain ⟨t, rfl⟩ := exists_of_view h
  unfold Channel.stilledNow
  dsimp only
  split <;> rfl

theorem Channel.stilledNow_keeps (x : Channel) :
    x.stilledNow.en = x.en ∧ x.stilledNow.queue = x.queue ∧ x.stilledNow.current = x.current ∧ x.stilledNow.params = x.params
      ∧ x.stilledNow.pins = x.pins := by
  unfold Channel.stilledNow
  split <;> exact ⟨rfl, rfl, rfl, rfl, rfl⟩

theorem Channel.stilledNow_pos (x : Channel) :
    x.stilledNow.prof.p = if x.state.inMotion then x.s * Config.step else x.prof.p := by
  unfold Channel.stilledNow
  split <;> rfl

theorem Channel.s_of_issued {x : Channel} (h : x.unissued = 0) : x.s = x.endS := by
  rw [Channel.s, h]
  split <;> omega

theorem Channel.halt_s (x : Channel) : x.halt.s = x.s := (Channel.s_of_issued rfl).trans (stepsOf_mul x.s)

theorem Channel.homedAt_s (x : Channel) (pr : Params) : (x.homedAt pr).s = pr.homeOffset :=
  (Channel.s_of_issued rfl).trans (stepsOf_mul pr.homeOffset)

theorem Channel.stilledNow_s (x : Channel) : x.stilledNow.s = x.s := by
  unfold Channel.stilledNow
  split
  · exact x.halt_s
  · rfl

theorem faultNow_eq (p : Part) (c : Fin 8) (cause : ChanFault) :
    p.faultNow c cause = (p.setChan c (p.chan c).stilledNow).faultEntry c cause := by
  rw [Part.faultNow, Channel.stilledNow]
  split
  · rfl
  · rw [Part.setChan_self]

theorem view_faultNow (p : Part) (c : Fin 8) (cause : ChanFault) :
    ((p.faultNow c cause).chan c).view = ((p.chan c).stilledNow.faulted cause).view := by
  rw [faultNow_eq, view_faultEntry, Part.setChan_chan_self]

/-- What a fault of channel `c` with a cause leaves, from a part `w` on which only reports have been written since. -/
structure Part.FaultShows (w : Part) (c : Fin 8) (cause : ChanFault) (q : Part) : Prop where
  near : w.Near c q
  state : (q.chan c).state = .fault
  code : (q.chan c).faultCode = some cause
  lost : (q.chan c).lost = true
  park : (q.chan c).parkCause = none
  queue : (q.chan c).queue = []
  en : (q.chan c).en = ((w.chan c).en && cause != .driver)
  pos : (q.chan c).prof.p = if (w.chan c).state.inMotion then (w.chan c).s * Config.step else (w.chan c).prof.p
  slot : ∀ l i m, Memory.wf w.mem → w.hasSlot l i → (w.chan c).queue = [] → (w.chan c).current = some m → m.source = .order i →
    q.SlotShows l i .finished 7 (w.chan c).s

theorem faultNow_shows (h : w.Told u) (cause : ChanFault) : w.FaultShows c cause (u.faultNow c cause) := by
  have hview := view_told h c
  obtain ⟨v, hv⟩ := exists_of_view ((view_faultNow u c cause).trans (Channel.faulted_view (Channel.stilledNow_view hview) cause))
  obtain ⟨hstate, hcode, hlost, hpark, hqueue, hen, -, hpos⟩ := (w.chan c).stilledNow.faulted_keeps cause
  obtain ⟨hen', -, -, -, -⟩ := (w.chan c).stilledNow_keeps
  refine ⟨h.near.trans (near_faultNow _ _), ?_, ?_, ?_, ?_, ?_, ?_, ?_, fun l i m hwf hslot hempty hm hsrc => ?_⟩
  · rw [hv]; exact hstate
  · rw [hv]; exact hcode
  · rw [hv]; exact hlost
  · rw [hv]; exact hpark
  · rw [hv]; exact hqueue
  · rw [hv]; exact hen.trans (by rw [hen'])
  · rw [hv]; exact hpos.trans (w.chan c).stilledNow_pos
  · obtain ⟨t, ht⟩ := exists_of_view hview
    obtain ⟨-, hq, hcur, -, -⟩ := (u.chan c).stilledNow_keeps
    have hslot' := (slotsKept.trans (slotsKept.told h) (slotsKept.chan u c (u.chan c).stilledNow)).hasSlot hslot
    have hshows := faultEntry_shows (p := u.setChan c (u.chan c).stilledNow) (c := c) (m := m)
      (by rw [Part.setChan_chan_self, hcur, ht]; exact hm) hsrc hslot' (h.mem hwf)
      (by rw [Part.setChan_chan_self, hq, ht]; exact hempty) cause
    rw [← faultNow_eq, Part.setChan_chan_self, Channel.stilledNow_s, ht] at hshows
    exact hshows

/-! ### HOME ends a search (R68) -/

/-- Where no move follows the end of an order's move, its slot shows the end and S (R65). -/
theorem endMove_shows {l : Layout} {i : Nat} {m : Move} {t : Termination} (hm : (p.chan c).current = some m) (hsrc : m.source = .order i)
    (hs : p.hasSlot l i) (hwf : Memory.wf p.mem) (hg : p.guarded c = false)
    (hl : (p.chan c).lost = true ∨ (p.chan c).params.isSome = true ∧ p.noneFollows c t) (before : Channel) :
    (p.endMove c before t).SlotShows l i .finished t.code (p.chan c).s := ends_shows hm hsrc hs hwf hg hl _ before

/-- HOME on a search by a move of kind HOME, with an empty queue and no guard, in OPEN or SERVICE: the channel is IDLE at home_offset, and
an order's slot shows COMPLETE there. -/
theorem homeFound_shows {pr : Params} {m : Move} (h : w.Told u) (hp : (w.chan c).params = some pr) (hm : (w.chan c).current = some m)
    (hk : m.kind = .home) (hq : (w.chan c).queue = []) (hg : ∀ g, w.covers g c = false)
    (hmode : w.modes.mode = .opened ∨ w.modes.mode = .service) :
    w.Near c (u.homeFound c) ∧ ((u.homeFound c).chan c).view = { (((w.chan c).homedAt pr).finished) with state := .idle, parkCause := none }.view
      ∧ ∀ l i, Memory.wf w.mem → w.hasSlot l i → m.source = .order i → (u.homeFound c).SlotShows l i .finished 1 pr.homeOffset := by
  obtain ⟨t, ht⟩ := exists_of_view (view_told h c)
  have hpu : (u.chan c).params = some pr := by rw [ht]; exact hp
  have hfound : u.homeFound c = (u.setChan c ((u.chan c).homedAt pr)).endMove c (u.chan c) .complete := by
    rw [Part.homeFound, hpu]
  obtain ⟨y, hy⟩ : ∃ y, y = (u.chan c).homedAt pr := ⟨_, rfl⟩
  have hys : y.params = some pr ∧ y.lost = false ∧ y.queue = [] ∧ y.current = some m ∧ y.view = ((w.chan c).homedAt pr).view := by
    rw [hy, ht]
    exact ⟨hp, rfl, hq, hm, rfl⟩
  obtain ⟨hparams, hlost, hqueue, hcur, hyview⟩ := hys
  have hguard : (u.setChan c y).guarded c = false := (h.working.guarded c).trans (guarded_eq_false hg)
  have hwants : (u.setChan c y).wantsPark = false := h.working.wantsPark.trans (wantsPark_of_quick hmode)
  have hsome : ((u.setChan c y).chan c).params.isSome = true := by rw [Part.setChan_chan_self, hparams]; rfl
  have hnone : (u.setChan c y).noneFollows c .complete := .inr ⟨by rw [Part.setChan_chan_self, hqueue], .inl hwants⟩
  have hnear := near_homeFound (c := c) u
  rw [hfound, ← hy] at hnear ⊢
  refine ⟨h.near.trans hnear, ?_, fun l i hwf hslot hsrc => ?_⟩
  · rw [view_endMove (.inr (.inr ⟨hsome, hnone⟩)), hguard, Part.setChan_chan_self,
      Channel.rested_view hyview,
      Channel.rested_idle (x := (w.chan c).homedAt pr) (m := m) hm (by rw [hk]; decide) rfl]
  · have hslot' := (slotsKept.trans (slotsKept.told h) (slotsKept.chan u c y)).hasSlot hslot
    have hS : y.s = pr.homeOffset := by rw [hy]; exact Channel.homedAt_s _ _
    have hshows := endMove_shows (p := u.setChan c y) (t := .complete) (by rw [Part.setChan_chan_self, hcur]) hsrc hslot' (h.mem hwf) hguard
      (.inr ⟨hsome, hnone⟩)
      (u.chan c)
    rw [Part.setChan_chan_self, hS] at hshows
    exact hshows

/-! ### The refresh of a status record (R80) -/

/-- A record written while the blocks work: its twelve words show the channel as it was, the time of the write is kept, and every other
channel is as before. -/
theorem writeStatus_shows {l : Layout} (ha : p.active = true) (hl : p.run.layout = some l) (hv : l.valid = true) (hm : Memory.wf p.mem)
    (c : Fin 8) :
    ((p.writeStatus c).chan c).lastWrite = p.time ∧ (∀ d, d ≠ c → (p.writeStatus c).chan d = p.chan d)
      ∧ ∀ k, k < 12 → ((p.writeStatus c).mem.cell (l.status + 12 * c.val + k)).written = wordAt (p.chan c).statusWords k := by
  have hwrite : p.writeStatus c
      = (p.setChan c { p.chan c with lastWrite := p.time }).writeAll (l.status + 12 * c.val) (p.chan c).statusWords := by
    rw [Part.writeStatus]
    exact (if_pos ha).trans (Part.writeRegion_eq (p := p.setChan c _) hl _ _)
  have hchans (d : Fin 8) : (p.writeStatus c).chan d = (p.setChan c { p.chan c with lastWrite := p.time }).chan d := by
    rw [hwrite, writeAll_frame]
    rfl
  have hlength : (p.chan c).statusWords.length = 12 := rfl
  have hfits : 32 ≤ l.status ∧ l.status + 96 ≤ Config.memWords := l.valid_fits hv 6
  refine ⟨by rw [hchans, Part.setChan_chan_self], fun d hd => by rw [hchans, Part.setChan_chan_ne p hd], fun k hk => ?_⟩
  rw [hwrite]
  exact written_writeAll (p.setChan c _) _ _ hm (by rw [hlength]; omega) k (by rw [hlength]; exact hk)

/-- The direction of travel of a channel with pulses of its latest tick still to be issued as given. -/
theorem heading_eq (x : Channel) : x.heading =
    if x.unissued = 0 then x.prof.positive else decide (x.tickS < (x.prof.p + 8388608) / 16777216) := rfl

/-- Settles O55: by the inputs' tables, and a refresh that is one write of the record. -/
theorem channelInputsAndRefresh : Obligations.ChannelInputsAndRefresh := by
  unfold Obligations.ChannelInputsAndRefresh
  intro s c level us p x rising with_ published now moved showsAt inert travels left
  have hinput (pin : ChannelPin) (h : x.pins.get pin ≠ level) (hacts : inert ∨ ¬ x.actsOn pin) :
      ∃ q, exec (.channelInputChange c pin level) s = .next (s.setPart q) ∧ published q (x.pins.put pin level) := by
    refine ⟨_, rfl, inputChange_shows h (fun ha hl he hx => ?_)⟩
    rcases hacts with (hinert | hinert | hinert) | hn
    · exact nomatch ha.symm.trans hinert
    · exact nomatch hl.symm.trans hinert
    · exact nomatch he.symm.trans hinert
    · exact hn hx
  have hpulse (pin : ChannelPin) (h : x.pins.get pin = false) (hacts : p.active = true → ¬ (moved.chan c).actsOn pin) :
      showsAt ((s.part.goTo us).inputChange c pin true) (x.pins.put pin true) := by
    cases ha : p.active with
    | true =>
      have hgo : s.part.goTo us = moved := goTo_active ha us
      have hchan : (moved.chan c).pins = x.pins := by
        rw [← hgo, Part.goTo_chan]
        split <;> rfl
      rw [hgo]
      have hshows := inputChange_shows (p := moved) (c := c) (pin := pin) (level := true) (by rw [hchan, h]; decide)
        (fun _ _ _ => hacts ha)
      refine ⟨fun _ => ?_, fun hb => nomatch ha.symm.trans hb⟩
      have htold := hshows.1 ha
      rw [Part.pinned, hchan] at htold
      exact htold
    | false =>
      rw [goTo_idle ha]
      refine ⟨fun hb => absurd (ha.symm.trans hb) (by decide), fun _ => ?_⟩
      exact inputChange_kept (by rw [h]; decide) ha
  have hmoved (ha : p.active = true) : moved.chan c = x.issueTo now := by
    have hgo : s.part.goTo us = moved := goTo_active ha us
    rw [← hgo, Part.goTo_chan, if_pos ha]
    rfl
  have hheading (ha : p.active = true) : (moved.chan c).heading = rising left := by
    rw [heading_eq, show left = (moved.chan c).unissued from rfl, hmoved ha]
    rfl
  have hstate (ha : p.active = true) : (moved.chan c).state = x.state := by rw [hmoved ha]; rfl
  refine ⟨fun h ha => hinput .home h ha, fun h ha => hinput .limitLo h (ha.imp_right fun hn hx => ?_),
    fun h ha => hinput .limitHi h (ha.imp_right fun hn hx => hn hx), fun h ha => hinput .flt h (.inl ha), fun pin h => ?_,
    fun h hs => ⟨_, rfl, hpulse .home h fun ha hx => hs ((hstate ha).symm.trans hx)⟩,
    fun h hn => ⟨_, rfl, hpulse .limitHi h fun ha hx => ?_⟩,
    fun h hn hs => ⟨_, rfl, hpulse .limitLo h fun ha hx => ?_⟩, fun p' l hdue hrun hvalid hwf hmotion => ?_⟩
  · exact hx.elim hn.1 hn.2
  · show Host.Outcome.next (s.setPart (s.part.inputChange c pin level)) = _
    rw [inputChange_same h]
    rfl
  · obtain ⟨hm, hh⟩ := hx
    rw [hstate ha] at hm
    exact hn ⟨hm, (hheading ha).symm.trans hh⟩
  · rcases hx with ⟨hm, hh⟩ | hm
    · rw [hstate ha] at hm
      exact hn ⟨hm, (hheading ha).symm.trans hh⟩
    · exact hs ((hstate ha).symm.trans hm)
  · have hmoves : x.state.inMotion = true := by rcases hmotion with h | h | h <;> rw [h] <;> rfl
    obtain ⟨hp', -⟩ := Part.comesDue_eq hdue
    refine ⟨p'.writeStatus c, ?_, told_writeStatus p' c,
      writeStatus_shows (by rw [hp']; exact hdue.1) (by rw [hp']; exact hrun) hvalid (by rw [hp']; exact hwf) c⟩
    have hat : s.part.atDue (after x.lastWrite 50) = some p' := Part.atDue_comes hdue
    show Host.Outcome.next (s.setPart (if x.state.inMotion then (match s.part.atDue (after x.lastWrite 50) with
      | some p => p.writeStatus c
      | none => s.part) else s.part)) = _
    rw [if_pos hmoves, hat]

theorem exec_homeSearchExhausted {s : State} {pr : Params} (hp : (s.part.chan c).params = some pr) :
    exec (.homeSearchExhausted c) s = .next (s.setPart
      (if s.part.active = true ∧ (s.part.chan c).state = .homing ∧ pr.homeSearch ≤ (s.part.chan c).search then
        (s.part.setChan c (s.part.chan c).issueAll).faultNow c .homeFail else s.part)) := by
  show Host.Outcome.next (s.setPart (match (s.part.chan c).params with
    | some pr => if s.part.active = true ∧ (s.part.chan c).state = .homing ∧ pr.homeSearch ≤ (s.part.chan c).search then
        (s.part.setChan c (s.part.chan c).issueAll).faultNow c .homeFail else s.part
    | none => s.part)) = _
  rw [hp]

/-- Settles O54: each input acts on the part that shows it, and a fault stops the channel at S. -/
theorem homingAndSwitches : Obligations.HomingAndSwitches := by
  unfold Obligations.HomingAndSwitches
  intro s c us pr p x now last n left pos rising moved faults hactive hp hen
  have hgo : s.part.goTo us = moved := goTo_active hactive us
  have hmoved : moved.chan c = x.issueTo now := by
    rw [← hgo, Part.goTo_chan]
    exact if_pos hactive
  have henabled : (moved.chan c).enabled = true := by rw [hmoved]; show Channel.enabled x = true; rw [Channel.enabled, hp]; exact hen
  have hS : (x.issueTo now).s = pos := rfl
  have hpinned (pin : ChannelPin) : (moved.pinned c pin true).chan c = { x.issueTo now with pins := x.pins.put pin true } := by
    rw [pinned_chan, hmoved]
    rfl
  have hfault {pin : ChannelPin} {cause : ChanFault} (h : x.pins.get pin = false)
      (hacts : ∀ u : Part, (u.chan c).view = { x.issueTo now with pins := x.pins.put pin true }.view → u.inputActs c pin = u.faultNow c cause) :
      faults moved ((s.part.goTo us).inputChange c pin true) (x.pins.put pin true) cause pos := by
    rw [hgo]
    obtain ⟨u, htold, heq⟩ := inputChange_acts (p := moved) (pin := pin) (by rw [hmoved]; exact h) hactive henabled
    have hshows := faultNow_shows (c := c) htold cause
    rw [heq, hacts u ((view_told htold c).trans (congrArg Channel.view (hpinned pin)))]
    have hw := hpinned pin
    obtain ⟨hnear, hstate, hcode, hlost, hpark, hqueue, hen', hpos, hslot⟩ := hshows
    rw [hw] at hen' hpos hslot
    refine ⟨?_, hstate, hcode, hlost, hpark, hqueue, hen', hpos, fun l i m hwf hs => hslot l i m hwf hs⟩
    have : moved.pinned c pin true = moved.setChan c { moved.chan c with pins := x.pins.put pin true } := by
      rw [Part.pinned, hmoved]
      rfl
    exact this ▸ hnear
  refine ⟨fun h => ⟨_, rfl, hfault (pin := .flt) h fun u _ => rfl⟩,
    fun h hs hh => ⟨_, rfl, hfault (pin := .limitHi) h fun u hu => ?_⟩, fun h hs hh => ⟨_, rfl, hfault (pin := .limitLo) h fun u hu => ?_⟩,
    fun h hs => ⟨_, rfl, hfault (pin := .limitLo) h fun u hu => inputActs_limitLo_homing ((state_of_view hu).trans hs)⟩,
    fun hs hsearch => ?_, fun hs hsearch => ?_, fun m h hs hm hk hq hg hmode => ?_⟩
  · obtain ⟨t, ht⟩ := exists_of_view hu
    exact inputActs_limitHi (by rw [ht]; exact hs) (by rw [ht]; exact hh)
  · obtain ⟨t, ht⟩ := exists_of_view hu
    exact inputActs_limitLo (by rw [ht]; exact hs) (by rw [ht]; exact hh)
  · refine ⟨(p.setChan c x.issueAll).faultNow c .homeFail, ?_, ?_⟩
    · rw [exec_homeSearchExhausted hp, if_pos ⟨hactive, hs, hsearch⟩]
    · have hchan : (p.setChan c x.issueAll).chan c = x.issueAll := Part.setChan_chan_self _ _ _
      obtain ⟨hnear, hstate, hcode, hlost, hpark, hqueue, hen', hpos, hslot⟩ :=
        faultNow_shows (c := c) (Part.Told.refl (p.setChan c x.issueAll)) .homeFail
      have hS : x.issueAll.s = last := Channel.s_of_issued rfl
      rw [hchan] at hen' hpos hslot
      rw [hS] at hpos hslot
      refine ⟨?_, hstate, hcode, hlost, hpark, hqueue, hen', hpos, fun l i m hwf hs => hslot l i m hwf hs⟩
      show (p.setChan c x).Near c _
      rw [Part.setChan_self]
      exact (near_setChan p x.issueAll rfl rfl (Nat.le_refl _)).trans hnear
  · rw [exec_homeSearchExhausted hp, if_neg fun ⟨_, _, h⟩ => Nat.not_le_of_lt hsearch h]
    rfl
  · rw [show exec (.homeActive c us) s = .next (s.setPart ((s.part.goTo us).inputChange c .home true)) from rfl, hgo]
    obtain ⟨u, htold, heq⟩ := inputChange_acts (p := moved) (pin := .home) (by rw [hmoved]; exact h) hactive henabled
    have hw := hpinned .home
    have hhoming : (u.chan c).state = .homing := by
      obtain ⟨t, ht⟩ := exists_of_view (view_told htold c)
      rw [ht, hw]
      exact hs
    have hshows := homeFound_shows (c := c) (pr := pr) (m := m) htold (by rw [hw]; exact hp) (by rw [hw]; exact hm) hk (by rw [hw]; exact hq)
      hg hmode
    rw [heq, inputActs_home hhoming]
    obtain ⟨hnear, hview, hslot⟩ := hshows
    rw [hw] at hview
    obtain ⟨t, ht⟩ := exists_of_view hview
    rw [Channel.finished_of_current (m := m) (by exact hm)] at ht
    refine ⟨_, rfl, ?_, by rw [ht], by rw [ht]; rfl, by rw [ht], by rw [ht]; rfl, ?_, by rw [ht]; rfl, fun l i hwf hs => hslot l i hwf hs⟩
    · have : moved.pinned c .home true = moved.setChan c { moved.chan c with pins := { x.pins with home := true } } := by
        rw [Part.pinned, hmoved]
        rfl
      exact this ▸ hnear
    · rw [ht]
      exact Channel.homedAt_s _ _

end Sys2Proof.Machine
end

-- ==== Sys2Proof/Proofs/Scrub.lean ====
-- ==== Sys2Proof/Proofs/Scrub.lean ====
section
/-! Rules for the scrubber: the word it handles, its position, and the one scrub of each millisecond (R192). -/

namespace Sys2Proof.Machine

variable {p : Part}

/-- The part once the scrubber has handled its word, before its position moves on. -/
def Part.scrubWord (p : Part) : Part :=
  match (p.mem.cell p.prot.scrubPos.val).upset with
  | .none => p.storeGood p.prot.scrubPos.val (p.mem.cell p.prot.scrubPos.val).data
  | _ => (p.readWord .scrub p.prot.scrubPos.val).part

theorem scrub_eq (p : Part) : p.scrub = { p.scrubWord with
    prot := { p.scrubWord.prot with scrubPos := p.prot.scrubPos + 1 }, clock := { p.scrubWord.clock with scrubbed := true } } := rfl

theorem scrubWord_clean (h : (p.mem.cell p.prot.scrubPos.val).upset = .none) :
    p.scrubWord = p.storeGood p.prot.scrubPos.val (p.mem.cell p.prot.scrubPos.val).written := by
  rw [Part.scrubWord, h]
  dsimp only
  rw [Cell.data_of_readable (.inl h)]

theorem scrubWord_one {b : Fin 22} (h : (p.mem.cell p.prot.scrubPos.val).upset = .one b) :
    p.scrubWord = p.correctedRead .scrub p.prot.scrubPos.val (p.mem.cell p.prot.scrubPos.val).written := by
  rw [Part.scrubWord, h]
  dsimp only
  rw [Part.readWord, h]
  dsimp only
  rw [Cell.data_of_readable (.inr ⟨b, h⟩)]

theorem scrubWord_spoilt (h : (p.mem.cell p.prot.scrubPos.val).spoilt) :
    p.scrubWord = p.uncorrectedRead .scrub p.prot.scrubPos.val := by
  have hread := (readWord_spoilt (agent := .scrub) h).2
  rcases h with h | ⟨b, h⟩ <;> rw [Part.scrubWord, h] <;> exact hread

/-- A good word stored: that word alone changes. -/
theorem cell_storeGood (hm : Memory.wf p.mem) {a : Nat} (ha : a < Config.memWords) (w : Word) (x : Nat) :
    (p.storeGood a w).mem.cell x = if x = a then .good w else p.mem.cell x := by
  split
  · next h => rw [h]; exact Memory.cell_store_self _ _ _ hm ha
  · next h => exact cell_storeGood_ne h

/-- The part before the reports of the scrubber's word: memory, counts, and MEMERR may differ. -/
theorem scrubWord_told (p : Part) : ∃ base : Part, base.Told p.scrubWord ∧ base.clock = p.clock ∧ base.time = p.time
    ∧ base.orders = p.orders ∧ base.modes = p.modes ∧ base.prot.scrubPos = p.prot.scrubPos ∧ base.run.state = p.run.state := by
  cases hu : (p.mem.cell p.prot.scrubPos.val).upset with
  | none => exact ⟨p.scrubWord, .refl _, by rw [scrubWord_clean hu]; exact ⟨rfl, rfl, rfl, rfl, rfl, rfl⟩⟩
  | one b => rw [scrubWord_one hu]; exact ⟨_, told_correctedRead _ _ _ _, rfl, rfl, rfl, rfl, rfl, rfl⟩
  | two b => rw [scrubWord_spoilt (.inr ⟨b, hu⟩)]; exact ⟨_, told_uncorrectedRead _ _ _, rfl, rfl, rfl, rfl, rfl, rfl⟩
  | address => rw [scrubWord_spoilt (.inl hu)]; exact ⟨_, told_uncorrectedRead _ _ _, rfl, rfl, rfl, rfl, rfl, rfl⟩

/-- What a scrub leaves of everything but memory, the counts and reports. -/
theorem scrub_leaves (p : Part) : p.scrub.clock = { p.clock with scrubbed := true } ∧ p.scrub.time = p.time
    ∧ p.scrub.prot.scrubPos = p.prot.scrubPos + 1 ∧ p.scrub.orders = p.orders ∧ p.scrub.modes.mode = p.modes.mode
    ∧ p.scrub.run.state = p.run.state := by
  obtain ⟨base, htold, hclock, htime, horders, hmodes, -, hstate⟩ := scrubWord_told p
  rw [scrub_eq]
  exact ⟨by rw [htold.clock, hclock], htold.time.trans htime, rfl, htold.orders.trans horders, htold.working.mode.trans (by rw [hmodes]),
    by rw [htold.run]; exact hstate⟩

theorem scrubOwed_iff : p.scrubOwed = true ↔ p.run.state = .running ∧ p.clock.scrubbed = false := by
  rw [Part.scrubOwed, Part.isRunning, Bool.and_eq_true, beq_iff_eq, Bool.not_eq_true']

theorem active_of_running (h : p.run.state = .running) : p.active = true := by rw [Part.active, h]; rfl

theorem nextMs_due (ho : p.clock.tickOwed = false) : p.nextMs = (if p.scrubOwed then p.scrub else p).countMs false := by
  rw [Part.nextMs, ho]
  rfl

theorem exec_motionTick {s : State} (h : s.part.active = true) :
    exec .motionTick s = .next (s.setPart (s.part.nextMs.eachChannel Part.tickChannel)) := by
  show Host.Outcome.next (s.setPart (if s.part.active then _ else _)) = _
  rw [if_pos h]

/-- Two parts whose millisecond ends alike tick alike. -/
theorem exec_motionTick_setPart {s : State} {q : Part} (h : s.part.active = true) (hq : q.active = true) (hms : q.nextMs = s.part.nextMs) :
    exec .motionTick (s.setPart q) = exec .motionTick s := by
  rw [exec_motionTick h, ← hms]
  exact exec_motionTick (s := s.setPart q) hq

theorem exec_scrub (s : State) : exec .scrub s = .next (s.setPart (if s.part.scrubOwed then s.part.scrub else s.part)) := rfl

theorem working_tickChannels (p : Part) : p.Working (p.eachChannel Part.tickChannel) :=
  (eachChannel_visits Part.tickChannel (fun _ q => near_tickChannel q) p).1

/-- Settles O21: the scrub of a word by how it reads, and the millisecond that has one scrub however it is called. -/
theorem scrubHandlesOneWord : Obligations.ScrubHandlesOneWord := by
  unfold Obligations.ScrubHandlesOneWord
  intro s hm
  refine ⟨fun h => ?_, fun hrun hscrub hdue => ?_, fun hrun hscrub => ?_⟩
  · have hnot : ¬ s.part.scrubOwed = true := by
      rw [scrubOwed_iff]
      rintro ⟨hrun, hscrub⟩
      exact h.elim (fun h => h hrun) (fun h => nomatch h.symm.trans hscrub)
    rw [exec_scrub, if_neg hnot]
    rfl
  · have howed : s.part.scrubOwed = true := scrubOwed_iff.mpr ⟨hrun, hscrub⟩
    obtain ⟨hclock, -, -, -, -, hstate⟩ := scrub_leaves s.part
    have hdone : ¬ s.part.scrub.scrubOwed = true := by
      rw [scrubOwed_iff, hclock]
      exact fun h => nomatch h.2
    have hms : s.part.scrub.nextMs = s.part.nextMs := by
      rw [nextMs_due (by rw [hclock]; exact hdue), if_neg hdone, nextMs_due hdue, if_pos howed]
    have htick := exec_motionTick (active_of_running hrun)
    refine ⟨s.part.scrub, _, by rw [exec_scrub, if_pos howed], htick, ?_, ?_⟩
    · exact (exec_motionTick_setPart (active_of_running hrun) (active_of_running (hstate.trans hrun)) hms).trans htick
    · have hend : (s.part.nextMs.eachChannel Part.tickChannel).clock.scrubbed = false := by
        rw [(working_tickChannels s.part.nextMs).clock, nextMs_due hdue]
        rfl
      generalize s.part.nextMs.eachChannel Part.tickChannel = u at hend
      exact hend
  · have howed : s.part.scrubOwed = true := scrubOwed_iff.mpr ⟨hrun, hscrub⟩
    obtain ⟨hclock, htime, hpos, horders, hmode, -⟩ := scrub_leaves s.part
    have hin : s.part.prot.scrubPos.val < Config.memWords := s.part.prot.scrubPos.isLt
    refine ⟨s.part.scrub, by rw [exec_scrub, if_pos howed], hclock, htime, ?_, horders, hmode, setup_scrub _, ?_⟩
    · rw [hpos, Fin.val_add]
      rfl
    · have hspoilt (h : (s.part.mem.cell s.part.prot.scrubPos.val).spoilt) :
          s.part.scrub.prot.uncorrected = satInc s.part.prot.uncorrected ∧ s.part.scrub.prot.corrected = s.part.prot.corrected
          ∧ s.part.scrub.prot.uv = true ∧ s.part.scrub.run.attention.memerr = true
          ∧ ∀ x, s.part.reportWord x = false → s.part.scrub.mem.cell x = s.part.mem.cell x := by
        have htold := told_uncorrectedRead s.part .scrub s.part.prot.scrubPos.val
        rw [scrub_eq, scrubWord_spoilt h]
        exact ⟨by rw [htold.prot]; rfl, by rw [htold.prot]; rfl, by rw [htold.prot]; rfl, htold.memerr, htold.words⟩
      cases hu : (s.part.mem.cell s.part.prot.scrubPos.val).upset with
      | none =>
        dsimp only
        rw [scrub_eq, scrubWord_clean hu]
        refine ⟨rfl, fun x => (cell_storeGood hm hin _ x).trans ?_⟩
        split
        · next h =>
          rw [h]
          show ({ written := _, upset := .none } : Cell) = _
          rw [← hu]
        · rfl
      | one b =>
        dsimp only
        have htold := told_correctedRead s.part .scrub s.part.prot.scrubPos.val (s.part.mem.cell s.part.prot.scrubPos.val).written
        rw [scrub_eq, scrubWord_one hu]
        refine ⟨by rw [htold.prot]; rfl, by rw [htold.prot]; rfl, by rw [htold.prot]; rfl,
          fun x hx => ((htold.words x hx).trans (cell_storeGood hm hin _ x)).trans ?_⟩
        split
        · next h => rw [h]
        · rfl
      | two b => exact hspoilt (.inr ⟨b, hu⟩)
      | address => exact hspoilt (.inl hu)

end Sys2Proof.Machine
end

-- ==== Sys2Proof/Proofs/ProfileRules.lean ====
-- ==== Sys2Proof/Proofs/ProfileRules.lean ====
section
/-! Rules for the profile generator's tick: what a tick of a move, of a stop and of an overrun's stop makes of the profile registers
(R91 to R96, R98). -/

namespace Sys2Proof.Machine

variable {f : Profile} {pr : Params} {x t sp : Int} {v cap : Nat}

/-! ### The soft-limit clamp (R94) -/

theorem travel_within (hlow : pr.softMin * Config.step ≤ x) (hhigh : x ≤ pr.softMax * Config.step) :
    f.travel pr x v = { prof := { f with p := x, v := v, tickV := v }, ended := none } := by
  have : pr.beyond x = none := by
    rw [Params.beyond, if_neg (Int.not_lt.mpr hhigh), if_neg (Int.not_lt.mpr hlow)]
  rw [Profile.travel, this]

theorem travel_high (h : pr.softMax * Config.step < x) :
    f.travel pr x v = { prof := { f with p := pr.softMax * Config.step, v := 0 }, ended := some .limited } := by
  have : pr.beyond x = some (pr.softMax * Config.step) := by rw [Params.beyond, if_pos h]
  rw [Profile.travel, this]

theorem travel_low (hle : pr.softMin * Config.step ≤ pr.softMax * Config.step) (h : x < pr.softMin * Config.step) :
    f.travel pr x v = { prof := { f with p := pr.softMin * Config.step, v := 0 }, ended := some .limited } := by
  have : pr.beyond x = some (pr.softMin * Config.step) := by
    rw [Params.beyond, if_neg (Int.not_lt.mpr ((Int.le_of_lt h).trans hle)), if_pos h]
  rw [Profile.travel, this]

/-! ### The tick of a move (R91 to R93) -/

/-- The move starts to come down (R91): DECEL is not latched, and the distance left is no more than the stop needs. -/
def Profile.slows (f : Profile) (pr : Params) (t : Int) : Prop :=
  f.latch = false ∧ (f.phase = .accel ∨ f.phase = .cruise ∨ f.phase = .slow) ∧ f.ahead t ≤ (pr.stopDistance f.v + f.v : Nat)

theorem decelEntry_slows (h : f.slows pr t) : f.decelEntry pr t = { f with phase := .decel, latch := true } := by
  obtain ⟨hlatch, hphase, hd⟩ := h
  have hp : (f.phase == .accel || f.phase == .cruise || f.phase == .slow) = true := by
    rcases hphase with h | h | h <;> rw [h] <;> rfl
  rw [Profile.decelEntry, hlatch, hp, decide_eq_true hd]
  rfl

theorem decelEntry_keeps (h : ¬ f.slows pr t) : f.decelEntry pr t = f := by
  rw [Profile.decelEntry]
  refine if_neg fun hc => h ?_
  simpa [Profile.slows, and_assoc, or_assoc] using hc

/-- The speed of a move's tick (R92). -/
def Profile.sped (f : Profile) (pr : Params) (cap : Nat) : Nat :=
  match f.phase with
  | .accel => min cap (f.v + pr.a)
  | .slow => max cap (f.v - pr.b)
  | .decel => max pr.vs (f.v - pr.b)
  | _ => f.v

theorem nextSpeed_eq (f : Profile) (pr : Params) (cap : Nat) : f.nextSpeed pr cap =
    (f.sped pr cap, if (f.phase = .accel ∨ f.phase = .slow) ∧ f.sped pr cap = cap then .cruise else f.phase) := by
  unfold Profile.nextSpeed Profile.sped
  split <;> simp_all

/-- The profile of a move's tick once its speed and phase are chosen. -/
def Profile.phased (f : Profile) (pr : Params) (cap : Nat) : Profile :=
  { f with phase := if (f.phase = .accel ∨ f.phase = .slow) ∧ f.sped pr cap = cap then .cruise else f.phase }

theorem tickMove_eq (f : Profile) (pr : Params) (t : Int) (cap : Nat) : f.tickMove pr t cap =
    if f.ahead t ≤ ((f.decelEntry pr t).sped pr cap : Int) then
      { prof := { (f.decelEntry pr t).phased pr cap with p := t, v := 0 }, ended := some f.arrival }
    else ((f.decelEntry pr t).phased pr cap).travel pr (f.moved ((f.decelEntry pr t).sped pr cap)) ((f.decelEntry pr t).sped pr cap) := by
  have hkept : (f.decelEntry pr t).ahead t = f.ahead t ∧ (f.decelEntry pr t).arrival = f.arrival
      ∧ ∀ v, (f.decelEntry pr t).moved v = f.moved v := by
    unfold Profile.decelEntry
    split <;> exact ⟨rfl, rfl, fun _ => rfl⟩
  obtain ⟨hahead, harrival, hmoved⟩ := hkept
  rw [Profile.tickMove]
  generalize f.decelEntry pr t = g at *
  dsimp only
  rw [nextSpeed_eq]
  dsimp only
  rw [← hahead, ← harrival, ← hmoved]
  rfl

/-! ### The tick of a stop (R95, R96) -/

/-- The registers of a stop's tick within the soft limits. -/
def Profile.slowed (f : Profile) (v : Nat) : Profile := { f with p := f.moved v, v := v, tickV := v }

/-- A stop within the soft limits goes on until it is down to the start speed; then it halts on a whole step, or fixes its stop point. -/
theorem tickStop_within (halt : Profile → TickResult) (hsp : f.stopPoint = none) (hv : v = max pr.vs (f.v - f.rate pr))
    (hlow : pr.softMin * Config.step ≤ f.moved v) (hhigh : f.moved v ≤ pr.softMax * Config.step) :
    f.tickStop pr halt =
      if v = pr.vs then
        if (f.slowed v).nextWhole = f.moved v then halt { f.slowed v with v := 0 }
        else { prof := { f.slowed v with stopPoint := some (f.slowed v).nextWhole }, ended := none }
      else { prof := f.slowed v, ended := none } := by
  subst hv
  rw [Profile.tickStop, hsp]
  dsimp only
  rw [travel_within hlow hhigh]
  rfl

/-- A soft limit ends a stop. -/
theorem tickStop_limited {g : Profile} (halt : Profile → TickResult) (hsp : f.stopPoint = none) (hv : v = max pr.vs (f.v - f.rate pr))
    (h : f.travel pr (f.moved v) v = { prof := g, ended := some .limited }) :
    f.tickStop pr halt = { prof := g, ended := some .limited } := by
  subst hv
  rw [Profile.tickStop, hsp]
  dsimp only
  rw [h]

/-- At its stop point a stop halts. -/
theorem tickStop_reaches (halt : Profile → TickResult) (hsp : f.stopPoint = some sp) (h : f.ahead sp ≤ (pr.vs : Int)) :
    f.tickStop pr halt = halt { f with p := sp, v := 0 } := by
  rw [Profile.tickStop, hsp]
  exact if_pos h

/-- Short of its stop point a stop creeps on at the start speed. -/
theorem tickStop_creeps (halt : Profile → TickResult) (hsp : f.stopPoint = some sp) (h : (pr.vs : Int) < f.ahead sp) :
    f.tickStop pr halt = f.travel pr (f.moved pr.vs) pr.vs := by
  rw [Profile.tickStop, hsp]
  exact if_neg (Int.not_le.mpr h)

/-- Where P stands on a step, that step is the next whole one in the direction of travel. -/
theorem nextWhole_whole (h : f.p % Config.step = 0) : f.nextWhole = f.p := by
  have h' : f.p % 16777216 = 0 := h
  unfold Profile.nextWhole
  show (if f.positive then -((-f.p) / 16777216) * 16777216 else f.p / 16777216 * 16777216) = f.p
  split <;> omega

/-- Where P stands between two steps, the next whole one is ahead of it, less than a step away. -/
theorem nextWhole_part (h : f.p % Config.step ≠ 0) : f.nextWhole % Config.step = 0
    ∧ if f.positive then f.p < f.nextWhole ∧ f.nextWhole < f.p + Config.step
      else f.p - Config.step < f.nextWhole ∧ f.nextWhole < f.p := by
  have h' : f.p % 16777216 ≠ 0 := h
  unfold Profile.nextWhole
  show (if f.positive then -((-f.p) / 16777216) * 16777216 else f.p / 16777216 * 16777216) % 16777216 = 0
    ∧ if f.positive then _ < (if f.positive then -((-f.p) / 16777216) * 16777216 else f.p / 16777216 * 16777216)
        ∧ (if f.positive then -((-f.p) / 16777216) * 16777216 else f.p / 16777216 * 16777216) < f.p + 16777216
      else f.p - 16777216 < (if f.positive then -((-f.p) / 16777216) * 16777216 else f.p / 16777216 * 16777216)
        ∧ (if f.positive then -((-f.p) / 16777216) * 16777216 else f.p / 16777216 * 16777216) < f.p
  cases f.positive
  · simp only [Bool.false_eq_true, if_false]
    omega
  · simp only [if_true]
    omega

/-- Where an overrun halts short of its restart target it starts afresh (R98). -/
theorem restart_starts (ht : f.target = some t) (h : t ≠ f.p) : Profile.restart pr f = { prof := f.start pr t, ended := none } := by
  rw [Profile.restart, ht]
  exact if_neg h

theorem restart_arrives (ht : f.target = some t) (h : t = f.p) : Profile.restart pr f = { prof := f, ended := some f.arrival } := by
  rw [Profile.restart, ht]
  exact if_pos h

end Sys2Proof.Machine
end

-- ==== Sys2Proof/Proofs/MotionTick.lean ====
-- ==== Sys2Proof/Proofs/MotionTick.lean ====
section
/-! The motion tick of a channel (R84, R85), and the millisecond it begins. -/

namespace Sys2Proof.Machine

variable {p : Part} {c : Fin 8} {pr : Params}

/-! ### The start of a millisecond -/

theorem calm_issueAll (p : Part) : p.Calm (fun y : Input => y) p.issueAll :=
  { Part.Calm.refl p with
    params := fun c => by rw [Part.issueAll_chan]; rfl
    pins := fun c => by rw [Part.issueAll_chan]; rfl }

/-- A millisecond that owes its tick, or that has had its scrub, begins the tick with every pulse issued. -/
theorem nextMs_shows (h : p.run.state = .running → p.clock.tickOwed = false → p.clock.scrubbed = true) :
    ({ p with
        time := if p.clock.tickOwed then p.time else p.time + 1
        clock := { tickOwed := false, us := 0, scrubbed := p.clock.tickOwed && p.clock.scrubbed } } : Part).Calm (fun y : Input => y) p.nextMs
    ∧ (∀ d, p.nextMs.chan d = { p.chan d with unissued := 0 }) ∧ p.nextMs.guards = p.guards ∧ p.nextMs.modes = p.modes := by
  have hchans (d : Fin 8) : p.issueAll.chan d = { p.chan d with unissued := 0 } := p.issueAll_chan d
  cases howed : p.clock.tickOwed with
  | true =>
    have hms : p.nextMs = p.issueAll.setClock { p.clock with tickOwed := false, us := 0 } := by rw [Part.nextMs, howed]; rfl
    rw [hms]
    exact ⟨calm_issueAll (p.setClock { p.clock with tickOwed := false, us := 0 }), hchans, rfl, rfl⟩
  | false =>
    have hdone : ¬ p.scrubOwed = true := by
      rw [scrubOwed_iff]
      exact fun ⟨hrun, hscrub⟩ => nomatch hscrub.symm.trans (h hrun howed)
    have hms : p.nextMs = p.countMs false := by rw [nextMs_due howed, if_neg hdone]
    rw [hms]
    exact ⟨calm_issueAll ((p.setTime (p.time + 1)).setClock { tickOwed := false, us := 0, scrubbed := false }), hchans, rfl, rfl⟩

/-! ### The tick of one channel, by its state -/

theorem Channel.ticked_view {x y : Channel} (h : y.view = x.view) (f : Profile) : (y.ticked f).view = (x.ticked f).view := by
  obtain ⟨t, rfl⟩ := exists_of_view h
  rfl

theorem Channel.enabled_iff {x : Channel} : x.enabled = true ↔ ∃ pr, x.params = some pr ∧ pr.enable = true := by
  unfold Channel.enabled
  split
  · next pr h => exact ⟨fun hen => ⟨pr, h, hen⟩, fun ⟨pr', h', hen⟩ => by rw [h] at h'; cases h'; exact hen⟩
  · next h => exact ⟨nofun, fun ⟨pr', h', _⟩ => by rw [h] at h'; cases h'⟩

theorem tickChannel_still (h : (p.chan c).enabled = false ∨ (p.chan c).state.inMotion = false) : p.tickChannel c = p := by
  unfold Part.tickChannel
  dsimp only
  split
  · rfl
  · next pr hp =>
    split
    · rfl
    · next hen =>
      have hm : (p.chan c).state.inMotion = false := h.resolve_left (by
        rw [Channel.enabled_iff.mpr ⟨pr, hp, by simpa using hen⟩]
        decide)
      split
      · next hs => rw [hs] at hm; cases hm
      · next hs => rw [hs] at hm; cases hm
      · next hs => rw [hs] at hm; cases hm
      · rfl

/-- The channel after a tick of its search (R100). -/
def Channel.searched (x : Channel) (pr : Params) : Channel :=
  { x.pulsed { x.prof with p := (x.homingTick pr).1 } with search := (x.homingTick pr).2 }

theorem Channel.searched_view {x y : Channel} (h : y.view = x.view) (pr : Params) : (y.searched pr).view = (x.searched pr).view := by
  obtain ⟨t, rfl⟩ := exists_of_view h
  rfl

/-- The tick of an enabled channel that searches for its home. -/
theorem tickChannel_homing (hp : (p.chan c).params = some pr) (hen : pr.enable = true) (hs : (p.chan c).state = .homing) :
    p.tickChannel c = (p.setChan c ((p.chan c).searched pr)).commit c (p.chan c) 0 false := by
  unfold Part.tickChannel
  dsimp only
  rw [hp]
  dsimp only
  rw [hen, hs]
  rfl

/-- The tick of an enabled channel that moves or stops. -/
theorem tickChannel_profile (hp : (p.chan c).params = some pr) (hen : pr.enable = true)
    (hs : (p.chan c).state = .moving ∨ (p.chan c).state = .stopping) :
    p.tickChannel c = if (p.chan c).limitAhead then (p.setChan c ((p.chan c).pulsed (p.chan c).prof)).faultNow c .limit
      else match ((p.chan c).profileTick pr).ended with
        | some t => (p.setChan c ((p.chan c).ticked ((p.chan c).profileTick pr).prof).issueAll).endMove c (p.chan c) t
        | none => (p.setChan c ((p.chan c).ticked ((p.chan c).profileTick pr).prof)).commit c (p.chan c) 0 false := by
  unfold Part.tickChannel
  dsimp only
  rw [hp]
  dsimp only
  rw [hen]
  rcases hs with hs | hs <;> rw [hs] <;> rfl

/-- A tick that leaves its channel in motion shows the registers after it. -/
theorem view_tick_goes {f : Profile} (hp : (p.chan c).params = some pr) (hen : pr.enable = true)
    (hs : (p.chan c).state = .moving ∨ (p.chan c).state = .stopping) (hlimit : (p.chan c).limitAhead = false)
    (htick : (p.chan c).profileTick pr = { prof := f, ended := none }) :
    ((p.tickChannel c).chan c).view = ((p.chan c).ticked f).view := by
  rw [tickChannel_profile hp hen hs, hlimit, htick]
  exact (view_commit _ _ _ _ _ _).trans (by rw [Part.setChan_chan_self])

/-- A tick that ends a move after which the channel rests (R65). -/
theorem view_tick_ends {f : Profile} {t : Termination} (hp : (p.chan c).params = some pr) (hen : pr.enable = true)
    (hs : (p.chan c).state = .moving ∨ (p.chan c).state = .stopping) (hlimit : (p.chan c).limitAhead = false)
    (htick : (p.chan c).profileTick pr = { prof := f, ended := some t }) (hq : (p.chan c).queue = []) (hg : p.guarded c = false)
    (hpark : p.wantsPark = false) :
    ((p.tickChannel c).chan c).view = (((p.chan c).ticked f).issueAll.rested false t).view := by
  have hchan : (p.setChan c ((p.chan c).ticked f).issueAll).chan c = ((p.chan c).ticked f).issueAll := Part.setChan_chan_self _ _ _
  have hrests : (p.setChan c ((p.chan c).ticked f).issueAll).rests c t := by
    refine .inr (.inr ⟨?_, .inr ⟨?_, .inl hpark⟩⟩)
    · rw [hchan]
      show (p.chan c).params.isSome = true
      rw [hp]
      rfl
    · rw [hchan]
      exact hq
  rw [tickChannel_profile hp hen hs, hlimit, htick]
  refine (view_endMove hrests _).trans ?_
  rw [hchan, show (p.setChan c ((p.chan c).ticked f).issueAll).guarded c = false from hg]

/-- A limit switch that is already active ahead faults the channel with no pulse of the tick (R76). -/
theorem view_tick_limit (hp : (p.chan c).params = some pr) (hen : pr.enable = true)
    (hs : (p.chan c).state = .moving ∨ (p.chan c).state = .stopping) (hlimit : (p.chan c).limitAhead = true) :
    ((p.tickChannel c).chan c).view = (((p.chan c).pulsed (p.chan c).prof).stilledNow.faulted .limit).view := by
  rw [tickChannel_profile hp hen hs, hlimit]
  refine (view_faultNow _ _ _).trans ?_
  rw [Part.setChan_chan_self]

/-- The tick of a search (R100): its position, its pulses and its count. -/
theorem searched_eq (x : Channel) (pr : Params) :
    let at_ := x.endS
    let next := x.prof.p - (pr.vh : Int)
    let n := (at_ - stepsOf next).toNat
    x.searched pr = { x with
      tickS := at_
      unissued := if pr.homeSearch ≤ x.search then 0 else min (pr.homeSearch - x.search) n
      search := if pr.homeSearch ≤ x.search then x.search else min pr.homeSearch (x.search + n)
      prof := { x.prof with p := if pr.homeSearch ≤ x.search then x.prof.p
        else if pr.homeSearch ≤ x.search + n then (at_ - (pr.homeSearch - x.search : Nat)) * 16777216 else next } } := by
  intro at_ next n
  have hn : (n : Int) = at_ - stepsOf next := by
    refine Int.toNat_of_nonneg ?_
    show 0 ≤ (x.prof.p + 8388608) / 16777216 - (x.prof.p - (pr.vh : Int) + 8388608) / 16777216
    omega
  have hstill : stepsOf x.prof.p - at_ = 0 := Int.sub_self _
  have hlast : stepsOf ((at_ - (pr.homeSearch - x.search : Nat)) * 16777216) = at_ - (pr.homeSearch - x.search : Nat) := stepsOf_mul _
  have htick : x.homingTick pr = (if pr.homeSearch ≤ x.search then x.prof.p
        else if pr.homeSearch ≤ x.search + n then (at_ - (pr.homeSearch - x.search : Nat)) * 16777216 else next,
      if pr.homeSearch ≤ x.search then x.search else min pr.homeSearch (x.search + n)) := by
    unfold Channel.homingTick
    by_cases hdone : pr.homeSearch ≤ x.search
    · rw [if_pos hdone, if_pos hdone, if_pos hdone]
    · rw [if_neg hdone, if_neg hdone, if_neg hdone]
      show (if pr.homeSearch ≤ x.search + n then ((at_ - (pr.homeSearch - x.search : Nat)) * Config.step, pr.homeSearch)
        else (next, x.search + n)) = _
      by_cases hend : pr.homeSearch ≤ x.search + n
      · rw [if_pos hend, if_pos hend, Nat.min_eq_left hend]
        rfl
      · rw [if_neg hend, if_neg hend, Nat.min_eq_right (by omega)]
  have hpulses : (stepsOf (x.homingTick pr).1 - at_).natAbs = if pr.homeSearch ≤ x.search then 0 else min (pr.homeSearch - x.search) n := by
    rw [htick]
    dsimp only
    split
    · rw [hstill]
      rfl
    · split
      · rw [hlast]
        omega
      · omega
  unfold Channel.searched
  rw [← hpulses, htick]
  rfl

/-! ### Where the move of a plain channel ends (R65) -/

/-- A channel whose plain move, no PARK and no HOME, has ended at rest. -/
theorem ticked_rests {x : Channel} {m : Move} (f : Profile) (t : Termination) (hm : x.current = some m) (hk : m.kind = .move)
    (hl : x.lost = false) :
    (x.ticked f).issueAll.rested false t = { (x.ticked f).issueAll with
      state := .idle, current := none, parkCause := none, pendingTerm := none, prof := f.atRest, moveCount := x.moveCount + 1
      heldMove := m.source.heldAfter x.heldMove } := by
  rw [Channel.rested_idle (x := (x.ticked f).issueAll) (m := m) hm (by rw [hk]; decide) hl,
    Channel.finished_of_current (x := (x.ticked f).issueAll) (m := m) hm]
  rfl

theorem profileTick_moving {x : Channel} {t : Int} {cap : Nat} (hs : x.state = .moving) (ho : x.prof.overrun = false)
    (ht : x.prof.target = some t) (hcap : x.prof.cap = some cap) : x.profileTick pr = x.prof.tickMove pr t cap := by
  rw [Channel.profileTick, hs]
  dsimp only
  rw [Profile.tickMoving, ho, ht, hcap]
  rfl

theorem profileTick_overrun {x : Channel} (hs : x.state = .moving) (ho : x.prof.overrun = true) :
    x.profileTick pr = x.prof.tickStop pr (Profile.restart pr) := by
  rw [Channel.profileTick, hs]
  dsimp only
  rw [Profile.tickMoving, ho]
  rfl

theorem profileTick_stopping {x : Channel} {term : Termination} (hs : x.state = .stopping) (ht : x.pendingTerm = some term) :
    x.profileTick pr = x.prof.tickStop pr (fun g => { prof := g, ended := some term }) := by
  rw [Channel.profileTick, hs, ht]
  rfl

theorem rate_eq (f : Profile) (pr : Params) : f.rate pr = if f.stopRate = some .g then pr.g else pr.b := by
  unfold Profile.rate
  split
  · next h => rw [if_pos h]
  · next h => rw [if_neg h]

/-- Settles O53: by the tick's branches, each channel in its turn on a part that differs from the millisecond's start in other channels
and reports. -/
theorem motionTick : Obligations.MotionTick := by
  unfold Obligations.MotionTick
  intro s hactive hscrub
  obtain ⟨hcalm, hchans, hguards, hmodes⟩ := nextMs_shows hscrub
  refine ⟨_, exec_motionTick hactive, hcalm.trans (calm_eachChannel _ _ (fun c q => calm_tickChannel q c)), fun c => ?_⟩
  intro x f at_ pos stays driven plain rests
  obtain ⟨u, hu, hview, hend⟩ := (eachChannel_visits Part.tickChannel (fun _ q => near_tickChannel q) s.part.nextMs).2 c
  have hvx : (u.chan c).view = x.view := hview.trans (congrArg Channel.view (hchans c))
  obtain ⟨w, hw⟩ := exists_of_view hvx
  have hstays {y : Channel} (h : ((u.tickChannel c).chan c).view = y.view) : stays y := Channel.view_eq_iff.mp (hend.trans h)
  refine ⟨fun h => hstays ?_, fun pr hp hen => ?_⟩
  · have hrest : x.enabled = false ∨ x.state.inMotion = false := h.imp_right fun ⟨h1, h2, h3⟩ => by
      simp [ChanState.inMotion, h1, h2, h3]
    rw [tickChannel_still (by rw [hw]; exact hrest)]
    exact hvx
  have hpu : (u.chan c).params = some pr := by rw [hw]; exact hp
  have hgoes {g : Profile} (hs : x.state = .moving ∨ x.state = .stopping) (hlimit : x.limitAhead = false)
      (htick : x.profileTick pr = { prof := g, ended := none }) : stays (driven g) := by
    refine hstays ((view_tick_goes hpu hen (by rw [hw]; exact hs) (by rw [hw]; exact hlimit) (by rw [hw]; exact htick)).trans ?_)
    exact Channel.ticked_view hvx g
  have hends {g : Profile} {t : Termination} (hs : x.state = .moving ∨ x.state = .stopping) (hlimit : x.limitAhead = false)
      (htick : x.profileTick pr = { prof := g, ended := some t }) (hdir : g.positive = f.positive) : plain → rests g.p := by
    rintro ⟨hlost, hq, hg, hmode, m, hm, hk⟩
    have hguard : u.guarded c = false :=
      (hu.guarded c).trans ((congrArg (fun gs => Part.guarded { s.part with guards := gs } c) hguards).trans (guarded_eq_false hg))
    have hpark : u.wantsPark = false := hu.wantsPark.trans (wantsPark_of_quick (by rw [hmodes]; exact hmode))
    have hz := view_tick_ends hpu hen (by rw [hw]; exact hs) (by rw [hw]; exact hlimit) (by rw [hw]; exact htick) (by rw [hw]; exact hq)
      hguard hpark
    have hticked : ((u.chan c).ticked g).issueAll.view = (x.ticked g).issueAll.view := congrArg Channel.issueAll (Channel.ticked_view hvx g)
    rw [Channel.rested_view hticked, ticked_rests g t hm hk hlost] at hz
    obtain ⟨v, hv⟩ := exists_of_view (hend.trans hz)
    refine ⟨by rw [hv], by rw [hv], by rw [hv], by rw [hv], ?_⟩
    rw [hv, ← hdir]
    rfl
  intro vs a b g low high
  refine ⟨fun hs => hstays ?_, fun hs hlimit => ?_, fun hlimit => ⟨fun t cap hs hover ht hcap => ?_, ?_⟩⟩
  · rw [tickChannel_homing hpu hen (by rw [hw]; exact hs), view_commit, Part.setChan_chan_self,
      Channel.searched_view hvx, searched_eq x pr]
    rfl
  · have hz := hend.trans (view_tick_limit hpu hen (by rw [hw]; exact hs) (by rw [hw]; exact hlimit))
    have hpulsed : ((u.chan c).pulsed (u.chan c).prof).view = (x.pulsed x.prof).view := by rw [hw]; rfl
    rw [Channel.faulted_view (Channel.stilledNow_view hpulsed)] at hz
    obtain ⟨v, hv⟩ := exists_of_view hz
    obtain ⟨hstate, hcode, hlost, -, -, hen', -, hpos⟩ := (x.pulsed x.prof).stilledNow.faulted_keeps .limit
    have hS : (x.pulsed x.prof).s = at_ := by
      have hun : (x.pulsed x.prof).unissued = 0 := by
        show (stepsOf x.prof.p - stepsOf x.prof.p).natAbs = 0
        rw [Int.sub_self]
        rfl
      exact Channel.s_of_issued hun
    have hmotion : (x.pulsed x.prof).state.inMotion = true := by
      show x.state.inMotion = true
      rcases hs with h | h <;> rw [h] <;> rfl
    obtain ⟨hkeep, -⟩ := (x.pulsed x.prof).stilledNow_keeps
    rw [hv]
    refine ⟨hstate, hcode, hlost, ?_, ?_⟩
    · exact hen'.trans (by rw [hkeep, show (ChanFault.limit != ChanFault.driver) = true from rfl, Bool.and_true]; rfl)
    · refine hpos.trans ((Channel.stilledNow_pos _).trans ?_)
      rw [if_pos hmotion, hS]
      rfl
  · intro d slows ph v
    have hdec : f.decelEntry pr t = { f with phase := ph, latch := f.latch || decide slows } := by
      by_cases hslow : slows
      · show _ = { f with phase := if slows then .decel else f.phase, latch := f.latch || decide slows }
        rw [if_pos hslow, decide_eq_true hslow, Bool.or_true]
        exact decelEntry_slows hslow
      · show _ = { f with phase := if slows then .decel else f.phase, latch := f.latch || decide slows }
        rw [if_neg hslow, decide_eq_false hslow, Bool.or_false]
        exact decelEntry_keeps hslow
    have htick := (profileTick_moving (pr := pr) hs hover ht hcap).trans (tickMove_eq f pr t cap)
    rw [hdec] at htick
    have hv : ({ f with phase := ph, latch := f.latch || decide slows } : Profile).sped pr cap = v := rfl
    rw [hv] at htick
    refine ⟨fun hd hlow hhigh => hgoes (.inl hs) hlimit ?_, fun hd hplain => ⟨fun hhigh => ?_, fun hle hlow => ?_⟩,
      fun hd hplain => ?_⟩
    · exact (htick.trans (if_neg (Int.not_le.mpr hd))).trans (travel_within hlow hhigh)
    · exact hends (.inl hs) hlimit ((htick.trans (if_neg (Int.not_le.mpr hd))).trans (travel_high hhigh)) rfl hplain
    · exact hends (.inl hs) hlimit ((htick.trans (if_neg (Int.not_le.mpr hd))).trans (travel_low hle hlow)) rfl hplain
    · exact hends (.inl hs) hlimit (htick.trans (if_pos hd)) rfl hplain
  · intro stops
    have hstops {rate : Nat} {halts : Int → Prop} {halt : Profile → TickResult} (hs : x.state = .moving ∨ x.state = .stopping)
        (hrate : f.rate pr = rate) (htick : x.profileTick pr = f.tickStop pr halt)
        (hhalt : ∀ y n, x.profileTick pr = halt { f with p := y, v := 0, tickV := n } → halts y) : stops rate halts := by
      have hv : max vs (f.v - rate) = max pr.vs (f.v - f.rate pr) := by rw [hrate]; rfl
      refine ⟨fun hsp hlow hhigh => ?_, fun hsp hplain => ⟨fun hhigh => ?_, fun hle hlow => ?_⟩, fun sp hsp => ?_⟩
      · have hwithin := htick.trans (tickStop_within halt hsp hv hlow hhigh)
        refine ⟨fun hne => hgoes hs hlimit (hwithin.trans (if_neg hne)), fun he hpart => ?_, fun he hwhole => ?_⟩
        · obtain ⟨hmod, hnext⟩ := nextWhole_part (f := f.slowed (max vs (f.v - rate))) hpart
          have hne : (f.slowed (max vs (f.v - rate))).nextWhole ≠ f.moved (max vs (f.v - rate)) := fun h =>
            hpart ((congrArg (· % Config.step) h).symm.trans hmod)
          exact ⟨_, hmod, hnext, hgoes hs hlimit ((hwithin.trans (if_pos he)).trans (if_neg hne))⟩
        · exact hhalt _ _ ((hwithin.trans (if_pos he)).trans (if_pos (nextWhole_whole (f := f.slowed (max vs (f.v - rate))) hwhole)))
      · exact hends hs hlimit (htick.trans (tickStop_limited halt hsp hv (travel_high hhigh))) rfl hplain
      · exact hends hs hlimit (htick.trans (tickStop_limited halt hsp hv (travel_low hle hlow))) rfl hplain
      · intro d
        exact ⟨fun hd => hhalt sp f.tickV (htick.trans (tickStop_reaches halt hsp hd)),
          fun hd hlow hhigh => hgoes hs hlimit ((htick.trans (tickStop_creeps halt hsp hd)).trans (travel_within hlow hhigh))⟩
    refine ⟨fun term hs hterm => ?_, fun t hs hover hb ht => ?_⟩
    · refine hstops (halts := fun y => plain → rests y) (.inr hs) (rate_eq f pr) (profileTick_stopping hs hterm) fun y n htick hplain => ?_
      exact hends (.inr hs) hlimit htick rfl hplain
    · refine hstops (halts := fun y => (y = t → plain → rests y) ∧ (y ≠ t → stays (driven { f with
          p := y, v := vs, tickV := 0, positive := decide (y < t), phase := .accel, latch := false, stopRate := none
          stopPoint := none, overrun := false }))) (.inl hs) (by rw [Profile.rate, hb]; rfl) (profileTick_overrun hs hover)
        fun y n htick => ⟨fun he hplain => ?_, fun hne => ?_⟩
      · exact hends (.inl hs) hlimit (htick.trans (restart_arrives ht he.symm)) rfl hplain
      · exact hgoes (.inl hs) hlimit (htick.trans (restart_starts ht hne.symm))

end Sys2Proof.Machine
end

-- ==== Sys2Proof/Proofs/Replies.lean ====
-- ==== Sys2Proof/Proofs/Replies.lean ====
section
/-! Rules for the end of an exchange: what its outcome makes of the line's presence table (R8 to R12), and the poll that follows (R13,
R14). -/

namespace Sys2Proof.Machine

variable {p q r : Part} {l : Fin 4} {x : Line}

/-! ### A line's presence table, as the blocks' work leaves it -/

/-- A line but for its reception and the position of its polling. -/
def Line.core (x : Line) : Line := { x with fifo := [], overrun := false, exchange := .idle, cycleStart := 0 }

theorem Part.Calm.core {β : Type} {f : Input → β} (h : p.Calm f q) (k : Fin 4) : (q.line k).core = (p.line k).core := by
  rw [h.lines k]
  rfl

/-- Between `p` and `q` the blocks have done their ordinary work; line `l` stands as `x` but for its reception and polling, and every
other line as before. -/
structure Part.Answers (p : Part) (l : Fin 4) (x : Line) (q : Part) : Prop where
  work : p.OnlyWork q
  own : (q.line l).core = x.core
  others : ∀ k, k ≠ l → (q.line k).core = (p.line k).core

theorem Part.Answers.refl (p : Part) (l : Fin 4) : p.Answers l (p.line l) p := ⟨.refl p, rfl, fun _ _ => rfl⟩

theorem Part.Answers.calm {β : Type} {f : Input → β} (h : p.Answers l x q) (hc : q.Calm f r) : p.Answers l x r :=
  ⟨h.work.trans hc.onlyWork, (hc.core l).trans h.own, fun k hk => (hc.core k).trans (h.others k hk)⟩

theorem Part.Answers.told (h : p.Answers l x q) (ht : q.Told r) : p.Answers l x r := h.calm (ht.calm (f := id))

/-- A change of the line that does not look at its reception. -/
theorem Part.Answers.modLine (h : p.Answers l x q) (f : Line → Line) (hf : ∀ y : Line, (f y).core = (f y.core).core) :
    p.Answers l (f x) (q.modLine l f) := by
  refine ⟨h.work.trans (.setLine _ _ _), ?_, fun k hk => ?_⟩
  · rw [Part.modLine, Part.setLine_line_self, hf, h.own, ← hf]
  · rw [Part.modLine, Part.setLine_line_ne _ hk]
    exact h.others k hk

theorem Part.Answers.congr (h : p.Answers l x q) {y : Line} (hy : x.core = y.core) : p.Answers l y q :=
  ⟨h.work, h.own.trans hy, h.others⟩

theorem stationIndex_succ (i : Fin 12) : stationIndex (i.val + 1) = i := by
  rw [stationIndex, Nat.add_sub_cancel]
  exact Fin.ext (Nat.mod_eq_of_lt i.isLt)

/-- The line with a station changed. -/
def Line.withStation (x : Line) (i : Fin 12) (st : Station) : Line := { x with stations := x.stations.set i st }

theorem modStation_eq {a : Nat} {i : Fin 12} (h : stationIndex a = i) (p : Part) (l : Fin 4) (f : Station → Station) :
    p.modStation l a f = p.modLine l (fun y => y.withStation i (f y.stations[i])) := by
  subst h
  rfl

theorem station_eq {a : Nat} {i : Fin 12} (h : stationIndex a = i) (p : Part) (l : Fin 4) : p.station l a = (p.line l).stations[i] := by
  subst h
  rfl

theorem Part.Answers.modStation (h : p.Answers l x q) (i : Fin 12) (f : Station → Station) :
    p.Answers l (x.withStation i (f x.stations[i])) (q.modStation l (i.val + 1) f) := by
  rw [modStation_eq (stationIndex_succ i)]
  exact h.modLine (fun y => y.withStation i (f y.stations[i])) (fun _ => rfl)

theorem Part.Answers.stations (h : p.Answers l x q) : (q.line l).stations = x.stations := (congrArg Line.stations h.own :)
theorem Part.Answers.record (h : p.Answers l x q) : (q.line l).record = x.record := (congrArg Line.record h.own :)
theorem Part.Answers.test (h : p.Answers l x q) : (q.line l).test = x.test := (congrArg Line.test h.own :)
theorem Part.Answers.lineFail (h : p.Answers l x q) : (q.line l).lineFail = x.lineFail := (congrArg Line.lineFail h.own :)

theorem Part.Answers.station (h : p.Answers l x q) (i : Fin 12) : q.station l (i.val + 1) = x.stations[i] := by
  rw [station_eq (stationIndex_succ i), h.stations]

theorem Line.withStation_self (x : Line) (i : Fin 12) (st : Station) : (x.withStation i st).stations[i] = st := by
  simp [Line.withStation]

theorem Line.withStation_ne (x : Line) {i j : Fin 12} (h : j ≠ i) (st : Station) : (x.withStation i st).stations[j] = x.stations[j] := by
  have : i.val ≠ j.val := fun hv => h (Fin.ext hv.symm)
  simp [Line.withStation, this]

/-! ### The poll that follows (R13, R14) -/

theorem calm_exchangeEnd (p : Part) (l : Fin 4) (a : Nat) : p.Calm (fun y : Input => y) (p.exchangeEnd l a) := by
  unfold Part.exchangeEnd
  dsimp only
  exact .ite (.refl p) (.ite (calm_pollStart _ _ _) (.ite (calm_beginCycle _ _) (calm_setLine _ _ _ rfl)))

theorem exchangeEnd_eq {a : Nat} (ht : (p.line l).test = .none) : p.exchangeEnd l a =
    if a < (p.line l).record.stations then p.pollStart l (a + 1)
    else if p.modes.mode.quick || reached p.time ((p.line l).cycleStart + 100) then p.beginCycle l
    else p.setLine l { p.line l with exchange := .waiting } := by
  rw [Part.exchangeEnd]
  refine (if_neg ?_).trans rfl
  rw [Line.testing, ht]
  decide

/-- What a poll's start shows of the line. -/
theorem pollStart_line (p : Part) (l : Fin 4) (a : Nat) : (p.pollStart l a).line l
    = { p.line l with fifo := [], overrun := false, exchange := .sending a ((p.pollStart l a).frame l a) } := by
  rw [Part.pollStart, Part.modLine, Part.setLine_line_self]
  rfl

/-- What a polling cycle's start shows of a line that is polled. -/
theorem beginCycle_line (h : p.polls l = true) : (p.beginCycle l).line l
    = { p.line l with cycleStart := p.time, fifo := [], overrun := false, exchange := .sending 1 ((p.beginCycle l).frame l 1) } := by
  rw [beginCycle_eq, if_pos h, Part.setLine_line_self]
  rfl

/-! ### A failed exchange (R9, R10) -/

theorem station_modStation (p : Part) (l : Fin 4) (a : Nat) (f : Station → Station) :
    (p.modStation l a f).station l a = f (p.station l a) := by
  rw [modStation_eq rfl, station_eq rfl, Part.modLine, Part.setLine_line_self, Line.withStation_self]
  rfl

theorem satInc_two (x : BitVec 2) : satInc x = if x = 3 then 3 else x + 1 := by
  revert x
  decide

/-- The station enters ABSENT with this failure: it was SUSPECT or UNKNOWN, and its failures have become 3 (R9). -/
def Station.leaves (st : Station) : Prop := (st.presence = .suspect ∨ st.presence = .unknown) ∧ satInc st.failures = 3

theorem exchangeFailed_present {a : Nat} (h : (p.station l a).presence = .present) (bad : Bool) : ∃ w,
    p.exchangeFailed l a bad = (((p.modStation l a (·.failed bad)).modStation l a (fun x => { x with presence := .suspect })).hand
      w).writeStationWord l a := by
  rw [Part.exchangeFailed]
  dsimp only
  rw [station_modStation p l a (·.failed bad), show ((p.station l a).failed bad).presence = .present from h]
  exact ⟨_, rfl⟩

theorem exchangeFailed_leaves {a : Nat} (h : (p.station l a).leaves) (bad : Bool) : ∃ was,
    p.exchangeFailed l a bad = ((p.modStation l a (·.failed bad)).enterAbsent l a was).writeStationWord l a := by
  obtain ⟨hpres, hcount⟩ := h
  have hthree : ((p.station l a).failed bad).failures = 3 := hcount
  rcases hpres with hpres | hpres
  · refine ⟨true, ?_⟩
    rw [Part.exchangeFailed]
    dsimp only
    rw [station_modStation p l a (·.failed bad), show ((p.station l a).failed bad).presence = .suspect from hpres]
    dsimp only
    rw [if_pos hthree]
  · refine ⟨false, ?_⟩
    rw [Part.exchangeFailed]
    dsimp only
    rw [station_modStation p l a (·.failed bad), show ((p.station l a).failed bad).presence = .unknown from hpres]
    dsimp only
    rw [if_pos hthree]

theorem exchangeFailed_stays {a : Nat} (hpres : (p.station l a).presence ≠ .present) (h : ¬ (p.station l a).leaves) (bad : Bool) :
    p.exchangeFailed l a bad = (p.modStation l a (·.failed bad)).writeStationWord l a := by
  rw [Part.exchangeFailed]
  dsimp only
  rw [station_modStation p l a (·.failed bad)]
  split
  · next hp => exact absurd hp hpres
  · next hp => exact congrArg (Part.writeStationWord · l a) (if_neg fun hcount => h ⟨.inl hp, hcount⟩)
  · next hp => exact congrArg (Part.writeStationWord · l a) (if_neg fun hcount => h ⟨.inr hp, hcount⟩)
  · rfl
  · rfl

theorem othersAbsent_iff (x : Line) (i : Fin 12) : x.othersAbsent (i.val + 1) = true ↔
    ∀ j : Fin 12, j ≠ i → j.val < x.record.stations → x.stations[j].presence = .absent := by
  rw [Line.othersAbsent, List.all_eq_true]
  refine ⟨fun h j hj hin => ?_, fun h j _ => ?_⟩
  · have hj' := h j (List.mem_finRange j)
    have : ¬ j.val = i.val := fun he => hj (Fin.ext he)
    simpa [this, Nat.not_lt.mpr (Nat.succ_le_of_lt hin)] using hj'
  · by_cases hj : j = i
    · simp [hj]
    · by_cases hin : j.val < x.record.stations
      · have : (x.stations[j].presence == .absent) = true := beq_iff_eq.mpr (h j hj hin)
        rw [this, Bool.or_true]
      · simp [Nat.lt_succ_of_le (Nat.not_lt.mp hin)]

/-- What the alert of a station that entered ABSENT keeps of it: the line has failed, or the station is lost (R10 step 3). -/
def Line.absentTold (x : Line) (i : Fin 12) : Line :=
  if x.othersAbsent (i.val + 1) then { x with lineFail := true }
  else if x.lineFail then x
  else x.withStation i { x.stations[i] with lost := true }

theorem absentAlert_answers (h : p.Answers l x q) (i : Fin 12) : p.Answers l (x.absentTold i) (q.absentAlert l (i.val + 1)) := by
  have hothers : (q.line l).othersAbsent (i.val + 1) = x.othersAbsent (i.val + 1) := by
    rw [Line.othersAbsent, Line.othersAbsent, h.record, h.stations]
  unfold Part.absentAlert Line.absentTold
  dsimp only
  rw [hothers, h.lineFail]
  split
  · exact (h.told (told_raiseAlert _ _ _ _ _)).modLine (fun y => { y with lineFail := true }) (fun _ => rfl)
  · split
    · exact h
    · exact (h.told (told_raiseAlert _ _ _ _ _)).modStation i (fun y => { y with lost := true })

theorem enterAbsent_answers (h : p.Answers l x q) (i : Fin 12) (was : Bool) :
    p.Answers l ((x.withStation i { x.stations[i] with presence := .absent }).absentTold i) (q.enterAbsent l (i.val + 1) was) := by
  have h1 := h.modStation i (fun y => { y with presence := .absent })
  unfold Part.enterAbsent
  dsimp only
  generalize q.modStation l (i.val + 1) (fun y => { y with presence := .absent }) = r at h1 ⊢
  have h2 : p.Answers l (x.withStation i { x.stations[i] with presence := .absent }) (if was then r.stationGone l (i.val + 1) else r) := by
    split
    · exact h1.calm (calm_stationGone _ _ _)
    · exact h1
  generalize (if was then r.stationGone l (i.val + 1) else r) = t at h2 ⊢
  refine absentAlert_answers ?_ i
  split
  · exact h2.told (told_hand _ _)
  · exact h2

/-- The line after a failed exchange of station `i + 1` (R9, R10). -/
def Line.afterFailure (x : Line) (i : Fin 12) (bad : Bool) (y : Line) : Prop :=
  (x.stations[i].presence = .present → y = x.withStation i { x.stations[i].failed bad with presence := .suspect })
  ∧ (x.stations[i].leaves → y = (x.withStation i { x.stations[i].failed bad with presence := .absent }).absentTold i)
  ∧ (x.stations[i].presence ≠ .present → ¬ x.stations[i].leaves → y = x.withStation i (x.stations[i].failed bad))

theorem Line.withStation_twice (x : Line) (i : Fin 12) (st st' : Station) : (x.withStation i st).withStation i st' = x.withStation i st' := by
  simp [Line.withStation]

theorem exchangeFailed_answers (h : p.Answers l x q) (i : Fin 12) (bad : Bool) :
    ∃ y, x.afterFailure i bad y ∧ p.Answers l y (q.exchangeFailed l (i.val + 1) bad) := by
  have hst := h.station i
  have h1 := h.modStation i (·.failed bad)
  by_cases hpres : x.stations[i].presence = .present
  · have hno : ¬ x.stations[i].leaves := by
      rintro ⟨hp | hp, -⟩ <;> rw [hpres] at hp <;> cases hp
    obtain ⟨w, hw⟩ := exchangeFailed_present (p := q) (l := l) (a := i.val + 1) (by rw [hst]; exact hpres) bad
    refine ⟨_, ⟨fun _ => rfl, fun hl => absurd hl hno, fun hp => absurd hpres hp⟩, ?_⟩
    rw [hw]
    have h2 := h1.modStation i (fun x => { x with presence := .suspect })
    rw [Line.withStation_self, Line.withStation_twice] at h2
    exact (h2.told (told_hand _ _)).told (told_writeStation _ _ _)
  · by_cases hl : x.stations[i].leaves
    · obtain ⟨was, hw⟩ := exchangeFailed_leaves (p := q) (l := l) (a := i.val + 1) (by rw [hst]; exact hl) bad
      refine ⟨_, ⟨fun hp => absurd hp hpres, fun _ => rfl, fun _ hn => absurd hl hn⟩, ?_⟩
      rw [hw]
      have h2 := enterAbsent_answers h1 i was
      rw [Line.withStation_self, Line.withStation_twice] at h2
      exact h2.told (told_writeStation _ _ _)
    · refine ⟨_, ⟨fun hp => absurd hp hpres, fun hy => absurd hy hl, fun _ _ => rfl⟩, ?_⟩
      rw [exchangeFailed_stays (by rw [hst]; exact hpres) (by rw [hst]; exact hl)]
      exact h1.told (told_writeStation _ _ _)

/-- A failed exchange that leaves its station short of ABSENT changes its line, and tells. -/
theorem exchangeFailed_quiet {a : Nat} (h : ¬ (p.station l a).leaves) (bad : Bool) :
    ∃ y, (p.setLine l y).Told (p.exchangeFailed l a bad) ∧ y.cycleStart = (p.line l).cycleStart := by
  have hfail : ∃ y, p.modStation l a (·.failed bad) = p.setLine l y ∧ y.cycleStart = (p.line l).cycleStart := ⟨_, rfl, rfl⟩
  obtain ⟨y, hy, hcycle⟩ := hfail
  by_cases hpres : (p.station l a).presence = .present
  · obtain ⟨w, hw⟩ := exchangeFailed_present (l := l) (a := a) hpres bad
    have hagain : ∃ z, (p.setLine l y).modStation l a (fun x => { x with presence := .suspect }) = p.setLine l z
        ∧ z.cycleStart = y.cycleStart := by
      refine ⟨_, Part.setLine_setLine _ _ _ _, ?_⟩
      rw [Part.setLine_line_self]
    obtain ⟨z, hz, hcycle'⟩ := hagain
    refine ⟨z, ?_, hcycle'.trans hcycle⟩
    rw [hw, hy, hz]
    exact (told_hand _ _).trans (told_writeStation _ _ _)
  · refine ⟨y, ?_, hcycle⟩
    rw [exchangeFailed_stays hpres h, hy]
    exact told_writeStation _ _ _

/-! ### The verdict on a reply (R6) -/

theorem judge_some {a : Nat} {fifo : List RxChar} {keys : Byte} (h : judge a fifo = some keys) :
    fifo = [BitVec.ofNat 8 a, keys, 0xFF - (BitVec.ofNat 8 a + keys)].map
      (fun d => { data := d, framing := false, mark := false, overrun := false }) := by
  unfold judge at h
  split at h
  · next u v w =>
    split at h
    · next hgood =>
      obtain ⟨ud, uf, um, uo⟩ := u
      obtain ⟨vd, vf, vm, vo⟩ := v
      obtain ⟨wd, wf, wm, wo⟩ := w
      simp only [List.all_cons, List.all_nil, Bool.and_eq_true, Bool.not_eq_true', beq_iff_eq, Bool.and_true] at hgood
      obtain ⟨⟨⟨⟨⟨rfl, rfl⟩, rfl⟩, ⟨⟨rfl, rfl⟩, rfl⟩, ⟨rfl, rfl⟩, rfl⟩, rfl⟩, hsum⟩ := hgood
      obtain rfl : vd = keys := Option.some.inj h
      have hw : wd = 0xFF - (BitVec.ofNat 8 a + vd) := by rw [← hsum, BitVec.add_comm, BitVec.add_sub_cancel]
      rw [hw]
      rfl
    · cases h
  · cases h

theorem judge_good (a : Nat) (keys : Byte) :
    judge a ([BitVec.ofNat 8 a, keys, 0xFF - (BitVec.ofNat 8 a + keys)].map
      (fun d => { data := d, framing := false, mark := false, overrun := false })) = some keys := by
  have hsum : BitVec.ofNat 8 a + keys + (0xFF - (BitVec.ofNat 8 a + keys)) = 0xFF := by
    rw [BitVec.add_comm, BitVec.sub_add_cancel]
  show (if (true && BitVec.ofNat 8 a == BitVec.ofNat 8 a && BitVec.ofNat 8 a + keys + (0xFF - (BitVec.ofNat 8 a + keys)) == 0xFF) then
    some keys else none) = some keys
  rw [hsum, beq_self_eq_true]
  rfl

/-! ### An exchange ends -/

/-- A BAD or MISS exchange, as the part at its end sees it: the line between exchanges, the outcome applied, the poll that follows. -/
theorem exec_failedExchange {s : State} {i : Fin 12} {bad : Bool} (ha : s.part.active = true)
    (hmiss : bad = false → (s.part.line l).exchange = .window (i.val + 1))
    (hbad : bad = true → (s.part.line l).exchange = .gap (i.val + 1) ∧ ∀ keys, ¬ s.part.repliesGood l (i.val + 1) keys) :
    ∃ y, y.core = (s.part.line l).core ∧ y.cycleStart = (s.part.line l).cycleStart
      ∧ exec (if bad then .replyClose l else .replyMiss l) s
        = .next (s.setPart (((s.part.setLine l y).exchangeFailed l (i.val + 1) bad).exchangeEnd l (i.val + 1))) := by
  cases bad with
  | false =>
    refine ⟨{ s.part.line l with exchange := .idle }, rfl, rfl, ?_⟩
    show Host.Outcome.next (s.setPart (match (s.part.line l).exchange with
      | .window a => if s.part.active then ((s.part.idleLine l).exchangeFailed l a false).exchangeEnd l a else s.part
      | _ => s.part)) = _
    rw [hmiss rfl]
    dsimp only
    rw [if_pos ha]
    rfl
  | true =>
    obtain ⟨hgap, hnot⟩ := hbad rfl
    have hverdict : judge (i.val + 1) (s.part.line l).fifo = none := by
      cases hj : judge (i.val + 1) (s.part.line l).fifo with
      | none => rfl
      | some keys => exact absurd ⟨hgap, judge_some hj⟩ (hnot keys)
    refine ⟨{ s.part.line l with fifo := [], exchange := .idle }, rfl, rfl, ?_⟩
    show Host.Outcome.next (s.setPart (match (s.part.line l).exchange with
      | .gap a => if s.part.active then s.part.replyClose l a else s.part
      | _ => s.part)) = _
    rw [hgap]
    dsimp only
    rw [if_pos ha, Part.replyClose, hverdict]
    have hidle : (s.part.modLine l (fun x => { x with fifo := [] })).idleLine l
        = s.part.setLine l { s.part.line l with fifo := [], exchange := .idle } := by
      rw [Part.idleLine, Part.modLine, Part.modLine, Part.setLine_line_self, Part.setLine_setLine]
    rw [hidle]

theorem exchangeEnd_setLine (p : Part) (l : Fin 4) (a : Nat) : ∃ y, p.exchangeEnd l a = p.setLine l y := by
  unfold Part.exchangeEnd
  dsimp only
  split
  · exact ⟨p.line l, (Part.setLine_self _ _).symm⟩
  · split
    · exact ⟨_, rfl⟩
    · split
      · rw [beginCycle_eq]
        split
        · exact ⟨_, rfl⟩
        · exact ⟨_, rfl⟩
      · exact ⟨_, rfl⟩

/-- The next address of the cycle is polled (R13). -/
theorem exchangeEnd_next {a : Nat} (ht : (p.line l).test = .none) (h : a < (p.line l).record.stations) :
    ((p.exchangeEnd l a).line l).exchange = .sending (a + 1) ((p.exchangeEnd l a).frame l (a + 1))
      ∧ ((p.exchangeEnd l a).line l).fifo = [] ∧ ((p.exchangeEnd l a).line l).overrun = false := by
  rw [exchangeEnd_eq ht, if_pos h, pollStart_line]
  exact ⟨rfl, rfl, rfl⟩

theorem polls_of_record (ha : p.active = true) (ht : (p.line l).test = .none) (he : (p.line l).record.enable = true)
    (hn : 1 ≤ (p.line l).record.stations) : p.polls l = true := by
  rw [Part.polls, ha, he, decide_eq_true hn, Line.testing, ht]
  rfl

/-- After the last address the next cycle begins, where the mode polls back to back or the cycle's 100 ms have passed (R14). -/
theorem exchangeEnd_cycle {a : Nat} (ha : p.active = true) (ht : (p.line l).test = .none) (he : (p.line l).record.enable = true)
    (h : a + 1 = (p.line l).record.stations) (hgo : p.modes.mode.quick = true ∨ reached p.time ((p.line l).cycleStart + 100) = true) :
    (p.exchangeEnd l (a + 1)).line l = { p.line l with
      cycleStart := p.time, fifo := [], overrun := false, exchange := .sending 1 ((p.exchangeEnd l (a + 1)).frame l 1) } := by
  rw [exchangeEnd_eq ht, if_neg (by omega), if_pos ((Bool.or_eq_true _ _).mpr hgo),
    beginCycle_line (polls_of_record ha ht he (by omega))]

theorem exchangeEnd_waits {a : Nat} (ht : (p.line l).test = .none) (h : a + 1 = (p.line l).record.stations)
    (hgo : ¬ (p.modes.mode.quick = true ∨ reached p.time ((p.line l).cycleStart + 100) = true)) :
    (p.exchangeEnd l (a + 1)).line l = { p.line l with exchange := .waiting } := by
  rw [exchangeEnd_eq ht, if_neg (by omega), if_neg (fun hc => hgo ((Bool.or_eq_true _ _).mp hc)), Part.setLine_line_self]

theorem Part.OnlyWork.active (h : p.OnlyWork q) : q.active = p.active := by
  rw [Part.active, show q.run = { p.run with attention := q.run.attention } from h.run]
  rfl

theorem Station.failed_eq (st : Station) (bad : Bool) : st.failed bad = { st with
    failures := if st.failures = 3 then 3 else st.failures + 1
    bad := if bad = true ∧ st.bad ≠ 255 then st.bad + 1 else st.bad } := by
  rw [Station.failed, satInc_two, satInc_byte]
  cases bad with
  | false => simp
  | true =>
    by_cases h : st.bad = 255#8
    · simp [h]
    · simp [h]

theorem othersAbsent_withStation (x : Line) (i : Fin 12) (st : Station) : (x.withStation i st).othersAbsent (i.val + 1) = true ↔
    ∀ j : Fin 12, j ≠ i → j.val < x.record.stations → x.stations[j].presence = .absent := by
  rw [othersAbsent_iff]
  exact forall_congr' fun j => forall_congr' fun hj => by rw [Line.withStation_ne x hj]; rfl

/-- What the alert's table keeps of a line whose station has entered ABSENT (R10 step 3). -/
theorem absentTold_shows (x : Line) (i : Fin 12) (st : Station) {others : Prop}
    (ho : others ↔ ∀ j : Fin 12, j ≠ i → j.val < x.record.stations → x.stations[j].presence = .absent) [Decidable others] :
    ((x.withStation i st).absentTold i).stations[i] = { st with lost := st.lost || decide (¬ others ∧ x.lineFail = false) }
      ∧ ((x.withStation i st).absentTold i).lineFail = (x.lineFail || decide others)
      ∧ ((x.withStation i st).absentTold i).record = x.record ∧ ((x.withStation i st).absentTold i).test = x.test
      ∧ ∀ j : Fin 12, j ≠ i → ((x.withStation i st).absentTold i).stations[j] = x.stations[j] := by
  have hfail : (x.withStation i st).lineFail = x.lineFail := rfl
  unfold Line.absentTold
  by_cases h : others
  · rw [if_pos ((othersAbsent_withStation x i st).mpr (ho.mp h))]
    refine ⟨(Line.withStation_self x i st).trans ?_, by simp [h], rfl, rfl, fun j hj => Line.withStation_ne x hj st⟩
    simp [h]
  · rw [if_neg (fun hc => h (ho.mpr ((othersAbsent_withStation x i st).mp hc))), hfail]
    cases hx : x.lineFail with
    | true =>
      refine ⟨?_, by simp [hx, hfail], rfl, rfl, fun j hj => Line.withStation_ne x hj st⟩
      rw [if_pos rfl, Line.withStation_self]
      simp
    | false =>
      rw [if_neg (by decide), Line.withStation_self, Line.withStation_twice, Line.withStation_self]
      refine ⟨by simp [h], by simp [h, hx, Line.withStation], rfl, rfl, fun j hj => Line.withStation_ne x hj _⟩

/-- Settles O49: by the outcome's table, and the poll that follows it. -/
theorem failedExchange : Obligations.FailedExchange := by
  unfold Obligations.FailedExchange
  intro l i bad s hactive hmiss hbad x st failures enters others
  obtain ⟨y0, hcore, hcycle, hexec⟩ := exec_failedExchange hactive hmiss hbad
  have h0 : s.part.Answers l x (s.part.setLine l y0) :=
    ⟨.setLine _ _ _, by rw [Part.setLine_line_self]; exact hcore, fun k hk => by rw [Part.setLine_line_ne _ hk]⟩
  obtain ⟨y, hafter, h1⟩ := exchangeFailed_answers h0 i bad
  have hstation : (s.part.setLine l y0).station l (i.val + 1) = st := h0.station i
  have hquiet (hno : ¬ st.leaves) := exchangeFailed_quiet (p := s.part.setLine l y0) (l := l) (a := i.val + 1) (by rw [hstation]; exact hno) bad
  have hleaves : st.leaves ↔ enters := by
    show _ ↔ (st.presence = .suspect ∨ st.presence = .unknown) ∧ failures = 3
    rw [Station.leaves, satInc_two]
  have hstate : y.record = x.record ∧ y.test = x.test ∧ y.stations[i] = { st with
          failures := failures
          bad := if bad = true ∧ st.bad ≠ 255 then st.bad + 1 else st.bad
          presence := if st.presence = .present then .suspect else if enters then .absent else st.presence
          lost := st.lost || decide (enters ∧ ¬ others ∧ x.lineFail = false) }
      ∧ y.lineFail = (x.lineFail || decide (enters ∧ others))
      ∧ ∀ j : Fin 12, j ≠ i → y.stations[j] = x.stations[j] := by
    obtain ⟨hpresent, hgone, hstay⟩ := hafter
    have hfailed : st.failed bad = { st with
        failures := failures, bad := if bad = true ∧ st.bad ≠ 255 then st.bad + 1 else st.bad } := Station.failed_eq st bad
    by_cases he : enters
    · have hp : st.presence ≠ .present := by
        rcases he.1 with h | h <;> rw [h] <;> decide
      obtain ⟨hst, hline, hrec, ht, hoth⟩ := absentTold_shows x i { st.failed bad with presence := .absent } (others := others) Iff.rfl
      rw [hgone (hleaves.mpr he)]
      refine ⟨hrec, ht, hst.trans ?_, hline.trans ?_, hoth⟩
      · rw [hfailed, if_neg hp, if_pos he]
        simp [he]
      · simp [he]
    · have hl : ¬ st.leaves := fun h => he (hleaves.mp h)
      by_cases hp : st.presence = .present
      · rw [hpresent hp]
        refine ⟨rfl, rfl, ?_, by simp [he, Line.withStation], fun j hj => Line.withStation_ne x hj _⟩
        rw [Line.withStation_self, hfailed, if_pos hp]
        simp [he]
      · rw [hstay hp hl]
        refine ⟨rfl, rfl, ?_, by simp [he, Line.withStation], fun j hj => Line.withStation_ne x hj _⟩
        rw [Line.withStation_self, hfailed, if_neg hp, if_neg he]
        simp [he]
  obtain ⟨hrecord, htest, hown, hfail, hothers⟩ := hstate
  generalize (s.part.setLine l y0).exchangeFailed l (i.val + 1) bad = q at h1 hexec hquiet
  have h2 := h1.calm (calm_exchangeEnd q l (i.val + 1))
  have htest' : x.test = .none → (q.line l).test = .none := fun ht => (h1.test.trans htest).trans ht
  refine ⟨_, hexec, h2.work, h2.record.trans hrecord, h2.test.trans htest, ?_, h2.lineFail.trans hfail, fun j hj => ?_, fun ht hlt => ?_,
    fun hno => ?_⟩
  · rw [← hown]
    exact congrArg (fun v : Vector Station 12 => v[i]) h2.stations
  · rw [← hothers j hj]
    exact congrArg (fun v : Vector Station 12 => v[j]) h2.stations
  · exact exchangeEnd_next (htest' ht) (by rw [h1.record, hrecord]; exact hlt)
  · obtain ⟨y1, htold, hcycle'⟩ := hquiet fun h => hno (hleaves.mp h)
    rw [Part.setLine_setLine] at htold
    rw [Part.setLine_line_self, hcycle] at hcycle'
    have hlines (k : Fin 4) : q.line k = (s.part.setLine l y1).line k := (congrArg (fun v : Vector Line 4 => v[k]) htold.lines :)
    have hmode : q.modes.mode = s.part.modes.mode := htold.working.mode
    have htime : q.time = s.part.time := htold.time
    obtain ⟨z, hz⟩ := exchangeEnd_setLine q l (i.val + 1)
    refine ⟨by rw [hz]; exact htold.inputs, by rw [hz]; exact hmode, fun k hk => ?_, fun ht hen hlast => ?_⟩
    · rw [hz, Part.setLine_line_ne _ hk, hlines k, Part.setLine_line_ne _ hk]
    · have hstart : (q.line l).cycleStart = x.cycleStart := by rw [hlines l, Part.setLine_line_self, hcycle']
      have hrec : (q.line l).record = x.record := h1.record.trans hrecord
      have hgo : (q.modes.mode.quick = true ∨ reached q.time ((q.line l).cycleStart + 100) = true) ↔
          s.part.modes.mode = .opened ∨ s.part.modes.mode = .service ∨ reached s.part.time (x.cycleStart + 100) = true := by
        rw [hmode, htime, hstart, Mode.quick_iff, or_assoc]
      split
      · next hc =>
        rw [exchangeEnd_cycle (h1.work.active.trans hactive) (htest' ht) (by rw [hrec]; exact hen) (by rw [hrec]; exact hlast) (hgo.mpr hc)]
        exact ⟨rfl, htime⟩
      · next hc =>
        rw [exchangeEnd_waits (htest' ht) (by rw [hrec]; exact hlast) (fun h => hc (hgo.mp h))]
        exact ⟨rfl, hstart⟩

/-! ### A GOOD reply (R8, R11) -/

theorem Part.Told.setLines (h : p.Told q) (x : Vector Line 4) : (p.setLines x).Told (q.setLines x) := { h with lines := rfl }

/-- Nothing but reports and lines stands between `p` and `q`. -/
def Part.LinesTold (p q : Part) : Prop := (p.setLines q.lines).Told q

theorem Part.LinesTold.refl (p : Part) : p.LinesTold p := Part.Told.refl p

theorem Part.LinesTold.told (h : p.LinesTold q) (ht : q.Told r) : p.LinesTold r := by
  have hlines : r.lines = q.lines := ht.lines
  rw [Part.LinesTold, hlines]
  exact Part.Told.trans h ht

theorem Part.LinesTold.setLine (h : p.LinesTold q) (x : Line) : p.LinesTold (q.setLine l x) := Part.Told.setLines h (q.lines.set l x)

theorem Part.LinesTold.modLine (h : p.LinesTold q) (f : Line → Line) : p.LinesTold (q.modLine l f) := h.setLine _

theorem Part.LinesTold.modStation (h : p.LinesTold q) (a : Nat) (f : Station → Station) : p.LinesTold (q.modStation l a f) := h.modLine _

theorem Part.LinesTold.trans (h : p.LinesTold q) (h' : q.LinesTold r) : p.LinesTold r := (Part.Told.setLines h r.lines).trans h'

theorem linesTold_lineFailEnd (h : p.LinesTold q) : p.LinesTold (q.lineFailEnd l) := by
  have hfold (js : List (Fin 12)) (r : Part) (hr : p.LinesTold r) : p.LinesTold (js.foldl (Part.reportAbsent l) r) := by
    induction js generalizing r with
    | nil => exact hr
    | cons i js ih =>
      refine ih _ ?_
      unfold Part.reportAbsent
      dsimp only
      split
      · exact (hr.told (told_raiseAlert _ _ _ _ _)).modStation _ _
      · exact hr
  exact hfold _ _ ((h.modLine _).told (told_condEnd _ _ _))

theorem Line.eq_of_core {x y : Line} (h : y.core = x.core) :
    y = { x with fifo := y.fifo, overrun := y.overrun, exchange := y.exchange, cycleStart := y.cycleStart } :=
  calc y = { y.core with fifo := y.fifo, overrun := y.overrun, exchange := y.exchange, cycleStart := y.cycleStart } := rfl
    _ = { x.core with fifo := y.fifo, overrun := y.overrun, exchange := y.exchange, cycleStart := y.cycleStart } := by rw [h]

theorem Line.withStation_own (x : Line) (i : Fin 12) : x.withStation i x.stations[i] = x := by
  simp [Line.withStation]

/-- A station that went ABSENT while its line had failed, once the failure has ended (R11). -/
def Station.foundLost (st : Station) : Station := if st.presence = .absent then { st with lost := true } else st

theorem Station.foundLost_twice (st : Station) : st.foundLost.foundLost = st.foundLost := by
  unfold Station.foundLost
  by_cases h : st.presence = .absent
  · rw [if_pos h]
    exact if_pos h
  · rw [if_neg h, if_neg h]

theorem reportAbsent_answers (h : p.Answers l x q) (i : Fin 12) :
    p.Answers l (x.withStation i x.stations[i].foundLost) (q.reportAbsent l i) := by
  have hst := h.station i
  unfold Part.reportAbsent
  dsimp only
  rw [hst]
  split
  · next hc =>
    rw [Station.foundLost, if_pos hc.1]
    exact (h.told (told_raiseAlert _ _ _ _ _)).modStation i (fun y => { y with lost := true })
  · next hc =>
    refine h.congr ?_
    have hsame : x.stations[i].foundLost = x.stations[i] := by
      unfold Station.foundLost
      split
      · next ha =>
        have hlost : x.stations[i].lost = true := Bool.of_not_eq_false fun hf => hc ⟨ha, hf⟩
        rw [← hlost]
      · rfl
    rw [hsame, Line.withStation_own]

/-- The line with the stations of `js` found lost where they are ABSENT. -/
theorem reportAbsents_answers (h : p.Answers l x q) (js : List (Fin 12)) :
    ∃ y, p.Answers l y (js.foldl (Part.reportAbsent l) q) ∧ y.record = x.record ∧ y.test = x.test ∧ y.lineFail = x.lineFail
      ∧ ∀ j : Fin 12, y.stations[j] = if j ∈ js then x.stations[j].foundLost else x.stations[j] := by
  induction js generalizing x q with
  | nil => exact ⟨x, h, rfl, rfl, rfl, fun j => by simp⟩
  | cons i js ih =>
    obtain ⟨y, hy, hrec, htest, hfail, hst⟩ := ih (reportAbsent_answers h i)
    refine ⟨y, hy, hrec, htest, hfail, fun j => (hst j).trans ?_⟩
    by_cases hj : j = i
    · subst hj
      rw [Line.withStation_self, Station.foundLost_twice, ite_self, if_pos List.mem_cons_self]
    · rw [Line.withStation_ne x hj]
      simp only [List.mem_cons, hj, false_or]

/-- The end of LINE_FAIL: the line is no longer failed, and its ABSENT stations are lost. -/
theorem lineFailEnd_answers (h : p.Answers l x q) :
    ∃ y, p.Answers l y (q.lineFailEnd l) ∧ y.record = x.record ∧ y.test = x.test ∧ y.lineFail = false
      ∧ ∀ j : Fin 12, y.stations[j] = x.stations[j].foundLost := by
  have h1 := (h.modLine (fun y => { y with lineFail := false }) (fun _ => rfl)).told (told_condEnd _ .lineFail (.line l))
  obtain ⟨y, hy, hrec, htest, hfail, hst⟩ := reportAbsents_answers h1 (List.finRange 12)
  exact ⟨y, hy, hrec, htest, hfail, fun j => (hst j).trans (if_pos (List.mem_finRange j))⟩

/-- The station after a GOOD reply (R8, R11). -/
def Station.answered (st : Station) : Station := { st with presence := .present, failures := 0, everPresent := true, lost := false }

/-- The work of a GOOD reply before its key sample, and the line it leaves. -/
theorem exchangeGood_answers (h : p.Answers l x q) (i : Fin 12) (keys : Byte) :
    ∃ y r, q.exchangeGood l (i.val + 1) keys = r.sample l (i.val + 1) keys ∧ q.LinesTold r ∧ p.Answers l y r
      ∧ y.record = x.record ∧ y.test = x.test ∧ y.lineFail = false ∧ y.stations[i] = x.stations[i].answered
      ∧ ∀ j : Fin 12, j ≠ i → y.stations[j] = if x.lineFail then x.stations[j].foundLost else x.stations[j] := by
  have hst := h.station i
  have h1 := h.modStation i (fun x => { x with failures := 0, everPresent := true, presence := .present })
  unfold Part.exchangeGood
  dsimp only
  rw [hst]
  have t1 := (Part.LinesTold.refl q).modStation (l := l) (i.val + 1)
    (fun x => { x with failures := 0, everPresent := true, presence := .present })
  generalize q.modStation l (i.val + 1) (fun x => { x with failures := 0, everPresent := true, presence := .present }) = q1 at h1 t1 ⊢
  obtain ⟨st, hst1⟩ : ∃ st : Station, st = { x.stations[i] with failures := 0, everPresent := true, presence := .present } := ⟨_, rfl⟩
  rw [← hst1] at h1
  have h2 : p.Answers l (x.withStation i st) (if x.stations[i].presence = .present then q1
        else q1.hand (stationRecord l (i.val + 1) (q1.station l (i.val + 1)) q1.time))
      ∧ q.LinesTold (if x.stations[i].presence = .present then q1
        else q1.hand (stationRecord l (i.val + 1) (q1.station l (i.val + 1)) q1.time)) := by
    split
    · exact ⟨h1, t1⟩
    · exact ⟨h1.told (told_hand _ _), t1.told (told_hand _ _)⟩
  generalize (if x.stations[i].presence = .present then q1
    else q1.hand (stationRecord l (i.val + 1) (q1.station l (i.val + 1)) q1.time)) = q2 at h2 ⊢
  obtain ⟨h2, t2⟩ := h2
  have h3 : p.Answers l (x.withStation i x.stations[i].answered) (if x.stations[i].lost then
        (q2.modStation l (i.val + 1) (fun x => { x with lost := false })).condEnd .stationLost (.station l (i.val + 1)) else q2)
      ∧ q.LinesTold (if x.stations[i].lost then
        (q2.modStation l (i.val + 1) (fun x => { x with lost := false })).condEnd .stationLost (.station l (i.val + 1)) else q2) := by
    split
    · have := h2.modStation i (fun x => { x with lost := false })
      rw [Line.withStation_self, Line.withStation_twice, hst1] at this
      exact ⟨this.told (told_condEnd _ _ _), (t2.modStation _ _).told (told_condEnd _ _ _)⟩
    · next hlost =>
      refine ⟨h2.congr (congrArg (fun v => (x.withStation i v).core) ?_), t2⟩
      rw [hst1, Station.answered, ← Bool.eq_false_iff.mpr hlost]
  generalize (if x.stations[i].lost then
    (q2.modStation l (i.val + 1) (fun x => { x with lost := false })).condEnd .stationLost (.station l (i.val + 1)) else q2) = q3 at h3 ⊢
  obtain ⟨h3, t3⟩ := h3
  have hfail : (q3.line l).lineFail = x.lineFail := h3.lineFail
  have hend : ∃ y, p.Answers l y (if (q3.line l).lineFail then q3.lineFailEnd l else q3) ∧ y.record = x.record ∧ y.test = x.test
      ∧ y.lineFail = false ∧ y.stations[i] = x.stations[i].answered
      ∧ ∀ j : Fin 12, j ≠ i → y.stations[j] = if x.lineFail then x.stations[j].foundLost else x.stations[j] := by
    rw [hfail]
    cases hx : x.lineFail with
    | true =>
      obtain ⟨y, hy, hrec, htest, hno, hall⟩ := lineFailEnd_answers h3
      refine ⟨y, hy, hrec, htest, hno, ?_, fun j hj => ?_⟩
      · rw [hall, Line.withStation_self]
        rfl
      · rw [hall, Line.withStation_ne x hj]
        rfl
    | false => exact ⟨_, h3, rfl, rfl, hx, Line.withStation_self _ _ _, fun j hj => Line.withStation_ne x hj _⟩
  obtain ⟨y, hy, hrec, htest, hno, hown, hothers⟩ := hend
  have t4 : q.LinesTold (if (q3.line l).lineFail then q3.lineFailEnd l else q3) := by
    split
    · exact linesTold_lineFailEnd t3
    · exact t3
  generalize (if (q3.line l).lineFail then q3.lineFailEnd l else q3) = q4 at hy t4 ⊢
  refine ⟨y, _, rfl, ?_, ?_, hrec, htest, hno, hown, hothers⟩
  · split
    · exact t4
    · exact t4.told (told_writeStation _ _ _)
  · split
    · exact hy
    · exact hy.told (told_writeStation _ _ _)

/-- A GOOD exchange, as the part at its end sees it. -/
theorem exec_goodReply {s : State} {i : Fin 12} {keys : Byte} (ha : s.part.active = true) (h : s.part.repliesGood l (i.val + 1) keys) :
    ∃ y, y.core = (s.part.line l).core ∧ exec (.replyClose l) s
      = .next (s.setPart (((s.part.setLine l y).exchangeGood l (i.val + 1) keys).exchangeEnd l (i.val + 1))) := by
  obtain ⟨hgap, hfifo⟩ := h
  refine ⟨{ s.part.line l with fifo := [], exchange := .idle }, rfl, ?_⟩
  show Host.Outcome.next (s.setPart (match (s.part.line l).exchange with
    | .gap a => if s.part.active then s.part.replyClose l a else s.part
    | _ => s.part)) = _
  rw [hgap]
  dsimp only
  rw [if_pos ha, Part.replyClose, hfifo, judge_good]
  have hidle : (s.part.modLine l (fun x => { x with fifo := [] })).idleLine l
      = s.part.setLine l { s.part.line l with fifo := [], exchange := .idle } := by
    rw [Part.idleLine, Part.modLine, Part.modLine, Part.setLine_line_self, Part.setLine_setLine]
  rw [hidle]

/-- Settles O48: the table of a GOOD reply, then the key sample, which is ordinary work, then the poll that follows. -/
theorem goodReply : Obligations.GoodReply := by
  unfold Obligations.GoodReply
  intro l i keys s hactive hgood x
  obtain ⟨y0, hcore, hexec⟩ := exec_goodReply hactive hgood
  have h0 : s.part.Answers l x (s.part.setLine l y0) :=
    ⟨.setLine _ _ _, by rw [Part.setLine_line_self]; exact hcore, fun k hk => by rw [Part.setLine_line_ne _ hk]⟩
  obtain ⟨y, r, hr, -, h1, hrecord, htest, hfail, hown, hothers⟩ := exchangeGood_answers h0 i keys
  rw [hr] at hexec
  have h2 := h1.calm (calm_sample r l (i.val + 1) keys)
  generalize r.sample l (i.val + 1) keys = q at h2 hexec
  have h3 := h2.calm (calm_exchangeEnd q l (i.val + 1))
  obtain ⟨z, hz⟩ := exchangeEnd_setLine q l (i.val + 1)
  have hrec : (q.line l).record = x.record := h2.record.trans hrecord
  have htest' : x.test = .none → (q.line l).test = .none := fun ht => (h2.test.trans htest).trans ht
  refine ⟨_, hexec, h3.work, h3.record.trans hrecord, h3.lineFail.trans hfail, h3.test.trans htest, ?_, fun j hj => ?_,
    fun k hk => Line.eq_of_core (h3.others k hk), fun ht hlt => exchangeEnd_next (htest' ht) (by rw [hrec]; exact hlt), fun ht hen hlast hmode => ?_⟩
  · exact (congrArg (fun v : Vector Station 12 => v[i]) h3.stations).trans hown
  · refine (congrArg (fun v : Vector Station 12 => v[j]) h3.stations).trans ((hothers j hj).trans ?_)
    unfold Station.foundLost
    cases x.lineFail <;> simp
  · have hquick : q.modes.mode.quick = true := by
      rw [hz] at hmode
      exact (Mode.quick_iff _).mpr hmode
    have htime : q.time = s.part.time := h2.work.time
    rw [exchangeEnd_cycle (h2.work.active.trans hactive) (htest' ht) (by rw [hrec]; exact hen) (by rw [hrec]; exact hlast) (.inl hquick)]
    exact ⟨rfl, rfl, rfl, htime⟩

end Sys2Proof.Machine
end

