-- ==== Sys2Proof/Proofs/Keys.lean ====
section
/-! Rules for a key of the input conditioner: what a flip of its debounced level and its timers make of its input (R24 to R33), with
what the gesture's delivery leaves of every other input. -/

namespace Sys2Proof.Machine

variable {p q r : Part} {i : Nat} {x y z : Input}

/-! ### Work that changes one input -/

/-- Between `p` and `q` the blocks have done their ordinary work; but for commanded lamps input `i` stands as `y`, and every other
input as before. -/
structure Part.KeyWork (p : Part) (i : Nat) (y : Input) (q : Part) : Prop where
  work : (p.setInputs q.inputs).Calm (fun u : Input => u) q
  shows : ∀ n, q.inputs[n]?.map Input.unlit = if n = i then some y.unlit else p.inputs[n]?.map Input.unlit

theorem Part.Calm.freeInputs {β : Type} {f : Input → β} (h : p.Calm f q) : (p.setInputs q.inputs).Calm (fun u : Input => u) q :=
  { h with inputs := rfl }

theorem Part.Calm.setInputs {β : Type} {f : Input → β} (h : p.Calm f q) (xs : List Input) : (p.setInputs xs).Calm f (q.setInputs xs) :=
  { h with inputs := rfl }

theorem Part.KeyWork.refl (h : p.inputs[i]? = some x) : p.KeyWork i x p where
  work := Part.Calm.refl p
  shows n := by
    split
    · next hn => rw [hn, h]; rfl
    · rfl

/-- Work that leaves every input but its lamp. -/
theorem Part.KeyWork.calm (h : p.KeyWork i y q) (hc : q.Calm Input.unlit r) : p.KeyWork i y r where
  work := (h.work.setInputs r.inputs).trans hc.freeInputs
  shows n := by
    rw [← h.shows n, ← List.getElem?_map, hc.inputs, List.getElem?_map]

theorem Part.KeyWork.told (h : p.KeyWork i y q) (ht : q.Told r) : p.KeyWork i y r := h.calm ht.calm

/-- A further change of the same input. -/
theorem Part.KeyWork.modInput (h : p.KeyWork i y q) {f : Input → Input} (hf : ∀ u : Input, u.unlit = y.unlit → (f u).unlit = z.unlit) :
    p.KeyWork i z (q.modInput i f) where
  work := (h.work.setInputs (q.modInput i f).inputs).trans (Part.Calm.refl (q.modInput i f))
  shows n := by
    have hn := h.shows n
    show (q.inputs.modify i f)[n]?.map Input.unlit = _
    rw [List.getElem?_modify]
    by_cases hi : n = i
    · rw [if_pos hi] at hn ⊢
      obtain ⟨u, hu, huy⟩ := Option.map_eq_some_iff.mp hn
      rw [hu]
      show some (if i = n then f u else u).unlit = _
      rw [if_pos hi.symm, hf u huy]
    · rw [if_neg hi] at hn ⊢
      rw [← hn]
      cases q.inputs[n]? with
      | none => rfl
      | some u =>
        show some (if i = n then f u else u).unlit = _
        rw [if_neg (Ne.symm hi)]
        rfl

/-- The changed input, as it stands after the work. -/
theorem Part.KeyWork.own (h : p.KeyWork i y q) : ∃ u, q.inputs[i]? = some u ∧ u.unlit = y.unlit :=
  Option.map_eq_some_iff.mp ((h.shows i).trans (if_pos rfl))

theorem Part.KeyWork.other (h : p.KeyWork i y q) {n : Nat} (hn : n ≠ i) : q.inputs[n]?.map Input.unlit = p.inputs[n]?.map Input.unlit :=
  (h.shows n).trans (if_neg hn)

/-- The inputs but for their lamps, as a list with one changed. -/
theorem Part.KeyWork.map_eq (h : p.KeyWork i y q) (hi : p.inputs[i]? = some x) :
    q.inputs.map Input.unlit = (p.inputs.map Input.unlit).set i y.unlit := by
  have hlt : i < (p.inputs.map Input.unlit).length := by
    rw [List.length_map]
    exact (List.getElem?_eq_some_iff.mp hi).1
  refine List.ext_getElem? fun n => ?_
  rw [List.getElem?_map, h.shows n]
  split
  · next hn => rw [hn, List.getElem?_set_self hlt]
  · next hn => rw [List.getElem?_set_ne (Ne.symm hn), List.getElem?_map]

theorem calm_deliver_unlit (p : Part) (i : Nat) (g : Gesture) (forced : Bool) (t : Time) (treat : Treatment) :
    p.Calm Input.unlit (p.deliver i g forced t treat) := calm_deliver (fun _ _ => rfl) _ _ _ _ _ _

theorem calm_deliverLater_unlit (p : Part) (i : Nat) (g : Gesture) (forced : Bool) (t : Time) :
    p.Calm Input.unlit (p.deliverLater i g forced t) := calm_deliverLater (fun _ _ => rfl) _ _ _ _ _

/-! ### The flips and the timers of a key -/

/-- The input after a release of its key (R27). -/
def Input.released (x : Input) : Input := { x with state := .up, holdDue := none, repeatDue := none, stuckDue := none, treatment := none }

/-- The input once its key is declared stuck (R30). -/
def Input.gone (x : Input) : Input := { x with state := .stuck, holdDue := none, repeatDue := none, stuckDue := none, treatment := none }

theorem releaseInput_keyWork (h : p.KeyWork i x q) (forced : Bool) : p.KeyWork i x.released (q.releaseInput i forced) := by
  have h1 : p.KeyWork i { x.stopTimers with state := .up } (q.modInput i (fun u => { u.stopTimers with state := .up })) :=
    h.modInput fun _ hu => (congrArg (fun v : Input => { v.stopTimers with state := .up }) hu :)
  have h2 := (h1.told (told_writeMap _ i)).calm (calm_deliverLater_unlit _ i .release forced
    ((q.modInput i (fun u => { u.stopTimers with state := .up })).writeMap i).time)
  exact h2.modInput fun _ hu => (congrArg (fun v : Input => { v with treatment := none }) hu :)

theorem stuckReturn_keyWork (h : p.KeyWork i x q) : p.KeyWork i { x with state := .up } (q.stuckReturn i) :=
  ((h.modInput fun _ hu => (congrArg (fun v : Input => { v with state := .up }) hu :)).told (told_writeMap _ _)).told (told_condEnd _ _ _)

theorem stuckExpire_keyWork (h : p.KeyWork i x q) (t : Time) : p.KeyWork i x.gone (q.stuckExpire i t) := by
  have h1 : p.KeyWork i x.stopTimers (q.modInput i Input.stopTimers) := h.modInput fun _ hu => (congrArg Input.stopTimers hu :)
  have h2 : p.KeyWork i x.gone (((q.modInput i Input.stopTimers).deliverLater i .release true t).modInput i
      (fun u => { u with treatment := none, state := .stuck })) :=
    (h1.calm (calm_deliverLater_unlit _ i .release true t)).modInput fun _ hu =>
      (congrArg (fun v : Input => { v with treatment := none, state := .stuck }) hu :)
  unfold Part.stuckExpire
  dsimp only
  split
  · exact (h2.told (told_writeMap _ _)).told (told_raiseAlert _ _ _ _ _)
  · exact h2.told (told_writeMap _ _)

theorem unlit_treated {u v : Input} (h : v.unlit = u.unlit) (treat : Option Treatment) :
    { v with treatment := treat }.unlit = { u with treatment := treat }.unlit :=
  (congrArg (fun w : Input => { w with treatment := treat }) h :)

theorem press_keyWork (h : p.KeyWork i y q) (hq : q.inputs[i]? = some x) :
    ∃ treat, p.KeyWork i { (x.pressed q.time).storm q.time with treatment := some treat } (q.press i) := by
  obtain ⟨u, hu⟩ : ∃ u, u = (x.pressed q.time).storm q.time := ⟨_, rfl⟩
  have h1 : p.KeyWork i u (q.modInput i (fun _ => u)) := h.modInput fun _ _ => rfl
  unfold Part.press
  rw [hq]
  dsimp only
  rw [← hu]
  generalize q.modInput i (fun _ => u) = q1 at h1 ⊢
  have h2 : p.KeyWork i u (if x.suspended.isNone && u.suspended.isSome then
      q1.raiseAlert .pressStorm (.input i) (.one u.d.zone) .info else q1) := by
    split
    · exact h1.told (told_raiseAlert _ _ _ _ _)
    · exact h1
  generalize (if x.suspended.isNone && u.suspended.isSome then
    q1.raiseAlert .pressStorm (.input i) (.one u.d.zone) .info else q1) = q2 at h2 ⊢
  have h3 : p.KeyWork i u (if u.d.attendant then q2 else q2.restNotice) := by
    split
    · exact h2
    · exact h2.told (told_restNotice _)
  generalize (if u.d.attendant then q2 else q2.restNotice) = q3 at h3 ⊢
  have h4 (woke : Bool) : p.KeyWork i u (if woke then q3.requestNow { mode := .opened, cause := .wake } else q3) := by
    split
    · exact h3.calm (calm_requestNow _ _)
    · exact h3
  exact ⟨_, (((h4 _).told (told_writeMap _ _)).modInput fun v hv => unlit_treated hv _).calm (calm_deliver_unlit _ _ _ _ _ _)⟩


/-! ### The timers' commands (R28 to R33) -/

theorem Input.stuckBy_some {due : Time} (h : ∃ d, x.stuckDue = some d ∧ reached due d = true) : ∃ d, x.stuckBy due = some d := by
  obtain ⟨d, hd, hr⟩ := h
  rw [Input.stuckBy, hd]
  exact ⟨d, if_pos hr⟩

theorem Input.stuckBy_none {due : Time} (h : ¬ ∃ d, x.stuckDue = some d ∧ reached due d = true) : x.stuckBy due = none := by
  unfold Input.stuckBy
  split
  · next d hd => exact if_neg fun hr => h ⟨d, hd, hr⟩
  · rfl

/-- A timer's command, taken at its due time on an input in one of the timer's states. -/
theorem inputTimer_due {states : List KeyState} {timer : Input → Option Time} {act : Part → Nat → Input → Time → Part} {due : Time}
    (hx : p.inputs[i]? = some x) (hs : states.contains x.state = true) (ht : timer x = some due) (hdue : p.comesDue due q) :
    p.inputTimer i states timer act = act q i x due := by
  rw [Part.inputTimer, hx]
  dsimp only
  rw [if_pos hs, ht]
  dsimp only
  rw [Part.atDue_comes hdue]

theorem inputs_of_comesDue {due : Time} (h : p.comesDue due q) : q.inputs = p.inputs := by
  obtain ⟨hq, -⟩ := Part.comesDue_eq h
  rw [hq]

/-- The hold timer's expiry (R28). -/
theorem holdExpire_keyWork {due : Time} (hx : p.inputs[i]? = some x) : p.KeyWork i
    (if (x.stuckBy due).isSome then x.gone else { x with state := .held, holdDue := none, repeatDue := some (after due x.d.repeatInterval) })
    (p.holdExpire i x due) := by
  have h := Part.KeyWork.refl hx
  unfold Part.holdExpire
  cases hs : x.stuckBy due with
  | some t => exact stuckExpire_keyWork h t
  | none =>
    refine (((h.modInput fun v hv => ?_).told (told_writeMap _ _)).calm (calm_deliverLater_unlit _ _ _ _ _))
    exact (congrArg (fun w : Input => { w with
      state := .held, holdDue := none, repeatDue := some (after due w.d.repeatInterval) }) hv :)

/-- The repeat timer's expiry (R29). -/
theorem repeatExpire_keyWork {due : Time} (hx : p.inputs[i]? = some x) : p.KeyWork i
    (if (x.stuckBy due).isSome then x.gone else { x with repeatDue := some (after due x.d.repeatInterval) }) (p.repeatExpire i x due) := by
  have h := Part.KeyWork.refl hx
  unfold Part.repeatExpire
  cases hs : x.stuckBy due with
  | some t => exact stuckExpire_keyWork h t
  | none =>
    refine (h.modInput fun v hv => ?_).calm (calm_deliverLater_unlit _ _ _ _ _)
    exact (congrArg (fun w : Input => { w with repeatDue := some (after due w.d.repeatInterval) }) hv :)

/-- Settles O51: each timer's expiry is a change of one input, with its gesture's delivery. -/
theorem keyTimers : Obligations.KeyTimers := by
  unfold Obligations.KeyTimers
  intro input s x due p hx hdue becomes stuckNow stuck
  have hp : p.inputs[input.toNat]? = some x := by rw [inputs_of_comesDue hdue]; exact hx
  have hbecomes {q : Part} {u : Input} (h : p.KeyWork input.toNat u q) : becomes q u := ⟨h.work, h.map_eq hp⟩
  have hsome (h : stuckNow) : (x.stuckBy due).isSome = true := by
    obtain ⟨d, hd⟩ := Input.stuckBy_some h
    rw [hd]
    rfl
  have hnone (h : ¬ stuckNow) : ¬ (x.stuckBy due).isSome = true := by
    rw [Input.stuckBy_none h]
    decide
  refine ⟨fun hs ht => ⟨p.holdExpire input.toNat x due, ?_, fun h => ?_, fun h => ?_⟩,
    fun hs ht => ⟨p.repeatExpire input.toNat x due, ?_, fun h => ?_, fun h => ?_⟩,
    fun hs ht => ⟨p.stuckExpire input.toNat due, ?_, hbecomes (stuckExpire_keyWork (.refl hp) due)⟩, fun ht => ?_⟩
  · exact congrArg (fun q => Host.Outcome.next (s.setPart q)) (inputTimer_due hx (by rw [hs]; rfl) ht hdue)
  · have := holdExpire_keyWork (due := due) hp
    rw [if_pos (hsome h)] at this
    exact hbecomes this
  · have := holdExpire_keyWork (due := due) hp
    rw [if_neg (hnone h)] at this
    exact hbecomes this
  · exact congrArg (fun q => Host.Outcome.next (s.setPart q)) (inputTimer_due hx (by rw [hs]; rfl) ht hdue)
  · have := repeatExpire_keyWork (due := due) hp
    rw [if_pos (hsome h)] at this
    exact hbecomes this
  · have := repeatExpire_keyWork (due := due) hp
    rw [if_neg (hnone h)] at this
    exact hbecomes this
  · refine congrArg (fun q => Host.Outcome.next (s.setPart q)) (inputTimer_due hx ?_ ht hdue)
    rcases hs with h | h <;> rw [h] <;> rfl
  · have hmod : p.inputs.modify input.toNat (fun v => { v with suspended := none }) = p.inputs.set input.toNat { x with suspended := none } := by
      rw [List.modify_eq_set_getElem?, hp]
      rfl
    have htold := (told_writeMap (p.modInput input.toNat (fun v => { v with suspended := none })) input.toNat).trans
      (told_condEnd _ .pressStorm (.input input.toNat))
    refine ⟨((p.modInput input.toNat (fun v => { v with suspended := none })).writeMap input.toNat).condEnd .pressStorm
      (.input input.toNat), ?_, ?_, htold.inputs.trans hmod⟩
    · show Host.Outcome.next (s.setPart (match s.part.inputs[input.toNat]? with
        | some x =>
          (match s.part.atTimer x.suspended with
           | some p => ((p.modInput input.toNat (fun y => { y with suspended := none })).writeMap input.toNat).condEnd .pressStorm
              (.input input.toNat)
           | none => s.part)
        | none => s.part)) = _
      rw [hx]
      dsimp only
      rw [ht, Part.atTimer_comes hdue]
    · rw [htold.inputs]
      exact htold

/-! ### The key sample (R24, R25) -/

/-- What one key state of a sample makes of its input (R25). -/
structure Input.Sampled (x : Input) (down : Bool) (now : Time) (y : Input) : Prop where
  d : y.d = x.d
  agrees : down = x.isDown → y.unlit = { x.unlit with agree := 0 }
  differs : down ≠ x.isDown → x.agree + 1 < x.d.debounce → y.unlit = { x.unlit with agree := x.agree + 1 }
  flips : down ≠ x.isDown → x.d.debounce ≤ x.agree + 1 → y.agree = 0
    ∧ (x.state = .up → y.state = .down ∧ y.pressTime = some now ∧ y.pressCount = x.pressCount + 1
      ∧ y.holdDue = some (now + BitVec.ofNat 32 x.d.holdTime)
      ∧ y.stuckDue = if x.d.stuckTime = 0 then none else some (now + BitVec.ofNat 32 (x.d.stuckTime * 1000)))
    ∧ (x.state = .down ∨ x.state = .held → y.unlit = { x.unlit with
        agree := 0, state := .up, holdDue := none, repeatDue := none, stuckDue := none, treatment := none })
    ∧ (x.state = .stuck → y.unlit = { x.unlit with agree := 0, state := .up })

theorem Input.Sampled.of_unlit {down : Bool} {now : Time} (h : x.Sampled down now y) (hz : z.unlit = y.unlit) : x.Sampled down now z where
  d := (congrArg Input.d hz :).trans h.d
  agrees hd := hz.trans (h.agrees hd)
  differs hd ha := hz.trans (h.differs hd ha)
  flips hd ha := by
    obtain ⟨hagree, hup, hdown, hstuck⟩ := h.flips hd ha
    refine ⟨(congrArg Input.agree hz :).trans hagree, fun hs => ?_, fun hs => hz.trans (hdown hs), fun hs => hz.trans (hstuck hs)⟩
    obtain ⟨h1, h2, h3, h4, h5⟩ := hup hs
    exact ⟨(congrArg Input.state hz :).trans h1, (congrArg Input.pressTime hz :).trans h2, (congrArg Input.pressCount hz :).trans h3,
      (congrArg Input.holdDue hz :).trans h4, (congrArg Input.stuckDue hz :).trans h5⟩

theorem KeyState.isDown_eq (x : Input) : x.state.isDown = x.isDown := by
  rw [KeyState.isDown, Input.isDown]
  cases x.state <;> rfl

theorem Input.storm_keeps (x : Input) (t : Time) : (x.storm t).d = x.d ∧ (x.storm t).state = x.state ∧ (x.storm t).agree = x.agree
    ∧ (x.storm t).pressTime = x.pressTime ∧ (x.storm t).pressCount = x.pressCount ∧ (x.storm t).holdDue = x.holdDue
    ∧ (x.storm t).stuckDue = x.stuckDue := by
  simp only [Input.storm]
  repeat' split
  all_goals exact ⟨rfl, rfl, rfl, rfl, rfl, rfl, rfl⟩

/-- A key state that reaches an input changes it by R25, and no other input. -/
theorem debounce_keyWork (hx : p.inputs[i]? = some x) (down : Bool) :
    ∃ y, p.KeyWork i y (p.debounce i down) ∧ x.Sampled down p.time y := by
  have hzero : p.KeyWork i { x with agree := 0 } (p.modInput i (fun v => { v with agree := 0 })) :=
    (Part.KeyWork.refl hx).modInput fun _ hv => (congrArg (fun w : Input => { w with agree := 0 }) hv :)
  have hown : (p.modInput i (fun v => { v with agree := 0 })).inputs[i]? = some { x with agree := 0 } := by
    show (p.inputs.modify i _)[i]? = _
    rw [List.getElem?_modify_eq, hx]
    rfl
  unfold Part.debounce
  rw [hx]
  dsimp only
  rw [KeyState.isDown_eq]
  split
  · next h => exact ⟨_, hzero, rfl, fun _ => rfl, fun hd => absurd h.symm hd, fun hd => absurd h.symm hd⟩
  · next h =>
    split
    · next hagree =>
      have hlate : ¬ x.agree + 1 < x.d.debounce := Nat.not_lt.mpr hagree
      unfold Part.flip
      split
      · next hs =>
        obtain ⟨treat, hpress⟩ := press_keyWork hzero hown
        obtain ⟨hd, hstate, hag, htime, hcount, hhold, hstuck⟩ := (({ x with agree := 0 } : Input).pressed p.time).storm_keeps p.time
        refine ⟨_, hpress, hd, fun he => absurd he.symm h, fun _ hlt => absurd hlt hlate, fun _ _ => ⟨hag, fun _ => ?_, ?_, ?_⟩⟩
        · exact ⟨hstate, htime, hcount, hhold, hstuck⟩
        · rw [hs]
          rintro (h | h) <;> cases h
        · rw [hs]
          exact nofun
      · next hs =>
        refine ⟨_, releaseInput_keyWork hzero false, rfl, fun he => absurd he.symm h, fun _ hlt => absurd hlt hlate,
          fun _ _ => ⟨rfl, ?_, fun _ => rfl, ?_⟩⟩ <;> (rw [hs]; exact nofun)
      · next hs =>
        refine ⟨_, releaseInput_keyWork hzero false, rfl, fun he => absurd he.symm h, fun _ hlt => absurd hlt hlate,
          fun _ _ => ⟨rfl, ?_, fun _ => rfl, ?_⟩⟩ <;> (rw [hs]; exact nofun)
      · next hs =>
        refine ⟨_, stuckReturn_keyWork hzero, rfl, fun he => absurd he.symm h, fun _ hlt => absurd hlt hlate,
          fun _ _ => ⟨rfl, ?_, ?_, fun _ => rfl⟩⟩
        · rw [hs]
          exact nofun
        · rw [hs]
          rintro (h | h) <;> cases h
      · next hs =>
        refine ⟨_, hzero, rfl, fun he => absurd he.symm h, fun _ hlt => absurd hlt hlate, fun _ _ => ⟨rfl, ?_, ?_, ?_⟩⟩
        · rw [hs]
          exact nofun
        · rw [hs]
          rintro (h | h) <;> cases h
        · rw [hs]
          exact nofun
    · next hagree =>
      refine ⟨{ x with agree := x.agree + 1 }, (Part.KeyWork.refl hx).modInput fun _ hv =>
        (congrArg (fun w : Input => { w with agree := w.agree + 1 }) hv :), rfl, fun he => absurd he.symm h, fun _ _ => rfl,
        fun _ hle => absurd hle hagree⟩

theorem Input.Sampled.from_unlit {down : Bool} {now : Time} (h : x.Sampled down now y) (hz : z.unlit = x.unlit) : z.Sampled down now y := by
  have hx : z = { x with lamp := z.lamp } := (congrArg (fun v : Input => { v with lamp := z.lamp }) hz :)
  rw [hx]
  exact ⟨h.d, h.agrees, h.differs, h.flips⟩

theorem keyInput_iff {l : Fin 4} {a : Nat} {k : Fin 8} {n : Nat} :
    p.keyInput l a k n ↔ p.inputs.findIdx? (fun x => x.d.names l a k) = some n := by
  rw [List.findIdx?_eq_some_iff_getElem]
  constructor
  · rintro ⟨⟨x, hx, hnames⟩, hbefore⟩
    obtain ⟨hlt, rfl⟩ := List.getElem?_eq_some_iff.mp hx
    exact ⟨hlt, hnames, fun j hj => by
      rw [hbefore j _ hj (List.getElem?_eq_getElem (hj.trans hlt))]
      decide⟩
  · rintro ⟨hlt, hnames, hbefore⟩
    refine ⟨⟨_, List.getElem?_eq_getElem hlt, hnames⟩, fun j y hj hy => ?_⟩
    obtain ⟨hjlt, rfl⟩ := List.getElem?_eq_some_iff.mp hy
    simpa using hbefore j hj

theorem keyInput_congr (h : q.inputs.map Input.d = p.inputs.map Input.d) {l : Fin 4} {a : Nat} {k : Fin 8} {n : Nat} :
    q.keyInput l a k n ↔ p.keyInput l a k n := by
  have hidx (r : Part) : r.inputs.findIdx? (fun x => x.d.names l a k) = (r.inputs.map Input.d).findIdx? (fun d => d.names l a k) := by
    rw [List.findIdx?_map]
    rfl
  rw [keyInput_iff, keyInput_iff, hidx, hidx, h]

/-- An input is reached by one key. -/
theorem keyInput_key {l : Fin 4} {a : Nat} {k k' : Fin 8} {n : Nat} (h : p.keyInput l a k n) (h' : p.keyInput l a k' n) : k = k' := by
  obtain ⟨⟨x, hx, hk⟩, -⟩ := h
  obtain ⟨⟨x', hx', hk'⟩, -⟩ := h'
  rw [hx] at hx'
  obtain rfl := Option.some.inj hx'
  simp only [InputDef.names, Bool.and_eq_true, beq_iff_eq] at hk hk'
  rw [← hk.2, ← hk'.2]

theorem calm_sampleKey (p : Part) (l : Fin 4) (a : Nat) (keys : Byte) (k : Fin 8) : p.Calm Input.d (p.sampleKey l a keys k) := by
  unfold Part.sampleKey
  split
  · exact calm_debounce _ _ _
  · exact .refl p

/-- What key `k` of a sample makes of input `n` (R24). -/
theorem sampleKey_shows (l : Fin 4) (a : Nat) (keys : Byte) (k : Fin 8) {n : Nat} (hx : p.inputs[n]? = some x) :
    ∃ y, (p.sampleKey l a keys k).inputs[n]? = some y ∧ (¬ p.keyInput l a k n → y.unlit = x.unlit)
      ∧ (p.keyInput l a k n → x.Sampled (keys.getLsbD k.val) p.time y) := by
  unfold Part.sampleKey
  split
  · next i hi =>
    obtain ⟨u, hu, -⟩ := (keyInput_iff.mpr hi).1
    obtain ⟨y, hwork, hsampled⟩ := debounce_keyWork hu (keys.getLsbD k.val)
    by_cases hn : n = i
    · subst hn
      rw [hx] at hu
      obtain rfl := Option.some.inj hu
      obtain ⟨v, hv, hvy⟩ := hwork.own
      exact ⟨v, hv, fun hno => absurd (keyInput_iff.mpr hi) hno, fun _ => hsampled.of_unlit hvy⟩
    · have hother := hwork.other hn
      rw [hx] at hother
      obtain ⟨v, hv, hvx⟩ := Option.map_eq_some_iff.mp hother
      refine ⟨v, hv, fun _ => hvx, fun hk => ?_⟩
      rw [keyInput_iff, hi] at hk
      exact absurd (Option.some.inj hk).symm hn
  · next hnone =>
    refine ⟨x, hx, fun _ => rfl, fun hk => ?_⟩
    rw [keyInput_iff, hnone] at hk
    cases hk

/-- The keys of a sample, each on its own input. -/
theorem sampleKeys_shows (l : Fin 4) (a : Nat) (keys : Byte) {ks : List (Fin 8)} (hks : ks.Nodup) {n : Nat} (hx : p.inputs[n]? = some x) :
    ∃ y, (ks.foldl (Part.sampleKey l a keys) p).inputs[n]? = some y ∧ ((∀ k ∈ ks, ¬ p.keyInput l a k n) → y.unlit = x.unlit)
      ∧ ∀ k ∈ ks, p.keyInput l a k n → x.Sampled (keys.getLsbD k.val) p.time y := by
  induction ks generalizing p x with
  | nil => exact ⟨x, hx, fun _ => rfl, fun k hk => nomatch hk⟩
  | cons k ks ih =>
    obtain ⟨hk, hks⟩ := List.nodup_cons.mp hks
    obtain ⟨u, hu, hmiss, hhit⟩ := sampleKey_shows l a keys k hx
    have hcalm := calm_sampleKey p l a keys k
    have hsame (k' : Fin 8) : (p.sampleKey l a keys k).keyInput l a k' n ↔ p.keyInput l a k' n := keyInput_congr hcalm.inputs
    obtain ⟨y, hy, hmiss', hhit'⟩ := ih hks hu
    refine ⟨y, hy, fun hno => ?_, fun k' hk' hin => ?_⟩
    · exact (hmiss' fun k' hk' hin => hno k' (List.mem_cons_of_mem _ hk') ((hsame k').mp hin)).trans (hmiss (hno k List.mem_cons_self))
    · rcases List.mem_cons.mp hk' with rfl | hk'
      · refine (hhit hin).of_unlit (hmiss' fun k'' hk'' hin' => ?_)
        exact hk (keyInput_key hin ((hsame k'').mp hin') ▸ hk'')
      · have hne : ¬ p.keyInput l a k n := fun h => hk (keyInput_key h hin ▸ hk')
        have := hhit' k' hk' ((hsame k').mpr hin)
        rw [hcalm.time] at this
        exact this.from_unlit (hmiss hne).symm

/-- Settles O50: a GOOD reply's sample, key by key. -/
theorem keySample : Obligations.KeySample := by
  unfold Obligations.KeySample
  intro l i keys s hactive hgood
  obtain ⟨y0, hcore, hexec⟩ := exec_goodReply hactive hgood
  have h0 : s.part.Answers l (s.part.line l) (s.part.setLine l y0) :=
    ⟨.setLine _ _ _, by rw [Part.setLine_line_self]; exact hcore, fun k hk => by rw [Part.setLine_line_ne _ hk]⟩
  obtain ⟨-, r, hr, htold, -⟩ := exchangeGood_answers h0 i keys
  obtain ⟨q, hq⟩ : ∃ q, q = r.sample l (i.val + 1) keys := ⟨_, rfl⟩
  obtain ⟨z, hz⟩ := exchangeEnd_setLine q l (i.val + 1)
  rw [hr, ← hq, hz] at hexec
  refine ⟨_, hexec, fun n x hx => ?_⟩
  have hinputs : r.inputs = s.part.inputs := htold.inputs
  have htime : r.time = s.part.time := htold.time
  have hkeys (k : Fin 8) : r.keyInput l (i.val + 1) k n ↔ s.part.keyInput l (i.val + 1) k n := keyInput_congr (by rw [hinputs])
  obtain ⟨y, hy, hmiss, hhit⟩ := sampleKeys_shows (p := r) l (i.val + 1) keys (List.nodup_finRange 8) (by rw [hinputs]; exact hx)
  have hd : y.d = x.d := by
    by_cases hk : ∃ k, r.keyInput l (i.val + 1) k n
    · obtain ⟨k, hk⟩ := hk
      exact (hhit k (List.mem_finRange k) hk).d
    · exact (congrArg Input.d (hmiss fun k _ hin => hk ⟨k, hin⟩) :)
  have hy' : q.inputs[n]? = some y := hq ▸ hy
  refine ⟨y, hy', hd, fun hno => hmiss fun k _ hin => hno k ((hkeys k).mp hin), fun k hin => ?_⟩
  · have hs := hhit k (List.mem_finRange k) ((hkeys k).mpr hin)
    rw [htime] at hs
    exact ⟨hs.agrees, hs.differs, hs.flips⟩

end Sys2Proof.Machine
end

-- ==== Sys2Proof/Proofs/ApplyGuards.lean ====
-- ==== Sys2Proof/Proofs/ApplyGuards.lean ====
section
/-! APPLY_GUARDS: each guard under its new record, by the first case that fits (R104). -/

namespace Sys2Proof.Machine

section
variable {p q r : Part} {g : Fin 8} {x : Guard}

/-! ### One guard after another -/

/-- Operations that each change one guard, in turn: each finds its own guard as it was, and no other. -/
theorem foldGuards_visits (f : Fin 8 → Part → Part) (hf : ∀ g (p : Part), ∃ y, p.Guards g y (f g p)) {l : List (Fin 8)} (hl : l.Nodup)
    (p : Part) : p.GuardWork (l.foldl (fun q g => f g q) p)
      ∧ (∀ g, g ∉ l → (l.foldl (fun q g => f g q) p).guard g = p.guard g)
      ∧ ∀ g ∈ l, ∃ q, p.GuardWork q ∧ q.guard g = p.guard g ∧ (l.foldl (fun q g => f g q) p).guard g = (f g q).guard g := by
  induction l generalizing p with
  | nil => exact ⟨(Part.Working.refl p).guardWork, fun _ _ => rfl, fun g hg => nomatch hg⟩
  | cons g l ih =>
    obtain ⟨hg, hl⟩ := List.nodup_cons.mp hl
    obtain ⟨y, hy⟩ := hf g p
    obtain ⟨hwork, hout, hin⟩ := ih hl (f g p)
    refine ⟨hy.work.trans hwork, fun k hk => ?_, fun k hk => ?_⟩
    · obtain ⟨hne, hk⟩ := not_or.mp (List.mem_cons.not.mp hk)
      exact (hout k hk).trans (hy.others k hne)
    · rcases List.mem_cons.mp hk with rfl | hk
      · exact ⟨p, (Part.Working.refl p).guardWork, rfl, hout k hg⟩
      · have hne : k ≠ g := fun h => hg (h ▸ hk)
        obtain ⟨q, hq, hsame, hend⟩ := hin k hk
        exact ⟨q, hy.work.trans hq, hsame.trans (hy.others k hne), hend⟩

/-! ### A guard under a new record -/

/-- What an application makes of guard `x`, which has its new record, `old` the one before (R104). -/
structure Guard.Applied (x : Guard) (old : GuardRecord) (now : Time) (y : Guard) : Prop where
  record : y.record = x.record
  pin : y.pin = x.pin
  off : x.record.enable = false → y.state = .clear ∧ y.filterDue = none ∧ y.clearDue = none ∧ y.acked = false ∧ y.boarded = false
  fresh : x.record.enable = true → x.state = .clear → y.filteredOpen = x.pinOpen ∧ y.filterDue = none
    ∧ y.state = (if x.pinOpen = true then .tripped else .clear)
  level : x.record.enable = true → x.state ≠ .clear →
    y.filteredOpen = ((if x.filteredOpen then old.activeHigh else !old.activeHigh) == x.record.activeHigh)
  opens : x.record.enable = true → x.state ≠ .clear →
    ((if x.filteredOpen then old.activeHigh else !old.activeHigh) == x.record.activeHigh) = true →
    y.state = .tripped ∧ y.acked = x.acked ∧ y.boarded = x.boarded
  settles : x.record.enable = true → x.state = .tripped →
    ((if x.filteredOpen then old.activeHigh else !old.activeHigh) == x.record.activeHigh) = false → x.record.clearTime ≠ 0 →
    y.state = .settling ∧ y.clearDue = some (after now x.record.clearTime)
  awaits : x.record.enable = true → x.state = .awaitAck →
    ((if x.filteredOpen then old.activeHigh else !old.activeHigh) == x.record.activeHigh) = false → y.state = .awaitAck

theorem Part.Guards.refl (h : p.guard g = x) : p.Guards g x p := ⟨(Part.Working.refl p).guardWork, h, fun _ _ => rfl⟩

theorem Part.Guards.mod (h : p.Guards g x q) (f : Guard → Guard) : p.Guards g (f x) (q.modGuard g f) := by
  have hset := h.trans (Part.Guards.setGuard q g (f (q.guard g)))
  exact ⟨hset.work, hset.guard.trans (by rw [h.guard]), hset.others⟩

/-- A disabled guard stands CLEAR with its timers and flags clear. -/
theorem guardDisabled_guards (p : Part) (g : Fin 8) : p.Guards g
    { p.guard g with state := .clear, filterDue := none, clearDue := none, acked := false, boarded := false } (p.guardDisabled g) := by
  unfold Part.guardDisabled
  dsimp only
  have hcleared : p.Guards g { p.guard g with state := .clear } (if (p.guard g).state = .clear then p
      else ((p.setGuard g { p.guard g with state := .clear }).condEnd .guardTrip (.guard g)).hand
        (guardRecord g (p.guard g).state .clear .apply p.time)) := by
    split
    · next h => exact .refl (by rw [← h])
    · exact ((Part.Guards.setGuard p g _).told (told_condEnd _ _ _)).told (told_hand _ _)
  generalize (if (p.guard g).state = .clear then p
    else ((p.setGuard g { p.guard g with state := .clear }).condEnd .guardTrip (.guard g)).hand
      (guardRecord g (p.guard g).state .clear .apply p.time)) = q at hcleared ⊢
  exact hcleared.mod (fun y => { y with filterDue := none, clearDue := none, acked := false, boarded := false })

/-- A CLEAR guard that is enabled follows its pin at once. -/
theorem guardFresh_guards (p : Part) (g : Fin 8) (cause : GuardCause) (he : (p.guard g).record.enable = true)
    (hs : (p.guard g).state = .clear) : ∃ y, p.Guards g y (p.guardFresh g cause) ∧ y.record = (p.guard g).record
      ∧ y.pin = (p.guard g).pin ∧ y.filteredOpen = (p.guard g).pinOpen ∧ y.filterDue = none
      ∧ y.state = if (p.guard g).pinOpen = true then .tripped else .clear := by
  have hset := Part.Guards.setGuard p g { p.guard g with filterDue := none, filteredOpen := (p.guard g).pinOpen }
  unfold Part.guardFresh
  dsimp only
  rw [show p.modGuard g (fun x => { x with filterDue := none, filteredOpen := x.pinOpen })
    = p.setGuard g { p.guard g with filterDue := none, filteredOpen := (p.guard g).pinOpen } from rfl]
  generalize p.setGuard g { p.guard g with filterDue := none, filteredOpen := (p.guard g).pinOpen } = q at hset ⊢
  have hopen : (q.guard g).filteredOpen = (p.guard g).pinOpen := by rw [hset.guard]
  split
  · next ho =>
    obtain ⟨⟨b, hb⟩, -⟩ := guardTrip_spec q g cause (by rw [hset.guard]; exact he)
    rw [hopen] at ho
    refine ⟨_, hset.trans hb, ?_, ?_, ?_, ?_, ?_⟩
    · rw [hset.guard]
    · rw [hset.guard]
    · rw [hset.guard]
    · rw [hset.guard]
    · rw [if_pos ho]
  · next ho =>
    rw [hopen] at ho
    exact ⟨_, hset, rfl, rfl, rfl, rfl, by rw [if_neg ho]; exact hs⟩

theorem tripActions_working (p : Part) (g : Fin 8) : p.Working (p.tripActions g) :=
  (fold_visits (fun c q => q.tripAction (p.guard g).record.cut c) (fun _ q => near_tripAction _ q) (nodup_maskChannels _) p).1

theorem returnToTripped_guards (p : Part) (g : Fin 8) (cause : GuardCause) :
    p.Guards g { p.guard g with state := .tripped, clearDue := none } (p.returnToTripped g cause) :=
  ((Part.Guards.setGuard p g _).told (modEnter_told p g (fun x => { x with clearDue := none }) .tripped cause)).working
    (tripActions_working _ g)

/-- The outcome of a guard's level, taken under its new record, before a settled clear time of 0 goes on. -/
theorem guardTakes_applied (p : Part) (g : Fin 8) (hs : (p.guard g).state ≠ .clear) : ∃ y, p.Guards g y (p.guardTakes g .apply)
      ∧ y.record = (p.guard g).record ∧ y.pin = (p.guard g).pin ∧ y.filteredOpen = (p.guard g).filteredOpen
      ∧ ((p.guard g).filteredOpen = true → y.state = .tripped ∧ y.acked = (p.guard g).acked ∧ y.boarded = (p.guard g).boarded)
      ∧ ((p.guard g).filteredOpen = false → (p.guard g).state = .tripped → (p.guard g).record.clearTime ≠ 0 →
        y.state = .settling ∧ y.clearDue = some (after p.time (p.guard g).record.clearTime))
      ∧ ((p.guard g).filteredOpen = false → (p.guard g).state = .awaitAck → y.state = .awaitAck) := by
  have hsame (hstay : (p.guard g).state = .tripped ∧ (p.guard g).filteredOpen = true
      ∨ (p.guard g).state ≠ .tripped ∧ (p.guard g).filteredOpen = false) := guardTakes_stays (cause := .apply) hstay
  cases ho : (p.guard g).filteredOpen with
  | true =>
    cases hst : (p.guard g).state with
    | clear => exact absurd hst hs
    | tripped =>
      rw [hsame (.inl ⟨hst, ho⟩)]
      exact ⟨_, .refl rfl, rfl, rfl, ho, fun _ => ⟨hst, rfl, rfl⟩, nofun, nofun⟩
    | settling =>
      rw [guardTakes_returns (.inl hst) ho]
      exact ⟨_, returnToTripped_guards p g .apply, rfl, rfl, ho, fun _ => ⟨rfl, rfl, rfl⟩, nofun, nofun⟩
    | awaitAck =>
      rw [guardTakes_returns (.inr hst) ho]
      exact ⟨_, returnToTripped_guards p g .apply, rfl, rfl, ho, fun _ => ⟨rfl, rfl, rfl⟩, nofun, nofun⟩
  | false =>
    cases hst : (p.guard g).state with
    | clear => exact absurd hst hs
    | tripped =>
      rw [guardTakes_tripped hst ho]
      by_cases hc : (p.guard g).record.clearTime = 0
      · obtain ⟨y, hy, hrec, hpin, hlevel, -⟩ := settleGuard_goes p g .apply hc
        exact ⟨y, hy, hrec, hpin, hlevel.trans ho, nofun, fun _ _ hn => absurd hc hn, nofun⟩
      · exact ⟨_, (Part.Guards.setGuard p g _).told (settleGuard_waits p g .apply hc), rfl, rfl, ho, nofun, fun _ _ _ => ⟨rfl, rfl⟩, nofun⟩
    | settling =>
      rw [hsame (.inr ⟨by rw [hst]; decide, ho⟩)]
      exact ⟨_, .refl rfl, rfl, rfl, ho, nofun, nofun, nofun⟩
    | awaitAck =>
      rw [hsame (.inr ⟨by rw [hst]; decide, ho⟩)]
      exact ⟨_, .refl rfl, rfl, rfl, ho, nofun, nofun, fun _ _ => hst⟩

theorem clearExpire_guards (p : Part) (g : Fin 8) : ∃ y, p.Guards g y (p.clearExpire g) ∧ y.record = (p.guard g).record
    ∧ y.pin = (p.guard g).pin ∧ y.filteredOpen = (p.guard g).filteredOpen := by
  by_cases h : (p.guard g).record.attended = false ∨ (p.guard g).acked = true
  · exact ⟨_, (clearExpire_clears p g h).1, rfl, rfl, rfl⟩
  · obtain ⟨ha, hn⟩ := not_or.mp h
    exact ⟨_, (Part.Guards.setGuard p g _).told (clearExpire_awaits p g (Bool.of_not_eq_false ha) (Bool.of_not_eq_true hn)), rfl, rfl, rfl⟩

/-- A guard that was not CLEAR and stays enabled takes its filtered level anew. -/
theorem guardKept_guards (p : Part) (g : Fin 8) (old : GuardRecord) (he : (p.guard g).record.enable = true)
    (hs : (p.guard g).state ≠ .clear) : ∃ y, p.Guards g y (p.guardKept g old) ∧ (p.guard g).Applied old p.time y := by
  obtain ⟨x, hx⟩ : ∃ x, x = (p.guard g).reread old p.time := ⟨_, rfl⟩
  have hread : x.record = (p.guard g).record ∧ x.pin = (p.guard g).pin ∧ x.state = (p.guard g).state ∧ x.acked = (p.guard g).acked
      ∧ x.boarded = (p.guard g).boarded ∧ x.filteredOpen =
        ((if (p.guard g).filteredOpen then old.activeHigh else !old.activeHigh) == (p.guard g).record.activeHigh) := by
    rw [hx]
    exact ⟨rfl, rfl, rfl, rfl, rfl, rfl⟩
  obtain ⟨hrec, hpin, hstate, hacked, hboarded, hlevel⟩ := hread
  have hset := Part.Guards.setGuard p g x
  have htime : (p.setGuard g x).time = p.time := rfl
  unfold Part.guardKept
  dsimp only
  rw [← hx]
  generalize p.setGuard g x = q at hset htime ⊢
  obtain ⟨y, hy, hyrec, hypin, hylevel, hopens, hsettles, hawaits⟩ := guardTakes_applied q g (by rw [hset.guard, hstate]; exact hs)
  rw [hset.guard] at hyrec hypin hylevel hopens hsettles hawaits
  rw [htime] at hsettles
  generalize q.guardTakes g .apply = r at hy ⊢
  have happlied {z : Guard} (hzrec : z.record = y.record) (hzpin : z.pin = y.pin) (hzlevel : z.filteredOpen = y.filteredOpen)
      (hz : ¬ (y.state = .settling ∧ y.record.clearTime = 0) → z = y) : (p.guard g).Applied old p.time z := by
    refine ⟨hzrec.trans (hyrec.trans hrec), hzpin.trans (hypin.trans hpin), fun hoff => absurd (he.symm.trans hoff) (by decide),
      fun _ hc => absurd hc hs, fun _ _ => hzlevel.trans (hylevel.trans hlevel), fun _ _ ho => ?_, fun _ hst ho hc => ?_, fun _ hst ho => ?_⟩
    · obtain ⟨h1, h2, h3⟩ := hopens (hlevel.trans ho)
      rw [hz (by rw [h1]; exact fun h => nomatch h.1)]
      exact ⟨h1, h2.trans hacked, h3.trans hboarded⟩
    · rw [← hrec] at hc
      obtain ⟨h1, h2⟩ := hsettles (hlevel.trans ho) (hstate.trans hst) hc
      rw [hz (by rw [hyrec]; exact fun h => hc h.2), ← hrec]
      exact ⟨h1, h2⟩
    · have h1 := hawaits (hlevel.trans ho) (hstate.trans hst)
      rw [hz (by rw [h1]; exact fun h => nomatch h.1)]
      exact h1
  have hr : p.Guards g y r := hset.trans hy
  rw [hr.guard]
  split
  · next hc =>
    obtain ⟨z, hz, hzrec, hzpin, hzlevel⟩ := clearExpire_guards r g
    rw [hr.guard] at hzrec hzpin hzlevel
    exact ⟨z, (hr.trans hz).working (tripActions_working _ _), happlied hzrec hzpin hzlevel fun h => absurd hc h⟩
  · exact ⟨y, hr.working (tripActions_working _ _), happlied rfl rfl rfl fun _ => rfl⟩

/-- A guard is handled by the first case that fits (R104). -/
theorem guardApplied_guards (old : Vector Guard 8) (g : Fin 8) (p : Part) :
    ∃ y, p.Guards g y (p.guardApplied old g) ∧ (p.guard g).Applied old[g].record p.time y := by
  unfold Part.guardApplied
  cases he : (p.guard g).record.enable with
  | false =>
    have hno {P : Prop} (h : (p.guard g).record.enable = true) : P := absurd (he.symm.trans h) (by decide)
    exact ⟨_, guardDisabled_guards p g, rfl, rfl, fun _ => ⟨rfl, rfl, rfl, rfl, rfl⟩, hno, hno, hno, hno, hno⟩
  | true =>
    rw [if_neg (by decide)]
    have hon {P : Prop} (h : (p.guard g).record.enable = false) : P := absurd (he.symm.trans h) (by decide)
    split
    · next hs =>
      obtain ⟨y, hy, hrec, hpin, hlevel, hfilter, hstate⟩ := guardFresh_guards p g .apply he hs
      exact ⟨y, hy, hrec, hpin, hon, fun _ _ => ⟨hlevel, hfilter, hstate⟩, fun _ h => absurd hs h, fun _ h => absurd hs h,
        fun _ h => absurd (hs.symm.trans h) (by decide), fun _ h => absurd (hs.symm.trans h) (by decide)⟩
    · next hs => exact guardKept_guards p g _ he hs

end

/-! ### The whole application -/

section
variable {R : Part → Part → Prop} (h : ChannelSteps R) (hg : ∀ (p : Part) g x, R p (p.setGuard g x))
include h hg

theorem ChannelSteps.clearExpire (p : Part) (g : Fin 8) : R p (p.clearExpire g) := by
  have hset : R p (p.modGuard g (fun x => { x with clearDue := none })) := hg _ _ _
  unfold Part.clearExpire
  dsimp only
  split
  · exact h.trans hset (h.guardClear hg _ _ _)
  · exact h.trans (h.trans hset (hg _ _ _)) (h.told (enterGuard_told _ _ _ _))

omit hg in
theorem ChannelSteps.tripActions (p : Part) (g : Fin 8) : R p (p.tripActions g) := h.fold _ (fun q _ => h.tripAction _ q) _ _

theorem ChannelSteps.guardTrip (p : Part) (g : Fin 8) (cause : GuardCause) : R p (p.guardTrip g cause) := by
  have htold := h.trans (hg p g _) (h.told (modEnter_told p g (fun x => { x with acked := false }) .tripped cause))
  unfold Part.guardTrip
  dsimp only
  generalize (p.modGuard g fun x => { x with acked := false }).enterGuard g .tripped cause = q at htold ⊢
  exact h.trans (h.trans (h.trans htold (h.told (told_raiseFull _ _ _ _ _))) (hg _ _ _)) (h.tripActions _ _)

theorem ChannelSteps.guardTakes (p : Part) (g : Fin 8) (cause : GuardCause) : R p (p.guardTakes g cause) := by
  have hreturn : R p (p.returnToTripped g cause) :=
    h.trans (h.trans (hg p g _) (h.told (modEnter_told p g (fun x => { x with clearDue := none }) .tripped cause))) (h.tripActions _ _)
  unfold Part.guardTakes
  split
  · exact h.guardTrip hg _ _ _
  · have hsettle := h.trans (hg p g _) (h.told (modEnter_told p g (fun x => { x with
      clearDue := some (after p.time (p.guard g).record.clearTime) }) .settling cause))
    exact Part.rel_ite (h.trans hsettle (h.clearExpire hg _ _)) hsettle
  · exact hreturn
  · exact hreturn
  · exact h.refl p

theorem ChannelSteps.guardApplied (old : Vector Guard 8) (g : Fin 8) (p : Part) : R p (p.guardApplied old g) := by
  unfold Part.guardApplied
  split
  · unfold Part.guardDisabled
    dsimp only
    refine h.trans ?_ (hg _ _ _)
    exact Part.rel_ite (h.refl p) (h.trans (h.trans (hg _ _ _) (h.told (told_condEnd _ _ _))) (h.told (told_hand _ _)))
  · split
    · unfold Part.guardFresh
      dsimp only
      exact Part.rel_ite (h.trans (hg _ _ _) (h.guardTrip hg _ _ _)) (hg _ _ _)
    · unfold Part.guardKept
      dsimp only
      have htakes := h.trans (hg p g ((p.guard g).reread old[g].record p.time)) (h.guardTakes hg _ g .apply)
      exact h.trans (Part.rel_ite (h.trans htakes (h.clearExpire hg _ _)) htakes) (h.tripActions _ _)

end

/-- Settles O36: each guard finds itself under its new record as the others leave it, and nothing after it changes a guard. -/
theorem applyGuardsReplacesRecords : Obligations.ApplyGuardsReplacesRecords := by
  unfold Obligations.ApplyGuardsReplacesRecords
  intro s l t ws v hserving hm ht hrun hlen hclean hok
  have ⟨_, _, _, hslot⟩ := hserving
  rw [exec_applyGuards hserving ht, applyGroup_applies hlen hclean hok hrun]
  obtain ⟨p0, hp0⟩ : ∃ p0, p0 = s.part.setGuards (Vector.ofFn (fun g : Fin 8 => { s.part.guards[g] with record := v[g] })) := ⟨_, rfl⟩
  have h0 : s.part.GuardWork p0 := by rw [hp0]; exact Part.Working.refl _
  have hguard (g : Fin 8) : p0.guard g = { s.part.guard g with record := v[g] } := by
    rw [hp0]
    simp [Part.guard]
  obtain ⟨hfold, -, hvisits⟩ := foldGuards_visits (Part.guardApplied s.part.guards)
    (fun g p => (guardApplied_guards s.part.guards g p).imp fun _ h => h.1) (List.nodup_finRange 8) p0
  have hgroup : s.part.applyGuardsGroup v
      = (p0.eachGuard (Part.guardApplied s.part.guards)).eachChannel (fun c r => r.leaveHeld c) := by rw [hp0]; rfl
  have hkept : s.part.SlotsKept (s.part.applyGuardsGroup v) := by
    rw [hgroup]
    have hset : s.part.SlotsKept p0 := by rw [hp0]; exact ⟨rfl, rfl⟩
    exact slotsKept.trans (slotsKept.trans hset (slotsKept.fold _ (fun q g => slotsKept.guardApplied (fun _ _ _ => ⟨rfl, rfl⟩) _ g q) _ _))
      (slotsKept.fold _ (fun q c => slotsKept.leaveHeld q) _ _)
  have hleave : (p0.eachGuard (Part.guardApplied s.part.guards)).Working
      ((p0.eachGuard (Part.guardApplied s.part.guards)).eachChannel (fun c r => r.leaveHeld c)) :=
    (eachChannel_visits (fun c r => r.leaveHeld c) (fun _ q => near_leaveHeld q) _).1
  have hvisits' (g : Fin 8) : ∃ q, p0.GuardWork q ∧ q.guard g = p0.guard g
      ∧ (p0.eachGuard (Part.guardApplied s.part.guards)).guard g = (q.guardApplied s.part.guards g).guard g :=
    hvisits g (List.mem_finRange g)
  have hwork : s.part.GuardWork (s.part.applyGuardsGroup v) := by
    rw [hgroup]
    exact (h0.trans hfold).trans hleave.guardWork
  have hend (g : Fin 8) : (s.part.applyGuardsGroup v).guard g = (p0.eachGuard (Part.guardApplied s.part.guards)).guard g := by
    rw [hgroup]
    exact hleave.guard g
  generalize p0.eachGuard (Part.guardApplied s.part.guards) = r at hvisits' hend
  generalize s.part.applyGuardsGroup v = p at hkept hwork hend ⊢
  obtain ⟨hshows, htaking, honly⟩ := endTake_ends (p := p) (hkept.hasSlot hslot) (hwork.wf hm) .complete 0
  refine ⟨_, rfl, htaking, hshows, hwork.onlyWork.trans honly.onlyWork, fun k => ?_, (honly 0).inputs.trans hwork.inputs, fun g => ?_⟩
  · have hl : (p.endTake t.slot .complete 0).lines = s.part.lines := (honly 0).lines.trans hwork.lines
    exact congrArg (fun u : Vector Line 4 => u[k]) hl
  · intro x opens
    have hout : (p.endTake t.slot .complete 0).guard g = p.guard g := congrArg (fun u : Vector Guard 8 => u[g]) (honly 0).guards
    obtain ⟨q, hq, hsame, hlast⟩ := hvisits' g
    obtain ⟨y, hy, happ⟩ := guardApplied_guards s.part.guards g q
    have htime : q.time = s.part.time := hq.time.trans h0.time
    rw [hout, hend, hlast, hy.guard]
    rw [hsame, hguard, htime] at happ
    refine ⟨happ.record, happ.pin, happ.off, fun he hs => ?_, happ.level, happ.opens, happ.settles, happ.awaits⟩
    obtain ⟨h1, h2, h3⟩ := happ.fresh he hs
    refine ⟨h1, h2, h3.trans ?_⟩
    show (if (x.pin == v[g].activeHigh) = true then _ else _) = _
    simp only [beq_iff_eq]

end Sys2Proof.Machine
end

