-- ==== Sys2Proof/Proofs/WorkSteps.lean ====
section
/-! What every operation of the blocks' ordinary work keeps, said through the steps it is made of: those on the channels, and a change
of a guard, a line, an input, a lockout, the modes or the order being taken. A relation that each of these keeps is kept by a mode change
and by a gesture's whole turn through the binding engine. -/

namespace Sys2Proof.Machine

/-- A relation between a part and a later one that every operation of the blocks' ordinary work keeps. -/
structure WorkSteps (R : Part → Part → Prop) : Prop extends ChannelSteps R where
  guard : ∀ (p : Part) g x, R p (p.setGuard g x)
  line : ∀ (p : Part) k x, R p (p.setLine k x)
  inputs : ∀ (p : Part) x, R p (p.setInputs x)
  bindings : ∀ (p : Part) x, R p (p.setBindings x)
  modes : ∀ (p : Part) x, R p (p.setModes x)
  taken : ∀ (p : Part), R p p.takePlaced

section
variable {R : Part → Part → Prop} (h : WorkSteps R) {c : Fin 8}
include h

/-! ### Modes and requests -/

theorem WorkSteps.eachLine (p : Part) (f : Fin 4 → Part → Part) (hf : ∀ l q, R q (f l q)) : R p (p.eachLine f) :=
  h.fold _ (fun q l => hf l q) _ _

theorem WorkSteps.beginCycle (k : Fin 4) (p : Part) : R p (p.beginCycle k) :=
  Part.rel_ite (h.trans (h.line _ _ _) (h.line _ _ _)) (h.line _ _ _)

theorem WorkSteps.endWait (k : Fin 4) (p : Part) : R p (Part.endWait k p) := by
  unfold Part.endWait
  split
  · exact Part.rel_ite (h.beginCycle k p) (h.refl p)
  · exact h.refl p

theorem WorkSteps.changeMode (p : Part) (n : Mode) (cause : ModeCause) : R p (p.changeMode n cause) := by
  unfold Part.changeMode
  dsimp only
  have hmode := h.modes p { p.modes with mode := n, settling := n == .rest || n == .closed }
  generalize p.setModes { p.modes with mode := n, settling := n == .rest || n == .closed } = m at hmode ⊢
  have hrecord := h.trans hmode (h.told ((told_writeModeNow m).trans (told_hand _ (modeRecord p.modes.mode n cause
    (n == .rest || n == .closed) m.writeModeNow.time))))
  have hchannels := h.trans hrecord (h.fold _ (fun q d => h.channelChange (c := d) p.modes.mode n q) (List.finRange 8) _)
  exact h.trans (h.trans hchannels (h.told ((told_settleExam _).trans (told_restEval _)))) (h.eachLine _ _ h.endWait)

theorem WorkSteps.endTake (p : Part) (i : Nat) (t : Termination) (r : Int) : R p (p.endTake i t r) :=
  h.trans (h.taken p) (h.report _ _ _ _ _)

theorem WorkSteps.requestDone (p : Part) (r : ModeRequest) (changed : Bool) : R p (p.requestDone r changed) := by
  unfold Part.requestDone
  split
  · exact Part.rel_ite (h.endTake _ _ _ _) (h.refl p)
  · exact h.refl p

theorem WorkSteps.takeRequest (p : Part) (r : ModeRequest) : R p (p.takeRequest r) :=
  Part.rel_ite (h.trans (h.changeMode _ _ _) (h.requestDone _ _ _)) (h.requestDone _ _ _)

theorem WorkSteps.requestNow (p : Part) (r : ModeRequest) : R p (p.requestNow r) :=
  h.trans (h.trans (h.modes p _) (h.fold _ h.takeRequest _ _)) (h.takeRequest _ _)

/-! ### Acknowledgement by zone -/

theorem WorkSteps.ackIndexes (z : Zone) (is : List (Fin 32)) (r : Bool × Part) : R r.2 (is.foldl (Part.ackIndex z) r).2 := by
  induction is generalizing r with
  | nil => exact h.refl _
  | cons i is ih =>
    refine h.trans ?_ (ih _)
    unfold Part.ackIndex
    split
    · split
      · exact h.ackEntry h.guard _ _ _
      · exact h.refl _
    · exact h.refl _

theorem WorkSteps.ackZone (p : Part) (z : Zone) : R p (p.ackZone z) := by
  have hzone : ∀ (q : Part) (g : Fin 8), R q (Part.zoneReport z g q) := fun q g =>
    Part.rel_ite (h.ackGuard h.guard q g) (h.refl q)
  unfold Part.ackZone
  refine Part.rel_ite (h.refl p) ?_
  dsimp only
  have hentries := h.ackIndexes z (List.finRange 32) (false, p)
  generalize (List.finRange 32).foldl (Part.ackIndex z) (false, p) = r at hentries ⊢
  have hacked : R p (r.2.eachGuard (Part.zoneReport z)) := h.trans hentries (h.fold _ hzone (List.finRange 8) _)
  exact Part.rel_ite (h.trans hacked (h.told (told_restNotice _))) hacked

/-! ### The binding engine -/

theorem WorkSteps.replaceMove (p : Part) (m : Move) : R p (p.replaceMove c m) := by
  have hreplaced : ∀ q : Part, R q (q.replaced c) := fun q => by
    unfold Part.replaced
    split
    · exact h.reportEnd _ _ _ _
    · exact h.refl q
  have hq := h.supersedeQueue (c := c) p
  unfold Part.replaceMove
  dsimp only
  split
  · exact h.trans (h.trans hq (hreplaced _)) (h.committed _ _ _ _ _ _ _)
  · exact h.trans hq (h.giveMove _ _)

theorem WorkSteps.busy (p : Part) (policy : BusyPolicy) (m : Move) : R p (p.busy c policy m).part := by
  unfold Part.busy
  split
  · exact h.refl p
  · exact h.replaceMove p m
  · dsimp only
    split
    · exact h.committed _ _ _ _ _ _ _
    · exact h.refl p

theorem WorkSteps.moveTo (p : Part) (e : Nat) (policy : BusyPolicy) (target : Int) (scale : Nat) :
    R p (p.moveTo e policy c target scale).part := by
  unfold Part.moveTo
  dsimp only
  split
  · exact h.refl p
  · split
    · dsimp only
      exact h.giveMove _ _
    · exact h.busy _ _ _

theorem WorkSteps.stepBy (p : Part) (e : Nat) (policy : BusyPolicy) (delta : Int) (scale : Nat) :
    R p (p.stepBy e policy c delta scale).part := by
  unfold Part.stepBy
  split
  · exact h.refl p
  · split
    · dsimp only
      exact h.committed _ _ _ _ _ _ _
    · split
      · dsimp only
        exact h.giveMove _ _
      · exact h.busy _ _ _

theorem WorkSteps.runHeld (p : Part) (e : Nat) (i : Byte) (target : Int) (scale : Nat) : R p (p.runHeld e i c target scale).part := by
  unfold Part.runHeld
  split
  · dsimp only
    exact h.trans (h.chan _ _ _) (h.giveMove _ _)
  · exact h.refl p

theorem WorkSteps.act (p : Part) (e : Nat) (i : Byte) (b : BindingEntry) : R p (p.act e i b).part := by
  unfold Part.act
  split
  · exact h.moveTo _ _ _ _ _
  · exact h.runHeld _ _ _ _ _
  · exact h.stepBy _ _ _ _ _
  · dsimp only
    exact h.inputs _ _
  · dsimp only
    exact h.told (told_raiseAlert _ _ _ _ _)
  · dsimp only
    exact h.ackZone _ _
  · dsimp only
    exact h.requestNow _ _

theorem WorkSteps.turn (p : Part) (e : Nat) (i : Byte) (b : BindingEntry) (r : EngineReturn) : R p (p.turn e i b r).part := by
  have hlocked : R p (p.modBinding e (fun x => { x with lockout := some (after p.time b.lockout.toNat) })) := h.bindings _ _
  unfold Part.turn
  dsimp only
  split
  · exact Part.rel_ite hlocked (h.trans hlocked (h.inputs _ _))
  · exact h.trans hlocked (h.act _ _ _ _)

theorem WorkSteps.examine (i : Byte) (g : Gesture) (mode : Mode) (r : EventResult) (e : Nat) : R r.part (r.examine i g mode e).part := by
  unfold EventResult.examine
  split
  · split
    · exact h.refl _
    · split
      · exact h.refl _
      · exact h.turn _ _ _ _ _
  · exact h.refl _

theorem WorkSteps.releaseHeld (i : Byte) (p : Part) : R p (Part.releaseHeld i c p) :=
  Part.rel_ite (h.trans (h.chan _ _ _) (h.controlledStop _ _)) (h.refl p)

theorem WorkSteps.engine (p : Part) (i : Byte) (g : Gesture) : R p (p.engine i g).part := by
  have hexamined : ∀ (es : List Nat) (r : EventResult), R r.part (es.foldl (EventResult.examine i g p.modes.mode) r).part := fun es => by
    induction es with
    | nil => exact fun r => h.refl _
    | cons e es ih => exact fun r => h.trans (h.examine i g _ r e) (ih _)
  have hheld : R p (if g = .release then p.eachChannel (Part.releaseHeld i) else p) :=
    Part.rel_ite (h.fold _ (fun q d => h.releaseHeld (c := d) i q) _ _) (h.refl p)
  unfold Part.engine
  dsimp only
  generalize (if g = .release then p.eachChannel (Part.releaseHeld i) else p) = q at hheld ⊢
  split
  · exact h.trans hheld (hexamined (List.range q.bindings.length) { part := q, ret := .nothing })
  · exact hheld

theorem WorkSteps.deliver (p : Part) (i : Nat) (g : Gesture) (forced : Bool) (t : Time) (tr : Treatment) :
    R p (p.deliver i g forced t tr) := by
  unfold Part.deliver
  split
  · exact h.refl p
  · split
    · exact h.refl p
    · exact h.told (told_handPress _ _ _ _)
    · exact h.trans (h.engine _ _ _) (h.told (told_handPress _ _ _ _))

theorem WorkSteps.deliverLater (p : Part) (i : Nat) (g : Gesture) (forced : Bool) (t : Time) : R p (p.deliverLater i g forced t) := by
  unfold Part.deliverLater
  split
  · exact h.deliver _ _ _ _ _ _
  · exact h.refl p

end

/-- The blocks' ordinary work keeps the order table's shadows, and the snapshot. -/
theorem slotsKept_work : WorkSteps Part.SlotsKept where
  toChannelSteps := slotsKept
  guard _ _ _ := ⟨rfl, rfl⟩
  line _ _ _ := ⟨rfl, rfl⟩
  inputs _ _ := ⟨rfl, rfl⟩
  bindings _ _ := ⟨rfl, rfl⟩
  modes _ _ := ⟨rfl, rfl⟩
  taken _ := ⟨rfl, rfl⟩

end Sys2Proof.Machine
end

