-- ==== Sys2Proof/Proofs/ApplyInputs.lean ====
section
/-! An application of INPUTS (R1, R7, R13, R23, R160): the old set ends, the new one is installed, and the lines with stations poll. -/

namespace Sys2Proof.Machine

section
variable {p q : Part} {l : Layout} {t : Taking} {ws : List Word}

theorem told_fold {α : Type} (f : Part → α → Part) (hf : ∀ (p : Part) a, p.Told (f p a)) (as : List α) (p : Part) :
    p.Told (as.foldl f p) := by
  induction as generalizing p with
  | nil => exact .refl p
  | cons a as ih => exact (hf p a).trans (ih _)

theorem frame_congr (hi : q.inputs = p.inputs) (hm : q.modes.mode = p.modes.mode) (ht : q.time = p.time) (k : Fin 4) (a : Nat) :
    q.frame k a = p.frame k a := by
  simp only [Part.frame, Part.displayed, hi, hm, ht]

/-! ### An operation on each line -/

/-- An operation that changes its own line alone, on each line: every line has it once, from the part as it was but for other lines. -/
theorem eachLine_visits (f : Fin 4 → Part → Part) (hf : ∀ k (p : Part), ∃ x, f k p = p.setLine k x) (p : Part) (k : Fin 4) :
    ∃ ls, (p.setLines ls).line k = p.line k ∧ (p.eachLine f).line k = (f k (p.setLines ls)).line k := by
  have hfold : ∀ (is : List (Fin 4)), is.Nodup → ∀ p : Part,
      (k ∉ is → (is.foldl (fun q i => f i q) p).line k = p.line k)
      ∧ (k ∈ is → ∃ ls, (p.setLines ls).line k = p.line k ∧ (is.foldl (fun q i => f i q) p).line k = (f k (p.setLines ls)).line k) := by
    intro is
    induction is with
    | nil => exact fun _ p => ⟨fun _ => rfl, fun hk => nomatch hk⟩
    | cons i is ih =>
      intro hnd p
      obtain ⟨hi, hnd⟩ := List.nodup_cons.mp hnd
      obtain ⟨x, hx⟩ := hf i p
      obtain ⟨hout, hin⟩ := ih hnd (f i p)
      have hother : k ≠ i → (f i p).line k = p.line k := fun hne => by rw [hx, Part.setLine_line_ne p hne]
      refine ⟨fun hk => ?_, fun hk => ?_⟩
      · obtain ⟨hne, hk⟩ := not_or.mp (List.mem_cons.not.mp hk)
        exact (hout hk).trans (hother hne)
      · rcases List.mem_cons.mp hk with rfl | hk
        · exact ⟨p.lines, rfl, hout hi⟩
        · obtain ⟨ls, hsame, hend⟩ := hin hk
          rw [List.foldl_cons, hend]
          rw [hx] at hsame ⊢
          exact ⟨ls, hsame.trans (Part.setLine_line_ne p (fun h : k = i => hi (h.symm ▸ hk)) x), rfl⟩
  exact (hfold _ (List.nodup_finRange 4) p).2 (List.mem_finRange k)

/-- Every line begins its cycle: one that is polled with the poll of address 1, another with no exchange (R13). -/
theorem beginCycles_line (p : Part) (k : Fin 4) (hidle : (p.line k).fifo = [] ∧ (p.line k).overrun = false) :
    ∃ start, (p.eachLine (fun l r => r.beginCycle l)).line k = { p.line k with
      cycleStart := start
      exchange := if p.polls k = true then .sending 1 (p.frame k 1) else .idle } := by
  obtain ⟨ls, hsame, hend⟩ := eachLine_visits (fun l r => r.beginCycle l) (fun l r => beginCycle_setLine r l) p k
  obtain ⟨hfifo, hoverrun⟩ := hidle
  have hpolls : (p.setLines ls).polls k = p.polls k := by
    rw [Part.polls, Part.polls, hsame]
    rfl
  rw [hend, beginCycle_eq, hpolls, hsame]
  split
  · refine ⟨p.time, ?_⟩
    rw [Part.setLine_line_self, ← hfifo, ← hoverrun]
    rfl
  · exact ⟨(p.line k).cycleStart, by rw [Part.setLine_line_self]⟩

/-! ### The old set ends (R1, R7, R23) -/

/-- The part as an APPLY INPUTS leaves it before it installs the new set. -/
def Part.setEnded (p : Part) : Part :=
  let q := p.eachLine Part.abandon
  let is := List.range q.inputs.length
  (((is.foldl Part.replaceRelease q |> is.foldl Part.replaceStuck) |> is.foldl Part.replaceStorm).eachLine Part.endLineConditions)

theorem applyInputsGroup_eq (p : Part) (g : InputsGroup) :
    p.applyInputsGroup g = (p.setEnded.installInputs g.lines g.defs).eachLine (fun l r => r.beginCycle l) := rfl

theorem told_endLost (k : Fin 4) (p : Part) (a : Fin 12) : p.Told (Part.endLost k p a) := by
  unfold Part.endLost
  exact .ite (told_condEnd _ _ _) (.refl p)

theorem told_endLineConditions (k : Fin 4) (p : Part) : p.Told (p.endLineConditions k) := by
  have hlost : p.Told ((List.finRange 12).foldl (Part.endLost k) p) := told_fold _ (told_endLost k) _ _
  unfold Part.endLineConditions
  exact .ite (hlost.trans (told_condEnd _ _ _)) hlost

theorem told_replaceStorm (p : Part) (i : Nat) : p.Told (p.replaceStorm i) := by
  unfold Part.replaceStorm
  split
  · exact .refl p
  · exact .ite (told_condEnd _ _ _) (.refl p)

/-- What the old set's end does, in terms of its steps. -/
theorem setEnded_induct {R : Part → Part → Prop} (hrefl : ∀ p, R p p) (htrans : ∀ p q r, R p q → R q r → R p r)
    (htold : ∀ {p q : Part}, p.Told q → R p q) (habandon : ∀ k p, R p (Part.abandon k p))
    (hinput : ∀ (p : Part) i f, R p (p.modInput i f)) (hdeliver : ∀ (p : Part) i, R p (p.deliverLater i .release true p.time)) (p : Part) :
    R p p.setEnded := by
  have hfold : ∀ {α : Type} (f : Part → α → Part), (∀ p a, R p (f p a)) → ∀ (as : List α) (p : Part), R p (as.foldl f p) :=
    fun f hf as => by
      induction as with
      | nil => exact hrefl
      | cons a as ih => exact fun p => htrans _ _ _ (hf p a) (ih _)
  have hrelease : ∀ (p : Part) i, R p (p.replaceRelease i) := fun p i => by
    unfold Part.replaceRelease
    split
    · exact hrefl p
    · split
      · exact htrans _ _ _ (hdeliver p i) (hinput _ i _)
      · exact hrefl p
  have hstuck : ∀ (p : Part) i, R p (p.replaceStuck i) := fun p i => by
    unfold Part.replaceStuck
    split
    · exact hrefl p
    · split
      · exact htrans _ _ _ (hinput p i _) (htold (told_condEnd _ _ _))
      · exact hrefl p
  obtain ⟨q, hq⟩ : ∃ q, q = p.eachLine Part.abandon := ⟨_, rfl⟩
  have habandoned : R p q := by rw [hq]; exact hfold (fun q k => Part.abandon k q) (fun p k => habandon k p) (List.finRange 4) p
  have hinputs := htrans _ _ _ (hfold _ hrelease (List.range q.inputs.length) q)
    (htrans _ _ _ (hfold _ hstuck (List.range q.inputs.length) _)
      (hfold _ (fun p i => htold (told_replaceStorm p i)) (List.range q.inputs.length) _))
  have hlines := hfold (fun q k => Part.endLineConditions k q) (fun p k => htold (told_endLineConditions k p)) (List.finRange 4)
    ((List.range q.inputs.length).foldl Part.replaceStorm
      ((List.range q.inputs.length).foldl Part.replaceStuck ((List.range q.inputs.length).foldl Part.replaceRelease q)))
  have hended := htrans _ _ _ (htrans _ _ _ habandoned hinputs) hlines
  rw [hq] at hended
  exact hended

theorem calm_setEnded (p : Part) : p.Calm (fun _ : Input => ()) p.setEnded :=
  setEnded_induct .refl (fun _ _ _ => .trans) (fun h => h.calm) (fun k p => calm_setLine p k _ rfl)
    (fun p i f => calm_modInput p i f (fun _ _ => rfl)) (fun p i => calm_deliverLater (fun _ _ => rfl) p i _ _ _) p

theorem slotsKept_setEnded (p : Part) : p.SlotsKept p.setEnded :=
  setEnded_induct slotsKept.refl (fun _ _ _ => slotsKept.trans) slotsKept.told (fun k p => slotsKept_work.line p k _)
    (fun p _ _ => slotsKept_work.inputs p _) (fun p i => slotsKept_work.deliverLater p i _ _ _) p

/-! ### The new set (R1, R7, R23) -/

/-- The lines and inputs of a new set, before its words are written. -/
def Part.withInputs (p : Part) (lines : Vector LineRecord 4) (defs : List InputDef) : Part :=
  (p.setLines (Vector.ofFn (fun l : Fin 4 => (p.line l).applied lines[l]))).setInputs (defs.map Input.fresh)

theorem told_installInputs (p : Part) (lines : Vector LineRecord 4) (defs : List InputDef) :
    (p.withInputs lines defs).Told (p.installInputs lines defs) := by
  unfold Part.installInputs
  exact (told_fold _ told_writeMap _ _).trans (told_fold _ (fun q k => told_fold _ (fun r a => told_writeStation r k a) _ q) (List.finRange 4) _)

theorem withInputs_line (p : Part) (lines : Vector LineRecord 4) (defs : List InputDef) (k : Fin 4) :
    (p.withInputs lines defs).line k = (p.line k).applied lines[k] := by
  simp [Part.withInputs, Part.line, Part.setLines, Part.setInputs]

/-- What a line with a new record shows of each station's presence (R7). -/
theorem Line.applied_station (x : Line) (r : LineRecord) (a : Fin 12) : (x.applied r).stations[a] =
    { presence := if r.enable = true ∧ a.val < r.stations then .unknown else .disabled
      failures := 0, bad := 0, everPresent := false, lost := false } := by
  simp [Line.applied, Station.rebuilt, Station.disabled]

/-- A part under a new set of lines and inputs, its cycles begun. -/
structure Part.InputsApplied (p : Part) (lines : Vector LineRecord 4) (defs : List InputDef) (q : Part) : Prop where
  only : p.OnlyWork q
  inputs : q.inputs = defs.map Input.fresh
  orders : q.orders = p.orders
  guards : q.guards = p.guards
  slots : p.SlotsKept q
  lines : ∀ k : Fin 4, ∃ start, q.line k = { (p.line k).applied lines[k] with
    cycleStart := start
    exchange := if p.active = true ∧ lines[k].enable = true ∧ 1 ≤ lines[k].stations then .sending 1 (q.frame k 1) else .idle }

theorem installInputs_applied (p : Part) (lines : Vector LineRecord 4) (defs : List InputDef) :
    p.InputsApplied lines defs ((p.installInputs lines defs).eachLine (fun l r => r.beginCycle l)) := by
  have hnew : p.OnlyWork (p.withInputs lines defs) :=
    (Part.OnlyWork.setLines p _).trans (.setInputs _ _)
  have hline := withInputs_line p lines defs
  have htold := told_installInputs p lines defs
  have hslots : p.SlotsKept (p.installInputs lines defs) :=
    slotsKept.trans (q := p.withInputs lines defs) ⟨rfl, rfl⟩ (slotsKept.told htold)
  have hinputs : (p.withInputs lines defs).inputs = defs.map Input.fresh := rfl
  have horders : (p.withInputs lines defs).orders = p.orders := rfl
  have hguards : (p.withInputs lines defs).guards = p.guards := rfl
  have hact : (p.withInputs lines defs).active = p.active := rfl
  generalize p.withInputs lines defs = w at hnew hline htold hinputs horders hguards hact
  generalize p.installInputs lines defs = r at htold hslots
  have hrline (k : Fin 4) : r.line k = (p.line k).applied lines[k] :=
    (congrArg (fun v : Vector Line 4 => v[k]) htold.lines).trans (hline k)
  have hractive : r.active = p.active := by rw [htold.onlyWork.active, hact]
  have hpolls (k : Fin 4) : r.polls k = true ↔ p.active = true ∧ lines[k].enable = true ∧ 1 ≤ lines[k].stations := by
    rw [polls_iff, hrline, hractive]
    simp [Line.applied]
  obtain ⟨ls, hls⟩ := eachLine_setLines (fun l r => r.beginCycle l) (fun l r => beginCycle_setLine r l) r
  have hcycles := beginCycles_line r
  rw [hls] at hcycles ⊢
  refine ⟨(hnew.trans htold.onlyWork).trans (.setLines r ls), htold.inputs.trans hinputs, htold.orders.trans horders,
    htold.guards.trans hguards, slotsKept.trans hslots ⟨rfl, rfl⟩, fun k => ?_⟩
  obtain ⟨start, hk⟩ := hcycles k (by rw [hrline]; exact ⟨rfl, rfl⟩)
  refine ⟨start, hk.trans ?_⟩
  rw [hrline]
  exact congrArg (fun e => { (p.line k).applied lines[k] with cycleStart := start, exchange := e })
    (ite_congr (propext (hpolls k)) (fun _ => rfl) (fun _ => rfl))

/-! ### The order -/

theorem Part.anyTest_iff (p : Part) : p.anyTest = true ↔ ∃ k, (p.line k).test ≠ .none := by
  simp only [Part.anyTest, List.any_eq_true, Vector.mem_toList_iff, Vector.mem_iff_getElem, Line.testing_iff]
  constructor
  · rintro ⟨x, ⟨i, hi, rfl⟩, hx⟩
    exact ⟨⟨i, hi⟩, hx⟩
  · rintro ⟨k, hk⟩
    exact ⟨p.line k, ⟨k.val, k.isLt, rfl⟩, hk⟩

end

/-- Settles O35: the old set ends within the blocks' ordinary work, the new one is installed, and the lines with stations poll; or,
with a test in progress, the order waits. -/
theorem applyInputsReplacesSet : Obligations.ApplyInputsReplacesSet := by
  unfold Obligations.ApplyInputsReplacesSet
  intro s l t ws g hserving hm ht hrun hlen hclean hok
  have ⟨hactive, _, _, hslot⟩ := hserving
  rw [exec_applyInputs hserving ht, applyGroup_applies hlen hclean hok hrun, Part.applyInputsOrder]
  by_cases htest : ∃ k, (s.part.line k).test ≠ .none
  · rw [if_pos (s.part.anyTest_iff.mpr htest)]
    exact ⟨_, rfl, rfl, fun hnone => htest.elim fun k hk => absurd (hnone k) hk, fun _ => rfl⟩
  · rw [if_neg (s.part.anyTest_iff.not.mpr htest), applyInputsGroup_eq]
    have hcalm := calm_setEnded s.part
    have hkept := slotsKept_setEnded s.part
    generalize s.part.setEnded = e at hcalm hkept
    have happlied := installInputs_applied e g.lines g.defs
    generalize (e.installInputs g.lines g.defs).eachLine (fun l r => r.beginCycle l) = r at happlied
    have honlyWork := hcalm.onlyWork.trans happlied.only
    obtain ⟨hshows, htaking, honly⟩ := endTake_ends ((slotsKept.trans hkept happlied.slots).hasSlot hslot) (honlyWork.mem hm) .complete 0
    have hguard (k : Fin 8) : ((r.endTake t.slot .complete 0).guard k) = e.guard k :=
      congrArg (fun v : Vector Guard 8 => v[k]) ((honly 0).guards.trans happlied.guards)
    have hline (k : Fin 4) : ((r.endTake t.slot .complete 0).line k) = r.line k := congrArg (fun v : Vector Line 4 => v[k]) (honly 0).lines
    have hframe (k : Fin 4) := frame_congr (p := r) (honly 0).inputs ((congrArg Modes.mode (honly 0).modes :)) (honly 0).time k 1
    have heactive : e.active = true := by rw [hcalm.onlyWork.active, hactive]
    refine ⟨_, rfl, htaking, fun _ => ⟨hshows, (honly 0).inputs.trans happlied.inputs, honlyWork.trans honly.onlyWork,
      fun k => ?_, fun k => ?_⟩, fun h => absurd h htest⟩
    · rw [hguard, hcalm.guards k]
      exact ⟨rfl, rfl⟩
    · obtain ⟨start, hk⟩ := happlied.lines k
      rw [hline, hframe, hk]
      refine ⟨rfl, rfl, rfl, rfl, rfl, rfl, fun a => Line.applied_station (e.line k) g.lines[k] a, ?_⟩
      exact ite_congr (propext ⟨fun h => h.2, fun h => ⟨heactive, h⟩⟩) (fun _ => rfl) (fun _ => rfl)

end Sys2Proof.Machine
end

