-- ==== Sys2Proof/Proofs/OrderScan.lean ====
section
/-! The scan of the order table at entry to RUNNING (R163), slot by slot. -/

namespace Sys2Proof.Machine

section
variable {p q r : Part} {l : Layout} {i n : Nat}

/-! ### What a scan leaves of the rest -/

/-- Reads and reports of the order table stand between `p` and `q`: what the blocks hold besides it stands. -/
structure Part.Scans (p q : Part) : Prop where
  run : q.run = { p.run with attention := q.run.attention }
  runstate : q.run.attention.runstate = p.run.attention.runstate
  time : q.time = p.time
  clock : q.clock = p.clock
  lines : q.lines = p.lines
  inputs : q.inputs = p.inputs
  bindings : q.bindings = p.bindings
  guards : q.guards = p.guards
  modes : q.modes = { p.modes with settling := q.modes.settling, restDue := q.modes.restDue }
  empty : q.journal.empty = p.journal.empty
  chans : ∀ c, (q.chan c).view = (p.chan c).view
  mem : Memory.wf p.mem → Memory.wf q.mem

theorem Part.Scans.refl (p : Part) : p.Scans p := ⟨rfl, rfl, rfl, rfl, rfl, rfl, rfl, rfl, rfl, rfl, fun _ => rfl, id⟩

theorem Part.Scans.trans (h1 : p.Scans q) (h2 : q.Scans r) : p.Scans r where
  run := by rw [h2.run, h1.run]
  runstate := h2.runstate.trans h1.runstate
  time := h2.time.trans h1.time
  clock := h2.clock.trans h1.clock
  lines := h2.lines.trans h1.lines
  inputs := h2.inputs.trans h1.inputs
  bindings := h2.bindings.trans h1.bindings
  guards := h2.guards.trans h1.guards
  modes := by rw [h2.modes, h1.modes]
  empty := h2.empty.trans h1.empty
  chans c := (h2.chans c).trans (h1.chans c)
  mem := h2.mem ∘ h1.mem

theorem Part.Told.scans (h : p.Told q) : p.Scans q :=
  ⟨h.run, h.runstate, h.time, h.clock, h.lines, h.inputs, h.bindings, h.guards, h.modes, h.empty, fun c => view_told h c, h.mem⟩

theorem scans_setOrders (p : Part) (o : Orders) : p.Scans (p.setOrders o) :=
  ⟨rfl, rfl, rfl, rfl, rfl, rfl, rfl, rfl, rfl, rfl, fun _ => rfl, id⟩

theorem scans_report (p : Part) (i : Nat) (st : SlotState) (code : Nat) (res : Int) : p.Scans (p.report i st code res) := by
  have h := near_report (c := 0) p i st code res
  exact ⟨h.run, h.runstate, h.time, h.clock, h.lines, h.inputs, h.bindings, h.guards, h.modes, h.empty,
    fun c => view_report p i st code res c, h.mem⟩

theorem scans_readWord (p : Part) (agent : Agent) (a : Nat) : p.Scans (p.readWord agent a).part := by
  by_cases hread : (p.mem.cell a).readable
  · rcases hread with hc | ⟨b, hc⟩
    · simp only [Part.readWord, hc]
      exact .refl p
    · have hstore : p.Scans ((p.storeGood a (p.mem.cell a).data).setProt
          ((p.storeGood a (p.mem.cell a).data).prot.noteCorrected (p.storeGood a (p.mem.cell a).data).run.captureLast a)) :=
        ⟨rfl, rfl, rfl, rfl, rfl, rfl, rfl, rfl, rfl, rfl, fun _ => rfl, Memory.store_wf _ _ _⟩
      have hpart : (p.readWord agent a).part = p.correctedRead agent a (p.mem.cell a).data := by simp only [Part.readWord, hc]
      rw [hpart]
      exact hstore.trans (told_correctedRead p agent a _).scans
  · have hspoilt : (p.mem.cell a).spoilt := by
      by_contra hno
      exact hread ((Cell.not_spoilt_iff _).mp hno)
    have hnote : p.Scans ((p.setProt (p.prot.noteUncorrected p.run.captureLast a)).attendMemerr) :=
      ⟨rfl, rfl, rfl, rfl, rfl, rfl, rfl, rfl, rfl, rfl, fun _ => rfl, id⟩
    rw [(readWord_spoilt hspoilt).2]
    exact hnote.trans (told_uncorrectedRead p agent a).scans

/-! ### Words and slots beside the one that is reported -/

theorem Part.mends.refl (p : Part) (x : Nat) : p.mends p x := .inl rfl

/-- A report changes words of its own slot and of the regions of reports, and no other. -/
theorem cell_report_out (h : p.hasSlot l i) (st : SlotState) (code : Nat) (res : Int) {x : Nat}
    (hx : x < l.orders + 8 * i ∨ l.orders + 8 * i + 8 ≤ x) (hr : p.reportWord x = false) :
    (p.report i st code res).mem.cell x = p.mem.cell x := by
  have hstate := (h.writeSlotResult i res).writeSlot_eq_writeAll 0 [word (st.code + 256 * code)]
  have hresult := h.writeSlot_eq_writeAll 6 (intWords res)
  have htold := told_hand (((p.writeSlotResult i res).writeSlotState i st code).modSlot i (fun s => { s with shadow := .reported }))
    (slotRecord i (recordKind st code ((((p.writeSlotResult i res).writeSlotState i st code).modSlot i
      (fun s => { s with shadow := .reported })).slot i).kind) (st == .refused) code ((((p.writeSlotResult i res).writeSlotState i st code).modSlot i
      (fun s => { s with shadow := .reported })).slot i).tag res
      (((p.writeSlotResult i res).writeSlotState i st code).modSlot i (fun s => { s with shadow := .reported })).time)
  have hrun : ((p.writeSlotResult i res).writeSlotState i st code).run = p.run := by
    obtain ⟨m, arm, he⟩ := writeSlot_eq p i 6 (intWords res)
    obtain ⟨m', arm', he'⟩ := writeSlot_eq (p.writeSlotResult i res) i 0 [word (st.code + 256 * code)]
    rw [Part.writeSlotState, he', Part.writeSlotResult, he]
    rfl
  refine (htold.words x ?_).trans ?_
  · show Part.reportWord _ x = false
    rw [← hr]
    simp only [Part.reportWord, Part.modSlot, Part.setOrders, hrun]
  · show ((p.writeSlotResult i res).writeSlotState i st code).mem.cell x = p.mem.cell x
    have hlen : (intWords res).length = 2 := rfl
    rw [Part.writeSlotState, hstate, cell_writeAll_out _ _ _ _ (fun k hk => by simp only [List.length_singleton] at hk; omega),
      Part.writeSlotResult, hresult]
    exact cell_writeAll_out _ _ _ _ (fun k hk => by omega)

theorem slot_report_ne (p : Part) {j : Nat} (hj : j ≠ i) (st : SlotState) (code : Nat) (res : Int) :
    (p.report i st code res).slot j = p.slot j := by
  rw [Part.slot, orders_report]
  simp [Part.slot, Ne.symm hj]

theorem slot_modSlot_ne (p : Part) {j : Nat} (hj : j ≠ i) (f : Slot → Slot) : (p.modSlot i f).slot j = p.slot j := by
  simp [Part.slot, Part.modSlot, Ne.symm hj]

/-- A slot shows what it showed, where its words stand or are mended. -/
theorem Part.SlotShows.mended {st : SlotState} {code : Nat} {res : Int} (h : p.SlotShows l i st code res)
    (hw : ∀ k, k < 8 → p.mends q (l.orders + 8 * i + k)) (hs : q.slot i = p.slot i) : q.SlotShows l i st code res where
  w0 := (hw 0 (by decide)).written.trans h.w0
  w6 := (hw 6 (by decide)).written.trans h.w6
  w7 := (hw 7 (by decide)).written.trans h.w7
  shadow := by rw [hs]; exact h.shadow

/-! ### One slot (R163) -/

/-- Word w0 of slot `i`, which holds its state. -/
def Part.slotCell (p : Part) (l : Layout) (i : Nat) : Cell := p.mem.cell (l.orders + 8 * i)

/-- The state that slot `i` shows. -/
def Part.shows (p : Part) (l : Layout) (i : Nat) : Byte := lowByte (p.slotCell l i).written

/-- Slot `i` can be read and shows POSTED. -/
def Part.posted (p : Part) (l : Layout) (i : Nat) : Prop := (p.slotCell l i).readable ∧ p.shows l i = 1

/-- What the scan makes of slot `i` of part `p` in part `q` (R163). -/
structure Part.SlotScanned (p : Part) (l : Layout) (i : Nat) (q : Part) : Prop where
  posted : (p.slotCell l i).readable → p.shows l i = 1 → (q.slot i).shadow = .queued
  taken : (p.slotCell l i).readable → p.shows l i = 2 → q.SlotShows l i .finished 10 0
  left : (¬ (p.slotCell l i).readable ∨ p.shows l i ≠ 1 ∧ p.shows l i ≠ 2) →
    (q.slot i).shadow = .idle ∧ (q.slotCell l i).written = (p.slotCell l i).written

theorem Part.SlotScanned.mended (h : p.SlotScanned l i q) (hw : ∀ k, k < 8 → q.mends r (l.orders + 8 * i + k)) (hs : r.slot i = q.slot i) :
    p.SlotScanned l i r where
  posted hr hp := by rw [hs]; exact h.posted hr hp
  taken hr ht := (h.taken hr ht).mended hw hs
  left ho := by
    obtain ⟨hidle, hwritten⟩ := h.left ho
    exact ⟨by rw [hs]; exact hidle, (hw 0 (by decide)).written.trans hwritten⟩

/-- A slot scanned from a part whose word was the same, or mended since. -/
theorem Part.SlotScanned.of_mends (hm : p.mends q (l.orders + 8 * i)) (h : q.SlotScanned l i r) : p.SlotScanned l i r := by
  have hread : (q.slotCell l i).readable ↔ (p.slotCell l i).readable := hm.readable
  have hwritten : (q.slotCell l i).written = (p.slotCell l i).written := hm.written
  have hshows : q.shows l i = p.shows l i := congrArg lowByte hwritten
  refine ⟨fun hr hp => h.posted (hread.mpr hr) (hshows.trans hp), fun hr ht => h.taken (hread.mpr hr) (hshows.trans ht), fun ho => ?_⟩
  rw [← hwritten]
  exact h.left (by rw [hread, hshows]; exact ho)

theorem Part.posted_of_mends (hm : p.mends q (l.orders + 8 * i)) : q.posted l i ↔ p.posted l i := by
  have hread : (q.slotCell l i).readable ↔ (p.slotCell l i).readable := hm.readable
  have hshows : q.shows l i = p.shows l i := congrArg lowByte hm.written
  rw [Part.posted, Part.posted, hread, hshows]

/-- What a step of the scan leaves of the other slots, and of the order taker. -/
structure Part.ScanStep (p : Part) (l : Layout) (i : Nat) (q : Part) : Prop where
  scans : p.Scans q
  hand : q.orders.hand = p.orders.hand
  taking : q.orders.taking = p.orders.taking
  length : q.orders.slots.length = p.orders.slots.length
  slots : ∀ j, j ≠ i → q.slot j = p.slot j
  words : ∀ j k, j ≠ i → j < l.slotCount → k < 8 → p.mends q (l.orders + 8 * j + k)

theorem Part.ScanStep.trans (h1 : p.ScanStep l i q) (h2 : q.ScanStep l i r) : p.ScanStep l i r where
  scans := h1.scans.trans h2.scans
  hand := h2.hand.trans h1.hand
  taking := h2.taking.trans h1.taking
  length := h2.length.trans h1.length
  slots j hj := (h2.slots j hj).trans (h1.slots j hj)
  words j k hj hn hk := (h1.words j k hj hn hk).trans (h2.words j k hj hn hk)

theorem scanStep_setOrders (p : Part) (l : Layout) {o : Orders} (hh : o.hand = p.orders.hand) (ht : o.taking = p.orders.taking)
    (hlen : o.slots.length = p.orders.slots.length) (hs : ∀ j, j ≠ i → (p.setOrders o).slot j = p.slot j) :
    p.ScanStep l i (p.setOrders o) :=
  ⟨scans_setOrders p o, hh, ht, hlen, hs, fun _ _ _ _ _ => .refl p _⟩

theorem scanStep_modSlot (p : Part) (l : Layout) (f : Slot → Slot) : p.ScanStep l i (p.modSlot i f) :=
  scanStep_setOrders p l rfl rfl (List.length_modify _ _ _) fun _ hj => slot_modSlot_ne p hj f

theorem reads_scanStep (h : p.hasSlot l i) (hm : Memory.wf p.mem) {k : Nat} (hk : k < 8) :
    p.ScanStep l i (p.readWord .order (l.orders + 8 * i + k)).part := by
  obtain ⟨hl, hv, hi, hlen⟩ := h
  have hfit := Layout.valid_orders_fit hv
  have hreads := reads_readWord p .order (l.orders + 8 * i + k) (by omega)
  refine ⟨scans_readWord p _ _, by rw [hreads.orders], by rw [hreads.orders], by rw [hreads.orders],
    fun j _ => by rw [Part.slot, hreads.orders]; rfl, fun j k' _ hj hk' => hreads.words hm _ (by omega) ?_⟩
  rw [Part.reportWord, hl]
  exact Layout.valid_reportWord_orders hv (by omega) (by omega)

theorem report_scanStep (h : p.hasSlot l i) (st : SlotState) (code : Nat) (res : Int) : p.ScanStep l i (p.report i st code res) := by
  have horders := orders_report p i st code res
  refine ⟨scans_report p i st code res, by rw [horders], by rw [horders], by rw [horders]; exact List.length_modify _ _ _,
    fun j hj => slot_report_ne p hj st code res, fun j k hji hj hk => .inl (cell_report_out h st code res (by omega) ?_)⟩
  obtain ⟨hl, hv, -, -⟩ := h
  rw [Part.reportWord, hl]
  exact Layout.valid_reportWord_orders hv (by omega) (by omega)

theorem Part.ScanStep.hasSlot (h : p.ScanStep l i q) {j : Nat} (hs : p.hasSlot l j) : q.hasSlot l j := by
  obtain ⟨hl, hv, hj, hlen⟩ := hs
  exact ⟨by rw [h.scans.run]; exact hl, hv, hj, by rw [h.length]; exact hlen⟩

theorem Byte.toNat_eq_iff (b : Byte) (v : Nat) (hv : v < 256) : b.toNat = v ↔ b = BitVec.ofNat 8 v := by
  rw [BitVec.toNat_eq, BitVec.toNat_ofNat, Nat.mod_eq_of_lt hv]

/-- A slot's scan (R163), by whether it can be read and what it shows. -/
theorem scanSlot_step (h : p.hasSlot l i) (hm : Memory.wf p.mem) (hidle : (p.slot i).shadow = .idle) :
    p.ScanStep l i (Part.scanSlot l p i) ∧ p.SlotScanned l i (Part.scanSlot l p i)
      ∧ (p.posted l i → (Part.scanSlot l p i).orders.takeQueue = p.orders.takeQueue ++ [i])
      ∧ (¬ p.posted l i → (Part.scanSlot l p i).orders.takeQueue = p.orders.takeQueue) := by
  have hread := reads_scanStep h hm (k := 0) (by decide)
  have hwf := hread.scans.mem hm
  have hslot := hread.hasSlot h
  have ⟨_, hv, hi, hlen⟩ := h
  have hfit := Layout.valid_orders_fit hv
  have hreads := reads_readWord p .order (l.orders + 8 * i + 0) (by omega)
  have hown : p.mends (p.readWord .order (l.orders + 8 * i + 0)).part (l.orders + 8 * i) :=
    hreads.words hm _ (by omega) (h.reportWord (k := 0) (by decide))
  have hshadow : ((p.readWord .order (l.orders + 8 * i + 0)).part.slot i).shadow = .idle := by
    rw [Part.slot, hreads.orders]
    exact hidle
  have hqueue : (p.readWord .order (l.orders + 8 * i + 0)).part.orders.takeQueue = p.orders.takeQueue := by rw [hreads.orders]
  unfold Part.scanSlot
  dsimp only
  rw [show l.orders + 8 * i = l.orders + 8 * i + 0 from rfl]
  by_cases hreadable : (p.slotCell l i).readable
  · obtain ⟨hbad, hvalue⟩ := readWord_readable (agent := .order) (a := l.orders + 8 * i + 0) hreadable
    generalize p.readWord .order (l.orders + 8 * i + 0) = rd at hread hwf hslot hown hbad hvalue hshadow hqueue ⊢
    rw [hbad, if_neg (by decide), hvalue]
    have hstate : lowByte (p.mem.cell (l.orders + 8 * i + 0)).written = p.shows l i := rfl
    rw [hstate]
    have htaken : (p.shows l i).toNat = SlotState.taken.code ↔ p.shows l i = 2 := Byte.toNat_eq_iff _ 2 (by decide)
    have hposted : (p.shows l i).toNat = SlotState.posted.code ↔ p.shows l i = 1 := Byte.toNat_eq_iff _ 1 (by decide)
    by_cases ht : p.shows l i = 2
    · rw [if_pos (htaken.mpr ht), Part.scanTaken]
      have hread2 := reads_scanStep hslot hwf (k := 2) (by decide)
      have hslot2 := hread2.hasSlot hslot
      have hwf2 := hread2.scans.mem hwf
      have hqueue2 : (rd.part.readWord .order (l.orders + 8 * i + 2)).part.orders.takeQueue = p.orders.takeQueue := by
        rw [(reads_readWord rd.part .order (l.orders + 8 * i + 2) (by omega)).orders, hqueue]
      generalize rd.part.readWord .order (l.orders + 8 * i + 2) = rd2 at hread2 hslot2 hwf2 hqueue2 ⊢
      have hmod := scanStep_modSlot (i := i) rd2.part l (fun x => { x with kind := 0, tag := rd2.value })
      have hslot3 := hmod.hasSlot hslot2
      have hnot : ¬ p.posted l i := fun hp => absurd (hp.2.symm.trans ht) (by decide)
      refine ⟨((hread.trans hread2).trans hmod).trans (report_scanStep hslot3 .finished _ 0), ⟨fun _ h1 => ?_, fun _ _ => ?_, fun ho => ?_⟩,
        fun hp => absurd hp hnot, fun _ => ?_⟩
      · exact absurd (h1.symm.trans ht) (by decide)
      · exact report_slotShows hslot3 (hmod.scans.mem hwf2) .finished Termination.reset.code 0
      · rcases ho with ho | ⟨-, ho⟩
        · exact absurd hreadable ho
        · exact absurd ht ho
      · rw [Part.reportDone, orders_report]
        exact hqueue2
    · rw [if_neg (htaken.not.mpr ht)]
      by_cases hp : p.shows l i = 1
      · rw [if_pos (hposted.mpr hp)]
        have hmod := scanStep_modSlot (i := i) rd.part l (fun x => { x with shadow := .queued })
        have ⟨_, _, _, hlen'⟩ := hslot
        refine ⟨(hread.trans hmod).trans (scanStep_setOrders _ l rfl rfl rfl fun _ _ => rfl), ⟨fun _ _ => ?_, fun _ h2 => absurd h2 ht,
          fun ho => ?_⟩, fun _ => ?_, fun hn => absurd ⟨hreadable, hp⟩ hn⟩
        · show ((rd.part.modSlot i (fun x => { x with shadow := .queued })).slot i).shadow = .queued
          rw [Part.slot_modSlot_self hlen']
        · rcases ho with ho | ⟨ho, -⟩
          · exact absurd hreadable ho
          · exact absurd hp ho
        · rw [← hqueue]
          rfl
      · rw [if_neg (hposted.not.mpr hp)]
        exact ⟨hread, ⟨fun _ h1 => absurd h1 hp, fun _ h2 => absurd h2 ht, fun _ => ⟨hshadow, hown.written⟩⟩,
          fun hposted => absurd hposted.2 hp, fun _ => hqueue⟩
  · have hspoilt : (p.slotCell l i).spoilt := by
      by_contra hno
      exact hreadable ((Cell.not_spoilt_iff _).mp hno)
    have hbad := (readWord_spoilt (agent := .order) (a := l.orders + 8 * i + 0) hspoilt).1
    generalize p.readWord .order (l.orders + 8 * i + 0) = rd at hread hown hbad hshadow hqueue ⊢
    rw [hbad, if_pos rfl]
    exact ⟨hread, ⟨fun hr => absurd hr hreadable, fun hr => absurd hr hreadable, fun _ => ⟨hshadow, hown.written⟩⟩,
      fun hposted => absurd hposted.1 hreadable, fun _ => hqueue⟩

/-! ### The whole table -/

/-- The scan of the first `n` slots of part `p` (R163). -/
structure Part.Scanned (p : Part) (l : Layout) (n : Nat) (q : Part) : Prop where
  scans : p.Scans q
  hand : q.orders.hand = []
  taking : q.orders.taking = none
  length : q.orders.slots.length = l.slotCount
  ascending : q.orders.takeQueue.Pairwise (· < ·)
  queued : ∀ i, i ∈ q.orders.takeQueue ↔ i < n ∧ p.posted l i
  behind : ∀ i, i < n → p.SlotScanned l i q
  ahead : ∀ i, n ≤ i → (q.slot i).shadow = .idle ∧ ∀ k, i < l.slotCount → k < 8 → p.mends q (l.orders + 8 * i + k)

theorem Part.Scanned.next (hl : p.run.layout = some l) (hv : l.valid = true) (hm : Memory.wf p.mem) (h : p.Scanned l n q)
    (hn : n < l.slotCount) : p.Scanned l (n + 1) (Part.scanSlot l q n) := by
  have hslot : q.hasSlot l n := ⟨by rw [h.scans.run]; exact hl, hv, hn, by rw [h.length]; exact hn⟩
  obtain ⟨hidle, hmends⟩ := h.ahead n (Nat.le_refl n)
  have hw0 : p.mends q (l.orders + 8 * n) := hmends 0 hn (by decide)
  obtain ⟨hstep, hown, hposted, hnot⟩ := scanSlot_step hslot (h.scans.mem hm) hidle
  have hpost := Part.posted_of_mends hw0
  refine ⟨h.scans.trans hstep.scans, hstep.hand.trans h.hand, hstep.taking.trans h.taking, hstep.length.trans h.length, ?_, fun i => ?_,
    fun i hi => ?_, fun i hi => ?_⟩
  · by_cases hp : q.posted l n
    · rw [hposted hp]
      refine List.pairwise_append.mpr ⟨h.ascending, List.pairwise_singleton _ _, fun a ha b hb => ?_⟩
      rw [List.mem_singleton.mp hb]
      exact ((h.queued a).mp ha).1
    · rw [hnot hp]
      exact h.ascending
  · by_cases hp : q.posted l n
    · rw [hposted hp, List.mem_append, List.mem_singleton, h.queued]
      constructor
      · rintro (⟨hi, hpi⟩ | rfl)
        · exact ⟨by omega, hpi⟩
        · exact ⟨by omega, hpost.mp hp⟩
      · rintro ⟨hi, hpi⟩
        by_cases e : i = n
        · exact .inr e
        · exact .inl ⟨by omega, hpi⟩
    · rw [hnot hp, h.queued]
      constructor
      · rintro ⟨hi, hpi⟩
        exact ⟨by omega, hpi⟩
      · rintro ⟨hi, hpi⟩
        have hne : i ≠ n := fun e => hp (hpost.mpr (e ▸ hpi))
        exact ⟨by omega, hpi⟩
  · by_cases e : i = n
    · subst e
      exact hown.of_mends hw0
    · exact (h.behind i (by omega)).mended (fun k hk => hstep.words i k e (by omega) hk) (hstep.slots i e)
  · have hne : i ≠ n := by omega
    obtain ⟨hidle', hmends'⟩ := h.ahead i (by omega)
    refine ⟨by rw [hstep.slots i hne]; exact hidle', fun k hi' hk => (hmends' k hi' hk).trans (hstep.words i k hne hi' hk)⟩

/-- The scan at entry to RUNNING takes every slot in turn (R163). -/
theorem startOrders_scanned (hl : p.run.layout = some l) (hv : l.valid = true) (hm : Memory.wf p.mem) :
    p.Scanned l l.slotCount (p.startOrders l) := by
  obtain ⟨q, hq⟩ : ∃ q, q = p.setOrders { Orders.initial with
    slots := List.replicate l.slotCount { shadow := .idle, kind := 0, tag := 0 } } := ⟨_, rfl⟩
  have hbegin : p.Scanned l 0 q := by
    rw [hq]
    refine ⟨scans_setOrders p _, rfl, rfl, List.length_replicate, List.Pairwise.nil, fun i => by simp [Orders.initial], fun i hi => absurd hi (by omega),
      fun i _ => ⟨?_, fun _ _ _ => .refl p _⟩⟩
    simp [Part.slot, Orders.initial]
  have hfold : ∀ n, n ≤ l.slotCount → p.Scanned l n ((List.range n).foldl (Part.scanSlot l) q) := by
    intro n
    induction n with
    | zero => exact fun _ => hbegin
    | succ n ih =>
      intro hn
      rw [List.range_succ, List.foldl_append]
      exact (ih (by omega)).next hl hv hm (by omega)
  have hall := hfold _ (Nat.le_refl _)
  rw [hq] at hall
  exact hall

end

end Sys2Proof.Machine
end

