-- ==== Sys2Proof/Proofs/EntryRunning.lean ====
section
/-! CHECKING_COMPLETE of a configuration that passes: the entry to RUNNING, block by block (R180). -/

namespace Sys2Proof.Machine

section
variable {p q r : Part} {l : Layout} {c g : Fin 8}

/-! ### Reports beside changes of channels and guards -/

/-- Nothing but reports, the channels and the guards changes. -/
def Part.BlocksTold (p q : Part) : Prop := ((p.setChannels q.channels).setGuards q.guards).Told q

theorem Part.Told.blocks (h : p.Told q) : p.BlocksTold q := { h with
  channels := fun _ => rfl
  guards := rfl }

theorem Part.BlocksTold.refl (p : Part) : p.BlocksTold p := (Part.Told.refl p).blocks

theorem Part.BlocksTold.trans (h1 : p.BlocksTold q) (h2 : q.BlocksTold r) : p.BlocksTold r := by
  have h : ((p.setChannels r.channels).setGuards r.guards).Told ((q.setChannels r.channels).setGuards r.guards) :=
    { (show ((p.setChannels q.channels).setGuards q.guards).Told q from h1) with
      channels := fun _ => rfl
      guards := rfl }
  exact h.trans h2

theorem Part.BlocksTold.setChannels (p : Part) (x : Vector Channel 8) : p.BlocksTold (p.setChannels x) := Part.Told.refl (p.setChannels x)

theorem Part.BlocksTold.setChan (p : Part) (c : Fin 8) (x : Channel) : p.BlocksTold (p.setChan c x) := .setChannels p _

theorem Part.BlocksTold.setGuards (p : Part) (x : Vector Guard 8) : p.BlocksTold (p.setGuards x) := Part.Told.refl (p.setGuards x)

theorem Part.BlocksTold.setGuard (p : Part) (g : Fin 8) (x : Guard) : p.BlocksTold (p.setGuard g x) := .setGuards p _

/-! ### What entry to RUNNING leaves of the run, of the modes and of the order table -/

/-- The blocks start without a change of run control, time, the modes' own state, or a word of the order table. -/
structure Part.Starts (p q : Part) : Prop where
  run : q.run = { p.run with attention := q.run.attention }
  runstate : q.run.attention.runstate = p.run.attention.runstate
  time : q.time = p.time
  clock : q.clock = p.clock
  modes : q.modes = { p.modes with settling := q.modes.settling, restDue := q.modes.restDue }
  empty : q.journal.empty = p.journal.empty
  mem : Memory.wf p.mem → Memory.wf q.mem
  table : ∀ l, p.run.layout = some l → l.valid = true → ∀ x, l.orders ≤ x → x < l.orders + 8 * l.slotCount → q.mem.cell x = p.mem.cell x

theorem Part.Starts.trans (h1 : p.Starts q) (h2 : q.Starts r) : p.Starts r where
  run := by rw [h2.run, h1.run]
  runstate := h2.runstate.trans h1.runstate
  time := h2.time.trans h1.time
  clock := h2.clock.trans h1.clock
  modes := by rw [h2.modes, h1.modes]
  empty := h2.empty.trans h1.empty
  mem := h2.mem ∘ h1.mem
  table l hl hv x hx hx' := (h2.table l (by rw [h1.run]; exact hl) hv x hx hx').trans (h1.table l hl hv x hx hx')

theorem Part.Told.starts (h : p.Told q) : p.Starts q where
  run := h.run
  runstate := h.runstate
  time := h.time
  clock := h.clock
  modes := h.modes
  empty := h.empty
  mem := h.mem
  table l hl hv x hx hx' := h.words x (by rw [Part.reportWord, hl]; exact Layout.valid_reportWord_orders hv hx hx')

theorem Part.BlocksTold.starts (h : p.BlocksTold q) : p.Starts q := { Part.Told.starts h with }

/-! ### The journal, the board and the modes (R164, R115, R134) -/

/-- Words of the journal's pointers leave the order table. -/
theorem cell_startJournal (hl : p.run.layout = some l) (hv : l.valid = true) {x : Nat} (hx : l.orders ≤ x)
    (hx' : x < l.orders + 8 * l.slotCount) : p.startJournal.mem.cell x = p.mem.cell x := by
  have hapart := Layout.valid_pointers_orders hv
  have hlayout : ((((p.enterRun .running).setTime 0).setClock .initial).setJournal .initial).run.layout = some l := hl
  rw [Part.startJournal, Part.writeRegion, hlayout]
  exact cell_writeAll_out _ _ _ _ (fun k hk => by simp only [List.length_cons, List.length_nil] at hk; omega)

theorem startJournal_frame (p : Part) : ∃ m prot, p.startJournal = { p with
    run := (p.enterRun .running).run, time := 0, clock := .initial, journal := .initial, mem := m, prot := prot } := by
  rw [Part.startJournal, writeRegion_frame]
  exact ⟨_, _, rfl⟩

theorem wf_startJournal (h : Memory.wf p.mem) : Memory.wf p.startJournal.mem := wf_writeRegion _ _ _ h

theorem told_startBoard (p : Part) : (p.setBoard .initial).Told p.startBoard := by
  unfold Part.startBoard
  refine (told_writeRegion _ _ _ fun l _ k hk => ?_).trans (told_writeRegion _ _ _ fun l _ k hk => ?_)
  · rw [List.length_replicate] at hk
    exact l.reportWord_board (by omega) (by omega)
  · have hk : k < 4 := hk
    exact l.reportWord_board (by omega) (by omega)

/-- The part with its journal, board and modes as at the start of a run. -/
def Part.startBlocks (p : Part) : Part := p.startJournal.startBoard.startModes

/-- What the first four steps of R180 make of a part. -/
theorem startBlocks_spec (hl : p.run.layout = some l) (hv : l.valid = true) (hm : Memory.wf p.mem) :
    p.startBlocks.run = { p.run with state := .running, attention := p.startBlocks.run.attention }
    ∧ p.startBlocks.run.attention.runstate = true ∧ p.startBlocks.time = 0 ∧ p.startBlocks.clock = .initial
    ∧ p.startBlocks.modes.mode = .closed ∧ p.startBlocks.modes.silent = false
    ∧ p.startBlocks.modes.watchDue = (if l.watchWindow = 0 then none else some (BitVec.ofNat 32 l.watchWindow))
    ∧ p.startBlocks.journal.empty = 0 ∧ Memory.wf p.startBlocks.mem
    ∧ (∀ x, l.orders ≤ x → x < l.orders + 8 * l.slotCount → p.startBlocks.mem.cell x = p.mem.cell x)
    ∧ p.startBlocks.guards = p.guards ∧ ∀ c, (p.startBlocks.chan c).view = (p.chan c).view := by
  obtain ⟨m, prot, hframe⟩ := startJournal_frame p
  have hwf := wf_startJournal hm
  have hcell := fun x => cell_startJournal (x := x) hl hv
  unfold Part.startBlocks
  generalize p.startJournal = j at hframe hwf hcell
  have hboard := told_startBoard j
  generalize j.startBoard = b at hboard
  have hlayout : b.run.layout = some l := by rw [hboard.run]; subst hframe; exact hl
  have hwindow : b.watchWindow = l.watchWindow := by rw [Part.watchWindow, hlayout]
  have hmodes := told_writeModeNow (b.setModes { Modes.initial with
    watchDue := if b.watchWindow = 0 then none else some (after 0 b.watchWindow) })
  rw [Part.startModes]
  rw [hwindow] at hmodes ⊢
  generalize (b.setModes { Modes.initial with
    watchDue := if l.watchWindow = 0 then none else some (after 0 l.watchWindow) }).writeModeNow = u at hmodes
  have htable := fun x hx hx' => (Part.Told.starts hmodes).table l hlayout hv x hx hx'
  have htable' := fun x hx hx' => (Part.Told.starts hboard).table l (by subst hframe; exact hl) hv x hx hx'
  have hmodes' := hmodes.modes
  have hrun := hboard.run
  have hrunstate := hboard.runstate
  refine ⟨?_, hmodes.runstate.trans (hrunstate.trans ?_), hmodes.time.trans (hboard.time.trans ?_), hmodes.clock.trans (hboard.clock.trans ?_), ?_, ?_, ?_,
    hmodes.empty.trans (hboard.empty.trans ?_), hmodes.mem (hboard.mem hwf), fun x hx hx' => ?_, hmodes.guards.trans (hboard.guards.trans ?_), fun c => ?_⟩
  · rw [hmodes.run]
    show { b.run with attention := u.run.attention } = _
    rw [hrun]
    subst hframe
    rfl
  · subst hframe; rfl
  · subst hframe; rfl
  · subst hframe; rfl
  · rw [hmodes']; rfl
  · rw [hmodes']; rfl
  · rw [hmodes']
    show (if l.watchWindow = 0 then none else some (after 0 l.watchWindow)) = _
    simp only [after, BitVec.ofNat_eq_ofNat, BitVec.zero_add]
  · subst hframe; rfl
  · exact (htable x hx hx').trans ((htable' x hx hx').trans (hcell x hx hx'))
  · subst hframe; rfl
  · refine (view_told hmodes c).trans ((view_told hboard c).trans ?_)
    subst hframe
    rfl

/-! ### The channels (R75, R82) -/

/-- Every channel is at rest with its position lost, or in FAULT, with no move. -/
def Part.Bare (p : Part) : Prop :=
  ∀ c, (p.chan c).current = none ∧ (p.chan c).queue = [] ∧ ((p.chan c).state = .unhomed ∨ (p.chan c).state = .fault)

theorem Part.Bare.of_views (h : p.Bare) (hv : ∀ c, (q.chan c).view = (p.chan c).view) : q.Bare := fun c => by
  obtain ⟨t, ht⟩ := exists_of_view (hv c)
  rw [ht]
  exact h c

theorem Part.setChan_twice (p : Part) (c : Fin 8) (x y : Channel) : (p.setChan c x).setChan c y = p.setChan c y := by
  simp [Part.setChan, Part.setChannels]

/-- A fault of a channel without a move only reports, beside the channel itself (R77). -/
theorem told_faultEntry_bare (hcur : (p.chan c).current = none) (hqueue : (p.chan c).queue = []) (cause : ChanFault) :
    (p.setChan c ((((p.chan c).losePosition cause).superseded).inFault cause)).Told (p.faultEntry c cause) := by
  have hlost : (p.setChan c ((p.chan c).losePosition cause)).chan c = (p.chan c).losePosition cause := by rw [Part.setChan_chan_self]
  have hfinish : (p.setChan c ((p.chan c).losePosition cause)).finishMove c .faulted = p.setChan c ((p.chan c).losePosition cause) := by
    rw [Part.finishMove, hlost]
    dsimp only [Channel.losePosition]
    rw [hcur]
  have hsuper := supersedeQueue_empty (p := p.setChan c ((p.chan c).losePosition cause)) (c := c) (by rw [hlost]; exact hqueue)
  unfold Part.faultEntry
  dsimp only
  rw [hfinish, hsuper, hlost, Part.setChan_chan_self, Part.setChan_twice, Part.setChan_twice]
  exact (told_raiseAlert _ _ _ _ _).trans (told_commit _ _ _ _ _)

theorem startFault_bare (h : p.Bare) (c : Fin 8) : p.BlocksTold (p.startFault c) ∧ (p.startFault c).Bare := by
  unfold Part.startFault
  split
  · obtain ⟨hcur, hqueue, -⟩ := h c
    have htold := told_faultEntry_bare hcur hqueue .driver
    refine ⟨(Part.BlocksTold.setChan p c _).trans htold.blocks, ?_⟩
    refine Part.Bare.of_views (p := p.setChan c _) (fun d => ?_) (view_told htold)
    by_cases e : d = c
    · subst e
      rw [Part.setChan_chan_self]
      exact ⟨hcur, rfl, .inr rfl⟩
    · rw [Part.setChan_chan_ne p e]
      exact h d
  · exact ⟨.refl p, h⟩

theorem near_startFault (p : Part) (c : Fin 8) : p.Near c (p.startFault c) := .ite (near_faultEntry p .driver) (.refl p)

/-- A channel as entry to RUNNING leaves it: in FAULT where its FLT is active (R75, R82). -/
def Channel.entered (x : Channel) (pr : Params) : Channel :=
  if pr.enable && x.pins.flt then (x.started pr).faulted .driver else x.started pr

theorem view_startFault (p : Part) (c : Fin 8) : ((p.startFault c).chan c).view
    = (if (p.chan c).enabled && (p.chan c).pins.flt then (p.chan c).faulted .driver else p.chan c).view := by
  unfold Part.startFault
  split
  · exact view_faultEntry p c .driver
  · rfl

/-- Step 6: every channel is initialised with its parameters (R82). -/
theorem startChannels_spec (p : Part) (gs : Groups) : p.BlocksTold (p.startChannels gs) ∧ (p.startChannels gs).Bare
    ∧ (p.startChannels gs).guards = p.guards
    ∧ ∀ c, ((p.startChannels gs).chan c).view = ((p.chan c).entered (gs.channel c)).view := by
  obtain ⟨s, hs⟩ : ∃ s, s = p.setChannels (Vector.ofFn (fun c : Fin 8 => (p.chan c).started (gs.channel c))) := ⟨_, rfl⟩
  have hchan (c : Fin 8) : s.chan c = (p.chan c).started (gs.channel c) := by
    rw [hs]
    simp [Part.chan, Part.setChannels]
  have hbare : s.Bare := fun c => by
    rw [hchan]
    exact ⟨rfl, rfl, .inl rfl⟩
  have hbegin : p.BlocksTold s := hs ▸ .setChannels p _
  have hguards : s.guards = p.guards := by rw [hs]; rfl
  have hfaults : ∀ (cs : List (Fin 8)) (s : Part), s.Bare →
      s.BlocksTold (cs.foldl (fun q c => q.startFault c) s) ∧ (cs.foldl (fun q c => q.startFault c) s).Bare := by
    intro cs
    induction cs with
    | nil => exact fun s hs => ⟨.refl s, hs⟩
    | cons c cs ih =>
      intro s hs
      obtain ⟨htold, hb⟩ := startFault_bare hs c
      obtain ⟨htold', hb'⟩ := ih _ hb
      exact ⟨htold.trans htold', hb'⟩
  obtain ⟨hfold, hbare'⟩ := hfaults (List.finRange 8) s hbare
  obtain ⟨hwork, hvisits⟩ := eachChannel_visits Part.startFault (fun d q => near_startFault q d) s
  have hstatus : (s.eachChannel Part.startFault).Told ((s.eachChannel Part.startFault).eachChannel (fun c r => r.writeStatus c)) :=
    told_fold _ told_writeStatus _ _
  have hend : p.startChannels gs = (s.eachChannel Part.startFault).eachChannel (fun c r => r.writeStatus c) := by rw [hs]; rfl
  have hfold' : s.BlocksTold (s.eachChannel Part.startFault) := hfold
  have hbare'' : (s.eachChannel Part.startFault).Bare := hbare'
  rw [hend]
  refine ⟨(hbegin.trans hfold').trans hstatus.blocks, hbare''.of_views (view_told hstatus), hstatus.guards.trans (hwork.guards.trans hguards),
    fun c => (view_told hstatus c).trans ?_⟩
  obtain ⟨q, -, hview, hgoes⟩ := hvisits c
  rw [hchan] at hview
  obtain ⟨t, ht⟩ := exists_of_view hview
  refine hgoes.trans ((view_startFault q c).trans ?_)
  rw [ht, Channel.entered]
  show (if (gs.channel c).enable && (p.chan c).pins.flt then _ else _ : Channel).view = _
  split
  · exact Channel.faulted_view rfl .driver
  · rfl

/-! ### The guards (R114) -/

theorem tripActions_bare (h : p.Bare) (g : Fin 8) : p.tripActions g = p := by
  have hstay : ∀ (cut : Bool) (c : Fin 8), p.tripAction cut c = p := fun cut c => by
    obtain ⟨-, -, hs | hs⟩ := h c <;> rw [Part.tripAction, hs]
  unfold Part.tripActions
  induction maskChannels (p.guard g).record.mask with
  | nil => rfl
  | cons c cs ih => rw [List.foldl_cons, hstay, ih]

theorem guardTrip_bare (h : p.Bare) (g : Fin 8) (cause : GuardCause) :
    p.BlocksTold (p.guardTrip g cause) ∧ ∀ c, ((p.guardTrip g cause).chan c).view = (p.chan c).view := by
  have htold := modEnter_told p g (fun x => { x with acked := false }) .tripped cause
  unfold Part.guardTrip
  dsimp only
  generalize (p.modGuard g fun x => { x with acked := false }).enterGuard g .tripped cause = q at htold ⊢
  have hraise := told_raiseFull q .guardTrip (.guard g) (.one (p.guard g).record.zone) .urgent
  generalize q.raiseFull .guardTrip (.guard g) (.one (p.guard g).record.zone) .urgent = r at hraise ⊢
  obtain ⟨r, index⟩ := r
  have hview (c : Fin 8) : ((r.modGuard g fun x => { x with boarded := index.isSome }).chan c).view = (p.chan c).view :=
    view_told (htold.trans hraise) c
  rw [tripActions_bare (h.of_views hview)]
  exact ⟨((Part.BlocksTold.setGuard p g _).trans (htold.trans hraise).blocks).trans (.setGuard r g _), hview⟩

/-- A guard's part of step 7: trips where its pin is open (R114). -/
theorem startGuard_spec (h : p.Bare) (hs : (p.guard g).state = .clear) :
    p.BlocksTold (p.startGuard g) ∧ (∀ c, ((p.startGuard g).chan c).view = (p.chan c).view)
    ∧ (∀ k, k ≠ g → (p.startGuard g).guard k = p.guard k)
    ∧ ((p.startGuard g).guard g).record = (p.guard g).record ∧ ((p.startGuard g).guard g).pin = (p.guard g).pin
    ∧ ((p.startGuard g).guard g).state
      = if (p.guard g).record.enable = true ∧ (p.guard g).pin = (p.guard g).record.activeHigh then .tripped else .clear := by
  unfold Part.startGuard
  split
  · next he =>
    obtain ⟨y, hy, hrecord, hpin, -, -, hstate⟩ := guardFresh_guards p g .run he hs
    refine ⟨?_, ?_, hy.others, by rw [hy.guard, hrecord], by rw [hy.guard, hpin], ?_⟩
    · unfold Part.guardFresh
      dsimp only
      split
      · exact (Part.BlocksTold.setGuard p g _).trans (guardTrip_bare (p := p.modGuard g _) h g .run).1
      · exact .setGuard p g _
    · intro c
      unfold Part.guardFresh
      dsimp only
      split
      · exact (guardTrip_bare (p := p.modGuard g _) h g .run).2 c
      · rfl
    · rw [hy.guard, hstate]
      simp [Guard.pinOpen, he]
  · next he =>
    refine ⟨.refl p, fun _ => rfl, fun _ _ => rfl, rfl, rfl, ?_⟩
    rw [if_neg (fun h => he h.1), hs]

/-- Step 7: each guard in turn (R114). -/
theorem startGuards_spec (h : p.Bare) (hs : ∀ g, (p.guard g).state = .clear) :
    p.BlocksTold (p.eachGuard Part.startGuard) ∧ (∀ c, ((p.eachGuard Part.startGuard).chan c).view = (p.chan c).view)
    ∧ ∀ g, ((p.eachGuard Part.startGuard).guard g).record = (p.guard g).record
      ∧ ((p.eachGuard Part.startGuard).guard g).pin = (p.guard g).pin
      ∧ ((p.eachGuard Part.startGuard).guard g).state
        = if (p.guard g).record.enable = true ∧ (p.guard g).pin = (p.guard g).record.activeHigh then .tripped else .clear := by
  have hfold : ∀ (gs : List (Fin 8)), gs.Nodup → ∀ p : Part, p.Bare → (∀ g ∈ gs, (p.guard g).state = .clear) →
      p.BlocksTold (gs.foldl (fun q g => q.startGuard g) p) ∧ (∀ c, ((gs.foldl (fun q g => q.startGuard g) p).chan c).view = (p.chan c).view)
      ∧ (∀ g, g ∉ gs → (gs.foldl (fun q g => q.startGuard g) p).guard g = p.guard g)
      ∧ ∀ g ∈ gs, ((gs.foldl (fun q g => q.startGuard g) p).guard g).record = (p.guard g).record
        ∧ ((gs.foldl (fun q g => q.startGuard g) p).guard g).pin = (p.guard g).pin
        ∧ ((gs.foldl (fun q g => q.startGuard g) p).guard g).state
          = if (p.guard g).record.enable = true ∧ (p.guard g).pin = (p.guard g).record.activeHigh then .tripped else .clear := by
    intro gs
    induction gs with
    | nil => exact fun _ p _ _ => ⟨.refl p, fun _ => rfl, fun _ _ => rfl, fun g hg => nomatch hg⟩
    | cons k gs ih =>
      intro hnd p hb hclear
      obtain ⟨hk, hnd⟩ := List.nodup_cons.mp hnd
      obtain ⟨htold, hview, hothers, hown⟩ := startGuard_spec hb (hclear k List.mem_cons_self)
      have hne : ∀ g ∈ gs, g ≠ k := fun g hg e => hk (e ▸ hg)
      obtain ⟨htold', hview', hout, hin⟩ := ih hnd _ (hb.of_views hview) (fun g hg => by
        rw [hothers g (hne g hg)]
        exact hclear g (List.mem_cons_of_mem _ hg))
      refine ⟨htold.trans htold', fun c => (hview' c).trans (hview c), fun g hg => ?_, fun g hg => ?_⟩
      · obtain ⟨hgk, hg⟩ := not_or.mp (List.mem_cons.not.mp hg)
        exact (hout g hg).trans (hothers g hgk)
      · rcases List.mem_cons.mp hg with rfl | hg
        · have hlast := hout g hk
          rw [List.foldl_cons, hlast]
          exact hown
        · have hlast := hin g hg
          rw [hothers g (hne g hg)] at hlast
          exact hlast
  obtain ⟨htold, hview, -, hin⟩ := hfold _ (List.nodup_finRange 8) p h fun g _ => hs g
  exact ⟨htold, hview, fun g => hin g (List.mem_finRange g)⟩

/-! ### The check that passes (R179) -/

theorem checkChannels_all {gc : Fin 8 → Params} {wc : Fin 8 → List Word}
    (h : ∀ c : Fin 8, (wc c).length = 16 ∧ p.clean (l.params + 16 * c.val) (wc c)) (hok : ∀ c, channelParamsOf (wc c) = .ok (gc c)) :
    ∃ prs, p.checkChannels l 8 = { part := p, value := .ok prs } ∧ ∀ c : Fin 8, prs[c.val]? = some (gc c) := by
  have hn : ∀ n, n ≤ 8 → ∃ prs, p.checkChannels l n = { part := p, value := .ok prs } ∧ prs.length = n
      ∧ ∀ c : Fin 8, c.val < n → prs[c.val]? = some (gc c) := by
    intro n
    induction n with
    | zero => exact fun _ => ⟨[], rfl, rfl, fun c hc => absurd hc (Nat.not_lt_zero _)⟩
    | succ n ih =>
      intro hle
      obtain ⟨prs, hprs, hlen, hall⟩ := ih (by omega)
      have hc := h ⟨n, by omega⟩
      refine ⟨_, checkChannels_next hprs hc.1 hc.2 (hok ⟨n, by omega⟩), by simp [hlen], fun c hlt => ?_⟩
      by_cases e : c.val = n
      · have hcn : c = ⟨n, by omega⟩ := Fin.ext e
        rw [hcn]
        simp [← hlen]
      · rw [List.getElem?_append_left (by omega)]
        exact hall c (by omega)
  obtain ⟨prs, hprs, -, hall⟩ := hn 8 (Nat.le_refl 8)
  exact ⟨prs, hprs, fun c => hall c c.isLt⟩

theorem finishCheck_passes {gs : Groups} (h : p.checkAll = { part := q, value := .ok gs }) : p.finishCheck = q.enterRunning gs := by
  unfold Part.finishCheck
  generalize p.checkAll = r at h ⊢
  subst h
  rfl

/-- A configuration that passes is entered (R179, R180). -/
theorem finishCheck_configured {wi wg wb : List Word} {wc : Fin 8 → List Word} {gi : InputsGroup} {gg : Vector GuardRecord 8}
    {gb : List Binding} {gc : Fin 8 → Params} (h : p.Configured l wi wg wb wc) (hi : inputsOf l.inputCount wi = .ok gi)
    (hg : guardsOf wg = .ok gg) (hb : bindingsOf l.entryCount wb = .ok gb) (hc : ∀ c, channelParamsOf (wc c) = .ok (gc c)) :
    ∃ gs : Groups, gs.layout = l ∧ gs.inputs = gi ∧ gs.guards = gg ∧ gs.bindings = gb ∧ (∀ c, gs.channel c = gc c)
      ∧ p.finishCheck = (p.setRun { p.run with layout := some l }).enterRunning gs := by
  obtain ⟨-, ⟨ws, hlen, hclean, hok⟩, ⟨hilen, hiclean⟩, ⟨hglen, hgclean⟩, ⟨hblen, hbclean⟩, hchan⟩ := h
  obtain ⟨prs, hprs, hall⟩ := checkChannels_all (p := p.setRun { p.run with layout := some l }) (l := l) hchan hc
  refine ⟨{ layout := l, inputs := gi, guards := gg, bindings := gb, channels := prs }, rfl, rfl, rfl, rfl, fun c => ?_,
    finishCheck_passes ?_⟩
  · simp [Groups.channel, List.getD_eq_getElem?_getD, hall c]
  · rw [checkAll_groups hlen hclean hok, Part.checkGroups, checkGroup_passes (p := p.setRun { p.run with layout := some l }) hilen hiclean hi]
    simp only [CheckRead.next, checkGroup_passes (p := p.setRun { p.run with layout := some l }) hglen hgclean hg,
      checkGroup_passes (p := p.setRun { p.run with layout := some l }) hblen hbclean hb, hprs]

end

end Sys2Proof.Machine
end

