-- ==== Sys2Proof/Proofs/RunBegins.lean ====
section
/-! What entry to RUNNING leaves of a part whose configuration passes (R163, R180). -/

namespace Sys2Proof.Machine

section
variable {p q r : Part} {l : Layout}

/-- Step 5: every validated group becomes its applied copy (R180). -/
theorem startGroups_spec (p : Part) (gs : Groups) : p.Starts (p.startGroups gs)
    ∧ (∀ k : Fin 4, (p.startGroups gs).line k = (p.line k).applied gs.inputs.lines[k])
    ∧ (p.startGroups gs).inputs = gs.inputs.defs.map Input.fresh ∧ (p.startGroups gs).bindings = gs.bindings
    ∧ (∀ g : Fin 8, (p.startGroups gs).guard g = { Guard.initial with record := gs.guards[g], pin := (p.guard g).pin })
    ∧ ∀ c, ((p.startGroups gs).chan c).view = (p.chan c).view := by
  have htold := told_installInputs p gs.inputs.lines gs.inputs.defs
  have hline := withInputs_line p gs.inputs.lines gs.inputs.defs
  unfold Part.startGroups
  dsimp only
  generalize p.installInputs gs.inputs.lines gs.inputs.defs = u at htold ⊢
  refine ⟨{ htold.starts with }, fun k => ?_, htold.inputs, rfl, fun g => ?_, fun c => (view_told htold c :)⟩
  · exact (congrArg (fun v : Vector Line 4 => v[k]) htold.lines :).trans (hline k)
  · simp [Part.guard, Part.setGuards]

/-- A part at the last step of R180, before the lines begin to poll. -/
structure Part.Entered (p : Part) (l : Layout) (gs : Groups) (q : Part) : Prop where
  run : q.run = { p.run with state := .running, attention := q.run.attention }
  runstate : q.run.attention.runstate = true
  time : q.time = 0
  clock : q.clock = .initial
  mode : q.modes.mode = .closed
  silent : q.modes.silent = false
  watch : q.modes.watchDue = if l.watchWindow = 0 then none else some (BitVec.ofNat 32 l.watchWindow)
  empty : q.journal.empty = 0
  wf : Memory.wf q.mem
  table : ∀ x, l.orders ≤ x → x < l.orders + 8 * l.slotCount → q.mem.cell x = p.mem.cell x
  lines : ∀ k : Fin 4, ∃ x : Line, q.line k = x.applied gs.inputs.lines[k]
  inputs : q.inputs = gs.inputs.defs.map Input.fresh
  bindings : q.bindings = gs.bindings
  guards : ∀ g : Fin 8, (q.guard g).record = gs.guards[g] ∧ (q.guard g).pin = (p.guard g).pin
    ∧ (q.guard g).state = if gs.guards[g].enable = true ∧ (p.guard g).pin = gs.guards[g].activeHigh then .tripped else .clear
  chans : ∀ c, ∃ x : Channel, x.pins = (p.chan c).pins ∧ (q.chan c).view = (x.entered (gs.channel c)).view

/-- The blocks as steps 1 to 7 of R180 leave them. -/
def Part.blocksEntered (p : Part) (gs : Groups) : Part := ((p.startBlocks.startGroups gs).startChannels gs).eachGuard Part.startGuard

theorem enterRunning_eq (p : Part) (gs : Groups) : p.enterRunning gs = ((p.blocksEntered gs).startOrders gs.layout).startLines := rfl

theorem blocksEntered_entered (hl : p.run.layout = some l) (hv : l.valid = true) (hm : Memory.wf p.mem) (gs : Groups) :
    p.Entered l gs (p.blocksEntered gs) := by
  obtain ⟨hrun, hrunstate, htime, hclock, hmode, hsilent, hwatch, hempty, hwf, htable, hguards, hviews⟩ := startBlocks_spec hl hv hm
  unfold Part.blocksEntered
  generalize p.startBlocks = m at hrun hrunstate htime hclock hmode hsilent hwatch hempty hwf htable hguards hviews ⊢
  obtain ⟨hgroups, hglines, hginputs, hgbindings, hgguards, hgviews⟩ := startGroups_spec m gs
  generalize m.startGroups gs = g at hgroups hglines hginputs hgbindings hgguards hgviews ⊢
  obtain ⟨hctold, hbare, hcguards, hcviews⟩ := startChannels_spec g gs
  generalize g.startChannels gs = c at hctold hbare hcguards hcviews ⊢
  have hcguard (k : Fin 8) : c.guard k = { Guard.initial with record := gs.guards[k], pin := (m.guard k).pin } :=
    (congrArg (fun v : Vector Guard 8 => v[k]) hcguards :).trans (hgguards k)
  obtain ⟨hutold, huviews, huguards⟩ := startGuards_spec hbare (fun k => by rw [hcguard]; rfl)
  generalize c.eachGuard Part.startGuard = u at hutold huviews huguards ⊢
  have hblocks := hctold.trans hutold
  have hstarts := hgroups.trans hblocks.starts
  have hlayout : m.run.layout = some l := by rw [hrun]; exact hl
  have hpin (k : Fin 8) : (m.guard k).pin = (p.guard k).pin := (congrArg (fun v : Vector Guard 8 => v[k].pin) hguards :)
  refine ⟨by rw [hstarts.run, hrun], hstarts.runstate.trans hrunstate, hstarts.time.trans htime, hstarts.clock.trans hclock,
    by rw [hstarts.modes]; exact hmode, by rw [hstarts.modes]; exact hsilent, by rw [hstarts.modes]; exact hwatch,
    hstarts.empty.trans hempty, hstarts.mem hwf, fun x hx hx' => (hstarts.table l hlayout hv x hx hx').trans (htable x hx hx'),
    fun k => ⟨m.line k, ?_⟩, hblocks.inputs.trans hginputs, hblocks.bindings.trans hgbindings, fun k => ?_, fun d => ⟨g.chan d, ?_, ?_⟩⟩
  · exact (congrArg (fun v : Vector Line 4 => v[k]) hblocks.lines :).trans (hglines k)
  · obtain ⟨hrecord, hpin', hstate⟩ := huguards k
    rw [hcguard] at hrecord hpin' hstate
    rw [← hpin k]
    exact ⟨hrecord, hpin', hstate⟩
  · exact pins_of_view ((hgviews d).trans (hviews d))
  · exact (huviews d).trans (hcviews d)

/-- What a channel shows once it has been entered (R82, R83). -/
theorem Channel.entered_shows (x : Channel) (pr : Params) {y : Channel} (h : y.view = (x.entered pr).view) :
    y.params = some pr ∧ y.pins = x.pins ∧ y.lost = true ∧ y.current = none ∧ y.queue = [] ∧ y.prof = .initial
      ∧ y.en = (pr.enable && !x.pins.flt) ∧ y.state = if pr.enable = true ∧ x.pins.flt = true then .fault else .unhomed := by
  obtain ⟨w, hw⟩ := exists_of_view h
  rw [hw]
  unfold Channel.entered
  cases he : pr.enable <;> cases hf : x.pins.flt <;>
    simp [Channel.started, Channel.faulted, Channel.finished, Channel.superseded, Channel.losePosition, Channel.inFault, Channel.initial, he, hf]

/-- CHECKING_COMPLETE of a configuration that passes enters RUNNING (R179, R180). -/
theorem exec_entersRunning {s : State} {wi wg wb : List Word} {wc : Fin 8 → List Word} {gi : InputsGroup} {gg : Vector GuardRecord 8}
    {gb : List Binding} {gc : Fin 8 → Params} (h : s.part.Configured l wi wg wb wc) (hm : Memory.wf s.part.mem)
    (hi : inputsOf l.inputCount wi = .ok gi) (hg : guardsOf wg = .ok gg) (hb : bindingsOf l.entryCount wb = .ok gb)
    (hc : ∀ c, channelParamsOf (wc c) = .ok (gc c)) :
    ∃ gs u, gs.inputs = gi ∧ gs.guards = gg ∧ gs.bindings = gb ∧ (∀ c, gs.channel c = gc c) ∧ l.valid = true
      ∧ (s.part.setRun { s.part.run with layout := some l }).Entered l gs u
      ∧ exec .checkingComplete s = .next (s.setPart (u.startOrders l).startLines) := by
  obtain ⟨gs, hlayout, hgi, hgg, hgb, hgc, hfinish⟩ := finishCheck_configured h hi hg hb hc
  obtain ⟨hchecking, ⟨ws, -, -, hok⟩, -⟩ := h
  have hv : l.valid = true := checkLayout_valid hok
  refine ⟨gs, _, hgi, hgg, hgb, hgc, hv, blocksEntered_entered (p := s.part.setRun { s.part.run with layout := some l }) rfl hv hm gs, ?_⟩
  rw [exec_checkingComplete hchecking, hfinish, enterRunning_eq, hlayout]

/-! ### The order table's scan (R163) -/

/-- The scan goes by the words of another part, where the order table's are the same. -/
theorem Part.Scanned.of_table (h : q.Scanned l l.slotCount r)
    (ht : ∀ x, l.orders ≤ x → x < l.orders + 8 * l.slotCount → q.mem.cell x = p.mem.cell x) :
    (∀ i, i ∈ r.orders.takeQueue ↔ i < l.slotCount ∧ p.posted l i) ∧ ∀ i, i < l.slotCount → p.SlotScanned l i r := by
  have hw0 : ∀ i, i < l.slotCount → p.mends q (l.orders + 8 * i) := fun i hi => .inl (ht _ (by omega) (by omega))
  refine ⟨fun i => ?_, fun i hi => (h.behind i hi).of_mends (hw0 i hi)⟩
  rw [h.queued]
  exact and_congr_right fun hi => Part.posted_of_mends (hw0 i hi)

theorem Part.SlotScanned.congr {i : Nat} (h : p.SlotScanned l i q) (hm : r.mem = q.mem) (ho : r.orders = q.orders) : p.SlotScanned l i r := by
  refine h.mended (fun k _ => .inl (by rw [hm])) ?_
  rw [Part.slot, ho]
  rfl

/-- Polling begins without a word of exhibit memory or the order taker (R13). -/
theorem startLines_frame (p : Part) : ∃ ls, p.startLines = { p with prot := { p.prot with scrubPos := 0 }, lines := ls } := by
  obtain ⟨ls, hls⟩ := eachLine_setLines (fun l r => r.beginCycle l) (fun l r => beginCycle_setLine r l) (p.setProt { p.prot with scrubPos := 0 })
  exact ⟨ls, hls⟩

end

/-- Settles O24: the steps of R180 in their order, each told by what it makes of its block. -/
theorem entryToRunning : Obligations.EntryToRunning := by
  unfold Obligations.EntryToRunning
  intro s l wi wg wb wc gi gg gb gc hconf hm hi hg hb hc
  obtain ⟨gs, u, rfl, rfl, rfl, hgc, hv, hu, hexec⟩ := exec_entersRunning hconf hm hi hg hb hc
  have hulayout : u.run.layout = some l := by rw [hu.run]; rfl
  have hscan := startOrders_scanned hulayout hv hu.wf
  generalize u.startOrders l = o at hscan hexec
  have horun : o.run = { s.part.run with state := .running, layout := some l, attention := o.run.attention } := by
    rw [hscan.scans.run, hu.run]
    rfl
  have hcycles := beginCycles_line (o.setProt { o.prot with scrubPos := 0 })
  have hframe := startLines_frame o
  have hlines : ∀ k : Fin 4, ∃ x : Line, o.line k = x.applied gs.inputs.lines[k] := fun k => by
    obtain ⟨x, hx⟩ := hu.lines k
    have hsame : o.line k = u.line k := congrArg (fun v : Vector Line 4 => v[k]) hscan.scans.lines
    exact ⟨x, hsame.trans hx⟩
  have hactive : o.active = true := by rw [Part.active, horun]; rfl
  have hpolled (k : Fin 4) : (o.setProt { o.prot with scrubPos := 0 }).polls k = true ↔
      gs.inputs.lines[k].enable = true ∧ 1 ≤ gs.inputs.lines[k].stations := by
    obtain ⟨x, hx⟩ := hlines k
    have hline : (o.setProt { o.prot with scrubPos := 0 }).line k = x.applied gs.inputs.lines[k] := hx
    have hact : (o.setProt { o.prot with scrubPos := 0 }).active = true := hactive
    rw [polls_iff, hline, hact]
    simp [Line.applied]
  have hshown (k : Fin 4) : (o.startLines.line k).record = gs.inputs.lines[k]
      ∧ (∀ a : Fin 12, (o.startLines.line k).stations[a].presence =
          if gs.inputs.lines[k].enable = true ∧ a.val + 1 ≤ gs.inputs.lines[k].stations then .unknown else .disabled)
      ∧ (o.startLines.line k).de = (gs.inputs.lines[k].enable && decide (1 ≤ gs.inputs.lines[k].stations)) := by
    obtain ⟨x, hx⟩ := hlines k
    have hline : (o.setProt { o.prot with scrubPos := 0 }).line k = x.applied gs.inputs.lines[k] := hx
    obtain ⟨start, hk⟩ := hcycles k (by rw [hline]; exact ⟨rfl, rfl⟩)
    have hk' : o.startLines.line k = _ := hk
    rw [hk', hline]
    refine ⟨rfl, fun a => (congrArg Station.presence (Line.applied_station x gs.inputs.lines[k] a) :), ?_⟩
    have hpk := hpolled k
    by_cases hp : gs.inputs.lines[k].enable = true ∧ 1 ≤ gs.inputs.lines[k].stations
    · rw [hpk.mpr hp, hp.1, decide_eq_true hp.2]
      rfl
    · have hpf : (o.setProt { o.prot with scrubPos := 0 }).polls k = false := by
        rw [← Bool.not_eq_true]
        exact hpk.not.mpr hp
      rw [hpf]
      simp only [Line.de, Bool.false_eq_true, if_false]
      rw [eq_comm, ← Bool.not_eq_true, Bool.and_eq_true, decide_eq_true_eq]
      exact hp
  refine ⟨_, hexec, ?_⟩
  obtain ⟨ls, hls⟩ := hframe
  generalize o.startLines = q at hls hshown
  subst hls
  refine ⟨horun, hscan.scans.runstate.trans hu.runstate, hscan.scans.time.trans hu.time, hscan.scans.clock.trans hu.clock, rfl,
    ?_, ?_, ?_, hscan.scans.empty.trans hu.empty, hscan.hand, hscan.taking, hscan.length, hscan.scans.inputs.trans hu.inputs,
    hscan.scans.bindings.trans hu.bindings, hshown, fun g => ?_, fun c => ?_⟩
  · exact ((congrArg Modes.mode hscan.scans.modes :)).trans hu.mode
  · exact ((congrArg Modes.silent hscan.scans.modes :)).trans hu.silent
  · exact ((congrArg Modes.watchDue hscan.scans.modes :)).trans hu.watch
  · have hguard : o.guard g = u.guard g := (congrArg (fun v : Vector Guard 8 => v[g]) hscan.scans.guards :)
    have hown := hu.guards g
    rw [← hguard] at hown
    exact hown
  · obtain ⟨x, hpins, hview⟩ := hu.chans c
    have hshows := Channel.entered_shows x (gs.channel c) ((hscan.scans.chans c).trans hview)
    rw [hpins, hgc] at hshows
    exact hshows

/-- Settles O25: the scan takes each slot by the words that the order table held, which the steps before it leave. -/
theorem orderTableScan : Obligations.OrderTableScan := by
  unfold Obligations.OrderTableScan
  intro scanned
  refine ⟨fun p l hl hv hm => ?_, fun s l wi wg wb wc gi gg gb gc hconf hm hi hg hb hc => ?_⟩
  · have hscan := startOrders_scanned hl hv hm
    exact ⟨hscan.hand, hscan.taking, hscan.ascending, fun i => hscan.queued i,
      fun i hi => ⟨(hscan.behind i hi).posted, (hscan.behind i hi).taken, (hscan.behind i hi).left⟩⟩
  · obtain ⟨gs, u, -, -, -, -, hv, hu, hexec⟩ := exec_entersRunning hconf hm hi hg hb hc
    have hulayout : u.run.layout = some l := by rw [hu.run]; rfl
    have hscan := startOrders_scanned hulayout hv hu.wf
    have htable : ∀ x, l.orders ≤ x → x < l.orders + 8 * l.slotCount → u.mem.cell x = s.part.mem.cell x := hu.table
    generalize u.startOrders l = o at hscan hexec
    obtain ⟨hqueued, hslots⟩ := hscan.of_table (p := s.part) htable
    obtain ⟨ls, hls⟩ := startLines_frame o
    refine ⟨_, hexec, ?_⟩
    rw [hls]
    refine ⟨hscan.hand, hscan.taking, hscan.ascending, fun i => hqueued i, fun i hi => ?_⟩
    have hown := (hslots i hi).congr (r := { o with prot := { o.prot with scrubPos := 0 }, lines := ls }) rfl rfl
    exact ⟨hown.posted, hown.taken, hown.left⟩

end Sys2Proof.Machine
end

