-- ==== Sys2Proof/Proofs/JournalRing.lean ====
section
/-! What the journal ring holds once a record has been handed to its writer (R166 to R168, R170 to R172): placed, after a GAP record
where one is pending, or dropped. -/

namespace Sys2Proof.Machine

section
variable {p q : Part} {l : Layout} {r : Record}

/-! ### A record that is placed (R166) -/

theorem Layout.valid_journal_fit (h : l.valid = true) : l.journal + l.journalSize ≤ Config.memWords := (l.valid_fits h 9).2

theorem Layout.valid_pointers_journal (h : l.valid = true) :
    l.pointers + 8 ≤ l.journal ∨ l.journal + l.journalSize ≤ l.pointers := Layout.valid_disjoint h (i := 0) (j := 9) (by decide)

/-- The words of a record that fits, as they are laid in the ring (R166). -/
structure Part.Lays (p : Part) (l : Layout) (r : Record) (q : Part) : Prop where
  wf : Memory.wf q.mem
  words : ∀ k, k < r.length → (q.mem.cell (l.journal + p.journal.start l.journalSize r.length + k)).written = wordAt r.words k
  pad : l.journalSize < p.journal.fill + r.length → (q.mem.cell (l.journal + p.journal.fill)).written = padWord
  kept : ∀ k, k < l.journalSize → (k < p.journal.start l.journalSize r.length ∨ p.journal.start l.journalSize r.length + r.length ≤ k) →
    (l.journalSize < p.journal.fill + r.length → k ≠ p.journal.fill) → q.mem.cell (l.journal + k) = p.mem.cell (l.journal + k)

/-- Words written in the ring stand there, and leave its other words. -/
theorem writeAll_ring (hv : l.valid = true) (hm : Memory.wf p.mem) {i : Nat} {ws : List Word} (hfit : i + ws.length ≤ l.journalSize) :
    Memory.wf (p.writeAll (l.journal + i) ws).mem
      ∧ (∀ k, k < ws.length → ((p.writeAll (l.journal + i) ws).mem.cell (l.journal + i + k)).written = wordAt ws k)
      ∧ ∀ k, (k < i ∨ i + ws.length ≤ k) → (p.writeAll (l.journal + i) ws).mem.cell (l.journal + k) = p.mem.cell (l.journal + k) := by
  have hmem := Layout.valid_journal_fit hv
  exact ⟨wf_writeAll p _ ws hm, fun k hk => written_writeAll p _ ws hm (by omega) k hk,
    fun k hk => cell_writeAll_out p _ _ ws fun j hj => by omega⟩

theorem laid_lays (hv : l.valid = true) (hm : Memory.wf p.mem) (hroom : p.journal.holds l.journalSize r.length) :
    p.Lays l r (p.laid l r) := by
  obtain ⟨hfill, hempty, hused⟩ := hroom
  have hlen := r.words_length
  have hmem := Layout.valid_journal_fit hv
  have hfree : p.journal.free l.journalSize ≤ l.journalSize - 1 := Nat.sub_le _ _
  unfold Part.laid
  unfold Journal.used at hused
  by_cases hfits : p.journal.fill + r.length ≤ l.journalSize
  · have hstart : p.journal.start l.journalSize r.length = p.journal.fill := if_pos hfits
    obtain ⟨hwf, hwords, hkept⟩ := writeAll_ring (p := p) (i := p.journal.fill) (ws := r.words) hv hm (by omega)
    rw [if_pos hfits]
    rw [hlen] at hwords hkept
    exact ⟨hwf, by rw [hstart]; exact hwords, fun h => absurd h (by omega), fun k _ hk _ => hkept k (by rw [← hstart]; exact hk)⟩
  · rw [if_neg hfits] at hused
    have hstart : p.journal.start l.journalSize r.length = 0 := if_neg hfits
    have hpad := written_storeFrom_self p true (l.journal + p.journal.fill) padWord hm (by omega)
    have hpadout := fun x hx => cell_storeFrom_ne p true (l.journal + p.journal.fill) x padWord hx
    obtain ⟨hwf, hwords, hkept⟩ := writeAll_ring (p := p.write (l.journal + p.journal.fill) padWord) (i := 0) (ws := r.words) hv
      (wf_storeFrom p true _ padWord hm) (by omega)
    rw [if_neg hfits]
    rw [hlen] at hwords hkept
    simp only [Nat.add_zero, Nat.zero_add] at hwords hkept
    refine ⟨hwf, by rw [hstart]; exact hwords, fun _ => ?_, fun k hk hout hne => ?_⟩
    · exact (congrArg Cell.written (hkept p.journal.fill (.inr (by omega)))).trans hpad
    · rw [hstart] at hout
      exact (hkept k (by omega)).trans (hpadout _ (by have := hne (by omega); omega))

/-- A record that is not of the immediate class and fits is placed as the ring's rules say (R166, R170 to R172). -/
theorem place_takes (hfits : p.fits l r.length) (hm : Memory.wf p.mem) (himm : r.immediate = false) :
    ∃ q, p.place r = some q ∧ p.RingTakes l r.words q ∧ q.journal.gapRaises = p.journal.gapRaises := by
  obtain ⟨hl, hv, hroom⟩ := hfits
  have ⟨hfill, hempty, hused⟩ := hroom
  obtain ⟨q, hplace, hshown, hjournal, hboard, hrun⟩ := place_shows (r := r) hl hroom
  have hlays := laid_lays hv hm hroom
  have hapart := Layout.valid_pointers_journal hv
  have hlen := r.words_length
  have hring : ∀ k, k < l.journalSize → q.mem.cell (l.journal + k) = (p.laid l r).mem.cell (l.journal + k) :=
    fun k hk => hshown.kept _ (by omega) (by omega)
  have hplaced := occupancy_placed hfill hempty hused
  have hfree : p.journal.free l.journalSize ≤ l.journalSize - 1 := Nat.sub_le _ _
  have hstart : p.journal.start l.journalSize r.length + r.length ≤ l.journalSize := by
    unfold Journal.used at hused
    by_cases hf : p.journal.fill + r.length ≤ l.journalSize
    · rw [Journal.start, if_pos hf]
      exact hf
    · rw [if_neg hf] at hused
      rw [Journal.start, if_neg hf]
      omega
  refine ⟨q, hplace, ⟨fun k hk => ?_, fun hwrap => ?_, fun k hk hout hne => ?_, ?_, ?_, ?_⟩, by rw [hjournal]; rfl⟩
  · rw [hlen] at hk ⊢
    rw [Nat.add_assoc, hring _ (by omega), ← Nat.add_assoc]
    exact hlays.words k hk
  · rw [hlen] at hwrap
    rw [hring _ hfill]
    exact hlays.pad hwrap
  · rw [hlen] at hout hne
    rw [hring _ hk]
    exact hlays.kept k hk hout hne
  · obtain ⟨m, arm, hlaid⟩ := laid_eq p l r
    have hword := hshown.word hv hlays.wf
    rw [hword, hjournal]
    rfl
  · have hocc : p.journal.occupancy l.journalSize = 0 ↔ p.journal.fill = p.journal.empty := occupancy_eq_zero_iff hfill hempty
    have hlen1 : 1 ≤ r.length := by unfold Record.length; omega
    have hpos := p.journal.used_pos (size := l.journalSize) hlen1
    rw [hjournal, hlen, Journal.placed, hplaced]
    have hstale : ((p.journal.occupancy l.journalSize = 0
        ∧ 0 < (p.journal.fill + l.journalSize - p.journal.empty) % l.journalSize + p.journal.used l.journalSize r.length)
        ∧ l.staleTime ≠ 0 ∧ p.journal.staleDue = none) ↔
        (p.journal.fill = p.journal.empty ∧ l.staleTime ≠ 0 ∧ p.journal.staleDue = none) := by
      rw [hocc]
      constructor
      · exact fun h => ⟨h.1.1, h.2⟩
      · exact fun h => ⟨⟨h.1, by omega⟩, h.2⟩
    simp only [hstale]
  · obtain ⟨m, arm, hlaid⟩ := laid_eq p l r
    have hj : (p.laid l r).journal = p.journal := by rw [hlaid]; rfl
    have hr : (p.laid l r).run = p.run := by rw [hlaid]; rfl
    rw [hshown.run, hr, hj, hplaced, himm, hlen]
    simp [Journal.occupancy]

/-! ### What a raise does, in terms of its steps -/

/-- A relation that every step of a raise keeps. -/
structure RaiseSteps (R : Part → Part → Prop) : Prop where
  refl : ∀ p, R p p
  trans : ∀ {p q r}, R p q → R q r → R p r
  board : ∀ (p : Part) b, R p (p.setBoard b)
  entry : ∀ (p : Part) i, R p (p.writeEntry i)
  header : ∀ p : Part, R p (p.writeRegion (fun l => l.board) p.board.header)
  alert : ∀ p : Part, R p p.attendAlert
  rest : ∀ p : Part, R p p.restEval
  record : ∀ (p : Part) (r : Record), 4 ≤ r.length → R p (p.writeRecord r)

section
variable {R : Part → Part → Prop} (h : RaiseSteps R)
include h

theorem RaiseSteps.writeHeader (p : Part) (before : List Word) (always : Bool) : R p (p.writeHeader before always) :=
  Part.rel_ite (h.header p) (h.refl p)

theorem RaiseSteps.changeBoard (p : Part) (b : Board) (i : Fin 32) (always : Bool) : R p (p.changeBoard b i always) := by
  have hshown : R p (((p.setBoard b).writeEntry i).writeHeader p.board.header always) :=
    h.trans (h.trans (h.board p b) (h.entry _ i)) (h.writeHeader _ _ _)
  unfold Part.changeBoard
  exact Part.rel_ite hshown (h.trans hshown (h.rest _))

omit h in
theorem alertRecord_long (i : Option (Fin 32)) (cause : AlertCause) (e : Entry) (st : Nat) (o : Bool) (t : Time) :
    4 ≤ (alertRecord i cause e st o t).length := by
  simp [Record.length, alertRecord]

omit h in
/-- The writer is handed a record at least once between `p` and `q`. -/
def Part.Records (R : Part → Part → Prop) (p q : Part) : Prop := ∃ a r, R p a ∧ 4 ≤ Record.length r ∧ R (a.writeRecord r) q

theorem RaiseSteps.of_records (hr : p.Records R q) : R p q := by
  obtain ⟨a, r, ha, hlen, hq⟩ := hr
  exact h.trans (h.trans ha (h.record a r hlen)) hq

theorem RaiseSteps.records (r : Record) (hlen : 4 ≤ r.length) (hq : R p q) : p.Records R (q.writeRecord r) := ⟨q, r, hq, hlen, h.refl _⟩

theorem RaiseSteps.records_then {s : Part} (hr : p.Records R q) (hs : R q s) : p.Records R s := by
  obtain ⟨a, r, ha, hlen, hq⟩ := hr
  exact ⟨a, r, ha, hlen, h.trans hq hs⟩

theorem RaiseSteps.escalate (p : Part) (i : Fin 32) (e : Entry) : R p (p.escalate i e) := by
  unfold Part.escalate
  exact h.trans (h.trans (h.changeBoard _ _ _ _) (h.alert _)) (h.record _ _ (alertRecord_long _ _ _ _ _ _))

theorem RaiseSteps.merge (p : Part) (i : Fin 32) (e : Entry) (sev : Severity) : p.Records R (p.merge i e sev) := by
  have hcalled : ∀ (q : Part) (c : Bool), R q (if c then q.attendAlert else q) := fun q c => Part.rel_ite (h.alert q) (h.refl q)
  unfold Part.merge
  dsimp only
  generalize hq : Part.writeRecord _ _ = q
  have hmerged : p.Records R q := by
    rw [← hq]
    exact h.records _ (alertRecord_long _ _ _ _ _ _) (h.trans (h.changeBoard _ _ _ _) (hcalled _ _))
  clear hq
  split
  · exact h.records_then hmerged (Part.rel_ite (h.escalate _ _ _) (h.refl q))
  · exact hmerged

theorem RaiseSteps.makeEntry (p : Part) (i : Fin 32) (e : Entry) : p.Records R (p.makeEntry i e) := by
  unfold Part.makeEntry
  exact h.records _ (alertRecord_long _ _ _ _ _ _) (h.trans (h.changeBoard _ _ _ _) (Part.rel_ite (h.alert _) (h.refl _)))

theorem RaiseSteps.evict (p : Part) (i : Fin 32) (e : Entry) : R p (p.evict i e) := by
  unfold Part.evict
  exact h.trans (h.trans (h.board _ _) (h.entry _ _)) (h.record _ _ (alertRecord_long _ _ _ _ _ _))

theorem RaiseSteps.notBoarded (p : Part) (e : Entry) : p.Records R (p.notBoarded e) := by
  unfold Part.notBoarded
  exact h.records _ (alertRecord_long _ _ _ _ _ _) (Part.rel_ite (h.trans (h.trans (h.board _ _) (h.writeHeader _ _ _)) (h.alert _)) (h.refl _))

theorem RaiseSteps.raiseOne (ha : p.active = true) (code : AlertCode) (src : Source) (zone : Zone) (sev : Severity) :
    p.Records R (p.raiseOne code src zone sev).1 := by
  unfold Part.raiseOne
  rw [if_neg (by rw [ha]; decide)]
  dsimp only
  split
  · next i hfind =>
    split
    · exact h.merge _ _ _ _
    · next hnone =>
      have htest := List.find?_some hfind
      rw [hnone] at htest
      cases htest
  · split
    · exact h.makeEntry _ _ _
    · split
      · split
        · obtain ⟨a, r, hra, hlen, hq⟩ := h.makeEntry (p.evict _ _) _ _
          exact ⟨a, r, h.trans (h.evict _ _ _) hra, hlen, hq⟩
        · exact h.makeEntry _ _ _
      · exact h.notBoarded _ _

theorem RaiseSteps.whole (hwaits : ∀ (p : Part) n, R p (p.setJournal { p.journal with gapRaises := n })) (p : Part) : R p p.whole := by
  have hgaps : ∀ n (p : Part), R p (Part.raiseGaps n p) := by
    intro n
    induction n with
    | zero => exact h.refl
    | succ n ih =>
      intro p
      have hraised : R p p.raiseGap := by
        refine h.trans (hwaits p (p.journal.gapRaises - 1)) ?_
        by_cases ha : (p.setJournal { p.journal with gapRaises := p.journal.gapRaises - 1 }).active = true
        · exact h.of_records (h.raiseOne ha .journalGap .none .all .info)
        · unfold Part.raiseGap Part.raiseOne
          rw [if_pos (by simpa using ha)]
          exact h.refl _
      exact Part.rel_ite (h.refl p) (h.trans hraised (ih _))
  exact Part.rel_ite (hgaps 5 p) (h.refl p)

end

/-! ### A writer without room for a GAP record (R167) -/

/-- Fewer than four words of the ring are free, while the blocks work. -/
structure Part.Full (l : Layout) (p : Part) : Prop where
  active : p.active = true
  layout : p.run.layout = some l
  valid : l.valid = true
  free : p.journal.free l.journalSize < 4
  wf : Memory.wf p.mem

/-- What a full ring keeps while records are dropped. -/
structure Part.DropsOnly (l : Layout) (p q : Part) : Prop where
  full : q.Full l
  ring : ∀ k, k < l.journalSize → q.mem.cell (l.journal + k) = p.mem.cell (l.journal + k)
  fill : q.mem.cell l.pointers = p.mem.cell l.pointers
  journal : q.journal = { p.journal with gap := q.journal.gap, gapRaises := q.journal.gapRaises }
  gap : p.journal.gap ≠ 0 → p.journal.gap.toNat ≤ q.journal.gap.toNat ∧ q.journal.gapRaises = p.journal.gapRaises
  shown : (p.mem.cell (l.pointers + 2)).written = p.journal.gap → (q.mem.cell (l.pointers + 2)).written = q.journal.gap
  attends : q.run.attention.journal = p.run.attention.journal

/-- Records are only dropped from `p` on, if it is full. -/
def Part.FullKeeps (l : Layout) (p q : Part) : Prop := p.Full l → p.DropsOnly l q

theorem Part.DropsOnly.refl (h : p.Full l) : p.DropsOnly l p :=
  ⟨h, fun _ _ => rfl, rfl, rfl, fun _ => ⟨Nat.le_refl _, rfl⟩, id, rfl⟩

theorem Part.DropsOnly.trans {s : Part} (h1 : p.DropsOnly l q) (h2 : q.DropsOnly l s) : p.DropsOnly l s where
  full := h2.full
  ring k hk := (h2.ring k hk).trans (h1.ring k hk)
  fill := h2.fill.trans h1.fill
  journal := by rw [h2.journal, h1.journal]
  gap hne := by
    obtain ⟨hle, hraises⟩ := h1.gap hne
    have hqne : q.journal.gap ≠ 0 := fun h0 => hne (by
      rw [h0] at hle
      exact BitVec.eq_of_toNat_eq (by simpa using hle))
    obtain ⟨hle', hraises'⟩ := h2.gap hqne
    exact ⟨hle.trans hle', hraises'.trans hraises⟩
  shown hs := h2.shown (h1.shown hs)
  attends := h2.attends.trans h1.attends

theorem place_full (h : p.Full l) (hlen : 4 ≤ r.length) : p.place r = none := by
  have hfree := h.free
  rw [Part.place, h.layout]
  dsimp only
  rw [if_neg (fun hc => by omega), if_neg (fun hc => by omega)]

theorem satInc_word (x : Word) : (satInc x).toNat = if x.toNat = 65535 then 65535 else x.toNat + 1 := by
  have hall : x = BitVec.allOnes 16 ↔ x.toNat = 65535 := by rw [BitVec.toNat_eq, BitVec.toNat_allOnes]
  unfold satInc
  by_cases hx : x.toNat = 65535
  · rw [if_pos (hall.mpr hx), if_pos hx]
    exact hx
  · rw [if_neg (hall.not.mpr hx), if_neg hx]
    have := x.isLt
    simp only [BitVec.toNat_add, BitVec.ofNat_eq_ofNat, BitVec.toNat_ofNat]
    omega

/-- A step that leaves the ring, its pointers and its words drops nothing. -/
theorem Part.DropsOnly.of_board (h : p.Full l) (hrun : q.run = { p.run with attention := q.run.attention })
    (hattends : q.run.attention.journal = p.run.attention.journal) (hj : q.journal = p.journal) (hm : Memory.wf q.mem)
    (hcell : ∀ x, (x < l.board ∨ l.board + 260 ≤ x) → q.mem.cell x = p.mem.cell x) : p.DropsOnly l q := by
  have hboard : l.pointers + 8 ≤ l.board ∨ l.board + 260 ≤ l.pointers := Layout.valid_disjoint h.valid (i := 0) (j := 8) (by decide)
  have hring : l.board + 260 ≤ l.journal ∨ l.journal + l.journalSize ≤ l.board := Layout.valid_disjoint h.valid (i := 8) (j := 9) (by decide)
  refine ⟨⟨?_, ?_, h.valid, by rw [hj]; exact h.free, hm⟩, fun k hk => hcell _ (by omega), hcell _ (by omega), by rw [hj], fun _ => by rw [hj]; exact ⟨Nat.le_refl _, rfl⟩,
    fun hs => by rw [hcell _ (by omega), hj]; exact hs, hattends⟩
  · rw [Part.active, hrun]; exact h.active
  · rw [hrun]; exact h.layout

theorem board_writeRegion_drops (h : p.Full l) {base : Layout → Nat} {ws : List Word} (h1 : l.board ≤ base l)
    (h2 : base l + ws.length ≤ l.board + 260) : p.DropsOnly l (p.writeRegion base ws) := by
  have hframe := writeRegion_frame p base ws
  refine .of_board h (by rw [hframe]) (by rw [hframe]) (by rw [hframe]) (wf_writeRegion p base ws h.wf) fun x hx => ?_
  rw [Part.writeRegion_eq h.layout]
  exact cell_writeAll_out p _ _ ws fun k hk => by omega

/-- A record dropped (R167): the gap count rises, and J_GAP shows it. -/
theorem dropRecord_drops (h : p.Full l) : p.DropsOnly l p.dropRecord ∧ p.dropRecord.journal.gap = satInc p.journal.gap
    ∧ p.dropRecord.journal.gapRaises = (if p.journal.gap = 0 then p.journal.gapRaises + 1 else p.journal.gapRaises)
    ∧ (p.dropRecord.mem.cell (l.pointers + 2)).written = p.dropRecord.journal.gap := by
  obtain ⟨m, arm, hq, hshown, hout⟩ := writePointer_shows (l := l) (p := p.setJournal { p.journal with
    gap := satInc p.journal.gap
    gapRaises := if p.journal.gap = 0 then p.journal.gapRaises + 1 else p.journal.gapRaises }) h.layout (i := 2) (by decide) (satInc p.journal.gap)
  obtain ⟨hwf, hword⟩ := hshown h.valid h.wf
  have hdrop : p.dropRecord = _ := hq
  rw [hdrop]
  have hapart := Layout.valid_pointers_journal h.valid
  refine ⟨⟨⟨h.active, h.layout, h.valid, h.free, hwf⟩, fun k hk => hout _ (by omega), hout _ (by omega), rfl, fun hne => ⟨?_, ?_⟩, fun _ => hword, rfl⟩,
    rfl, rfl, hword⟩
  · show p.journal.gap.toNat ≤ (satInc p.journal.gap).toNat
    have := p.journal.gap.isLt
    rw [satInc_word]
    split <;> omega
  · show (if p.journal.gap = 0 then _ else _) = _
    rw [if_neg hne]

theorem writeRecord_full (h : p.Full l) (hlen : 4 ≤ r.length) : p.writeRecord r = p.dropRecord := by
  rw [Part.writeRecord, if_neg (by rw [h.active]; decide)]
  split
  · rw [Part.placeOrDrop, place_full h hlen, Option.getD_none]
  · rw [place_full h (by simp [Record.length, gapRecord])]

theorem restEval_setModes (p : Part) : ∃ ms, p.restEval = p.setModes ms := by
  unfold Part.restEval
  split
  · split
    · exact ⟨p.modes, rfl⟩
    · exact ⟨_, rfl⟩
  · exact ⟨_, rfl⟩

/-- A raise at a full ring drops its records and no more. -/
theorem fullKeeps (l : Layout) : RaiseSteps (Part.FullKeeps l) where
  refl _ h := .refl h
  trans h1 h2 h := (h1 h).trans (h2 (h1 h).full)
  board p b h := .of_board h rfl rfl rfl h.wf fun _ _ => rfl
  entry p i h := by
    refine board_writeRegion_drops h (Nat.le_add_right_of_le (Nat.le_add_right _ _)) ?_
    have hlen : (entryWords p.board.entries[i]).length = 8 := by
      unfold entryWords
      split <;> rfl
    have := i.isLt
    rw [hlen]
    omega
  header p h := board_writeRegion_drops h (Nat.le_refl _) (by simp [Board.header])
  alert p h := .of_board h rfl rfl rfl h.wf fun _ _ => rfl
  rest p h := by
    obtain ⟨ms, hms⟩ := restEval_setModes p
    rw [hms]
    exact .of_board h rfl rfl rfl h.wf fun _ _ => rfl
  record p r hlen h := by
    rw [writeRecord_full h hlen]
    exact (dropRecord_drops h).1

/-- A raise at a full ring, whose gap count is not 0, takes it to 2 at least. -/
theorem raiseOne_full (h : p.Full l) (hgap : p.journal.gap ≠ 0) (code : AlertCode) (src : Source) (zone : Zone) (sev : Severity) :
    p.DropsOnly l (p.raiseOne code src zone sev).1 ∧ 2 ≤ (p.raiseOne code src zone sev).1.journal.gap.toNat := by
  have hrecords := (fullKeeps l).raiseOne h.active code src zone sev
  have hall := (fullKeeps l).of_records hrecords h
  obtain ⟨a, r, ha, hlen, hq⟩ := hrecords
  have hdrops := ha h
  obtain ⟨hdrop, hgap', -, -⟩ := dropRecord_drops hdrops.full
  rw [writeRecord_full hdrops.full hlen] at hq
  have hle := (hdrops.gap hgap).1
  have hpos : 1 ≤ p.journal.gap.toNat := Nat.one_le_iff_ne_zero.mpr fun e => hgap (BitVec.eq_of_toNat_eq (by simpa using e))
  have hafter := ((hq hdrop.full).gap (fun e => by
    rw [hgap'] at e
    have := satInc_word a.journal.gap
    rw [e] at this
    simp only [BitVec.ofNat_eq_ofNat, BitVec.toNat_ofNat, Nat.zero_mod] at this
    split at this <;> omega)).1
  refine ⟨hall, ?_⟩
  rw [hgap', satInc_word] at hafter
  split at hafter <;> omega

/-- A record handed to the writer of a full ring with no raise waiting (R166 to R168). -/
theorem hand_full (h : p.Full l) (hraises : p.journal.gapRaises = 0) (hlen : 4 ≤ r.length) : p.RingDrops l (p.hand r) := by
  obtain ⟨hdrop, hgap, hwaits, hshown⟩ := dropRecord_drops h
  rw [Part.hand, writeRecord_full h hlen]
  generalize p.dropRecord = d at hdrop hgap hwaits hshown
  have hword := satInc_word p.journal.gap
  have hlt := p.journal.gap.isLt
  by_cases hzero : p.journal.gap = 0
  · rw [if_pos hzero, hraises] at hwaits
    have hone : d.journal.gap.toNat = 1 := by
      rw [hgap, hword, hzero]
      rfl
    have hd0 : ({ d with journal := { d.journal with gapRaises := d.journal.gapRaises - 1 } } : Part).Full l :=
      ⟨hdrop.full.active, hdrop.full.layout, h.valid, hdrop.full.free, hdrop.full.wf⟩
    have hne : d.journal.gap ≠ 0 := fun e => by rw [e] at hone; cases hone
    obtain ⟨hraise, htwo⟩ := raiseOne_full hd0 hne .journalGap .none .all .info
    have hraised := (hraise.gap hne).2
    have hwhole : d.whole = d.raiseGap := by
      have hdone : d.raiseGap.journal.gapRaises = 0 := by
        refine Eq.trans hraised ?_
        show d.journal.gapRaises - 1 = 0
        rw [hwaits]
      rw [Part.whole, if_pos hdrop.full.active, Part.raiseGaps, if_neg (by rw [hwaits]; decide), Part.raiseGaps, if_pos hdone]
    rw [hwhole]
    have hraise' : ({ d with journal := { d.journal with gapRaises := d.journal.gapRaises - 1 } } : Part).DropsOnly l d.raiseGap := hraise
    have htwo' : 2 ≤ d.raiseGap.journal.gap.toNat := htwo
    refine ⟨fun k hk => (hraise'.ring k hk).trans (hdrop.ring k hk), hraise'.fill.trans hdrop.fill, ?_, htwo', hraise'.shown hshown,
      hraise'.attends.trans hdrop.attends⟩
    have hend : d.raiseGap.journal.gapRaises = 0 := by
      refine Eq.trans hraised ?_
      show d.journal.gapRaises - 1 = 0
      rw [hwaits]
    rw [hraise'.journal, hend]
    show ({ d.journal with gap := d.raiseGap.journal.gap, gapRaises := 0 } : Journal) = _
    rw [hdrop.journal, ← hraises]
  · rw [if_neg hzero, hraises] at hwaits
    rw [Part.whole_of hwaits]
    refine ⟨hdrop.ring, hdrop.fill, ?_, ?_, hshown, hdrop.attends⟩
    · rw [hdrop.journal, hwaits, ← hraises]
    · have hpos : 1 ≤ p.journal.gap.toNat := Nat.one_le_iff_ne_zero.mpr fun e => hzero (BitVec.eq_of_toNat_eq (by simpa using e))
      rw [hgap, hword]
      split <;> omega

/-! ### A record handed to the writer (R166 to R168) -/

/-- A record that is not of the immediate class, handed to the writer while the blocks work and no raise waits: placed, placed after a
GAP record, or dropped. -/
theorem hand_ringRecords (ha : p.active = true) (hraises : p.journal.gapRaises = 0) (hm : Memory.wf p.mem) (himm : r.immediate = false)
    (hlen : 4 ≤ r.length) : p.RingRecords l r.words (p.hand r) := by
  have hinactive : ¬ (!p.active) = true := by rw [ha]; decide
  have hrlen := r.words_length
  refine ⟨fun hgap hfits => ?_, fun hgap hfits => ?_, fun hl hv hfill hempty hfree => ?_⟩
  · rw [hrlen] at hfits
    obtain ⟨q, hplace, htakes, hwaits⟩ := place_takes hfits hm himm
    rw [Part.hand, Part.writeRecord, if_neg hinactive, if_pos hgap, Part.placeOrDrop, hplace, Option.getD_some, Part.whole_of (hwaits.trans hraises)]
    exact htakes
  · obtain ⟨m, hplace, htakes, hwaits⟩ := place_takes (r := gapRecord p.journal.gap p.time) hfits hm rfl
    have htold := told_place hplace
    obtain ⟨mem, arm, hn, hshown, hout⟩ := writePointer_shows (l := l) (p := m.setJournal { m.journal with gap := 0 })
      (htold.layout.trans hfits.1) (i := 2) (by decide) 0
    obtain ⟨hwf, hword⟩ := hshown hfits.2.1 (htold.mem hm)
    have hwrite : p.writeRecord r = ((m.setJournal { m.journal with gap := 0 }).writeJGap).placeOrDrop r := by
      rw [Part.writeRecord, if_neg hinactive, if_neg hgap, hplace]
    have hn' : (m.setJournal { m.journal with gap := 0 }).writeJGap = _ := hn
    rw [hn'] at hwrite
    obtain ⟨n, hnw⟩ : ∃ n, n = ({ m with
      mem := mem
      journal := { m.journal with gap := 0 }
      prot := { m.prot with injection := { m.prot.injection with armed := arm } } } : Part) := ⟨_, rfl⟩
    have hwrite' : p.writeRecord r = n.placeOrDrop r := by rw [hwrite, hnw]; rfl
    have hnj : n.journal.gapRaises = m.journal.gapRaises := by rw [hnw]
    refine ⟨m, n, htakes, by rw [hnw], by rw [hnw]; exact hword, by rw [hnw]; exact hout, fun hnfits => ?_⟩
    rw [hrlen] at hnfits
    obtain ⟨q, hplace', htakes', hwaits'⟩ := place_takes hnfits (by rw [hnw]; exact hwf) himm
    rw [Part.hand, hwrite', Part.placeOrDrop, hplace', Option.getD_some, Part.whole_of (hwaits'.trans (hnj.trans (hwaits.trans hraises)))]
    exact htakes'
  · exact hand_full ⟨ha, hl, hv, hfree, hm⟩ hraises hlen

end

/-- Settles O15: the word is mended and counted, and its MEMORY record is handed to the writer. -/
theorem hostReadCorrectsOneBit : Obligations.HostReadCorrectsOneBit := by
  unfold Obligations.HostReadCorrectsOneBit
  intro a s w b hfree ha heven hst hsp hm hcell
  have haddr : a.toNat / 2 < Config.memWords := by
    simp only [Config.memWords]
    omega
  have hread : (s.part.readWord .host (a.toNat / 2)) = { value := w, bad := false, part := s.part.correctedRead .host (a.toNat / 2) w } := by
    have hu : (s.part.mem.cell (a.toNat / 2)).upset = .one b := by rw [hcell]
    have hdata : (s.part.mem.cell (a.toNat / 2)).data = w := by
      rw [Cell.data_of_readable (.inr ⟨b, hu⟩), hcell]
    simp only [Part.readWord, hu, hdata]
  rw [exec_hostRead_mem hfree ha heven, Part.memRead_judged hst hsp, hread]
  refine ⟨_, _, rfl, told_correctedRead s.part .host (a.toNat / 2) w, rfl, fun x => ?_, fun l hactive hraises hwear => ?_⟩
  · show (s.part.mem.store (a.toNat / 2) (.good w)).cell x = _
    split
    · next hx =>
      rw [hx]
      exact Memory.cell_store_self _ _ _ hm haddr
    · next hx => exact Memory.cell_store_ne _ _ _ _ hx
  · have hread : s.part.correctedRead .host (a.toNat / 2) w
        = ((s.part.storeGood (a.toNat / 2) w).setProt (s.part.prot.noteCorrected s.part.run.captureLast (a.toNat / 2))).hand
          (memoryRecord false (a.toNat / 2) .host s.part.time) := by
      unfold Part.correctedRead
      dsimp only
      rw [if_neg (fun h => hwear (by simp only [Config.wearCount] at h; bv_omega))]
      rfl
    rw [hread]
    exact hand_ringRecords (r := memoryRecord false (a.toNat / 2) .host s.part.time) hactive hraises (Memory.store_wf _ _ _ hm) rfl (by simp [Record.length, memoryRecord])

end Sys2Proof.Machine
end

