-- ==== Sys2Proof/Proofs/EmptyPointer.lean ====
section
/-! A write of J_EMPTY (R169, R171, R173): the pointer, the stale timer, the low mark and the flush of the coalesced counts. -/

namespace Sys2Proof.Machine

section
variable {p q : Part} {l : Layout}

/-! ### What the writer's records leave of the throttle (R172, R173) -/

/-- The coalesce counts stand, and a writer that is THROTTLED stays so. -/
def Part.CountsStand (p q : Part) : Prop :=
  q.journal.coalesced = p.journal.coalesced ∧ (p.journal.throttled = true → q.journal.throttled = true)

theorem countsStand_of_eq (h : q.journal = p.journal) : p.CountsStand q := by
  rw [Part.CountsStand, h]
  exact ⟨rfl, id⟩

theorem countsStand_trans {r : Part} (h1 : p.CountsStand q) (h2 : q.CountsStand r) : p.CountsStand r :=
  ⟨h2.1.trans h1.1, h2.2 ∘ h1.2⟩

theorem countsStand_writeRegion (p : Part) (base : Layout → Nat) (ws : List Word) : p.CountsStand (p.writeRegion base ws) :=
  countsStand_of_eq (by rw [writeRegion_frame])

theorem countsStand_placed (hl : p.run.layout = some l) (fill : Nat) (imm : Bool) : p.CountsStand (p.placed l fill imm) := by
  rw [Part.CountsStand, (placed_shows hl fill imm).journal]
  exact ⟨rfl, fun h => by rw [Journal.placed, h, Bool.true_or]⟩

theorem countsStand_place {r : Record} (h : p.place r = some q) : p.CountsStand q := by
  unfold Part.place at h
  split at h
  · cases h
  · next l hl =>
    have hall : ∀ (a : Nat) (ws : List Word), p.CountsStand (p.writeAll a ws) := fun a ws =>
      countsStand_of_eq (by rw [writeAll_frame])
    have hlayout : ∀ (p : Part) (a : Nat) (ws : List Word), (p.writeAll a ws).run = p.run := fun p a ws => by rw [writeAll_frame]
    dsimp only at h
    split at h
    · cases h
      exact countsStand_trans (hall _ _) (countsStand_placed (by rw [hlayout]; exact hl) _ _)
    · split at h
      · cases h
        have hpad : p.CountsStand (p.write (l.journal + p.journal.fill) padWord) := hall _ [padWord]
        have hpadrun : (p.write (l.journal + p.journal.fill) padWord).run = p.run := hlayout p _ [padWord]
        refine countsStand_trans (countsStand_trans hpad (countsStand_of_eq (by rw [writeAll_frame]))) (countsStand_placed ?_ _ _)
        rw [hlayout, hpadrun]
        exact hl
      · cases h

theorem countsStand_placeOrDrop (p : Part) (r : Record) : p.CountsStand (p.placeOrDrop r) := by
  unfold Part.placeOrDrop
  cases h : p.place r with
  | some q => exact countsStand_place h
  | none =>
    have hset : ∀ j : Journal, j.coalesced = p.journal.coalesced → j.throttled = p.journal.throttled → p.CountsStand (p.setJournal j) :=
      fun j hc ht => ⟨hc, fun h => ht.trans h⟩
    exact countsStand_trans (hset _ rfl rfl) (countsStand_writeRegion _ _ _)

theorem countsStand_writeRecord (p : Part) (r : Record) : p.CountsStand (p.writeRecord r) := by
  unfold Part.writeRecord
  split
  · exact countsStand_of_eq rfl
  · split
    · exact countsStand_placeOrDrop p r
    · split
      · next m hm =>
        have hset : m.CountsStand (m.setJournal { m.journal with gap := 0 }) := ⟨rfl, id⟩
        exact countsStand_trans (countsStand_trans (countsStand_trans (countsStand_place hm) hset) (countsStand_writeRegion _ _ _))
          (countsStand_placeOrDrop _ r)
      · exact countsStand_trans (q := p.setJournal _) ⟨rfl, id⟩ (countsStand_writeRegion _ _ _)

theorem countsStand : RaiseSteps Part.CountsStand where
  refl _ := countsStand_of_eq rfl
  trans := countsStand_trans
  board _ _ := countsStand_of_eq rfl
  entry _ _ := countsStand_writeRegion _ _ _
  header _ := countsStand_writeRegion _ _ _
  alert _ := countsStand_of_eq rfl
  rest p := by
    obtain ⟨ms, hms⟩ := restEval_setModes p
    rw [hms]
    exact countsStand_of_eq rfl
  record p r _ := countsStand_writeRecord p r

/-! ### The flush (R173) -/

theorem flushInput_throttled (h : p.journal.throttled = true) (i : Nat) : p.flushInput i = p := by
  rw [Part.flushInput, if_pos h]

/-- The first count is reached: it is 0, and its record is handed to the writer. -/
theorem flushInput_first (h : p.journal.throttled = false) {i : Nat} {n : Word} {rest : List (Nat × Word)}
    (hc : p.journal.coalesced = (i, n) :: rest) :
    p.flushInput i = (p.setJournal { p.journal with coalesced := rest }).writeRecord (coalescedRecord i n p.time) := by
  rw [Part.flushInput, if_neg (by rw [h]; decide)]
  simp only [hc, sparseGet, sparseSet, if_true, Nat.lt_irrefl, if_false]
  rfl

/-- The counts that a flush reaches are 0: the first of them, and all where the writer stays NORMAL. -/
theorem flush_counts (counts : List (Nat × Word)) (p : Part) (hc : p.journal.coalesced = counts) :
    ∃ k, k ≤ counts.length ∧ ((counts.map Prod.fst).foldl Part.flushInput p).journal.coalesced = counts.drop k
      ∧ (((counts.map Prod.fst).foldl Part.flushInput p).journal.throttled = false → k = counts.length)
      ∧ (p.journal.throttled = false → counts ≠ [] → 1 ≤ k) := by
  induction counts generalizing p with
  | nil => exact ⟨0, Nat.le_refl _, hc, fun _ => rfl, fun _ h => absurd rfl h⟩
  | cons e rest ih =>
    obtain ⟨i, n⟩ := e
    cases ht : p.journal.throttled with
    | true =>
      have hstay : ∀ is : List Nat, is.foldl Part.flushInput p = p := fun is => by
        induction is with
        | nil => rfl
        | cons j is ih => rw [List.foldl_cons, flushInput_throttled ht, ih]
      rw [hstay]
      exact ⟨0, Nat.zero_le _, hc, fun h => absurd (ht.symm.trans h) (by decide), fun h => absurd h (by decide)⟩
    | false =>
      rw [List.map_cons, List.foldl_cons, flushInput_first ht hc]
      obtain ⟨k, hk, hdrop, hall, -⟩ := ih _ (countsStand_writeRecord (p.setJournal { p.journal with coalesced := rest })
        (coalescedRecord i n p.time)).1
      exact ⟨k + 1, Nat.succ_le_succ hk, hdrop, fun h => congrArg (· + 1) (hall h), fun _ _ => Nat.succ_pos k⟩

theorem flush_spec (p : Part) : ∃ k, k ≤ p.journal.coalesced.length ∧ p.flush.journal.coalesced = p.journal.coalesced.drop k
    ∧ (p.flush.journal.throttled = false → k = p.journal.coalesced.length)
    ∧ (p.journal.throttled = false → p.journal.coalesced ≠ [] → 1 ≤ k) := by
  obtain ⟨k, hk, hdrop, hall, hfirst⟩ := flush_counts _ p rfl
  have hwhole := countsStand.whole (fun q n => ⟨rfl, id⟩) ((p.journal.coalesced.map Prod.fst).foldl Part.flushInput p)
  unfold Part.flush
  split
  · next hnil => exact ⟨0, Nat.zero_le _, by rw [hnil]; rfl, fun _ => by rw [hnil]; rfl, fun _ h => absurd hnil h⟩
  · refine ⟨k, hk, hwhole.1.trans hdrop, fun h => hall ?_, hfirst⟩
    rw [← Bool.not_eq_true]
    intro ht
    rw [hwhole.2 ht] at h
    cases h

theorem flush_nil (h : p.journal.coalesced = []) : p.flush = p := by
  rw [Part.flush, h]

/-- The flush of a single count hands the writer its record. -/
theorem flush_single (ht : p.journal.throttled = false) {i : Nat} {n : Word} (hc : p.journal.coalesced = [(i, n)]) :
    p.flush = (p.setJournal { p.journal with coalesced := [] }).hand (coalescedRecord i n p.time) := by
  rw [Part.flush, hc]
  show (p.flushInput i).whole = _
  rw [flushInput_first ht hc]
  rfl

/-! ### The host's value (R169, R171) -/

/-- The journal as a value in the occupied span is taken (R169, R171). -/
def Journal.emptied (j : Journal) (l : Layout) (v : Nat) (now : Time) : Journal :=
  ({ j with empty := v } : Journal).restale l.journalSize now l.staleTime

theorem jEmpty_inactive (ha : p.active = false) (v : Word) : p.jEmpty v = p := by
  unfold Part.jEmpty
  split
  · rfl
  · rw [if_pos (by rw [ha]; decide)]

/-- A value lies in the occupied span (R169). -/
def Journal.takes (j : Journal) (l : Layout) (v : Nat) : Prop :=
  v < l.journalSize ∧ (v + l.journalSize - j.empty) % l.journalSize ≤ (j.fill + l.journalSize - j.empty) % l.journalSize

theorem jEmpty_taken (ha : p.active = true) (hl : p.run.layout = some l) {v : Word} (h : p.journal.takes l v.toNat) :
    p.jEmpty v = (p.setJournal (p.journal.emptied l v.toNat p.time)).lowMark l := by
  rw [Part.jEmpty, hl]
  dsimp only
  rw [if_neg (by rw [ha]; decide)]
  exact if_pos h

theorem jEmpty_refused (ha : p.active = true) (hl : p.run.layout = some l) {v : Word} (h : ¬ p.journal.takes l v.toNat) :
    p.jEmpty v = p.writeRegion (fun y => y.pointers + 1) [word p.journal.empty] := by
  rw [Part.jEmpty, hl]
  dsimp only
  rw [if_neg (by rw [ha]; decide)]
  exact if_neg h

/-- A host write of J_EMPTY: stored, and passed to the journal writer. -/
theorem exec_jEmptyWrite {v : Word} {s : State} (hfree : s.part.run.hold = none) (hst : s.part.run.state ≠ .clearing)
    (hl : s.part.run.layout = some l) (hv : l.valid = true) :
    exec (.jEmptyWrite v) s = done s ((s.part.storeFrom false (l.pointers + 1) v).jEmpty v) := by
  have hrow : exec (.jEmptyWrite v) s = done s (s.part.regionWrite (fun l => l.pointers + 1) v) := rfl
  have hspare : s.part.spare (l.pointers + 1) = false := by
    simp only [Part.spare, hl, Bool.or_eq_false_iff, beq_eq_false_iff_ne]
    omega
  have hwatch : (s.part.storeFrom false (l.pointers + 1) v).watch (l.pointers + 1) v
      = (s.part.storeFrom false (l.pointers + 1) v).jEmpty v := by
    have hlayout : (s.part.storeFrom false (l.pointers + 1) v).run.layout = some l := by rw [storeFrom_frame]; exact hl
    have hout : inRegion (l.pointers + 1) l.orders (8 * l.slotCount) = false := by
      have := Layout.valid_pointers_orders hv
      simp only [inRegion, decide_eq_false_iff_not]
      omega
    rw [Part.watch, hlayout]
    dsimp only
    rw [hout, Bool.false_and, if_neg Bool.false_ne_true, if_pos rfl]
  rw [hrow, Part.regionWrite, hl]
  exact congrArg (done s) ((Part.memWrite_stores hfree hst hspare v).trans hwatch)

/-- The writer becomes NORMAL again, and J_STATE shows it (R173). -/
def Part.normal (p : Part) : Part := (p.setJournal { p.journal with throttled := false }).writeJState

theorem normal_spec (hl : p.run.layout = some l) (hv : l.valid = true) (hm : Memory.wf p.mem) : ∃ m arm,
    p.normal = { p with
      mem := m, journal := { p.journal with throttled := false }
      prot := { p.prot with injection := { p.prot.injection with armed := arm } } }
    ∧ Memory.wf m ∧ (m.cell (l.pointers + 3)).written = 0 ∧ ∀ x, x ≠ l.pointers + 3 → m.cell x = p.mem.cell x := by
  obtain ⟨m, arm, hq, hshown, hout⟩ := writePointer_shows (l := l) (p := p.setJournal { p.journal with throttled := false }) hl
    (i := 3) (by decide) 0
  obtain ⟨hwf, hword⟩ := hshown hv hm
  exact ⟨m, arm, hq, hwf, hword, hout⟩

theorem lowMark_eq (p : Part) (l : Layout) : p.lowMark l =
    if p.journal.throttled = true ∧ (p.journal.fill + l.journalSize - p.journal.empty) % l.journalSize ≤ l.lowMark
    then p.normal.flush else p := rfl

/-- The low-mark check, with no counts to flush. -/
theorem lowMark_uncounted (h : p.journal.coalesced = []) : (p.lowMark l).journal = { p.journal with
    throttled := p.journal.throttled && decide (l.lowMark < (p.journal.fill + l.journalSize - p.journal.empty) % l.journalSize) } := by
  have hnormal : p.normal.journal = { p.journal with throttled := false } := by
    rw [Part.normal, Part.writeJState, writeRegion_frame]
    rfl
  rw [lowMark_eq]
  split
  · next hc =>
    rw [flush_nil (by rw [hnormal]; exact h), hnormal, decide_eq_false (by omega), Bool.and_false]
  · next hc =>
    have hkept : (p.journal.throttled && decide (l.lowMark < (p.journal.fill + l.journalSize - p.journal.empty) % l.journalSize))
        = p.journal.throttled := by
      cases ht : p.journal.throttled with
      | false => rfl
      | true => exact decide_eq_true (Nat.lt_of_not_le fun hle => hc ⟨ht, hle⟩)
    rw [hkept]

end

/-- Settles O19: the value is stored; one in the occupied span is taken, with the low mark and the flush after it; another is put back. -/
theorem emptyPointerWrite : Obligations.EmptyPointerWrite := by
  unfold Obligations.EmptyPointerWrite
  intro v s l hfree hst hl hv hm
  have hpointers := Layout.valid_pointers_fit hv
  have hframe := storeFrom_frame s.part false (l.pointers + 1) v
  have hword := written_storeFrom_self s.part false (l.pointers + 1) v hm (by omega)
  have hout := fun x hx => cell_storeFrom_ne s.part false (l.pointers + 1) x v hx
  have hwf := wf_storeFrom s.part false (l.pointers + 1) v hm
  rw [exec_jEmptyWrite hfree hst hl hv]
  generalize s.part.storeFrom false (l.pointers + 1) v = b at hframe hword hout hwf
  have hblayout : b.run.layout = some l := by rw [hframe]; exact hl
  have hbactive : b.active = s.part.active := by rw [hframe]; rfl
  have hbjournal : b.journal = s.part.journal := by rw [hframe]
  have hbtime : b.time = s.part.time := by rw [hframe]
  have hhost : s.part.reportWord (l.pointers + 1) = false := by
    rw [Part.reportWord, hl]
    exact Layout.reportWord_host hv (.inl rfl)
  have hrest : ∀ e q : Part, e = { s.part with mem := e.mem, prot := e.prot, journal := e.journal } →
      (∀ x, x ≠ l.pointers + 1 → e.mem.cell x = s.part.mem.cell x) → e.Told q →
      q.orders = s.part.orders ∧ q.lines = s.part.lines ∧ q.inputs = s.part.inputs ∧ q.bindings = s.part.bindings
      ∧ q.guards = s.part.guards ∧ (∀ c, q.chan c = { s.part.chan c with lastWrite := (q.chan c).lastWrite })
      ∧ q.time = s.part.time ∧ q.modes.mode = s.part.modes.mode
      ∧ ∀ x, x ≠ l.pointers + 1 → s.part.reportWord x = false → q.mem.cell x = s.part.mem.cell x := by
    intro e q he hcell htold
    generalize e.journal = j, e.prot = prot, e.mem = mem at he hcell
    subst he
    exact ⟨htold.orders, htold.lines, htold.inputs, htold.bindings, htold.guards, htold.channels, htold.time,
      (congrArg Modes.mode htold.modes :), fun x hx hr => (htold.words x hr).trans (hcell x hx)⟩
  refine ⟨_, rfl, fun ha => ?_, fun ha => ?_, ?_⟩
  · rw [jEmpty_inactive (hbactive.trans ha)]
    exact ⟨hbjournal, hword⟩
  · split
    · next htakes =>
      have htakes' : b.journal.takes l v.toNat := by rw [hbjournal]; exact htakes
      rw [jEmpty_taken (hbactive.trans ha) hblayout htakes', hbjournal, hbtime]
      obtain ⟨e, he⟩ : ∃ e, e = b.setJournal (s.part.journal.emptied l v.toNat s.part.time) := ⟨_, rfl⟩
      have hejournal : e.journal = s.part.journal.emptied l v.toNat s.part.time := by rw [he]; rfl
      have helayout : e.run.layout = some l := by rw [he]; exact hblayout
      have heactive : e.active = true := by rw [he]; exact hbactive.trans ha
      have hemem : e.mem = b.mem := by rw [he]; rfl
      rw [← he]
      have htold := told_lowMark e l
      refine ⟨?_, ?_, fun hnil => ?_, fun hthrottled hlow hpairs hnonzero => ?_⟩
      · rw [htold.empty, hejournal]
        rfl
      · rw [htold.words _ (by rw [Part.reportWord, helayout]; exact Layout.reportWord_host hv (.inl rfl)), hemem]
        exact hword
      · rw [lowMark_uncounted (by rw [hejournal]; exact hnil), hejournal]
        rfl
      · have hlow' : e.journal.throttled = true
            ∧ (e.journal.fill + l.journalSize - e.journal.empty) % l.journalSize ≤ l.lowMark := by
          rw [hejournal]
          exact ⟨hthrottled, hlow⟩
        rw [lowMark_eq, if_pos hlow']
        obtain ⟨m, arm, hnormal, hnwf, hnword, hnout⟩ := normal_spec helayout hv (by rw [hemem]; exact hwf)
        obtain ⟨k, hk, hdrop, hall, hfirst⟩ := flush_spec e.normal
        have hncounts : e.normal.journal.coalesced = s.part.journal.coalesced := by rw [hnormal, hejournal]; rfl
        rw [hncounts] at hk hdrop hall hfirst
        refine ⟨⟨k, hk, hdrop, hall, hfirst (by rw [hnormal])⟩, fun i n hone hraises => ?_⟩
        have hntime : e.normal.time = s.part.time := by rw [hnormal, he]; exact hbtime
        rw [flush_single (by rw [hnormal]) (hncounts.trans hone), hntime]
        refine ⟨e.normal.setJournal { e.normal.journal with coalesced := [] }, ?_, ?_, fun x h1 h3 => ?_, ?_⟩
        · rw [hnormal, hejournal, he, hframe]
          rfl
        · rw [hnormal]
          exact hnword
        · rw [hnormal]
          exact (hnout x h3).trans ((congrArg (fun y => Memory.cell y x) hemem).trans (hout x h1))
        · refine hand_ringRecords (r := coalescedRecord i n s.part.time) ?_ ?_ ?_ rfl (by simp [Record.length, coalescedRecord])
          · rw [hnormal]
            exact heactive
          · rw [hnormal, hejournal]
            exact hraises
          · rw [hnormal]
            exact hnwf
    · next htakes =>
      have htakes' : ¬ b.journal.takes l v.toNat := by rw [hbjournal]; exact htakes
      obtain ⟨m, arm, hq, hshown, -⟩ := writePointer_shows (l := l) hblayout (i := 1) (by decide) (word b.journal.empty)
      rw [jEmpty_refused (hbactive.trans ha) hblayout htakes', hq]
      refine ⟨hbjournal, (hshown hv hwf).2.trans ?_⟩
      rw [hbjournal]
      rfl
  · have hbrest : b = { s.part with mem := b.mem, prot := b.prot, journal := b.journal } := by
      have hprot : b.prot = { s.part.prot with injection := { s.part.prot.injection with armed := b.prot.injection.armed } } := by rw [hframe]
      rw [hprot, hbjournal]
      exact hframe
    cases ha : s.part.active with
    | false =>
      rw [jEmpty_inactive (hbactive.trans ha)]
      exact hrest b b hbrest hout (.refl b)
    | true =>
      by_cases htakes : b.journal.takes l v.toNat
      · rw [jEmpty_taken (hbactive.trans ha) hblayout htakes]
        refine hrest (b.setJournal (b.journal.emptied l v.toNat b.time)) _ ?_ hout (told_lowMark _ l)
        rw [hbrest]
        rfl
      · obtain ⟨m, arm, hq, -, hqout⟩ := writePointer_shows (l := l) hblayout (i := 1) (by decide) (word b.journal.empty)
        rw [jEmpty_refused (hbactive.trans ha) hblayout htakes, hq]
        refine hrest _ _ ?_ (fun x hx => (hqout x hx).trans (hout x hx)) (.refl _)
        rw [hbrest]

end Sys2Proof.Machine
end

