-- ==== Sys2Proof/Proofs/Delivery.lean ====
section
/-! Rules for the delivery of a gesture: what a timer or a key sample does before the binding engine takes the event and after it
(R24 to R29, R34), which is work beside the engine's own. -/

namespace Sys2Proof.Machine

variable {p q r : Part} {i : Nat} {x y z : Input} {l : Fin 4} {a : Nat} {keys : Byte}

/-! ### Work beside the engine -/

theorem Part.Told.setInputs (h : p.Told q) (xs : List Input) : (p.setInputs xs).Told (q.setInputs xs) := { h with inputs := rfl }

/-- Beside the lines, the inputs but for their lamps, words of memory and the rest timer, nothing stands between `p` and `q`. -/
structure Part.Beside (p q : Part) : Prop where
  around : p.Around q
  writes : ((p.setInputs q.inputs).setLines q.lines).Writes q
  lamps : q.inputs.map Input.lamp = p.inputs.map Input.lamp

theorem Part.Around.trans (h : p.Around q) (h' : q.Around r) : p.Around r :=
  ((Part.Told.setInputs h r.inputs).setLines r.lines).trans h'

theorem Part.Around.told (h : p.Around q) (ht : q.Told r) : p.Around r := by
  refine h.trans ?_
  rw [Part.Around, ht.inputs, ht.lines]
  exact ht

theorem Part.Beside.refl (p : Part) : p.Beside p := ⟨Part.Told.refl p, rfl, rfl⟩

theorem Part.Beside.trans (h : p.Beside q) (h' : q.Beside r) : p.Beside r where
  around := h.around.trans h'.around
  writes := by
    have hq : (q.setInputs r.inputs).setLines r.lines = { (p.setInputs r.inputs).setLines r.lines with
        mem := q.mem
        prot := { p.prot with injection := { p.prot.injection with armed := q.prot.injection.armed } }
        modes := { p.modes with restDue := q.modes.restDue } } := congrArg (fun t : Part => (t.setInputs r.inputs).setLines r.lines) h.writes
    have hr := h'.writes
    rw [hq] at hr
    exact hr
  lamps := h'.lamps.trans h.lamps

/-- Reports that leave the journal and the board, beside which the blocks did no work. -/
theorem Part.Beside.of_told (ht : p.Told q) (hw : p.Writes q) : p.Beside q where
  around := by
    rw [Part.Around, ht.inputs, ht.lines]
    exact ht
  writes := by
    rw [ht.inputs, ht.lines]
    exact hw
  lamps := by rw [ht.inputs]

theorem Part.Beside.setLine (p : Part) (l : Fin 4) (x : Line) : p.Beside (p.setLine l x) := ⟨Part.Told.refl _, rfl, rfl⟩

theorem Part.Beside.modLine (p : Part) (l : Fin 4) (f : Line → Line) : p.Beside (p.modLine l f) := .setLine ..

theorem Part.Beside.modInput (p : Part) (i : Nat) (f : Input → Input) (hf : ∀ u, (f u).lamp = u.lamp) : p.Beside (p.modInput i f) where
  around := Part.Told.refl _
  writes := rfl
  lamps := by
    refine List.ext_getElem? fun n => ?_
    show ((p.inputs.modify i f).map Input.lamp)[n]? = _
    rw [List.getElem?_map, List.getElem?_map, List.getElem?_modify]
    cases p.inputs[n]? with
    | none => rfl
    | some u =>
      show some (if i = n then f u else u).lamp = some u.lamp
      split
      · rw [hf]
      · rfl

theorem beside_writeMap (p : Part) (i : Nat) : p.Beside (p.writeMap i) := by
  refine .of_told (told_writeMap p i) ?_
  unfold Part.writeMap
  split
  · split
    · unfold Part.Writes Part.write
      rw [storeFrom_frame]
    · rfl
  · rfl

theorem beside_writeStation (p : Part) (l : Fin 4) (a : Fin 12) : p.Beside (p.writeStation l a) :=
  .of_told (told_writeStation p l a) (writes_writeRegion _ _ _)

theorem beside_restNotice (p : Part) : p.Beside p.restNotice := by
  refine .of_told (told_restNotice p) ?_
  unfold Part.restNotice
  split <;> rfl

theorem Part.Beside.run (h : p.Beside q) : q.run = p.run := h.writes.run
theorem Part.Beside.board (h : p.Beside q) : q.board = p.board := h.writes.board
theorem Part.Beside.journal (h : p.Beside q) : q.journal = p.journal := h.writes.journal
theorem Part.Beside.time (h : p.Beside q) : q.time = p.time := h.writes.time
theorem Part.Beside.guards (h : p.Beside q) : q.guards = p.guards := h.around.guards
theorem Part.Beside.bindings (h : p.Beside q) : q.bindings = p.bindings := h.around.bindings
theorem Part.Beside.orders (h : p.Beside q) : q.orders = p.orders := h.around.orders
theorem Part.Beside.modes (h : p.Beside q) : q.modes = { p.modes with restDue := q.modes.restDue } := by rw [h.writes]; rfl
theorem Part.Beside.mode (h : p.Beside q) : q.modes.mode = p.modes.mode := (congrArg Modes.mode h.modes :)
theorem Part.Beside.channels (h : p.Beside q) : q.channels = p.channels := by rw [h.writes]; rfl
theorem Part.Beside.chan (h : p.Beside q) (c : Fin 8) : q.chan c = p.chan c := by rw [Part.chan, h.channels]; rfl

/-! ### Delivery (R34) -/

/-- The event of gesture `g` of input `i` is delivered to the engine: work beside it brings `p` to the part that takes the event, and its
PRESS record and work beside the engine follow. -/
def Part.Delivers (p : Part) (i : Nat) (g : Gesture) (q : Part) : Prop :=
  ∃ p1 always r, p.Beside p1 ∧ Record.length r = 4
    ∧ ((p1.engine (BitVec.ofNat 8 i) g).part.handPress i always r).Beside q

theorem Part.Delivers.after (h : p.Beside q) {g : Gesture} (h' : q.Delivers i g r) : p.Delivers i g r := by
  obtain ⟨p1, always, w, hp1, hw⟩ := h'
  exact ⟨p1, always, w, h.trans hp1, hw⟩

theorem Part.Delivers.beside {g : Gesture} (h : p.Delivers i g q) (h' : q.Beside r) : p.Delivers i g r := by
  obtain ⟨p1, always, w, hp1, hw, hq⟩ := h
  exact ⟨p1, always, w, hp1, hw, hq.trans h'⟩

theorem pressRecord_length (i : Nat) (g : Gesture) (forced quiet : Bool) (e : EngineReturn) (t : Time) :
    (pressRecord i g forced quiet e t).length = 4 := rfl

theorem deliver_eq (h : p.inputs[i]? = some x) (g : Gesture) (forced : Bool) (t : Time) :
    p.deliver i g forced t .delivered = (p.engine (BitVec.ofNat 8 i) g).part.handPress i x.d.alwaysJournal
      (pressRecord i g forced false (p.engine (BitVec.ofNat 8 i) g).ret t) := by
  rw [Part.deliver, h]

theorem deliver_delivers (h : p.inputs[i]? = some x) (g : Gesture) (forced : Bool) (t : Time) :
    p.Delivers i g (p.deliver i g forced t .delivered) := by
  rw [deliver_eq h]
  exact ⟨p, _, _, .refl p, pressRecord_length _ _ _ _ _ _, .refl _⟩

/-- A gesture after a PRESS that was delivered is delivered too, while the mode is not CLOSED or the input is the attendant's (R34). -/
theorem deliverLater_eq (h : p.inputs[i]? = some x) (ht : x.treatment = some .delivered)
    (hm : x.d.attendant = true ∨ p.modes.mode ≠ .closed) (g : Gesture) (forced : Bool) (t : Time) :
    p.deliverLater i g forced t = p.deliver i g forced t .delivered := by
  have hopen : (!x.d.attendant && p.modes.mode == .closed) = false := by
    rcases hm with ha | hm
    · rw [ha]
      rfl
    · rw [beq_eq_false_iff_ne.mpr hm, Bool.and_false]
  rw [Part.deliverLater, h]
  dsimp only
  rw [Input.laterTreatment, ht]
  dsimp only
  rw [hopen]
  rfl

theorem modInput_own (h : p.inputs[i]? = some x) (f : Input → Input) : (p.modInput i f).inputs[i]? = some (f x) := by
  show (p.inputs.modify i f)[i]? = _
  rw [List.getElem?_modify_eq, h]
  rfl

/-! ### The flips of a key and its timers -/

/-- A PRESS with no storm limit and no wake request is delivered (R26, R34). -/
theorem press_delivers (h : p.inputs[i]? = some x) (hs : x.suspended = none) (hl : x.d.stormLimit = 0)
    (hw : x.d.attendant = true ∨ x.d.wake = false ∨ p.modes.mode ≠ .rest) (hm : x.d.attendant = true ∨ p.modes.mode ≠ .closed) :
    p.Delivers i .press (p.press i) := by
  have hstorm : (x.pressed p.time).storm p.time = x.pressed p.time := if_pos hl
  have h1 : p.Beside (p.modInput i (fun _ => x.pressed p.time)) := by
    have heq : p.modInput i (fun _ => x.pressed p.time) = p.modInput i (fun u => { x.pressed p.time with lamp := u.lamp }) := by
      unfold Part.modInput
      rw [List.modify_eq_set_getElem?, List.modify_eq_set_getElem?, h]
      rfl
    rw [heq]
    exact .modInput _ _ _ fun _ => rfl
  have hown := modInput_own h (fun _ => x.pressed p.time)
  unfold Part.press
  rw [h]
  dsimp only
  rw [hstorm]
  generalize p.modInput i (fun _ => x.pressed p.time) = q1 at h1 hown ⊢
  rw [show (x.suspended.isNone && (x.pressed p.time).suspended.isSome) = false by
    rw [show (x.pressed p.time).suspended = x.suspended from rfl, hs]
    rfl, if_neg Bool.false_ne_true]
  have h2 : p.Beside (if (x.pressed p.time).d.attendant then q1 else q1.restNotice)
      ∧ (if (x.pressed p.time).d.attendant then q1 else q1.restNotice).inputs = q1.inputs := by
    split
    · exact ⟨h1, rfl⟩
    · exact ⟨h1.trans (beside_restNotice q1), (told_restNotice q1).inputs⟩
  generalize (if (x.pressed p.time).d.attendant then q1 else q1.restNotice) = q2 at h2 ⊢
  obtain ⟨h2, hin⟩ := h2
  have hwoke : (!(x.pressed p.time).d.attendant && (x.pressed p.time).d.wake && q2.modes.mode == .rest
      && (x.pressed p.time).suspended.isNone) = false := by
    show (!x.d.attendant && x.d.wake && q2.modes.mode == .rest && x.suspended.isNone) = false
    rw [h2.mode]
    rcases hw with hw | hw | hw
    · rw [hw]
      rfl
    · rw [hw, Bool.and_false]
      rfl
    · rw [beq_eq_false_iff_ne.mpr hw, Bool.and_false]
      rfl
  rw [hwoke, if_neg Bool.false_ne_true]
  have h3 := h2.trans (beside_writeMap q2 i)
  have hown3 : (q2.writeMap i).inputs[i]? = some (x.pressed p.time) := by rw [(told_writeMap q2 i).inputs, hin, hown]
  generalize q2.writeMap i = q3 at h3 hown3 ⊢
  have htreat : (x.pressed p.time).pressTreatment false q3.modes.mode = .delivered := by
    have hopen : (!x.d.attendant && q3.modes.mode == .closed) = false := by
      rw [h3.mode]
      rcases hm with ha | hm
      · rw [ha]
        rfl
      · rw [beq_eq_false_iff_ne.mpr hm, Bool.and_false]
    show (if x.suspended.isSome then Treatment.silent else if !x.d.attendant && q3.modes.mode == .closed then .quiet
      else if false && q3.modes.mode == .opened && !x.d.wakePass then .quiet else .delivered) = _
    rw [hs, hopen]
    rfl
  rw [htreat]
  exact (deliver_delivers (modInput_own hown3 fun y => { y with treatment := some .delivered }) .press false p.time).after
    (h3.trans (.modInput _ _ (fun y => { y with treatment := some .delivered }) fun _ => rfl))

/-- A RELEASE of a key whose PRESS was delivered is delivered (R27, R34). -/
theorem releaseInput_delivers (h : p.inputs[i]? = some x) (ht : x.treatment = some .delivered)
    (hm : x.d.attendant = true ∨ p.modes.mode ≠ .closed) : p.Delivers i .release (p.releaseInput i false) := by
  have h1 : p.Beside (p.modInput i (fun u => { u.stopTimers with state := .up })) := .modInput _ _ _ fun _ => rfl
  have hown := modInput_own h (fun u => { u.stopTimers with state := .up })
  unfold Part.releaseInput
  dsimp only
  generalize p.modInput i (fun u => { u.stopTimers with state := .up }) = q1 at h1 hown ⊢
  have h2 := h1.trans (beside_writeMap q1 i)
  rw [← (told_writeMap q1 i).inputs] at hown
  generalize q1.writeMap i = q2 at h2 hown ⊢
  rw [deliverLater_eq hown ht (by rw [h2.mode]; exact hm)]
  exact ((deliver_delivers hown .release false q2.time).beside
    (.modInput _ i (fun y => { y with treatment := none }) fun _ => rfl)).after h2

theorem holdExpire_delivers {due : Time} (h : p.inputs[i]? = some x) (ht : x.treatment = some .delivered) (hs : x.stuckDue = none)
    (hm : x.d.attendant = true ∨ p.modes.mode ≠ .closed) : p.Delivers i .hold (p.holdExpire i x due) := by
  have hstuck : x.stuckBy due = none := by rw [Input.stuckBy, hs]
  unfold Part.holdExpire
  rw [hstuck]
  dsimp only
  have h1 : p.Beside (p.modInput i (fun u => { u with
      state := .held, holdDue := none, repeatDue := some (after due u.d.repeatInterval) })) := .modInput _ _ _ fun _ => rfl
  have hown := modInput_own h (fun u => { u with state := .held, holdDue := none, repeatDue := some (after due u.d.repeatInterval) })
  generalize p.modInput i (fun u => { u with
    state := .held, holdDue := none, repeatDue := some (after due u.d.repeatInterval) }) = q1 at h1 hown ⊢
  have h2 := h1.trans (beside_writeMap q1 i)
  rw [← (told_writeMap q1 i).inputs] at hown
  generalize q1.writeMap i = q2 at h2 hown ⊢
  rw [deliverLater_eq hown ht (by rw [h2.mode]; exact hm)]
  exact (deliver_delivers hown .hold false due).after h2

/-- The part that takes a REPEAT: the input's repeat timer restarted. -/
def Part.repeated (p : Part) (i : Nat) (due : Time) : Part := p.modInput i (fun u => { u with repeatDue := some (after due u.d.repeatInterval) })

theorem beside_repeated (p : Part) (i : Nat) (due : Time) : p.Beside (p.repeated i due) := .modInput _ _ _ fun _ => rfl

theorem repeatExpire_eq {due : Time} (h : p.inputs[i]? = some x) (ht : x.treatment = some .delivered) (hs : x.stuckDue = none)
    (hm : x.d.attendant = true ∨ p.modes.mode ≠ .closed) : ∃ r : Record, r.length = 4
      ∧ p.repeatExpire i x due = ((p.repeated i due).engine (BitVec.ofNat 8 i) .repeat).part.handPress i x.d.alwaysJournal r := by
  have hstuck : x.stuckBy due = none := by rw [Input.stuckBy, hs]
  have hown := modInput_own h (fun u => { u with repeatDue := some (after due u.d.repeatInterval) })
  unfold Part.repeatExpire
  rw [hstuck]
  dsimp only
  rw [deliverLater_eq hown ht hm, deliver_eq hown]
  exact ⟨_, pressRecord_length _ _ _ _ _ _, rfl⟩

/-! ### The key sample -/

/-- What a key state that agrees with its input leaves of every input: all but the agreement count. -/
def Input.disagreed (x : Input) : Input := { x with agree := 0 }

/-- A key whose state agrees with its input's level does nothing but set an agreement count to 0 (R25). -/
theorem sampleKey_agrees {k : Fin 8}
    (h : ∀ j y, p.keyInput l a k j → p.inputs[j]? = some y → keys.getLsbD k.val = y.isDown) :
    p.sampleKey l a keys k = p ∨ ∃ j, p.keyInput l a k j ∧ p.sampleKey l a keys k = p.modInput j Input.disagreed := by
  unfold Part.sampleKey
  split
  · next j hj =>
    have hkey := keyInput_iff.mpr hj
    obtain ⟨y, hy, -⟩ := hkey.1
    refine .inr ⟨j, hkey, ?_⟩
    rw [Part.debounce, hy]
    dsimp only
    rw [KeyState.isDown_eq, if_pos (h j y hkey hy).symm]
    rfl
  · exact .inl rfl

/-- Keys that agree with their inputs do nothing but set agreement counts of their own inputs to 0. -/
theorem sampleKeys_agree (ks : List (Fin 8)) :
    ∀ p : Part, (∀ k ∈ ks, ∀ j y, p.keyInput l a k j → p.inputs[j]? = some y → keys.getLsbD k.val = y.isDown) →
      p.Beside (ks.foldl (Part.sampleKey l a keys) p)
      ∧ (ks.foldl (Part.sampleKey l a keys) p).inputs.map Input.disagreed = p.inputs.map Input.disagreed
      ∧ ∀ n, (∀ k ∈ ks, ¬ p.keyInput l a k n) → (ks.foldl (Part.sampleKey l a keys) p).inputs[n]? = p.inputs[n]? := by
  induction ks with
  | nil => exact fun p _ => ⟨.refl p, rfl, fun _ _ => rfl⟩
  | cons k ks ih =>
    intro p h
    obtain ⟨q, hq⟩ : ∃ q, q = p.sampleKey l a keys k := ⟨_, rfl⟩
    have hstep : p.Beside q ∧ q.inputs.map Input.disagreed = p.inputs.map Input.disagreed
        ∧ ∀ n, ¬ p.keyInput l a k n → q.inputs[n]? = p.inputs[n]? := by
      rcases sampleKey_agrees (h k List.mem_cons_self) with hself | ⟨j, hj, hmod⟩
      · rw [hq, hself]
        exact ⟨.refl p, rfl, fun _ _ => rfl⟩
      · rw [hq, hmod]
        refine ⟨.modInput _ _ _ fun _ => rfl, ?_, fun n hn => ?_⟩
        · refine List.ext_getElem? fun n => ?_
          show ((p.inputs.modify j _).map Input.disagreed)[n]? = _
          rw [List.getElem?_map, List.getElem?_map, List.getElem?_modify]
          cases p.inputs[n]? with
          | none => rfl
          | some u =>
            show some (if j = n then u.disagreed else u).disagreed = some u.disagreed
            split <;> rfl
        · have hne : j ≠ n := fun hjn => hn (hjn ▸ hj)
          show (p.inputs.modify j _)[n]? = _
          rw [List.getElem?_modify_ne _ _ hne]
    obtain ⟨hbeside, hmap, hkept⟩ := hstep
    have hd : q.inputs.map Input.d = p.inputs.map Input.d := by
      have := congrArg (List.map Input.d) hmap
      rwa [List.map_map, List.map_map] at this
    have hnext : ∀ k' ∈ ks, ∀ j y, q.keyInput l a k' j → q.inputs[j]? = some y → keys.getLsbD k'.val = y.isDown := by
      intro k' hk' j y hkey hy
      have hyj : (p.inputs.map Input.disagreed)[j]? = some y.disagreed := by rw [← hmap, List.getElem?_map, hy]; rfl
      rw [List.getElem?_map, Option.map_eq_some_iff] at hyj
      obtain ⟨u, hu, huy⟩ := hyj
      rw [h k' (List.mem_cons_of_mem k hk') j u ((keyInput_congr hd).mp hkey) hu, Input.isDown, Input.isDown,
        show u.state = y.state from (congrArg Input.state huy :)]
    obtain ⟨hb, hm, hk⟩ := ih q hnext
    rw [List.foldl_cons, ← hq]
    refine ⟨hbeside.trans hb, hm.trans hmap, fun n hn => ?_⟩
    rw [hk n fun k' hk' hkey => hn k' (List.mem_cons_of_mem k hk') ((keyInput_congr hd).mp hkey), hkept n (hn k List.mem_cons_self)]

/-- A sample whose key flips input `n`, and no other, delivers that input's gesture. -/
theorem sample_delivers {k : Fin 8} {n : Nat} {g : Gesture} (hkey : p.keyInput l a k n) (hx : p.inputs[n]? = some x)
    (hdiff : keys.getLsbD k.val ≠ x.isDown) (hagree : x.d.debounce ≤ x.agree + 1)
    (hothers : ∀ k' j y, k' ≠ k → p.keyInput l a k' j → p.inputs[j]? = some y → keys.getLsbD k'.val = y.isDown)
    (hflip : ∀ q : Part, p.Beside q → q.inputs[n]? = some x.disagreed → q.Delivers n g (q.flip n x.state)) :
    p.Delivers n g (p.sample l a keys) := by
  obtain ⟨before, later, hsplit⟩ := List.append_of_mem (List.mem_finRange k)
  have hnodup := List.nodup_finRange 8
  rw [hsplit, List.nodup_append, List.nodup_cons] at hnodup
  obtain ⟨-, ⟨hklater, -⟩, hdisj⟩ := hnodup
  have hkbefore : ∀ k' ∈ before, k' ≠ k := fun k' hk' => hdisj k' hk' k List.mem_cons_self
  have hneLater : ∀ k' ∈ later, k' ≠ k := fun k' hk' heq => hklater (heq ▸ hk')
  unfold Part.sample
  rw [hsplit, List.foldl_append, List.foldl_cons]
  obtain ⟨hb1, hm1, hk1⟩ := sampleKeys_agree (keys := keys) before p fun k' hk' j y hj hy => hothers k' j y (hkbefore k' hk') hj hy
  generalize before.foldl (Part.sampleKey l a keys) p = p1 at hb1 hm1 hk1 ⊢
  have hd1 : p1.inputs.map Input.d = p.inputs.map Input.d := by
    have := congrArg (List.map Input.d) hm1
    rwa [List.map_map, List.map_map] at this
  have hx1 : p1.inputs[n]? = some x := by
    rw [hk1 n fun k' hk' hkey' => hkbefore k' hk' (keyInput_key hkey' hkey), hx]
  have hkey1 : p1.keyInput l a k n := (keyInput_congr hd1).mpr hkey
  have hsample : p1.sampleKey l a keys k = (p1.modInput n Input.disagreed).flip n x.state := by
    rw [Part.sampleKey, keyInput_iff.mp hkey1]
    dsimp only
    rw [Part.debounce, hx1]
    dsimp only
    rw [KeyState.isDown_eq, if_neg (Ne.symm hdiff), if_pos hagree]
    rfl
  have hdeliver : p.Delivers n g (p1.sampleKey l a keys k) := by
    rw [hsample]
    have hb2 : p1.Beside (p1.modInput n Input.disagreed) := .modInput _ _ _ fun _ => rfl
    exact (hflip _ (hb1.trans hb2) (modInput_own hx1 _)).after (hb1.trans hb2)
  have hother : ∀ j, j ≠ n → (p1.sampleKey l a keys k).inputs[j]?.map Input.unlit = p1.inputs[j]?.map Input.unlit := by
    intro j hj
    rw [Part.sampleKey, keyInput_iff.mp hkey1]
    obtain ⟨y, hwork, -⟩ := debounce_keyWork hx1 (keys.getLsbD k.val)
    exact hwork.other hj
  have hd2 : (p1.sampleKey l a keys k).inputs.map Input.d = p.inputs.map Input.d := (calm_sampleKey p1 l a keys k).inputs.trans hd1
  generalize p1.sampleKey l a keys k = p2 at hdeliver hother hd2 ⊢
  refine hdeliver.beside (sampleKeys_agree later p2 fun k' hk' j y hj hy => ?_).1
  have hjkey : p.keyInput l a k' j := (keyInput_congr hd2).mp hj
  have hjn : j ≠ n := fun heq => hneLater k' hk' (keyInput_key (heq ▸ hjkey) hkey)
  have hy1 := hother j hjn
  rw [hy] at hy1
  obtain ⟨u, hu, huy⟩ := Option.map_eq_some_iff.mp hy1.symm
  have hyj : (p.inputs.map Input.disagreed)[j]? = some u.disagreed := by rw [← hm1, List.getElem?_map, hu]; rfl
  rw [List.getElem?_map, Option.map_eq_some_iff] at hyj
  obtain ⟨v, hv, hvu⟩ := hyj
  rw [hothers k' j v (hneLater k' hk') hjkey hv, Input.isDown, Input.isDown, show v.state = u.state from (congrArg Input.state hvu :),
    show u.state = y.state from (congrArg Input.state huy :)]

/-- A GOOD reply of a station that stays PRESENT, on a line that has not failed, comes to its key sample (R8). -/
theorem exchangeGood_present (i : Fin 12) (hpres : (p.line l).stations[i].presence = .present) (hlost : (p.line l).stations[i].lost = false)
    (hfail : (p.line l).lineFail = false) (keys : Byte) :
    ∃ r, p.exchangeGood l (i.val + 1) keys = r.sample l (i.val + 1) keys ∧ p.Beside r ∧ r.inputs = p.inputs := by
  have hst : p.station l (i.val + 1) = (p.line l).stations[i] := station_eq (stationIndex_succ i) p l
  unfold Part.exchangeGood
  dsimp only
  rw [hst, if_pos hpres, hlost, if_neg Bool.false_ne_true]
  have hline : ((p.modStation l (i.val + 1) (fun x => { x with failures := 0, everPresent := true, presence := .present })).line l).lineFail
      = false := by
    rw [Part.modStation, Part.modLine, Part.setLine_line_self]
    exact hfail
  rw [hline, if_neg Bool.false_ne_true]
  have h1 : p.Beside (p.modStation l (i.val + 1) (fun x => { x with failures := 0, everPresent := true, presence := .present })) :=
    .modLine ..
  refine ⟨_, rfl, ?_, ?_⟩
  · split
    · exact h1
    · exact h1.trans (beside_writeStation _ _ _)
  · split
    · rfl
    · exact (told_writeStation _ _ _).inputs

/-- A GOOD reply that flips one key delivers its gesture. -/
theorem reply_delivers {s : State} {i : Fin 12} {n : Nat} {g : Gesture} (ha : s.part.active = true) (hx : s.part.inputs[n]? = some x)
    (h : s.part.keyFlips l i keys n x)
    (hflip : ∀ q : Part, s.part.Beside q → q.inputs[n]? = some x.disagreed → q.Delivers n g (q.flip n x.state)) :
    ∃ q, exec (.replyClose l) s = .next (s.setPart q) ∧ s.part.Delivers n g q := by
  obtain ⟨hgood, hfail, hpres, hlost, k, hkey, hdiff, hagree, hothers⟩ := h
  obtain ⟨y, hcore, hexec⟩ := exec_goodReply ha hgood
  have hself : (s.part.setLine l y).line l = y := Part.setLine_line_self ..
  have hstations : y.stations = (s.part.line l).stations := (congrArg Line.stations hcore :)
  obtain ⟨r, hr, hbeside, hinputs⟩ := exchangeGood_present (p := s.part.setLine l y) (l := l) i (by rw [hself, hstations]; exact hpres)
    (by rw [hself, hstations]; exact hlost) (by rw [hself, show y.lineFail = _ from (congrArg Line.lineFail hcore :)]; exact hfail) keys
  have hb : s.part.Beside r := (Part.Beside.setLine s.part l y).trans hbeside
  have hin : r.inputs = s.part.inputs := hinputs
  have hkeys {k' : Fin 8} {j : Nat} : r.keyInput l (i.val + 1) k' j ↔ s.part.keyInput l (i.val + 1) k' j := keyInput_congr (by rw [hin])
  have hsample : r.Delivers n g (r.sample l (i.val + 1) keys) :=
    sample_delivers (hkeys.mpr hkey) (by rw [hin]; exact hx) hdiff hagree
      (fun k' j v hk' hj hv => hothers k' j v hk' (hkeys.mp hj) (by rw [← hin]; exact hv)) fun q hq hown => hflip q (hb.trans hq) hown
  rw [hr] at hexec
  obtain ⟨z, hz⟩ := exchangeEnd_setLine (r.sample l (i.val + 1) keys) l (i.val + 1)
  refine ⟨_, hexec, ?_⟩
  rw [hz]
  exact (hsample.after hb).beside (.setLine ..)

/-- A command that delivers a gesture (R26 to R29, R34). -/
theorem exec_delivers {s : State} {p : Part} {c : Instr} {input : Byte} {g : Gesture} (h : s.part.delivers p c input x g) :
    ∃ q, exec c s = .next (s.setPart q) ∧ p.Delivers input.toNat g q
      ∧ (g = .repeat → ∃ due always r, x.repeatDue = some due ∧ Record.length r = 4
        ∧ q = ((p.repeated input.toNat due).engine input .repeat).part.handPress input.toNat always r) := by
  obtain ⟨hx, hrun, hopen, h⟩ := h
  have hactive : s.part.active = true := by rw [Part.active, hrun]; rfl
  have hmode {due : Time} (hdue : s.part.comesDue due p) : x.d.attendant = true ∨ p.modes.mode ≠ .closed := by
    obtain ⟨hp, -⟩ := Part.comesDue_eq hdue
    rw [hp]
    exact hopen
  have hinput : BitVec.ofNat 8 input.toNat = input := by simp
  match g, h with
  | .hold, h =>
    obtain ⟨rfl, hstate, htreat, hstuck, due, ht, hdue⟩ := h
    have hp : p.inputs[input.toNat]? = some x := by rw [inputs_of_comesDue hdue]; exact hx
    refine ⟨p.holdExpire input.toNat x due, ?_, holdExpire_delivers hp htreat hstuck (hmode hdue), nofun⟩
    exact congrArg (fun q => Host.Outcome.next (s.setPart q)) (inputTimer_due hx (by rw [hstate]; rfl) ht hdue)
  | .repeat, h =>
    obtain ⟨rfl, hstate, htreat, hstuck, due, ht, hdue⟩ := h
    have hp : p.inputs[input.toNat]? = some x := by rw [inputs_of_comesDue hdue]; exact hx
    obtain ⟨r, hr, heq⟩ := repeatExpire_eq (due := due) hp htreat hstuck (hmode hdue)
    refine ⟨p.repeatExpire input.toNat x due, ?_, ?_, fun _ => ⟨due, x.d.alwaysJournal, r, ht, hr, ?_⟩⟩
    · exact congrArg (fun q => Host.Outcome.next (s.setPart q)) (inputTimer_due hx (by rw [hstate]; rfl) ht hdue)
    · rw [heq]
      exact ⟨p.repeated input.toNat due, x.d.alwaysJournal, r, beside_repeated .., hr, .refl _⟩
    · rw [heq, hinput]
  | .press, h =>
    obtain ⟨rfl, hstate, hsusp, hlimit, hwake, l, a, keys, rfl, hflips⟩ := h
    obtain ⟨q, hq, hd⟩ := reply_delivers (g := .press) hactive hx hflips fun q hq hown => by
      rw [hstate]
      exact press_delivers hown hsusp hlimit (by rw [hq.mode]; exact hwake) (by rw [hq.mode]; exact hopen)
    exact ⟨q, hq, hd, nofun⟩
  | .release, h =>
    obtain ⟨rfl, hstate, htreat, l, a, keys, rfl, hflips⟩ := h
    obtain ⟨q, hq, hd⟩ := reply_delivers (g := .release) hactive hx hflips fun q hq hown => by
      have := releaseInput_delivers hown htreat (by rw [hq.mode]; exact hopen)
      rcases hstate with hs | hs <;> (rw [hs]; exact this)
    exact ⟨q, hq, hd, nofun⟩

end Sys2Proof.Machine
end

