-- ==== Sys2Proof/Proofs/Turns.lean ====
section
/-! Rules for the binding engine on an event that one entry matches, or none (R45 to R48): the part before the entry's action, the action,
and the work that follows the event. -/

namespace Sys2Proof.Machine

variable {p q r u : Part} {e : Nat} {b : BindingEntry} {lock : Option Time} {input : Byte} {g : Gesture}

/-! ### The entries examined (R46, R47) -/

/-- What an event of the input matches in the mode (R46). -/
def BindingEntry.answers (b : BindingEntry) (input : Byte) (g : Gesture) (mode : Mode) : Prop :=
  b.input = input ∧ b.gesture = g ∧ b.modeMask.getLsbD mode.code = true

theorem BindingEntry.matches_iff {mode : Mode} : b.matches input g mode = true ↔ b.answers input g mode := by
  simp [BindingEntry.matches, BindingEntry.answers, Mode.inMask, and_assoc]

/-- An entry that the event does not match is passed over. -/
theorem examine_passes {mode : Mode} {x : EventResult} {k : Nat}
    (h : ∀ v b', x.part.bindings[k]? = some v → v.entry = some b' → ¬ b'.answers input g mode) : x.examine input g mode k = x := by
  unfold EventResult.examine
  split
  · next b' lockout hk =>
    have hno : b'.matches input g mode = false := by
      rw [Bool.eq_false_iff]
      exact fun hm => h _ b' hk rfl (BindingEntry.matches_iff.mp hm)
    rw [hno, if_pos (by simp)]
  · rfl

theorem examineAll_passes {mode : Mode} {x : EventResult} (ks : List Nat)
    (h : ∀ k ∈ ks, ∀ v b', x.part.bindings[k]? = some v → v.entry = some b' → ¬ b'.answers input g mode) :
    ks.foldl (EventResult.examine input g mode) x = x := by
  induction ks with
  | nil => rfl
  | cons k ks ih =>
    rw [List.foldl_cons, examine_passes (h k List.mem_cons_self)]
    exact ih fun k' hk' => h k' (List.mem_cons_of_mem k hk')

/-- The binding store's entries are as before after a turn. -/
theorem turn_entries (p : Part) (e : Nat) (input : Byte) (b : BindingEntry) (ret : EngineReturn) :
    (p.turn e input b ret).part.bindings.map Binding.entry = p.bindings.map Binding.entry :=
  (calm_turn (f := Input.unlit) (fun _ _ => rfl) p e input b ret).bindings

/-- What the examination of entry `e` does, the only one that the event matches (R46, R47). -/
theorem examineAll_matched (he : p.bindings[e]? = some { entry := some b, lockout := lock })
    (honly : ∀ k v b', p.bindings[k]? = some v → v.entry = some b' → (b'.answers input g p.modes.mode ↔ k = e)) :
    ((List.range p.bindings.length).foldl (EventResult.examine input g p.modes.mode) { part := p, ret := .nothing }).part
      = if Binding.locked { entry := some b, lockout := lock } p.time then p else (p.turn e input b .nothing).part := by
  have hlt : e < p.bindings.length := (List.getElem?_eq_some_iff.mp he).1
  obtain ⟨before, later, hsplit⟩ := List.append_of_mem (List.mem_range.mpr hlt)
  have hnodup := List.nodup_range (n := p.bindings.length)
  rw [hsplit, List.nodup_append, List.nodup_cons] at hnodup
  obtain ⟨-, ⟨helater, -⟩, hdisj⟩ := hnodup
  have hmatch : b.matches input g p.modes.mode = true := BindingEntry.matches_iff.mpr ((honly e _ b he rfl).mpr rfl)
  rw [hsplit, List.foldl_append, List.foldl_cons, examineAll_passes before fun k hk v b' hv hb' hans =>
    hdisj k hk e List.mem_cons_self ((honly k v b' hv hb').mp hans)]
  have hexamine : EventResult.examine input g p.modes.mode { part := p, ret := .nothing } e
      = if Binding.locked { entry := some b, lockout := lock } p.time then { part := p, ret := { EngineReturn.nothing with locked := true } }
        else p.turn e input b .nothing := by
    unfold EventResult.examine
    dsimp only
    rw [he]
    dsimp only
    rw [hmatch, show (decide (Config.maxTurns ≤ EngineReturn.nothing.acted) || !true) = false from rfl, if_neg Bool.false_ne_true]
  rw [hexamine]
  have hpass (x : EventResult) (hx : x.part.bindings.map Binding.entry = p.bindings.map Binding.entry) :
      later.foldl (EventResult.examine input g p.modes.mode) x = x := by
    refine examineAll_passes later fun k hk v b' hv hb' hans => ?_
    have hk' : (p.bindings.map Binding.entry)[k]? = some v.entry := by rw [← hx, List.getElem?_map, hv]; rfl
    rw [List.getElem?_map, Option.map_eq_some_iff] at hk'
    obtain ⟨w, hw, hwv⟩ := hk'
    exact helater ((honly k w b' hw (hwv.trans hb')).mp hans ▸ hk)
  split
  · exact congrArg EventResult.part (hpass _ rfl)
  · exact congrArg EventResult.part (hpass _ (turn_entries p e input b .nothing))

theorem Binding.locked_iff {v : Binding} {now : Time} : v.locked now = true ↔ ∃ d, v.lockout = some d ∧ reached now d = false := by
  unfold Binding.locked
  cases v.lockout with
  | none => exact ⟨nofun, nofun⟩
  | some d => simp

/-- Without a move held by the input nothing is released (R55). -/
theorem releaseHeld_none (h : ∀ d, (p.chan d).heldMove ≠ some input) : p.eachChannel (Part.releaseHeld input) = p := by
  unfold Part.eachChannel
  induction List.finRange 8 with
  | nil => rfl
  | cons d ds ih =>
    rw [List.foldl_cons, show Part.releaseHeld input d p = p from if_neg (h d)]
    exact ih

theorem engine_matched (hrun : p.isRunning = true) (he : p.bindings[e]? = some { entry := some b, lockout := lock })
    (honly : ∀ k v b', p.bindings[k]? = some v → v.entry = some b' → (b'.answers input g p.modes.mode ↔ k = e))
    (hheld : g = .release → ∀ d, (p.chan d).heldMove ≠ some input) :
    (p.engine input g).part
      = if Binding.locked { entry := some b, lockout := lock } p.time then p else (p.turn e input b .nothing).part := by
  have hq : (if g = .release then p.eachChannel (Part.releaseHeld input) else p) = p := by
    split
    · next h => exact releaseHeld_none (hheld h)
    · rfl
  unfold Part.engine
  dsimp only
  rw [hq, if_pos hrun]
  exact examineAll_matched he honly

theorem near_releaseHeld (input : Byte) (d : Fin 8) (p : Part) : p.Near d (Part.releaseHeld input d p) := by
  unfold Part.releaseHeld
  split
  · exact (near_setChan p { p.chan d with heldMove := none } rfl rfl (Nat.le_refl _)).trans (near_controlledStop _ _)
  · exact .refl p

theorem engine_unmatched (hnone : ∀ (k : Nat) (v : Binding) b', p.bindings[k]? = some v → v.entry = some b' → ¬ b'.answers input .release p.modes.mode) :
    (p.engine input .release).part = p.eachChannel (Part.releaseHeld input) := by
  have hbindings : (p.eachChannel (Part.releaseHeld input)).bindings = p.bindings :=
    (eachChannel_visits (Part.releaseHeld input) (near_releaseHeld input) p).1.bindings
  unfold Part.engine
  dsimp only
  rw [if_pos rfl]
  generalize p.eachChannel (Part.releaseHeld input) = q at hbindings ⊢
  split
  · exact congrArg EventResult.part (examineAll_passes (x := { part := q, ret := .nothing }) _
      fun k _ v b' hv => hnone k v b' (by rw [← hbindings]; exact hv))
  · rfl

/-! ### What follows the engine's work on an event -/

/-- After the engine has left `u`: the event's PRESS record, and work beside the engine. -/
def Part.Followed (u : Part) (i : Nat) (q : Part) : Prop := ∃ always r, Record.length r = 4 ∧ (u.handPress i always r).Beside q

theorem Part.Followed.around {i : Nat} (h : u.Followed i q) : u.Around q := by
  obtain ⟨always, r, -, hq⟩ := h
  have ht := told_handPress u i always r
  exact (((ht.setInputs q.inputs).setLines q.lines)).trans hq.around

theorem Part.Followed.lamps {i : Nat} (h : u.Followed i q) : q.inputs.map Input.lamp = u.inputs.map Input.lamp := by
  obtain ⟨always, r, -, hq⟩ := h
  rw [hq.lamps, (told_handPress u i always r).inputs]

theorem Part.Around.chan_view (h : u.Around q) (c : Fin 8) : (q.chan c).view = (u.chan c).view := view_told h c

theorem Part.Around.bindings (h : u.Around q) : q.bindings = u.bindings :=
  Part.Told.bindings (p := (u.setInputs q.inputs).setLines q.lines) h

theorem Part.Around.guards (h : u.Around q) : q.guards = u.guards :=
  Part.Told.guards (p := (u.setInputs q.inputs).setLines q.lines) h

theorem Part.Around.mode (h : u.Around q) : q.modes.mode = u.modes.mode := (congrArg Modes.mode h.modes :)

theorem Part.Around.setBindings (h : p.Around q) (xs : List Binding) : (p.setBindings xs).Around (q.setBindings xs) := { h with bindings := rfl }

theorem Part.Beside.setBindings (h : p.Beside q) (xs : List Binding) : (p.setBindings xs).Beside (q.setBindings xs) where
  around := h.around.setBindings xs
  writes := congrArg (fun t : Part => t.setBindings xs) h.writes
  lamps := h.lamps

theorem modBinding_eq (he : p.bindings[e]? = some { entry := some b, lockout := lock }) (t : Option Time) :
    p.modBinding e (fun x => { x with lockout := t }) = p.setBindings (p.bindings.set e { entry := some b, lockout := t }) := by
  rw [Part.modBinding, List.modify_eq_set_getElem?, he]
  rfl

/-- The binding store with the entry's lockout started at `now` (R47). -/
def lockedStore (bs : List Binding) (e : Nat) (b : BindingEntry) (now : Time) : List Binding :=
  bs.set e { entry := some b, lockout := some (now + BitVec.ofNat 32 b.lockout.toNat) }

/-- A turn starts the entry's lockout and runs its action, or its fallback while the host is silent and needed (R46 to R48). -/
theorem turn_acts (he : p.bindings[e]? = some { entry := some b, lockout := lock }) (ret : EngineReturn) :
    (p.turn e input b ret).part = if b.hostNeeded = true ∧ p.modes.silent = true
      then (p.setBindings (lockedStore p.bindings e b p.time)).fallback input b
      else ((p.setBindings (lockedStore p.bindings e b p.time)).act e input b).part := by
  have hstore := modBinding_eq he (some (after p.time b.lockout.toNat))
  have hsilent (xs : List Binding) : (p.setBindings xs).modes.silent = p.modes.silent := rfl
  unfold Part.turn
  dsimp only
  rw [hstore, hsilent]
  by_cases h : b.hostNeeded = true ∧ p.modes.silent = true
  · rw [if_pos (show (b.hostNeeded && p.modes.silent) = true by simp [h]), if_pos h]
    rfl
  · rw [if_neg (show ¬ (b.hostNeeded && p.modes.silent) = true by simpa using h), if_neg h]
    rfl

/-- An event that one entry matches, delivered: it changes nothing while the entry is locked, and otherwise the entry takes its turn. -/
theorem delivers_matched {i : Nat} (h : p.Delivers i g q) (hi : BitVec.ofNat 8 i = input) (hrun : p.isRunning = true)
    (he : p.bindings[e]? = some { entry := some b, lockout := lock })
    (honly : ∀ k v b', p.bindings[k]? = some v → v.entry = some b' → (b'.answers input g p.modes.mode ↔ k = e))
    (hheld : g = .release → ∀ d, (p.chan d).heldMove ≠ some input) :
    ((∃ d, lock = some d ∧ reached p.time d = false) → ∃ p1, p.Beside p1 ∧ p1.Followed i q)
    ∧ ((∀ d, lock = some d → reached p.time d = true) → ∃ p2, (p.setBindings (lockedStore p.bindings e b p.time)).Beside p2
        ∧ (if b.hostNeeded = true ∧ p.modes.silent = true then p2.fallback input b else (p2.act e input b).part).Followed i q) := by
  obtain ⟨p1, always, r, hp1, hr, hq⟩ := h
  have hb : p1.bindings = p.bindings := hp1.bindings
  have hrun1 : p1.isRunning = true := by rw [Part.isRunning, hp1.run]; exact hrun
  have hengine := engine_matched (g := g) (input := input) hrun1 (by rw [hb]; exact he)
    (fun k v b' hv => by rw [hp1.mode]; exact honly k v b' (by rw [← hb]; exact hv)) (fun hg d => by rw [hp1.chan]; exact hheld hg d)
  have hfollowed : (p1.engine input g).part.Followed i q := by
    rw [hi] at hq
    exact ⟨always, r, hr, hq⟩
  rw [hengine, hp1.time] at hfollowed
  refine ⟨fun hlocked => ⟨p1, hp1, ?_⟩, fun hfree => ⟨p1.setBindings (lockedStore p.bindings e b p.time), hp1.setBindings _, ?_⟩⟩
  · rw [if_pos (Binding.locked_iff.mpr hlocked)] at hfollowed
    exact hfollowed
  · rw [if_neg (fun hl => by
      obtain ⟨d, hd, hno⟩ := Binding.locked_iff.mp hl
      rw [hfree d hd] at hno
      cases hno), turn_acts (by rw [hb]; exact he), hb, hp1.time] at hfollowed
    have hsilent : p1.modes.silent = p.modes.silent := (congrArg Modes.silent hp1.modes :)
    rw [hsilent] at hfollowed
    exact hfollowed

end Sys2Proof.Machine
end

