-- ==== Sys2Proof/Proofs/MotionActions.lean ====
section
/-! Rules for the motion actions of a binding entry (R49 to R55): what each makes of its channel, and that it changes no other. -/

namespace Sys2Proof.Machine

variable {p q u : Part} {c : Fin 8} {e : Nat} {m : Move} {pr : Params} {policy : BusyPolicy} {asked : Int} {scale : Nat}

/-! ### Which actions are done (R49) -/

theorem admits_iff : p.admits c = true ↔ p.isRunning = true ∧ p.modes.mode = .opened ∧ (p.chan c).enabled = true
    ∧ ((p.chan c).state = .idle ∨ (p.chan c).state = .moving ∧ ∃ n, (p.chan c).current = some n ∧ n.kind = .move) := by
  have hruns : (p.chan c).runsMove = true ↔ ∃ n, (p.chan c).current = some n ∧ n.kind = .move := by
    unfold Channel.runsMove
    cases (p.chan c).current <;> simp
  simp [Part.admits, hruns, and_assoc]

theorem idleEmpty_iff {x : Channel} : x.idleEmpty = true ↔ x.state = .idle ∧ x.queue = [] := by
  simp [Channel.idleEmpty]

/-- A channel that takes no action: disabled, outside OPEN, or in another state (R49). -/
theorem admits_eq_false (h : (p.chan c).enabled = false ∨ p.modes.mode ≠ .opened ∨ (p.chan c).state ≠ .idle ∧ (p.chan c).state ≠ .moving) :
    p.admits c = false := by
  rw [Bool.eq_false_iff]
  intro ha
  obtain ⟨-, hmode, hen, hstate⟩ := admits_iff.mp ha
  rcases h with h | h | ⟨hi, hm⟩
  · rw [h] at hen
    cases hen
  · exact h hmode
  · rcases hstate with hs | ⟨hs, -⟩
    · exact hi hs
    · exact hm hs

/-! ### A start from rest (R50, R90) -/

theorem giveMove_starts (hp : (p.chan c).params = some pr) (hk : m.kind ≠ .home)
    (hne : pr.limit (m.asked (p.chan c).s) * Config.step ≠ (p.chan c).prof.p) :
    ((p.giveMove c m).chan c).view = ((p.chan c).moveStarted pr m (p.modes.mode == .service)).view := by
  rw [giveMove_aims hp hk, if_neg hne, view_commit, Part.setChan_chan_self]

/-! ### The busy policies (R52, R53) -/

theorem onlyChannel_committed (p : Part) (c : Fin 8) (x before : Channel) (cause : Nat) (always : Bool) :
    p.OnlyChannel c ((p.setChan c x).commit c before cause always) :=
  (Part.OnlyChannel.setChan p c x).trans (told_commit _ _ _ _ _).near.onlyChannel

theorem near_replaced (p : Part) (c : Fin 8) : p.Near c (p.replaced c) := by
  unfold Part.replaced
  split
  · exact near_reportEnd _ _ _ _
  · exact .refl p

theorem onlyChannel_replaceMove (p : Part) (c : Fin 8) (m : Move) : p.OnlyChannel c (p.replaceMove c m) := by
  have hq := (near_supersedeQueue (c := c) p).onlyChannel
  unfold Part.replaceMove
  dsimp only
  split
  · exact (hq.trans (near_replaced _ c).onlyChannel).trans (onlyChannel_committed _ _ _ _ _ _)
  · exact hq.trans (near_giveMove _ _).onlyChannel

theorem onlyChannel_busy (p : Part) (c : Fin 8) (policy : BusyPolicy) (m : Move) : p.OnlyChannel c (p.busy c policy m).part := by
  unfold Part.busy
  split
  · exact (Part.Near.refl p).onlyChannel
  · exact onlyChannel_replaceMove p c m
  · dsimp only
    split
    · exact onlyChannel_committed _ _ _ _ _ _
    · exact (Part.Near.refl p).onlyChannel

theorem view_busy_queue : ((p.busy c .queue m).part.chan c).view
    = { p.chan c with queue := if (p.chan c).queue.length < 4 then (p.chan c).queue ++ [m] else (p.chan c).queue }.view := by
  unfold Part.busy
  dsimp only
  split
  · next h =>
    rw [if_pos (show (p.chan c).queue.length < 4 from h)]
    exact (view_commit _ _ _ _ _ _).trans (congrArg Channel.view (Part.setChan_chan_self _ _ _))
  · next h =>
    rw [if_neg (show ¬ (p.chan c).queue.length < 4 from h)]

theorem view_replaced (p : Part) (c d : Fin 8) : ((p.replaced c).chan d).view = (p.chan d).view := by
  unfold Part.replaced
  split
  · exact view_reportEnd _ _ _ _ _
  · rfl

theorem retarget_eq {x : Channel} (hp : x.params = some pr) (m : Move) (asked : Int) (service : Bool) : x.retarget m asked service
    = { x with current := some { m with target := .absolute asked }, prof := x.prof.replan pr asked m.scale service } := by
  rw [Channel.retarget, hp]

/-- A moving channel's move is replaced: its queue is superseded, and it is replanned onto the new one (R53). -/
theorem view_replaceMove (hp : (p.chan c).params = some pr) (hs : (p.chan c).state = .moving) :
    ((p.replaceMove c m).chan c).view = Channel.view { (p.chan c).superseded with
      heldMove := none, current := some { m with target := .absolute (m.asked (p.chan c).s) }
      prof := (p.chan c).prof.replan pr (m.asked (p.chan c).s) m.scale (p.modes.mode == .service) } := by
  have hwork := (near_supersedeQueue (c := c) p).working
  have hmode : ((p.supersedeQueue c).replaced c).modes.mode = p.modes.mode := (near_replaced _ c).working.mode.trans hwork.mode
  obtain ⟨w, hw⟩ := exists_of_view (view_supersedeQueue p c)
  obtain ⟨v, hv⟩ := exists_of_view ((view_replaced (p.supersedeQueue c) c c).trans (view_supersedeQueue p c))
  have hS : ((p.supersedeQueue c).chan c).s = (p.chan c).s := by rw [hw]; rfl
  unfold Part.replaceMove
  dsimp only
  rw [if_pos hs, view_commit, Part.setChan_chan_self, hmode, hS, hv]
  exact (congrArg Channel.view (retarget_eq (x := { (p.chan c).superseded with heldMove := none, lastWrite := v }) hp m _ _)).trans rfl

/-- The order whose move a REPLACE takes over shows SUPERSEDED and S (R53). -/
theorem replaceMove_shows {n : Move} {l : Layout} {i : Nat} (hs : (p.chan c).state = .moving) (hn : (p.chan c).current = some n)
    (hsrc : n.source = .order i) (hslot : p.hasSlot l i) (hwf : Memory.wf p.mem) :
    (p.replaceMove c m).SlotShows l i .finished 6 (p.chan c).s := by
  obtain ⟨w, hw⟩ := exists_of_view (view_supersedeQueue p c)
  have hnear := near_supersedeQueue (c := c) p
  have hkept := (slotsKept.supersedeQueue (c := c) p).hasSlot hslot
  unfold Part.replaceMove
  dsimp only
  rw [if_pos hs]
  have hcur : ((p.supersedeQueue c).chan c).current = some n := by rw [hw]; exact hn
  have hS : ((p.supersedeQueue c).chan c).s = (p.chan c).s := by rw [hw]; rfl
  have hreplaced : (p.supersedeQueue c).replaced c = (p.supersedeQueue c).report i .finished 6 (p.chan c).s := by
    rw [Part.replaced, hcur]
    dsimp only
    rw [Part.reportEnd, hsrc, hS]
    rfl
  have hshows := report_slotShows hkept (hnear.mem hwf) .finished 6 (p.chan c).s
  rw [← hreplaced] at hshows
  refine hshows.committed ?_ _ _ _ _ _
  rw [hreplaced]
  exact (slotsKept.report _ i _ _ _).hasSlot hkept

/-! ### MOVE_TO, STEP_BY and RUN_HELD (R50, R51, R54) -/

theorem moveTo_dropped (h : p.admits c = false) (target : Int) : (p.moveTo e policy c target scale).part = p := by
  rw [Part.moveTo, h]
  rfl

theorem moveTo_starts (h : p.admits c = true) (hi : (p.chan c).idleEmpty = true) (target : Int) :
    (p.moveTo e policy c target scale).part = p.giveMove c (bindingMove e (.absolute target) scale) := by
  rw [Part.moveTo, h, hi]
  rfl

theorem moveTo_busy (h : p.admits c = true) (hi : (p.chan c).idleEmpty = false) (target : Int) :
    (p.moveTo e policy c target scale).part = (p.busy c policy (bindingMove e (.absolute target) scale)).part := by
  rw [Part.moveTo, h, hi]
  rfl

theorem onlyChannel_moveTo (p : Part) (c : Fin 8) (target : Int) : p.OnlyChannel c (p.moveTo e policy c target scale).part := by
  cases ha : p.admits c with
  | false => rw [moveTo_dropped ha]; exact (Part.Near.refl p).onlyChannel
  | true =>
    cases hi : (p.chan c).idleEmpty with
    | true => rw [moveTo_starts ha hi]; exact (near_giveMove _ _).onlyChannel
    | false => rw [moveTo_busy ha hi]; exact onlyChannel_busy _ _ _ _

theorem stepBy_dropped (h : p.admits c = false) (delta : Int) : (p.stepBy e policy c delta scale).part = p := by
  rw [Part.stepBy, h]
  rfl

/-- A STEP_BY extends the current move where it is the entry's own (R51). -/
theorem stepBy_extends {n : Move} (h : p.admits c = true) (hs : (p.chan c).state = .moving) (hn : (p.chan c).current = some n)
    (hsrc : n.source = .binding e true) (delta : Int) : (p.stepBy e policy c delta scale).part = p.extend c n delta := by
  have hfrom : (p.chan c).fromEntry e = some n := by
    rw [Channel.fromEntry, hn]
    exact if_pos ⟨hs, hsrc⟩
  rw [Part.stepBy, h, hfrom]
  rfl

theorem fromEntry_none (h : ¬ ∃ n, (p.chan c).current = some n ∧ n.source = .binding e true) : (p.chan c).fromEntry e = none := by
  unfold Channel.fromEntry
  split
  · next n hn => exact if_neg fun hs => h ⟨n, hn, hs.2⟩
  · rfl

theorem stepBy_starts (h : p.admits c = true) (hfrom : (p.chan c).fromEntry e = none) (hi : (p.chan c).idleEmpty = true) (delta : Int) :
    (p.stepBy e policy c delta scale).part = p.giveMove c (bindingMove e (.absolute ((p.chan c).s + delta)) scale) := by
  rw [Part.stepBy, h, hfrom, hi]
  rfl

theorem stepBy_busy (h : p.admits c = true) (hfrom : (p.chan c).fromEntry e = none) (hi : (p.chan c).idleEmpty = false) (delta : Int) :
    (p.stepBy e policy c delta scale).part = (p.busy c policy (bindingMove e (.relative delta) scale)).part := by
  rw [Part.stepBy, h, hfrom, hi]
  rfl

theorem onlyChannel_stepBy (p : Part) (c : Fin 8) (delta : Int) : p.OnlyChannel c (p.stepBy e policy c delta scale).part := by
  cases ha : p.admits c with
  | false => rw [stepBy_dropped ha]; exact (Part.Near.refl p).onlyChannel
  | true =>
    unfold Part.stepBy
    rw [ha, if_neg (by decide)]
    split
    · exact onlyChannel_committed _ _ _ _ _ _
    · split
      · exact (near_giveMove _ _).onlyChannel
      · exact onlyChannel_busy _ _ _ _

/-- A move that a STEP_BY extends is replanned onto the farther target (R51, R99). -/
theorem view_extend {t : Int} (hp : (p.chan c).params = some pr) (ht : (p.chan c).prof.target = some (t * 16777216)) (n : Move) (delta : Int) :
    ((p.extend c n delta).chan c).view = Channel.view { p.chan c with
      current := some { n with target := .absolute (t + delta) }
      prof := (p.chan c).prof.replan pr (t + delta) n.scale (p.modes.mode == .service) } := by
  have heff : (p.chan c).effective = t := by
    rw [Channel.effective, ht]
    exact Int.mul_ediv_cancel t (by decide)
  unfold Part.extend
  dsimp only
  rw [view_commit, Part.setChan_chan_self, heff, retarget_eq hp]

theorem runHeld_dropped (h : ¬ (p.admits c = true ∧ (p.chan c).idleEmpty = true)) (input : Byte) (target : Int) :
    (p.runHeld e input c target scale).part = p := by
  rw [Part.runHeld, if_neg (by rwa [Bool.and_eq_true])]
  rfl

theorem runHeld_starts (h : p.admits c = true ∧ (p.chan c).idleEmpty = true) (input : Byte) (target : Int) :
    (p.runHeld e input c target scale).part
      = (p.setChan c { p.chan c with heldMove := some input }).giveMove c (bindingMove e (.absolute target) scale) := by
  rw [Part.runHeld, if_pos (by rwa [Bool.and_eq_true])]

theorem onlyChannel_runHeld (p : Part) (c : Fin 8) (input : Byte) (target : Int) :
    p.OnlyChannel c (p.runHeld e input c target scale).part := by
  by_cases h : p.admits c = true ∧ (p.chan c).idleEmpty = true
  · rw [runHeld_starts h]
    exact (Part.OnlyChannel.setChan p c _).trans (near_giveMove _ _).onlyChannel
  · rw [runHeld_dropped h]
    exact (Part.Near.refl p).onlyChannel

/-! ### What follows the engine, of a channel (R55) -/

/-- A channel that moves on a move held by the input is asked for a controlled stop as the input is released (R55). -/
theorem view_releaseHeld_moving {input : Byte} (hh : (p.chan c).heldMove = some input) (hs : (p.chan c).state = .moving) :
    ((Part.releaseHeld input c p).chan c).view = (({ p.chan c with heldMove := none } : Channel).superseded.stopBegun .stopped).view := by
  have hstate : ((p.setChan c { p.chan c with heldMove := none }).chan c).state = .moving := by rw [Part.setChan_chan_self]; exact hs
  rw [Part.releaseHeld, if_pos hh, view_controlledStop_moving hstate, Part.setChan_chan_self]

theorem releaseHeld_other {input : Byte} (hh : (p.chan c).heldMove ≠ some input) : Part.releaseHeld input c p = p := if_neg hh

end Sys2Proof.Machine
end

