-- ==== Sys2Proof/Proofs/ZoneAcks.lean ====
section
/-! An acknowledgement by zone where the journal has room and no guard awaits it (R109, R123 to R126): the entries it takes, and the
guards that are told. -/

namespace Sys2Proof.Machine

section
variable {p q r : Part} {l : Layout} {n : Nat} {i : Fin 32} {w : Entry} {k g : Fin 8} {z : Zone}

theorem Zone.takes_iff {z zone : Zone} : z.takes zone = true ↔ z = .all ∨ zone = .all ∨ zone = z := by
  cases z with
  | all => exact ⟨fun _ => .inl rfl, fun _ => rfl⟩
  | one j => simp [Zone.takes, Zone.covers, or_comm]

/-! ### Work that changes the guards' flags only -/

/-- Nothing but reports and the guards stands between `p` and `q`. -/
def Part.GuardTold (p q : Part) : Prop := (p.setGuards q.guards).Told q

theorem Part.Told.guardTold (h : p.Told q) : p.GuardTold q := by
  rw [Part.GuardTold, h.guards]
  exact h

theorem Part.GuardTold.setGuards (p : Part) (gs : Vector Guard 8) : p.GuardTold (p.setGuards gs) := Part.Told.refl _

theorem Part.GuardTold.trans (h : p.GuardTold q) (h' : q.GuardTold r) : p.GuardTold r := by
  have hset : (p.setGuards r.guards).Told (q.setGuards r.guards) := { h with guards := rfl }
  exact Part.Told.trans hset h'

/-! ### The entries -/

/-- What an acknowledgement by zone leaves of an entry (R123, R125). -/
def Entry.zoneAcked (z : Zone) (now : Time) (w : Entry) : Option Entry :=
  if w.unacked = true ∧ z.takes w.zone = true then
    if w.state = .opened then some { w with state := .held, escalated := false, last := now } else none
  else some w

/-- The entry tells guard `k`, and an acknowledgement by zone takes it. -/
def Entry.zoneTells (z : Zone) (k : Fin 8) (w : Entry) : Prop := w.unacked = true ∧ z.takes w.zone = true ∧ w.tells k

/-- An acknowledged guard that awaits none keeps all but its flag. -/
theorem Guard.acknowledged_eq {x : Guard} (h : x.state ≠ .awaitAck) (now : Time) :
    x.acknowledged now = if x.state = .clear then x else { x with acked := true } := by
  rw [Guard.acknowledged, if_neg h]

/-- Guard `k` is told by an entry at board index `i`, and is not CLEAR. -/
def Part.indexTells (p : Part) (z : Zone) (i : Fin 32) (k : Fin 8) : Prop :=
  (∃ w, p.board.entries[i] = some w ∧ w.zoneTells z k) ∧ (p.guard k).state ≠ .clear

/-- Between `p` and `q` an acknowledgement by zone has examined board index `i`. -/
structure Part.IndexAcked (p : Part) (z : Zone) (i : Fin 32) (q : Part) : Prop where
  told : p.GuardTold q
  time : q.time = p.time
  own : q.board.entries[i] = p.board.entries[i].bind (Entry.zoneAcked z p.time)
  others : ∀ j, j ≠ i → q.board.entries[j] = p.board.entries[j]
  flagged : ∀ k, p.indexTells z i k → q.guard k = { p.guard k with acked := true }
  kept : ∀ k, ¬ p.indexTells z i k → q.guard k = p.guard k

/-- An index whose entry is not taken. -/
theorem indexAcked_none (hacked : p.board.entries[i].bind (Entry.zoneAcked z p.time) = p.board.entries[i])
    (hno : ∀ k w, p.board.entries[i] = some w → ¬ w.zoneTells z k) : p.IndexAcked z i p where
  told := (Part.Told.refl p).guardTold
  time := rfl
  own := hacked.symm
  others _ _ := rfl
  flagged := by
    rintro k ⟨⟨w, hw, ht⟩, -⟩
    exact absurd ht (hno k w hw)
  kept _ _ := rfl

/-- An index whose entry is taken. -/
theorem indexAcked_some (h : p.room l (13 + n)) (hawait : ∀ k, (p.guard k).state ≠ .awaitAck) (hw : p.board.entries[i] = some w)
    (hacks : w.unacked = true ∧ z.takes w.zone = true) : (p.ackEntry i w).room l n ∧ p.IndexAcked z i (p.ackEntry i w) := by
  obtain ⟨gs, hflags⟩ := ackEntry_flags (p := p) (e := w) (fun g _ => hawait g) i
  obtain ⟨hroom, hboard⟩ := ackBoard_room h i ((Entry.unacked_iff w).mp hacks.1)
  have htold := told_ackBoard p i w
  obtain ⟨-, hguards⟩ := ackEntry_guards p i w
  have hboard' : (p.ackEntry i w).board = if w.state = .opened then
      p.board.change i { w with state := .held, escalated := false, last := p.time } else p.board.drop i true := by
    rw [hflags]
    exact hboard
  have hiff (k : Fin 8) : p.indexTells z i k ↔ w.tells k ∧ (p.guard k).state ≠ .clear := by
    unfold Part.indexTells
    rw [hw]
    refine and_congr_left fun _ => ⟨fun ⟨w', hw', ht⟩ => ?_, fun ht => ⟨w, rfl, hacks.1, hacks.2, ht⟩⟩
    rw [Option.some.inj hw']
    exact ht.2.2
  refine ⟨by rw [hflags]; exact hroom, ?_, ?_, ?_, fun j hj => ?_, fun k hk => ?_, fun k hk => ?_⟩
  · rw [hflags]
    exact htold.guardTold.trans (.setGuards _ _)
  · rw [hflags]
    exact htold.time
  · rw [hboard', hw, Option.bind_some, Entry.zoneAcked, if_pos hacks]
    split
    · simp [Board.change]
    · simp [Board.drop]
  · rw [hboard']
    have hne : i.val ≠ j.val := fun hij => hj (Fin.ext hij.symm)
    split
    · simp [Board.change, Vector.getElem_set_ne _ _ hne]
    · simp [Board.drop, Vector.getElem_set_ne _ _ hne]
  · obtain ⟨ht, hc⟩ := (hiff k).mp hk
    rw [(hguards k).1 ht, Guard.acknowledged_eq (hawait k), if_neg hc]
  · by_cases ht : w.tells k
    · rw [(hguards k).1 ht, Guard.acknowledged_eq (hawait k), if_pos (not_not.mp fun hc => hk ((hiff k).mpr ⟨ht, hc⟩))]
    · exact (hguards k).2 ht

/-- One board index of an acknowledgement by zone, with the journal's room. -/
theorem ackIndex_room (changed : Bool) (h : p.room l (13 + n)) (hawait : ∀ k, (p.guard k).state ≠ .awaitAck) (i : Fin 32) :
    ∃ changed' q, Part.ackIndex z (changed, p) i = (changed', q) ∧ q.room l n ∧ p.IndexAcked z i q := by
  have hroom : p.room l n := Part.room_mono h (by omega)
  unfold Part.ackIndex
  dsimp only
  split
  · next w hw =>
    by_cases hacks : w.unacked = true ∧ z.takes w.zone = true
    · rw [if_pos (by simp [hacks])]
      exact ⟨_, _, rfl, indexAcked_some h hawait hw hacks⟩
    · rw [if_neg (by simpa using hacks)]
      refine ⟨_, _, rfl, hroom, indexAcked_none ?_ fun k w' hw' ht => ?_⟩
      · rw [hw, Option.bind_some, Entry.zoneAcked, if_neg hacks]
      · obtain ⟨h1, h2, -⟩ := ht
        rw [hw] at hw'
        obtain rfl := Option.some.inj hw'
        exact hacks ⟨h1, h2⟩
  · next hw =>
    refine ⟨_, _, rfl, hroom, indexAcked_none (by rw [hw]; rfl) fun k w hw' => ?_⟩
    rw [hw] at hw'
    cases hw'

/-- The board's indices of an acknowledgement by zone, with the journal's room. -/
theorem ackIndexes_room (is : List (Fin 32)) (hnodup : is.Nodup) :
    ∀ (changed : Bool) (p : Part), p.room l (13 * is.length + n) → (∀ k, (p.guard k).state ≠ .awaitAck) →
      ∃ changed' q, is.foldl (Part.ackIndex z) (changed, p) = (changed', q) ∧ q.room l n ∧ p.GuardTold q
        ∧ (∀ i ∈ is, q.board.entries[i] = p.board.entries[i].bind (Entry.zoneAcked z p.time))
        ∧ (∀ i, i ∉ is → q.board.entries[i] = p.board.entries[i])
        ∧ ∀ k, ((∃ i ∈ is, p.indexTells z i k) → q.guard k = { p.guard k with acked := true })
            ∧ ((∀ i ∈ is, ¬ p.indexTells z i k) → q.guard k = p.guard k) := by
  induction is with
  | nil =>
    exact fun changed p h _ => ⟨_, _, rfl, Part.room_mono h (by simp), (Part.Told.refl p).guardTold, nofun, fun _ _ => rfl,
      fun k => ⟨fun ⟨i, hi, _⟩ => absurd hi List.not_mem_nil, fun _ => rfl⟩⟩
  | cons i is ih =>
    intro changed p h hawait
    obtain ⟨hi, hrest⟩ := List.nodup_cons.mp hnodup
    rw [show 13 * (i :: is).length + n = 13 + (13 * is.length + n) by rw [List.length_cons]; omega] at h
    obtain ⟨c1, q1, hq1, hroom1, hacked⟩ := ackIndex_room (z := z) changed h hawait i
    have hstate (k : Fin 8) : (q1.guard k).state = (p.guard k).state := by
      by_cases hk : p.indexTells z i k
      · rw [hacked.flagged k hk]
      · rw [hacked.kept k hk]
    have hentry (j : Fin 32) (hj : j ∈ is) : q1.board.entries[j] = p.board.entries[j] := hacked.others j fun he => hi (he ▸ hj)
    have hlater (j : Fin 32) (hj : j ∈ is) (k : Fin 8) : q1.indexTells z j k ↔ p.indexTells z j k := by
      unfold Part.indexTells
      rw [hentry j hj, hstate k]
    obtain ⟨c2, q2, hq2, hroom2, htold2, hin2, hout2, hguard2⟩ := ih hrest c1 q1 hroom1 fun k => by rw [hstate]; exact hawait k
    refine ⟨c2, q2, by rw [List.foldl_cons, hq1, hq2], hroom2, hacked.told.trans htold2, fun j hj => ?_, fun j hj => ?_,
      fun k => ⟨fun ⟨j, hj, ht⟩ => ?_, fun hno => ?_⟩⟩
    · rcases List.mem_cons.mp hj with rfl | hj
      · rw [hout2 j hi, hacked.own]
      · rw [hin2 j hj, hentry j hj, hacked.time]
    · obtain ⟨hne, hj⟩ := not_or.mp (List.mem_cons.not.mp hj)
      rw [hout2 j hj, hacked.others j hne]
    · by_cases htail : ∃ j ∈ is, p.indexTells z j k
      · obtain ⟨j', hj', ht'⟩ := htail
        rw [(hguard2 k).1 ⟨j', hj', (hlater j' hj' k).mpr ht'⟩]
        by_cases hk : p.indexTells z i k
        · rw [hacked.flagged k hk]
        · rw [hacked.kept k hk]
      · rw [(hguard2 k).2 fun j' hj' ht' => htail ⟨j', hj', (hlater j' hj' k).mp ht'⟩]
        rcases List.mem_cons.mp hj with rfl | hj
        · exact hacked.flagged k ht
        · exact absurd ⟨j, hj, ht⟩ htail
    · rw [(hguard2 k).2 fun j hj ht => hno j (List.mem_cons_of_mem i hj) ((hlater j hj k).mp ht)]
      exact hacked.kept k (hno i List.mem_cons_self)

/-! ### The zone report to the guards -/

/-- A guard that takes the zone report: its trip is not boarded, and its zone is taken (R109). -/
def Guard.zoneReports (z : Zone) (x : Guard) : Prop := x.boarded = false ∧ z.takes (.one x.record.zone) = true

theorem zoneReport_flags (hawait : (p.guard g).state ≠ .awaitAck) (z : Zone) :
    ((p.guard g).zoneReports z ∧ (p.guard g).state ≠ .clear → Part.zoneReport z g p = p.setGuard g { p.guard g with acked := true })
    ∧ (¬ ((p.guard g).zoneReports z ∧ (p.guard g).state ≠ .clear) → Part.zoneReport z g p = p) := by
  unfold Part.zoneReport
  refine ⟨fun ⟨hz, hc⟩ => (if_pos hz).trans (ackGuard_flags hc hawait), fun hno => ?_⟩
  split
  · next hz => exact ackGuard_clear (not_not.mp fun hc => hno ⟨hz, hc⟩)
  · rfl

theorem zoneReports_flags (z : Zone) (gs : List (Fin 8)) (hnodup : gs.Nodup) :
    ∀ p : Part, (∀ k, (p.guard k).state ≠ .awaitAck) → ∃ v, gs.foldl (fun q g => Part.zoneReport z g q) p = p.setGuards v
      ∧ ∀ k : Fin 8, (k ∈ gs ∧ (p.guard k).zoneReports z ∧ (p.guard k).state ≠ .clear → v[k] = { p.guard k with acked := true })
        ∧ (¬ (k ∈ gs ∧ (p.guard k).zoneReports z ∧ (p.guard k).state ≠ .clear) → v[k] = p.guard k) := by
  induction gs with
  | nil => exact fun p _ => ⟨p.guards, rfl, fun k => ⟨fun h => absurd h.1 List.not_mem_nil, fun _ => rfl⟩⟩
  | cons g gs ih =>
    intro p hawait
    obtain ⟨hg, hrest⟩ := List.nodup_cons.mp hnodup
    obtain ⟨htakes, hpasses⟩ := zoneReport_flags (hawait g) z
    rw [List.foldl_cons]
    by_cases h : (p.guard g).zoneReports z ∧ (p.guard g).state ≠ .clear
    · rw [htakes h]
      have hguard (k : Fin 8) : (p.setGuard g { p.guard g with acked := true }).guard k
          = if k = g then { p.guard g with acked := true } else p.guard k := by
        split
        · next hk => rw [hk, Part.setGuard_guard_self]
        · next hk => rw [Part.setGuard_guard_ne _ hk]
      obtain ⟨v, hv, hvk⟩ := ih hrest (p.setGuard g { p.guard g with acked := true }) fun k => by
        rw [hguard]
        split
        · exact hawait g
        · exact hawait k
      refine ⟨v, hv, fun k => ?_⟩
      obtain ⟨h1, h2⟩ := hvk k
      by_cases hk : k = g
      · have hown := h2 fun hm => hg (hk ▸ hm.1)
        rw [hguard, if_pos hk] at hown
        rw [hk] at hown ⊢
        exact ⟨fun _ => hown, fun hno => absurd ⟨List.mem_cons_self, h⟩ hno⟩
      · rw [hguard, if_neg hk] at h1 h2
        rw [show k ∈ g :: gs ↔ k ∈ gs from by simp [hk]]
        exact ⟨h1, h2⟩
    · rw [hpasses h]
      obtain ⟨v, hv, hvk⟩ := ih hrest p hawait
      refine ⟨v, hv, fun k => ?_⟩
      by_cases hk : k = g
      · rw [hk]
        exact ⟨fun hm => absurd hm.2 h, fun _ => (hvk g).2 fun hm => hg hm.1⟩
      · rw [show k ∈ g :: gs ↔ k ∈ gs from by simp [hk]]
        exact hvk k

/-! ### The acknowledgement -/

/-- Guard `k` is told of an acknowledgement by zone: an entry of its trip is taken, or it takes the zone report (R109). -/
def Part.zoneTold (p : Part) (z : Zone) (k : Fin 8) : Prop :=
  (∃ i : Fin 32, ∃ w, p.board.entries[i] = some w ∧ w.zoneTells z k) ∨ (p.guard k).zoneReports z

theorem Part.Writes.room (h : p.Writes q) (hr : p.room l n) : q.room l n :=
  Part.room_of_journal hr (by rw [h.run]) h.journal

theorem ackZone_room (h : p.room l (416 + n)) (hawait : ∀ k, (p.guard k).state ≠ .awaitAck) (z : Zone) :
    (p.ackZone z).room l n ∧ p.GuardTold (p.ackZone z)
      ∧ (∀ i : Fin 32, (p.ackZone z).board.entries[i] = p.board.entries[i].bind (Entry.zoneAcked z p.time))
      ∧ ∀ k, (p.zoneTold z k ∧ (p.guard k).state ≠ .clear → (p.ackZone z).guard k = { p.guard k with acked := true })
          ∧ (¬ (p.zoneTold z k ∧ (p.guard k).state ≠ .clear) → (p.ackZone z).guard k = p.guard k) := by
  obtain ⟨changed, q, hq, hroom, htold, hentries, -, hguards⟩ := ackIndexes_room (z := z) (n := n) (List.finRange 32)
    (List.nodup_finRange 32) false p (by rw [List.length_finRange]; exact h) hawait
  have hstate (k : Fin 8) : (q.guard k).state = (p.guard k).state ∧ ((q.guard k).zoneReports z ↔ (p.guard k).zoneReports z) := by
    obtain ⟨ht, hn⟩ := hguards k
    by_cases hk : ∃ i ∈ List.finRange 32, p.indexTells z i k
    · rw [ht hk]
      exact ⟨rfl, Iff.rfl⟩
    · rw [hn fun i hi hm => hk ⟨i, hi, hm⟩]
      exact ⟨rfl, Iff.rfl⟩
  obtain ⟨v, hv, hvk⟩ := zoneReports_flags z (List.finRange 8) (List.nodup_finRange 8) q fun k => by rw [(hstate k).1]; exact hawait k
  have hzone : p.ackZone z = if changed then (q.setGuards v).restNotice else q.setGuards v := by
    unfold Part.ackZone
    rw [if_neg (by simp [Part.room_active h]), hq]
    dsimp only
    rw [show q.eachGuard (Part.zoneReport z) = q.setGuards v from hv]
  have hset : (q.setGuards v).Told (p.ackZone z) ∧ (q.setGuards v).Writes (p.ackZone z) := by
    rw [hzone]
    split
    · exact ⟨told_restNotice _, writes_restNotice _⟩
    · exact ⟨.refl _, rfl⟩
  obtain ⟨hend, hwrites⟩ := hset
  refine ⟨hwrites.room hroom, (htold.trans (.setGuards q v)).trans hend.guardTold, fun i => ?_, fun k => ?_⟩
  · rw [hwrites.board]
    exact hentries i (List.mem_finRange i)
  · obtain ⟨ht1, hn1⟩ := hguards k
    obtain ⟨ht2, hn2⟩ := hvk k
    rw [(hstate k).1, (hstate k).2] at ht2 hn2
    have hlast : (p.ackZone z).guard k = v[k] := hend.guard k
    rw [hlast]
    have hentry : (∃ i ∈ List.finRange 32, p.indexTells z i k)
        ↔ (∃ i : Fin 32, ∃ w, p.board.entries[i] = some w ∧ w.zoneTells z k) ∧ (p.guard k).state ≠ .clear := by
      simp [Part.indexTells]
    have hnone (hno : ¬ ((∃ i : Fin 32, ∃ w, p.board.entries[i] = some w ∧ w.zoneTells z k) ∧ (p.guard k).state ≠ .clear)) :
        q.guard k = p.guard k := hn1 fun i hi hm => hno (hentry.mp ⟨i, hi, hm⟩)
    rw [hentry] at ht1
    by_cases hc : (p.guard k).state = .clear
    · rw [hn2 fun hx => hx.2.2 hc, hnone fun hx => hx.2 hc]
      exact ⟨fun hx => absurd hc hx.2, fun _ => rfl⟩
    · by_cases hr : (p.guard k).zoneReports z
      · rw [ht2 ⟨List.mem_finRange k, hr, hc⟩]
        refine ⟨fun _ => ?_, fun hno => absurd ⟨.inr hr, hc⟩ hno⟩
        by_cases he : ∃ i : Fin 32, ∃ w, p.board.entries[i] = some w ∧ w.zoneTells z k
        · rw [ht1 ⟨he, hc⟩]
        · rw [hnone fun hx => he hx.1]
      · rw [hn2 fun hx => hr hx.2.1]
        exact ⟨fun hx => ht1 ⟨hx.1.resolve_right hr, hc⟩, fun hno => hnone fun hx => hno ⟨.inl hx.1, hx.2⟩⟩

end

end Sys2Proof.Machine
end

