-- ==== Sys2Proof/Proofs/TurnEffects.lean ====
section
/-! What a turn's action leaves, seen after the event: lamps, calls, a mode request, and the moves of one channel (R48 to R57). -/

namespace Sys2Proof.Machine

variable {p p' q r u : Part} {i n : Nat} {c : Fin 8} {l : Layout} {x y z : Channel} {m : Move} {pr : Params}

/-! ### The part that takes the event -/

/-- A part on which a delivered gesture's event is taken differs from the one before at most in its time and the channels' pulses. -/
theorem delivers_part {s p : Part} {cmd : Instr} {input : Byte} {v : Input} {g : Gesture} (h : s.delivers p cmd input v g) :
    p.bindings = s.bindings ∧ p.modes = s.modes ∧ p.run = s.run ∧ p.inputs = s.inputs ∧ ∀ d, (p.chan d).heldMove = (s.chan d).heldMove := by
  have hdue {due : Time} (hd : s.comesDue due p) :
      p.bindings = s.bindings ∧ p.modes = s.modes ∧ p.run = s.run ∧ p.inputs = s.inputs ∧ ∀ d, (p.chan d).heldMove = (s.chan d).heldMove := by
    obtain ⟨hp, hchan⟩ := Part.comesDue_eq hd
    refine ⟨by rw [hp], by rw [hp], by rw [hp], by rw [hp], fun d => by rw [hchan d]⟩
  obtain ⟨-, -, -, h⟩ := h
  match g, h with
  | .hold, h =>
    obtain ⟨-, -, -, -, due, -, hd⟩ := h
    exact hdue hd
  | .repeat, h =>
    obtain ⟨-, -, -, -, due, -, hd⟩ := h
    exact hdue hd
  | .press, h =>
    obtain ⟨rfl, -⟩ := h
    exact ⟨rfl, rfl, rfl, rfl, fun _ => rfl⟩
  | .release, h =>
    obtain ⟨rfl, -⟩ := h
    exact ⟨rfl, rfl, rfl, rfl, fun _ => rfl⟩

theorem Part.Beside.room (h : p.Beside q) (hr : p.room l n) : q.room l n := h.writes.room hr

/-- With the journal's room the event's PRESS record is placed, and the board stands as the engine left it. -/
theorem Part.Followed.board (h : u.Followed i q) (hr : u.room l (7 + n)) :
    q.board = u.board ∧ q.run.attention.alert = u.run.attention.alert := by
  obtain ⟨always, r, hlen, hq⟩ := h
  have hpress : (u.handPress i always r).board = u.board ∧ (u.handPress i always r).run.attention.alert = u.run.attention.alert := by
    unfold Part.handPress
    split
    · exact ⟨rfl, rfl⟩
    · have hr' : u.room l (2 * r.length - 1 + n) := by rw [hlen]; exact hr
      obtain ⟨-, hboard, hrun⟩ := writeRecord_room hr'
      rw [hand_room hr']
      exact ⟨hboard, (congrArg (fun v => v.attention.alert) hrun :)⟩
  exact ⟨hq.board.trans hpress.1, (congrArg (fun v => v.attention.alert) hq.run : _).trans hpress.2⟩

/-! ### Lamps (R15, R48, R56) -/

/-- A lamp commanded by the engine shows after the event. -/
theorem commandLamp_shows {a : Part} {j : Nat} {v : Input} {lamp : Lamp} {expiry : Option Time} (hb : p'.Beside a)
    (hv : p'.inputs[j]? = some v) (hf : (a.commandLamp j lamp expiry).Followed i q) :
    p'.Around q ∧ ∃ v', q.inputs[j]? = some v' ∧ v'.lamp = some { pattern := lamp, expiry := expiry } := by
  have hlamp : (a.commandLamp j lamp expiry).Around q := hf.around
  have hcommand : a.Around (a.commandLamp j lamp expiry) := Part.Told.refl _
  refine ⟨(hb.around.trans hcommand).trans hlamp, ?_⟩
  have ha : (a.inputs.map Input.lamp)[j]? = some v.lamp := by rw [hb.lamps, List.getElem?_map, hv]; rfl
  rw [List.getElem?_map, Option.map_eq_some_iff] at ha
  obtain ⟨w, hw, -⟩ := ha
  have hq : (q.inputs.map Input.lamp)[j]? = some (some { pattern := lamp, expiry := expiry }) := by
    rw [hf.lamps, List.getElem?_map, show (a.commandLamp j lamp expiry).inputs[j]? = _ from modInput_own hw _]
    rfl
  rw [List.getElem?_map, Option.map_eq_some_iff] at hq
  exact hq

/-! ### A call (R56) -/

/-- A raise by the engine, with room for it and the event's PRESS record: it makes an entry, or merges into the one with its code and
source. -/
theorem call_boards {a : Part} {input : Nat} {zone : Zone} (hb : p'.Beside a) (hr : p'.room l 28)
    (hf : (a.raiseAlert .call (.input input) zone .attend).Followed i q) (j : Fin 32) :
    ((∀ (k : Fin 32) (w : Entry), p'.board.entries[k] = some w → ¬ (w.code = .call ∧ w.source = .input input)) →
      p'.board.entries[j] = none → (∀ k : Fin 32, k < j → p'.board.entries[k] ≠ none) →
        q.run.attention.alert = true ∧ q.board = p'.board.make j (.fresh .call (.input input) zone .attend p'.time))
    ∧ ∀ w, p'.board.entries[j] = some w → w.code = .call → w.source = .input input → w.severity ≠ .info →
        (∀ (k : Fin 32) (w' : Entry), p'.board.entries[k] = some w' → w'.code = .call → w'.source = .input input → k = j) →
        q.board = p'.board.change j { w with count := if w.count = 255 then 255 else w.count + 1, last := p'.time } := by
  have hroom : a.room l (13 + 15) := hb.room hr
  rw [← hb.board, ← hb.time]
  refine ⟨fun hnew hj hfirst => ?_, fun w hw hcode hsrc hsev honly => ?_⟩
  · have hfind : a.board.find .call (.input input) = none := Board.find_eq_none fun k w hw hcode hsrc => hnew k w hw ⟨hcode, hsrc⟩
    have hraise : a.raiseAlert .call (.input input) zone .attend = a.makeEntry j (.fresh .call (.input input) zone .attend a.time) := by
      rw [Part.raiseAlert, raiseFull_makes hroom hfind (Board.freeIndex_eq hj hfirst)]
    obtain ⟨hroom', hboard, halert⟩ := makeEntry_room hroom j (.fresh .call (.input input) zone .attend a.time)
    rw [hraise] at hf
    obtain ⟨hboard', halert'⟩ := hf.board (n := 8) hroom'
    exact ⟨halert'.trans (halert.trans (Bool.or_true _)), hboard'.trans hboard⟩
  · have hfind : a.board.find .call (.input input) = some j := Board.find_eq_some hw hcode hsrc honly
    have hcond : w.code.condition = false := by rw [hcode]; rfl
    have hle : Severity.attend.code ≤ w.severity.code := by
      cases hs : w.severity with
      | info => exact absurd hs hsev
      | attend => decide
      | urgent => decide
    have hraise : a.raiseAlert .call (.input input) zone .attend = a.merge j w .attend := by
      rw [Part.raiseAlert, raiseFull_merges hroom hfind hw hcond hle]
    obtain ⟨hroom', hboard⟩ := merge_room hroom j hcond hle
    rw [hraise] at hf
    rw [satInc_byte] at hboard
    exact (hf.board (n := 8) hroom').1.trans hboard

/-! ### A mode request (R57) -/

/-- With no request waiting, a request that its maker waits for is taken as MODE_REQUEST takes it. -/
theorem requestNow_exec (s : State) (h : p.modes.requests = []) (ha : p.active = true) (req : ModeRequest) :
    exec .modeRequest (s.setPart (p.setModes { p.modes with requests := [req] })) = .next (s.setPart (p.requestNow req)) := by
  have hnow : p.requestNow req = (p.setModes { p.modes with requests := [] }).takeRequest req := by
    rw [Part.requestNow, h]
    rfl
  rw [hnow]
  show Host.Outcome.next (s.setPart (if p.active then (p.setModes { p.modes with requests := [] }).takeRequest req else _)) = _
  rw [if_pos ha]

/-- A binding's request leaves its mode in force (R57, R135). -/
theorem requestNow_mode (h : p.modes.requests = []) (hrun : p.run.state = .running) (mode : Mode) :
    (p.requestNow { mode := mode, cause := .binding }).modes.mode = mode := by
  have hnow : p.requestNow { mode := mode, cause := .binding }
      = (p.setModes { p.modes with requests := [] }).takeRequest { mode := mode, cause := .binding } := by
    rw [Part.requestNow, h]
    rfl
  rw [hnow, Part.takeRequest]
  split
  · obtain ⟨r, ls, hr, hwork, -⟩ := changeMode_spec (p.setModes { p.modes with requests := [] }) mode .binding
    rw [requestDone_quiet (by exact nofun)]
    show (Part.changeMode _ mode .binding).modes.mode = mode
    rw [hr]
    exact hwork.mode
  · next hacts =>
    rw [requestDone_quiet (by exact nofun)]
    by_contra hne
    exact hacts ((requestActs_iff _ _).mpr ⟨hrun, fun he => hne he.symm, nofun, nofun, nofun⟩)

/-! ### The moves of one channel (R49 to R54) -/

/-- A motion action changes one channel, and beside it the order taker and what reports change. -/
theorem motion_others {a : Part} (hb : p'.Beside a) (ho : a.OnlyChannel c u) (hf : u.Followed i q) :
    q.bindings = p'.bindings ∧ (∀ k, k ≠ c → q.chan k = { p'.chan k with lastWrite := (q.chan k).lastWrite })
      ∧ q.modes.mode = p'.modes.mode ∧ q.guards = p'.guards ∧ q.inputs.map Input.lamp = p'.inputs.map Input.lamp := by
  have haround := hf.around
  refine ⟨haround.bindings.trans (ho.bindings.trans hb.bindings), fun k hk => ?_, ?_, haround.guards.trans (ho.guards.trans hb.guards), ?_⟩
  · refine Channel.eq_of_view ((haround.chan_view k).trans ?_)
    have hother := ho.others k hk
    rw [Part.setChan_chan_ne _ hk, Part.setOrders_chan] at hother
    rw [Channel.view_eq_iff.mpr hother, hb.chan]
  · have hmode : u.modes.mode = a.modes.mode := (congrArg Modes.mode ho.modes :)
    rw [haround.mode, hmode, hb.mode]
  · rw [hf.lamps, show u.inputs = a.inputs from ho.inputs, hb.lamps]

/-- The part is left as it was but for the times of status writes. -/
theorem stays_of_followed {a : Part} (hb : p'.Beside a) (hf : a.Followed i q) (d : Fin 8) :
    q.chan d = { p'.chan d with lastWrite := (q.chan d).lastWrite } :=
  Channel.eq_of_view ((hf.around.chan_view d).trans (congrArg Channel.view (hb.chan d)))

theorem cap_eq (pr : Params) (scale : Nat) : pr.cap scale false = max pr.vs (pr.vmax * max 1 (min 100 scale) / 100) := by
  have hused : usedScale scale false = max 1 (min 100 scale) := by
    rw [usedScale_eq, if_neg Bool.false_ne_true]
    omega
  rw [Params.cap, hused]

/-- A channel that has started a move from rest toward what the move asks for (R89, R90). -/
theorem moveStarted_eq {asked : Int} (h : m.asked x.s = asked) : x.moveStarted pr m false = { x with
    state := .moving, parkCause := none, tickS := (x.prof.p + 8388608) / 16777216, unissued := 0
    current := some { m with target := .absolute asked }
    prof := { p := x.prof.p, v := pr.vs, tickV := 0
              positive := decide (x.prof.p < pr.limit asked * 16777216), phase := .accel, latch := false
              target := some (pr.limit asked * 16777216), clamped := decide (pr.limit asked ≠ asked), cap := some (pr.cap m.scale false)
              stopRate := none, stopPoint := none, overrun := false } } := by
  rw [← h]
  rfl

/-- What a slot shows after the engine's work, it shows after the event. -/
theorem Part.SlotShows.followed {st : SlotState} {code slot : Nat} {res : Int} (h : u.SlotShows l slot st code res) (hs : u.hasSlot l slot)
    (hf : u.Followed i q) : q.SlotShows l slot st code res := by
  have hset : ((u.setInputs q.inputs).setLines q.lines).SlotShows l slot st code res := ⟨h.w0, h.w6, h.w7, h.shadow⟩
  exact hset.told hs hf.around

theorem Part.Beside.hasSlot {slot : Nat} (h : p.Beside q) (hs : p.hasSlot l slot) : q.hasSlot l slot :=
  (slotsKept.told h.around).hasSlot (p := (p.setInputs q.inputs).setLines q.lines) hs

theorem Part.Beside.wf (h : p.Beside q) (hm : Memory.wf p.mem) : Memory.wf q.mem := h.around.mem hm

end Sys2Proof.Machine
end

