-- ==== Sys2Proof/Proofs/BindingTurns.lean ====
section
/-! A turn of a binding entry, and held moves at a RELEASE (R45 to R57). -/

namespace Sys2Proof.Machine

variable {p p' a q r u : Part} {i n e : Nat} {c d : Fin 8} {l : Layout} {m : Move} {b : BindingEntry} {input : Byte}

/-- A channel whose move was held by the input that is released (R55). -/
def Channel.heldStopped (x : Channel) : Channel := ({ x with heldMove := none } : Channel).superseded.stopBegun .stopped

theorem Channel.heldStopped_view {x y : Channel} (h : y.view = x.view) : y.heldStopped.view = x.heldStopped.view := by
  obtain ⟨w, rfl⟩ := exists_of_view h
  rfl

/-- A channel that moves on a move held by the input stops as the input is released, and no other does (R55). -/
theorem view_released (a : Part) (input : Byte) (d : Fin 8) :
    ((a.chan d).heldMove = some input → (a.chan d).state = .moving →
      ((a.eachChannel (Part.releaseHeld input)).chan d).view = (a.chan d).heldStopped.view)
    ∧ ((a.chan d).heldMove ≠ some input → ((a.eachChannel (Part.releaseHeld input)).chan d).view = (a.chan d).view) := by
  obtain ⟨-, hvisits⟩ := eachChannel_visits (Part.releaseHeld input) (near_releaseHeld input) a
  obtain ⟨r, -, hr, hend⟩ := hvisits d
  have hheld : (r.chan d).heldMove = (a.chan d).heldMove := (congrArg Channel.heldMove hr :)
  rw [hend]
  refine ⟨fun hh hs => ?_, fun hh => ?_⟩
  · exact (view_releaseHeld_moving (hheld.trans hh) ((state_of_view hr).trans hs)).trans (Channel.heldStopped_view hr)
  · rw [releaseHeld_other (by rw [hheld]; exact hh)]
    exact hr

/-- An event that no entry matches leaves the channels but for held moves (R55). -/
theorem delivers_unmatched (h : p.Delivers i .release q) (hi : BitVec.ofNat 8 i = input)
    (hnone : ∀ (k : Nat) (v : Binding) b', p.bindings[k]? = some v → v.entry = some b' → ¬ b'.answers input .release p.modes.mode) :
    ∃ a, p.Beside a ∧ (a.eachChannel (Part.releaseHeld input)).Followed i q := by
  obtain ⟨a, always, r, ha, hr, hq⟩ := h
  rw [hi, engine_unmatched fun k v b' hv hb' => by rw [ha.mode]; exact hnone k v b' (by rw [← ha.bindings]; exact hv) hb'] at hq
  exact ⟨a, ha, always, r, hr, hq⟩

/-- A REPEAT of a locked entry restarts the repeat timer, and the engine does nothing. -/
theorem locked_repeat {due : Time} {lock : Option Time} (hrun : p.isRunning = true)
    (he : p.bindings[e]? = some { entry := some b, lockout := lock })
    (honly : ∀ k v b', p.bindings[k]? = some v → v.entry = some b' → (b'.answers input .repeat p.modes.mode ↔ k = e))
    (hl : ∃ d, lock = some d ∧ reached p.time d = false) :
    ((p.repeated i due).engine input .repeat).part = p.repeated i due := by
  have hengine := engine_matched (p := p.repeated i due) (g := .repeat) hrun he honly nofun
  rwa [if_pos (Binding.locked_iff.mpr hl)] at hengine

/-- An idle channel admits an action in OPEN, and starts it (R49, R50). -/
theorem idle_admits (hb : p'.Beside a) (hrun : a.isRunning = true) (hmode : p'.modes.mode = .opened) (hen : (p'.chan d).enabled = true)
    (hs : (p'.chan d).state = .idle) (hq : (p'.chan d).queue = []) : a.admits d = true ∧ (a.chan d).idleEmpty = true := by
  rw [admits_iff, idleEmpty_iff, hb.chan, hb.mode]
  exact ⟨⟨hrun, hmode, hen, .inl hs⟩, hs, hq⟩

/-- A channel that moves on a MOVE admits an action in OPEN, under a busy policy (R49, R52). -/
theorem moving_admits (hb : p'.Beside a) (hrun : a.isRunning = true) (hmode : p'.modes.mode = .opened) (hen : (p'.chan d).enabled = true)
    (hs : (p'.chan d).state = .moving) (hm : ∃ n, (p'.chan d).current = some n ∧ n.kind = .move) :
    a.admits d = true ∧ (a.chan d).idleEmpty = false := by
  rw [← Bool.not_eq_true, admits_iff, idleEmpty_iff, hb.chan, hb.mode]
  exact ⟨⟨hrun, hmode, hen, .inr ⟨hs, hm⟩⟩, fun h => nomatch hs.symm.trans h.1⟩

/-- A move that a binding starts from rest, seen after the event (R50, R54). -/
theorem start_shows {pr : Params} {x : Channel} (hmode : a.modes.mode = .opened) (hx : a.chan d = x) (hk : m.kind = .move)
    (hp : x.params = some pr) (hne : pr.limit (m.asked x.s) * Config.step ≠ x.prof.p) (hf : (a.giveMove d m).Followed i q) :
    (q.chan d).view = (x.moveStarted pr m false).view := by
  subst hx
  have hstart := giveMove_starts hp (by rw [hk]; decide) hne
  rw [hmode] at hstart
  exact (hf.around.chan_view d).trans hstart

/-- What an action on a channel that admits it and is not idle makes of the channel and of the order that it takes over (R52, R53). -/
theorem busy_shows {policy : BusyPolicy} (hb : p'.Beside a) (hmode : p'.modes.mode = .opened) (hs : (p'.chan d).state = .moving)
    (hf : (a.busy d policy m).part.Followed i q) :
    (policy = .ignore → (q.chan d).view = (p'.chan d).view)
    ∧ (policy = .queue → (q.chan d).view = Channel.view { p'.chan d with
        queue := if (p'.chan d).queue.length < 4 then (p'.chan d).queue ++ [m] else (p'.chan d).queue })
    ∧ (policy = .replace → (∀ pr, (p'.chan d).params = some pr → (q.chan d).view = Channel.view { (p'.chan d).superseded with
          heldMove := none, current := some { m with target := .absolute (m.asked (p'.chan d).s) }
          prof := (p'.chan d).prof.replan pr (m.asked (p'.chan d).s) m.scale false })
        ∧ ∀ n slot l, (p'.chan d).current = some n → n.source = .order slot → p'.hasSlot l slot → Memory.wf p'.mem →
            q.SlotShows l slot .finished 6 (p'.chan d).s) := by
  have hview := hf.around.chan_view d
  have hservice : (a.modes.mode == .service) = false := by rw [hb.mode, hmode]; rfl
  rw [← hb.chan] at hs ⊢
  rw [hview]
  refine ⟨?_, ?_, ?_⟩
  · rintro rfl
    rfl
  · rintro rfl
    exact view_busy_queue
  · rintro rfl
    refine ⟨fun pr hpr => ?_, fun n slot l hn hsrc hslot hwf => ?_⟩
    · rw [← hservice]
      exact view_replaceMove hpr hs
    · have hslot' : a.hasSlot l slot := hb.hasSlot hslot
      exact (replaceMove_shows hs hn hsrc hslot' (hb.wf hwf)).followed
        (((slotsKept_work.replaceMove a m).hasSlot hslot')) hf

/-- An acknowledgement by zone with room and no guard that awaits it, seen after the event (R123, R125, R126). -/
theorem ackZone_shows {zone : Zone} (hb : p'.Beside a) (hroom : p'.room l 512) (hawait : ∀ k, (p'.guard k).state ≠ .awaitAck)
    (hf : (a.ackZone zone).Followed i q) : q.bindings = p'.bindings ∧ (p'.setGuards q.guards).Around q
      ∧ q.inputs.map Input.lamp = p'.inputs.map Input.lamp
      ∧ (∀ j : Fin 32, q.board.entries[j] = p'.board.entries[j].bind (Entry.zoneAcked zone p'.time))
      ∧ ∀ k, (p'.zoneTold zone k ∧ (p'.guard k).state ≠ .clear → q.guard k = { p'.guard k with acked := true })
          ∧ (¬ (p'.zoneTold zone k ∧ (p'.guard k).state ≠ .clear) → q.guard k = p'.guard k) := by
  have hguard (k : Fin 8) : a.guard k = p'.guard k := by rw [Part.guard, hb.guards]; rfl
  obtain ⟨hroom', htold, hentries, hguards⟩ := ackZone_room (n := 96) (hb.room hroom) (fun k => by rw [hguard]; exact hawait k) zone
  have haround := hf.around
  have hkept (k : Fin 8) : q.guard k = (a.ackZone zone).guard k := by rw [Part.guard, haround.guards]; rfl
  refine ⟨?_, ?_, ?_, fun j => ?_, fun k => ?_⟩
  · rw [haround.bindings]
    exact htold.bindings.trans hb.bindings
  · rw [haround.guards]
    have hset : (p'.setGuards (a.ackZone zone).guards).Around (a.setGuards (a.ackZone zone).guards) := { hb.around with guards := rfl }
    exact (hset.told htold).trans haround
  · rw [hf.lamps, ← hb.lamps]
    exact congrArg (List.map Input.lamp) htold.inputs
  · rw [(hf.board (n := 89) hroom').1, hentries j, hb.board, hb.time]
  · rw [hkept, ← hguard, show p'.zoneTold zone k ↔ a.zoneTold zone k by rw [Part.zoneTold, Part.zoneTold, hb.board, hguard]]
    exact hguards k

/-- What an acknowledgement by zone takes: an OPEN or LAPSED entry that its zone covers (R125). -/
theorem acks_iff {w : Entry} {zone : Zone} : w.unacked = true ∧ zone.takes w.zone = true
    ↔ (w.state = .opened ∨ w.state = .lapsed) ∧ (zone = .all ∨ w.zone = .all ∨ w.zone = zone) := by
  rw [Zone.takes_iff]
  simp [Entry.unacked]

theorem zoneTold_iff {zone : Zone} {k : Fin 8} : p.zoneTold zone k
    ↔ (∃ (j : Fin 32) (w : Entry), p.board.entries[j] = some w
        ∧ ((w.state = .opened ∨ w.state = .lapsed) ∧ (zone = .all ∨ w.zone = .all ∨ w.zone = zone)) ∧ w.code = .guardTrip ∧ w.source = .guard k)
      ∨ (p.guard k).boarded = false ∧ (zone = .all ∨ Zone.one (p.guard k).record.zone = .all ∨ Zone.one (p.guard k).record.zone = zone) := by
  unfold Part.zoneTold Guard.zoneReports Entry.zoneTells Entry.tells
  rw [Zone.takes_iff]
  refine or_congr_left (exists_congr fun j => exists_congr fun w => and_congr_right fun _ => ?_)
  rw [← acks_iff, and_assoc]

/-- Settles O52: the event reaches the engine; the one entry that it matches is locked, or takes its turn, action by action. -/
theorem bindingTurn : Obligations.BindingTurn := by
  unfold Obligations.BindingTurn
  intro c g input s x p hdelivers mode answers same stays limited cap begins replanned
  obtain ⟨q, hexec, hq, hrepeat⟩ := exec_delivers hdelivers
  obtain ⟨hbindings, hmodes, hrun, hinputs, hheldMove⟩ := delivers_part hdelivers
  obtain ⟨hx, hrunning, -, -⟩ := hdelivers
  have hrunning' : p.run.state = .running := by rw [hrun]; exact hrunning
  have hinput : BitVec.ofNat 8 input.toNat = input := by simp
  have hmode : p.modes.mode = mode := (congrArg Modes.mode hmodes :)
  have hreplan (pr : Params) (f : Profile) (asked : Int) (scale : Nat) : f.replan pr asked scale false = replanned pr f asked scale := by
    simp only [Profile.replan, Profile.aim, cap_eq]
    rfl
  refine ⟨fun e b lock he honly hheld => ?_, fun hg hnone => ?_⟩
  · rw [← hbindings] at he
    have honly' (k : Nat) (v : Binding) (b' : BindingEntry) (hv : p.bindings[k]? = some v) (hb' : v.entry = some b') :
        b'.answers input g p.modes.mode ↔ k = e := by
      rw [hmodes]
      exact honly k v b' (by rw [← hbindings]; exact hv) hb'
    have hheld' (hg : g = .release) (d : Fin 8) : (p.chan d).heldMove ≠ some input := by
      rw [hheldMove]
      exact hheld hg d
    have hisRunning : p.isRunning = true := by rw [Part.isRunning, hrunning']; rfl
    obtain ⟨hlocked, hturn⟩ := delivers_matched hq hinput hisRunning he honly' hheld'
    refine ⟨q, hexec, fun hl => ?_, fun hfree => ?_⟩
    · obtain ⟨a, hb, hf⟩ := hlocked hl
      refine ⟨hb.around.trans hf.around, hf.lamps.trans hb.lamps, fun hg => ?_⟩
      obtain ⟨due, always, r, hdue, -, hend⟩ := hrepeat hg
      rw [locked_repeat hisRunning he (hg ▸ honly') hl] at hend
      have htold := told_handPress (p.repeated input.toNat due) input.toNat always r
      rw [← hend] at htold
      refine ⟨htold.lines, fun due' hdue' => htold.inputs.trans ?_⟩
      obtain rfl : due = due' := Option.some.inj (hdue.symm.trans hdue')
      show p.inputs.modify input.toNat _ = _
      rw [List.modify_eq_set_getElem?, hinputs, hx]
      rfl
    · obtain ⟨a, hb, hf⟩ := hturn hfree
      intro store p' others moves
      have hb' : p'.Beside a := hb
      have hstoreOf {u : Part} (hu : u.bindings = a.bindings) (hf : u.Followed input.toNat q) : q.bindings = store :=
        (hf.around.bindings.trans hu).trans hb'.bindings
      have hsilent : p.modes.silent = s.part.modes.silent := (congrArg Modes.silent hmodes :)
      rw [hsilent] at hf
      refine ⟨fun hneeded hfallback => ?_, fun hneeded => ?_⟩
      · rw [if_pos hneeded, Part.fallback, if_neg hfallback] at hf
        rw [hb'.time] at hf
        obtain ⟨haround, v, hv, hlamp⟩ := commandLamp_shows hb' (by rw [← hinputs] at hx; exact hx) hf
        exact ⟨hstoreOf (by rfl) hf, haround, v, hv, hlamp⟩
      have hacts : ¬ (b.hostNeeded = true ∧ s.part.modes.silent = true) := by
        rw [← Bool.and_eq_true, Bool.not_eq_true, Bool.and_eq_false_iff]
        exact hneeded
      rw [if_neg hacts] at hf
      have hothers {u : Part} (d : Fin 8) (hu : a.OnlyChannel d u) (hf : u.Followed input.toNat q) : others d := by
        obtain ⟨hstore, hchan, hmode', hguards, hlamps⟩ := motion_others hb' hu hf
        exact ⟨hstore, hchan, hmode'.trans hmode, hguards, hlamps⟩
      have hadmits (d : Fin 8) (h : (p.chan d).enabled = false ∨ mode ≠ .opened ∨ ((p.chan d).state ≠ .idle ∧ (p.chan d).state ≠ .moving)) :
          a.admits d = false := by
        refine admits_eq_false ?_
        rw [hb'.chan, hb'.mode]
        exact h.imp_right (.imp_left fun h => hmode ▸ h)
      have hstays (hf : a.Followed input.toNat q) : stays q := fun k => (stays_of_followed hb' hf k :)
      have hrun' : a.isRunning = true := by rw [Part.isRunning, hb'.run]; exact hisRunning
      have hbegins (d : Fin 8) (target : MoveTarget) (asked : Int) (scale : Nat) (held : Option Byte)
          (hview : ∀ pr, (p.chan d).params = some pr → pr.limit asked * 16777216 ≠ (p.chan d).prof.p → (q.chan d).view
            = (Channel.moveStarted { p.chan d with heldMove := held } pr (bindingMove e (.absolute asked) scale) false).view) :
          begins (p.chan d) (q.chan d) { kind := .move, source := .binding e true, target := target, scale := scale } asked held := by
        intro pr hpr hne
        have h := Channel.eq_of_view (hview pr hpr hne)
        rw [moveStarted_eq (asked := asked) rfl, cap_eq] at h
        exact h
      have hmoves (d : Fin 8) (target : MoveTarget) (asked : Int) (scale : Nat) {u : Part} (hf : u.Followed input.toNat q)
          (hasked : (bindingMove e target scale).asked (p.chan d).s = asked)
          (hstarts : a.admits d = true → (a.chan d).idleEmpty = true → u = a.giveMove d (bindingMove e (.absolute asked) scale))
          (hbusy : a.admits d = true → (a.chan d).idleEmpty = false → u = (a.busy d b.busy (bindingMove e target scale)).part) :
          moves d target asked scale := by
        refine ⟨fun hen hopen hidle hqueue => ?_, fun hen hopen hmoving hruns => ?_⟩
        · obtain ⟨hadmitted, hidle⟩ := idle_admits hb' hrun' (hmode.trans hopen) hen hidle hqueue
          rw [hstarts hadmitted hidle] at hf
          exact hbegins d target asked scale _ fun pr hpr hne =>
            start_shows (hb'.mode.trans (hmode.trans hopen)) (hb'.chan d) rfl hpr hne hf
        · obtain ⟨hadmitted, hnotIdle⟩ := moving_admits hb' hrun' (hmode.trans hopen) hen hmoving hruns
          rw [hbusy hadmitted hnotIdle] at hf
          obtain ⟨hignore, hqueue, hreplace⟩ := busy_shows hb' (hmode.trans hopen) hmoving hf
          refine ⟨fun h => Channel.eq_of_view (hignore h), fun h => Channel.eq_of_view (hqueue h), fun h => ⟨fun pr hpr => ?_, (hreplace h).2⟩⟩
          obtain ⟨w, hw⟩ := exists_of_view ((hreplace h).1 pr hpr)
          rw [show (bindingMove e target scale).asked (p'.chan d).s = asked from hasked, hreplan] at hw
          rw [hw]
          rfl
      refine ⟨fun j pattern secs hact v hv => ?_, fun d target scale hact => ?_, fun d delta scale hact => ?_, fun d target scale hact => ?_,
        fun zone hact => ?_, fun zone hact l hroom hawait => ?_, fun n hact hrequests => ?_⟩
      · rw [Part.act, hact] at hf
        have hexpiry : a.lampExpiry secs = if secs = 0 then none else some (p.time + BitVec.ofNat 32 (secs * 1000)) := by
          rw [Part.lampExpiry, hb'.time]
          rfl
        rw [← hexpiry]
        obtain ⟨haround, v', hv', hlamp⟩ := commandLamp_shows hb' hv hf
        exact ⟨hstoreOf (by rfl) hf, haround, v', hv', hlamp⟩
      · rw [Part.act, hact] at hf
        refine ⟨hothers d (onlyChannel_moveTo a d target) hf, hmoves d _ target scale hf rfl (fun ha hi => moveTo_starts ha hi target)
          (fun ha hi => moveTo_busy ha hi target), fun h => ?_⟩
        rw [moveTo_dropped (hadmits d h)] at hf
        exact hstays hf
      · rw [Part.act, hact] at hf
        refine ⟨hothers d (onlyChannel_stepBy a d delta) hf, fun hown => ?_, fun n pr t hn hsrc hkind hs hopen hpr hen ht => ?_, fun h => ?_⟩
        · have hfrom : (a.chan d).fromEntry e = none := fromEntry_none (by rw [hb'.chan]; exact hown)
          refine hmoves d _ _ scale hf rfl (fun ha hi => ?_) (fun ha hi => stepBy_busy ha hfrom hi delta)
          rw [stepBy_starts ha hfrom hi, hb'.chan]
          rfl
        · obtain ⟨hadmitted, -⟩ := moving_admits hb' hrun' (hmode.trans hopen) (by
            rw [Channel.enabled, show (p'.chan d).params = some pr from hpr]
            exact hen) hs ⟨n, hn, hkind⟩
          rw [stepBy_extends hadmitted (by rw [hb'.chan]; exact hs) (by rw [hb'.chan]; exact hn) hsrc] at hf
          have hextend := view_extend (p := a) (c := d) (pr := pr) (t := t) (by rw [hb'.chan]; exact hpr) (by rw [hb'.chan]; exact ht) n delta
          rw [hb'.chan, hb'.mode, show p'.modes.mode = .opened from hmode.trans hopen] at hextend
          have h := Channel.eq_of_view ((hf.around.chan_view d).trans hextend)
          rw [show (Mode.opened == Mode.service) = false from rfl, hreplan] at h
          exact h
        · rw [stepBy_dropped (hadmits d h)] at hf
          exact hstays hf
      · rw [Part.act, hact] at hf
        refine ⟨hothers d (onlyChannel_runHeld a d input target) hf, ?_⟩
        split
        · next h =>
          obtain ⟨hen, hopen, hidle, hqueue⟩ := h
          rw [runHeld_starts (idle_admits hb' hrun' (hmode.trans hopen) hen hidle hqueue)] at hf
          exact hbegins d (.absolute target) target scale (some input) fun pr hpr hne =>
            start_shows (a := a.setChan d { a.chan d with heldMove := some input }) (hb'.mode.trans (hmode.trans hopen))
              (by rw [Part.setChan_chan_self, hb'.chan]; rfl) rfl hpr hne hf
        · next h =>
          have hdropped : ¬ (a.admits d = true ∧ (a.chan d).idleEmpty = true) := by
            rintro ⟨ha, hi⟩
            obtain ⟨-, hopen, hen, -⟩ := admits_iff.mp ha
            obtain ⟨hidle, hqueue⟩ := idleEmpty_iff.mp hi
            rw [hb'.chan] at hen hidle hqueue
            exact h ⟨hen, hmode.symm.trans (hb'.mode.symm.trans hopen), hidle, hqueue⟩
          rw [runHeld_dropped hdropped] at hf
          exact hstays hf
      · rw [Part.act, hact] at hf
        have htold := told_raiseAlert a .call (.input input.toNat) zone .attend
        exact ⟨hstoreOf htold.bindings hf, (hb'.around.told htold).trans hf.around,
          hf.lamps.trans ((congrArg (List.map Input.lamp) htold.inputs).trans hb'.lamps), fun l i hroom => call_boards hb' hroom hf i⟩
      · rw [Part.act, hact] at hf
        have hf' : (a.ackZone zone).Followed input.toNat q := hf
        obtain ⟨hstore, haround, hlamps, hentries, hguards⟩ := ackZone_shows hb' hroom hawait hf'
        refine ⟨hstore, haround, hlamps, fun i w hw => ?_, fun i hnone => ?_, fun k => ?_⟩
        · rw [hentries i, show p'.board.entries[i] = some w from hw, Option.bind_some, Entry.zoneAcked]
          refine ⟨fun hno => if_neg fun h => hno (acks_iff.mp h), fun hacks hs => ?_, fun hacks hs => ?_⟩
          · rw [if_pos (acks_iff.mpr hacks), if_neg (by rw [hs]; decide)]
          · rw [if_pos (acks_iff.mpr hacks), if_pos hs]
            rfl
        · rw [hentries i, show p'.board.entries[i] = none from hnone]
          rfl
        · intro told
          have htold : told ↔ p'.zoneTold zone k := zoneTold_iff.symm
          obtain ⟨hflagged, hkept⟩ := hguards k
          exact ⟨fun ht hc => hflagged ⟨htold.mp ht, hc⟩, fun hno => hkept fun h => hno.elim (fun hn => hn (htold.mpr h.1)) h.2⟩
      · rw [Part.act, hact] at hf
        have hnone : a.modes.requests = [] := (congrArg Modes.requests hb'.modes :).trans ((congrArg Modes.requests hmodes :).trans hrequests)
        have hstate : a.run.state = .running := by rw [hb'.run]; exact hrunning'
        exact ⟨hf.around.mode.trans (requestNow_mode hnone hstate n), a, a.requestNow { mode := n, cause := .binding }, hb'.bindings,
          hb'.around, requestNow_exec s hnone (by rw [Part.active, hstate]; rfl) _, hf.around⟩
  · subst hg
    obtain ⟨a, ha, hf⟩ := delivers_unmatched hq hinput fun k v b' hv hb' => by
      rw [hmodes]
      exact hnone k v b' (by rw [← hbindings]; exact hv) hb'
    obtain ⟨hwork, -⟩ := eachChannel_visits (Part.releaseHeld input) (near_releaseHeld input) a
    have haround := hf.around
    refine ⟨q, hexec, (haround.bindings.trans hwork.bindings).trans ha.bindings, (haround.guards.trans hwork.guards).trans ha.guards,
      (haround.mode.trans hwork.mode).trans (ha.mode.trans hmode), fun d => ?_⟩
    obtain ⟨hstops, hstays⟩ := view_released a input d
    rw [ha.chan] at hstops hstays
    refine ⟨fun hh hs => ?_, fun hh => Channel.eq_of_view ((haround.chan_view d).trans (hstays hh))⟩
    obtain ⟨w, hw⟩ := exists_of_view ((haround.chan_view d).trans (hstops hh hs))
    rw [hw]
    rfl

end Sys2Proof.Machine
end
